-- ==== Sys2Proof/Word.lean ====
section
/-! DEFINITION. The word types of HUFFCORE: 32-bit registers and addresses, 8-bit symbols and bytes (spec/00_scope.md R7). -/

namespace Sys2Proof

/-- A 32-bit register, address or command word (`REG_W = ADDR_W = 32`, R7). -/
abbrev Word := BitVec 32

/-- One byte of system memory; also one symbol of the alphabet, 0..255 (R7, R12). -/
abbrev Byte := BitVec 8

/-- A 9-bit handle of a node-arena entry (10_state.md R27). -/
abbrev Handle := BitVec 9

/-- `NIL`, the handle that names no entry (R7, R27). -/
abbrev nilHandle : Handle := 511

end Sys2Proof
end

