-- ==== Sys2Proof/Syntax.lean ====
section
/-! DEFINITION. The command set of HUFFCORE, revision 1: one constructor per row of spec/opcode_table.json (30_encoding.md R69). -/

namespace Sys2Proof

/-- One command. Only `W_BITS` and `R_BITS` carry an operand in the word, the count `N` (30_encoding.md R67, R68). -/
inductive Instr where
  /-- `FREQ_CLEAR`, 40_frequency_tree.md R75. -/
  | freqClear
  /-- `FREQ_COUNT`, R76. -/
  | freqCount
  /-- `TREE_BUILD`, R79. -/
  | treeBuild
  /-- `CODES_BUILD`, R82. -/
  | codesBuild
  /-- `W_OPEN`, 42_bitchannel.md R98. -/
  | wOpen
  /-- `W_BITS n`, R99. -/
  | wBits (n : BitVec 6)
  /-- `W_MAGIC`, R100. -/
  | wMagic
  /-- `W_CLOSE`, R101. -/
  | wClose
  /-- `R_OPEN`, R102. -/
  | rOpen
  /-- `R_BITS n`, R103. -/
  | rBits (n : BitVec 6)
  /-- `R_MAGIC`, R104. -/
  | rMagic
  /-- `R_CLOSE`, R105. -/
  | rClose
  /-- `T_SERIALIZE`, 41_tree_codec.md R90. -/
  | tSerialize
  /-- `T_DESERIALIZE`, R95. -/
  | tDeserialize
  /-- `S_ENCODE`, 43_stream_codec.md R106. -/
  | sEncode
  /-- `S_DECODE`, R107. -/
  | sDecode
  deriving DecidableEq, Repr

end Sys2Proof
end

