-- ==== Sys2Proof/WellFormed.lean ====
section
/-! DEFINITION. Which terms of `Instr` a command word can hold. -/

namespace Sys2Proof

/-- The count of `W_BITS` and `R_BITS` is 1..32 (30_encoding.md R67, R70). -/
def countOk (n : BitVec 6) : Bool := decide (1 ≤ n.toNat) && decide (n.toNat ≤ 32)

/-- The instruction is one some command word decodes to. -/
def Instr.wellFormed : Instr → Bool
  | .wBits n => countOk n
  | .rBits n => countOk n
  | .freqClear => true
  | .freqCount => true
  | .treeBuild => true
  | .codesBuild => true
  | .wOpen => true
  | .wMagic => true
  | .wClose => true
  | .rOpen => true
  | .rMagic => true
  | .rClose => true
  | .tSerialize => true
  | .tDeserialize => true
  | .sEncode => true
  | .sDecode => true

end Sys2Proof
end

