-- ==== Sys2Proof/Decode.lean ====
section
/-! DEFINITION. The decoder of command words, total, with its rejections by name, and the encoder (30_encoding.md R67 to R72). -/

namespace Sys2Proof

/-- Why a word is no command: the three checks of R70, in their order. Each one makes the Core raise `ILLEGAL_CMD`. -/
inductive DecodeReject where
  /-- `w[31:14]` is not zero. -/
  | reservedBits
  /-- `w[7:0]` is not in the opcode map. -/
  | unknownOpcode
  /-- `N` lies outside its opcode's range. -/
  | countOutOfRange
  deriving DecidableEq, Repr

/-- What the decoder answers for a word. -/
inductive Decoded where
  | command (i : Instr)
  | illegal (why : DecodeReject)
  deriving DecidableEq, Repr

/-- The field `OP`, bits 7:0 (R67). -/
def opField (w : Word) : Byte := w.extractLsb' 0 8

/-- The field `N`, bits 13:8 (R67). -/
def countField (w : Word) : BitVec 6 := w.extractLsb' 8 6

/-- The field `RSV`, bits 31:14 (R67). -/
def reservedField (w : Word) : BitVec 18 := w.extractLsb' 14 18

/-- A command whose `N` must be 0 (R70). -/
def uncounted (n : BitVec 6) (i : Instr) : Decoded :=
  if n = 0 then .command i else .illegal .countOutOfRange

/-- A command whose `N` must be 1..32 (R70). -/
def counted (n : BitVec 6) (i : Instr) : Decoded :=
  if countOk n then .command i else .illegal .countOutOfRange

/-- The opcode map (R69) applied to `OP` and `N`. -/
def decodeOp (op : Byte) (n : BitVec 6) : Decoded :=
  match op.toNat with
  | 0x01 => uncounted n .freqClear
  | 0x02 => uncounted n .freqCount
  | 0x03 => uncounted n .treeBuild
  | 0x04 => uncounted n .codesBuild
  | 0x10 => uncounted n .wOpen
  | 0x11 => counted n (.wBits n)
  | 0x12 => uncounted n .wMagic
  | 0x13 => uncounted n .wClose
  | 0x18 => uncounted n .rOpen
  | 0x19 => counted n (.rBits n)
  | 0x1A => uncounted n .rMagic
  | 0x1B => uncounted n .rClose
  | 0x20 => uncounted n .tSerialize
  | 0x21 => uncounted n .tDeserialize
  | 0x30 => uncounted n .sEncode
  | 0x31 => uncounted n .sDecode
  | _ => .illegal .unknownOpcode

/-- Decoding a command word, in the order of checks of R70. -/
def decode (w : Word) : Decoded :=
  if reservedField w ≠ 0 then .illegal .reservedBits else decodeOp (opField w) (countField w)

/-- The opcode byte of each command (R69). -/
def opcodeOf : Instr → Byte
  | .freqClear => 0x01
  | .freqCount => 0x02
  | .treeBuild => 0x03
  | .codesBuild => 0x04
  | .wOpen => 0x10
  | .wBits _ => 0x11
  | .wMagic => 0x12
  | .wClose => 0x13
  | .rOpen => 0x18
  | .rBits _ => 0x19
  | .rMagic => 0x1A
  | .rClose => 0x1B
  | .tSerialize => 0x20
  | .tDeserialize => 0x21
  | .sEncode => 0x30
  | .sDecode => 0x31

/-- The count a command word carries: `N` for `W_BITS` and `R_BITS`, 0 for every other command (R67). -/
def countOf : Instr → BitVec 6
  | .wBits n => n
  | .rBits n => n
  | .freqClear => 0
  | .freqCount => 0
  | .treeBuild => 0
  | .codesBuild => 0
  | .wOpen => 0
  | .wMagic => 0
  | .wClose => 0
  | .rOpen => 0
  | .rMagic => 0
  | .rClose => 0
  | .tSerialize => 0
  | .tDeserialize => 0
  | .sEncode => 0
  | .sDecode => 0

/-- The command word of an instruction: `RSV = 0`, then `N`, then `OP` (R67, R69). -/
def encode (i : Instr) : Word := (0 : BitVec 18) ++ countOf i ++ opcodeOf i

/-- The instruction read from a row of spec/opcode_table.json given by its bits, numbered as the table numbers them:
every command is one 32-bit word (R72), so a wider word with a bit above 31 is none. -/
def decodeTableWord (nbits w : Nat) : Option Instr :=
  if w % 2 ^ nbits < 2 ^ 32 then
    match decode (BitVec.ofNat 32 (w % 2 ^ nbits)) with
    | .command i => some i
    | .illegal _ => none
  else none

end Sys2Proof
end

