-- ==== Sys2Proof/Config.lean ====
section
/-! DEFINITION. What the spec leaves open, as constants without a body, and the one value the model chooses for memory. -/

namespace Sys2Proof

/-- The draw `busOk` of the n-th access whose draw is not already settled: free, under no law (20_memory.md R43, entry 2). -/
opaque Config.busOk : Nat → Bool

/-- The byte that a failed `MemWrite` leaves: any value (20_memory.md R43, 93 I-5, entry 3). -/
opaque Config.freeByte : Nat → Byte

/-- The 32-bit `BPOS` when the channel's position is 2^32, one past the last address: the spec states no value (entry 5). -/
opaque Config.freePos : Nat → Word

/-- `FINFO` of a `SINK_OVERFLOW` at 2^32: the spec states no 32-bit value (entry 6). -/
opaque Config.freeInfo : Nat → Word

/-- DESIGN CHOICE (entry 4): what a byte of system memory that nothing has written reads as. -/
def Config.blankByte : Byte := 0

end Sys2Proof
end

