-- ==== Sys2Proof/Machine/State.lean ====
section
/-! DEFINITION. The state of HUFFCORE: everything spec/10_state.md gives the block, system memory, the coming inputs, and the state after reset. -/

namespace Sys2Proof.Machine

/-- Error codes of a completed command (60_exceptions.md R114). The reserved codes 8..15 are never produced (93 I-12). -/
inductive ErrCode where
  | none
  | badMagic
  | badLength
  | badPad
  | badTree
  | badCode
  | residue
  | freqOverflow
  deriving DecidableEq, Repr

/-- HUFFCORE's fault codes (60_exceptions.md R115). The reserved codes from 0x0D on are never produced (93 I-12). -/
inductive FaultCode where
  | none
  | illegalCmd
  | busyWrite
  | wrongMode
  | readPastEnd
  | noTree
  | noCodes
  | unknownSymbol
  | streamOverflow
  | sinkOverflow
  | headerOverflow
  | regionFault
  | busError
  deriving DecidableEq, Repr

/-- The mode of the bit channel; the encoding 3 never occurs (10_state.md R22, R33). -/
inductive ChMode where
  | idle
  | write
  | read
  deriving DecidableEq, Repr

/-- The tag of an arena entry (10_state.md R28). -/
inductive Kind where
  | free
  | leaf
  | inner
  | placeholder
  deriving DecidableEq, Repr

/-- One arena entry (10_state.md R27). -/
structure Node where
  kind  : Kind
  sym   : Byte
  left  : Handle
  right : Handle
  freq  : Word
  deriving DecidableEq, Repr

/-- One entry of the encoder table; bit 255 of `bits` is the first code bit (10_state.md R30). -/
structure Code where
  valid : Bool
  len   : BitVec 8
  bits  : BitVec 256
  deriving DecidableEq, Repr

/-- The arena `NODE[0..510]` (10_state.md R27). -/
abbrev Arena := Vector Node 511

/-- The encoder table `ENC[0..255]` (10_state.md R30). -/
abbrev CodeTable := Vector Code 256

/-- The frequency counters `FREQ[0..255]` (10_state.md R25). -/
abbrev FreqTable := Vector Word 256

/-- System memory: addresses below 2^32 strictly rising, no cell equal to the blank byte (20_memory.md R42, entry 4). -/
abbrev Memory := List Host.Cell

/-- Register-window storage the host writes (10_state.md R18, R20, R23). -/
structure HostRegs where
  arg      : Word
  ibase    : Word
  ilen     : Word
  sbase    : Word
  slen     : Word
  obase    : Word
  olen     : Word
  freqIdx  : BitVec 8
  nodeIdx  : Handle
  codeIdx  : BitVec 8
  codeWsel : BitVec 3
  ie       : Bool
  deriving DecidableEq, Repr

/-- Command, error and fault state (10_state.md R35). -/
structure Command where
  busy  : Bool
  pcmd  : Word
  done  : Bool
  err   : ErrCode
  fault : Bool
  fcode : FaultCode
  fop   : Byte
  finfo : Word
  deriving DecidableEq, Repr

/-- `RESULT` and `OCNT` (10_state.md R24). -/
structure Results where
  result : Word
  ocnt   : Word
  deriving DecidableEq, Repr

/-- The frequency map and `TOTAL` (10_state.md R25, R32). -/
structure Counters where
  freq  : FreqTable
  total : Word
  deriving DecidableEq, Repr

/-- The arena and the registers that describe the tree in it (10_state.md R27, R29). -/
structure Tree where
  node   : Arena
  root   : Handle
  alpha  : BitVec 9
  tvalid : Bool
  deriving DecidableEq, Repr

/-- The code table and the projection (10_state.md R30, R32). -/
structure Codes where
  enc      : CodeTable
  cvalid   : Bool
  treeBits : Word
  dataBits : BitVec 64
  wpad     : BitVec 3
  proj     : BitVec 64
  worth    : Bool
  deriving DecidableEq, Repr

/-- The bit channel (10_state.md R33). `bposPast` is the model's own bit: the channel's position is 2^32, one past the last
address, which the 32-bit `BPOS` cannot hold (entry 5). -/
structure Channel where
  mode     : ChMode
  lbase    : Word
  llen     : Word
  bpos     : Word
  bposPast : Bool
  bacc     : Byte
  bn       : BitVec 4
  chT      : Word
  chC      : Word
  rpad     : BitVec 3
  fileLen  : Word
  deriving DecidableEq, Repr

/-- One coming event: the Core's turn, or a move of the host or the platform (60_exceptions.md R121, 70_reset_and_hazards.md R144).
A register is named by its word index, offset / 4: an access of another width or alignment cannot be written down (10_state.md R17). -/
inductive Turn where
  /-- The Core may take its step. -/
  | core
  /-- An aligned 32-bit host write of `v` to the register with word index `reg`. -/
  | write (reg : BitVec 10) (v : Word)
  /-- An aligned 32-bit host read. -/
  | read (reg : BitVec 10)
  /-- The host stores one byte of system memory. -/
  | memWrite (a : Word) (v : Byte)
  /-- The host reads one byte of system memory. -/
  | memRead (a : Word)
  /-- The platform's reset input is asserted and released (70_reset_and_hazards.md R135, entry 12). -/
  | hardReset
  deriving DecidableEq, Repr

/-- The model's own fields: the coming turns (entry 1), the settled bus draws and the counter of free values (entry 2), and the word
the host's last read returned (entry 9). -/
structure Env where
  turns    : List Turn
  draws    : List Bool
  drawn    : Nat
  lastRead : Word
  deriving DecidableEq, Repr

/-- Why the model stops. HUFFCORE's own faults are NOT among these: they are next states (60_exceptions.md R118). Safe: no state
with the invariants of Safety.lean raises one (entry 11). -/
inductive Fault where
  /-- Raised by `memRead` and `memWrite`: an access at 2^32 or above, which is no address (20_memory.md R42). Safe. -/
  | addressOutsideMemory
  /-- Raised by `CODES_BUILD`, `T_SERIALIZE` and the deserializer: the walk is deeper than any tree HUFFCORE holds (40_frequency_tree.md
  R87). Safe. -/
  | treeTooDeep
  /-- Raised by `CODES_BUILD` and `T_SERIALIZE`: the walk reaches a `FREE` entry or `NIL`, to which the pseudocode gives no case. Safe. -/
  | notATreeNode
  deriving DecidableEq, Repr

/-- A move the model gives no meaning to. -/
inductive Refusal where
  /-- Raised by `exec`'s own arms: an instruction without a meaning. Safe. -/
  | notModelled (mnemonic : String)
  /-- Raised by `step`: a host access to a memory region the issued command uses, while `BUSY = 1`, which the host is assumed never to
  make (70_reset_and_hazards.md R139). Unsafe for a host that does (entry 8). -/
  | regionInUse
  deriving DecidableEq, Repr

/-- The whole state. -/
structure State where
  regs  : HostRegs
  cmd   : Command
  res   : Results
  cnt   : Counters
  tree  : Tree
  codes : Codes
  ch    : Channel
  mem   : Memory
  env   : Env
  deriving DecidableEq, Repr

/-- `FREE(sym 0, left NIL, right NIL, freq 0)` (10_state.md R28). -/
def Node.blank : Node := { kind := .free, sym := 0, left := nilHandle, right := nilHandle, freq := 0 }

/-- `(valid 0, len 0, bits 0)` (10_state.md R30). -/
def Code.blank : Code := { valid := false, len := 0, bits := 0 }

/-- The machine right after reset (70_reset_and_hazards.md R134), with no memory cell written and no input waiting. -/
def State.reset : State where
  regs :=
    { arg := 0, ibase := 0, ilen := 0, sbase := 0, slen := 0, obase := 0, olen := 0,
      freqIdx := 0, nodeIdx := 0, codeIdx := 0, codeWsel := 0, ie := false }
  cmd :=
    { busy := false, pcmd := 0, done := false, err := .none, fault := false, fcode := .none, fop := 0, finfo := 0 }
  res := { result := 0, ocnt := 0 }
  cnt := { freq := Vector.replicate 256 0, total := 0 }
  tree := { node := Vector.replicate 511 Node.blank, root := nilHandle, alpha := 0, tvalid := false }
  codes :=
    { enc := Vector.replicate 256 Code.blank, cvalid := false, treeBits := 0, dataBits := 0, wpad := 0, proj := 0,
      worth := false }
  ch :=
    { mode := .idle, lbase := 0, llen := 0, bpos := 0, bposPast := false, bacc := 0, bn := 0, chT := 0, chC := 0,
      rpad := 0, fileLen := 0 }
  mem := []
  env := { turns := [], draws := [], drawn := 0, lastRead := 0 }

end Sys2Proof.Machine
end

