-- ==== Sys2Proof/Machine/Operands.lean ====
section
/-! DEFINITION. Operand forms of the commands: bit fields, bit strings, regions, table and arena entries, the payload end. Pure functions. -/

namespace Sys2Proof.Machine

/-- The low `n` bits of `v` as a bit string, MSB-first: `v[n−1] … v[0]` (00_scope.md R9, 20_memory.md R54). -/
def bitsMsb {w : Nat} (n : Nat) (v : BitVec w) : List Bool := (List.range n).map fun i => v.getLsbD (n - 1 - i)

/-- The number a bit string stands for, its first bit the most significant (30_encoding.md R68). -/
def bitsToNat (p : List Bool) : Nat := p.foldl (fun v b => 2 * v + b.toNat) 0

/-- `RegionOK(base, len)`: the region does not wrap (20_memory.md R48). -/
def regionOK (base len : Word) : Bool := decide (base.toNat + len.toNat ≤ 2 ^ 32)

/-- The address lies in the region `[base, base + len)` (00_scope.md R11). -/
def inRegion (base len : Word) (a : Nat) : Bool := decide (base.toNat ≤ a) && decide (a < base.toNat + len.toNat)

/-- Two regions overlap: both are non-empty and they share an address (00_scope.md R11). -/
def overlaps (base₁ len₁ base₂ len₂ : Word) : Bool :=
  decide (0 < len₁.toNat) && decide (0 < len₂.toNat) &&
    decide (base₁.toNat < base₂.toNat + len₂.toNat) && decide (base₂.toNat < base₁.toNat + len₁.toNat)

/-- The counter of symbol `s`. -/
def FreqTable.of (f : FreqTable) (s : Byte) : Word := f[s.toNat]'s.isLt

/-- The counters with that of `s` replaced. -/
def FreqTable.put (f : FreqTable) (s : Byte) (v : Word) : FreqTable := f.set s.toNat v s.isLt

/-- The code-table entry of symbol `s`. -/
def CodeTable.of (e : CodeTable) (s : Byte) : Code := e[s.toNat]'s.isLt

/-- The code table with the entry of `s` replaced. -/
def CodeTable.put (e : CodeTable) (s : Byte) (c : Code) : CodeTable := e.set s.toNat c s.isLt

/-- The entry a handle names; `NIL` names none (10_state.md R27). -/
def Arena.of (t : Arena) (h : Handle) : Option Node := t[h.toNat]?

/-- The arena with entry `h` replaced. -/
def Arena.put (t : Arena) (h : Handle) (n : Node) : Arena := t.setIfInBounds h.toNat n

/-- The symbols 0..255 in ascending order (00_scope.md R7). -/
def symbols : List Byte := (List.range 256).map (BitVec.ofNat 8)

/-- The bit string a code-table entry holds: `len` bits from bit 255 down (10_state.md R30). -/
def Code.string (c : Code) : List Bool := (List.range c.len.toNat).map fun i => c.bits.getMsbD i

/-- The valid entry that holds the bit string `p`: first code bit at bit 255, unused low bits 0 (10_state.md R30). -/
def Code.ofString (p : List Bool) : Code where
  valid := true
  len := BitVec.ofNat 8 p.length
  bits := BitVec.ofNat 256 (bitsToNat p * 2 ^ (256 - p.length))

/-- The decoder table `DT`: the symbol whose code is exactly `p` (10_state.md R31). Where two symbols have one code, which no
built table has, the smaller is taken (entry 16). -/
def decodeTable (e : CodeTable) (p : List Bool) : Option Byte :=
  symbols.find? fun s => (e.of s).valid && (e.of s).string == p

/-- Some valid code has `p` as a proper prefix (43_stream_codec.md R107). -/
def startsCode (e : CodeTable) (p : List Bool) : Bool :=
  symbols.any fun s => (e.of s).valid && (p.isPrefixOf (e.of s).string && decide (p.length < (e.of s).string.length))

/-- The position of the channel as an address: `BPOS`, or 2^32 when it stands one past the last address (R33, R97, entry 5). -/
def Channel.pos (c : Channel) : Nat := if c.bposPast then 2 ^ 32 else c.bpos.toNat

/-- The payload end `E = CH_T − RPAD`, an integer (41_tree_codec.md R91, 43_stream_codec.md R107). -/
def Channel.payloadEnd (c : Channel) : Int := (c.chT.toNat : Int) - (c.rpad.toNat : Int)

/-- How many bits lie between the reader and the payload end; 0 when it stands at or past it. -/
def Channel.bitsLeft (c : Channel) : Nat := (c.payloadEnd - (c.chC.toNat : Int)).toNat

/-- Byte `i` (0..3) of the big-endian header: `T[31:24]` first (20_memory.md R51). -/
def headerByte (t : Word) (i : Nat) : Byte := t.extractLsb' (8 * (3 - i)) 8

end Sys2Proof.Machine
end

