-- ==== Sys2Proof/Machine/Flags.lean ====
section
/-! DEFINITION. Codes, flags and the words computed from the state: ERR, FCODE, CHMODE, STATUS, IRQ and the inspection windows. -/

namespace Sys2Proof.Machine

/-- The value of `ERR` (60_exceptions.md R114). -/
def ErrCode.code : ErrCode → BitVec 4
  | .none => 0
  | .badMagic => 1
  | .badLength => 2
  | .badPad => 3
  | .badTree => 4
  | .badCode => 5
  | .residue => 6
  | .freqOverflow => 7

/-- The value of `FCODE` (60_exceptions.md R115). -/
def FaultCode.code : FaultCode → BitVec 8
  | .none => 0x00
  | .illegalCmd => 0x01
  | .busyWrite => 0x02
  | .wrongMode => 0x03
  | .readPastEnd => 0x04
  | .noTree => 0x05
  | .noCodes => 0x06
  | .unknownSymbol => 0x07
  | .streamOverflow => 0x08
  | .sinkOverflow => 0x09
  | .headerOverflow => 0x0A
  | .regionFault => 0x0B
  | .busError => 0x0C

/-- The value of `CHMODE` (10_state.md R22). -/
def ChMode.code : ChMode → BitVec 2
  | .idle => 0
  | .write => 1
  | .read => 2

/-- The value of a node's `kind` (10_state.md R28). -/
def Kind.code : Kind → BitVec 2
  | .free => 0
  | .leaf => 1
  | .inner => 2
  | .placeholder => 3

/-- `STATUS.EOF`: a reader at `CH_C = CH_T` (10_state.md R22). -/
def State.eof (s : State) : Bool := decide (s.ch.mode = .read) && decide (s.ch.chC = s.ch.chT)

/-- `STATUS.EOPF`: a reader at `CH_C = CH_T − RPAD`, compared as integers (10_state.md R22). -/
def State.eopf (s : State) : Bool :=
  decide (s.ch.mode = .read) && decide ((s.ch.chC.toNat : Int) = s.ch.payloadEnd)

/-- `STATUS` (10_state.md R22), bit 31 first. -/
def State.status (s : State) : Word :=
  s.cmd.fop ++ s.cmd.fcode.code ++ s.cmd.err.code ++ (0 : BitVec 2) ++ BitVec.ofBool s.codes.worth ++
    BitVec.ofBool s.codes.cvalid ++ BitVec.ofBool s.tree.tvalid ++ BitVec.ofBool s.eopf ++ BitVec.ofBool s.eof ++
    s.ch.mode.code ++ BitVec.ofBool s.cmd.fault ++ BitVec.ofBool s.cmd.done ++ BitVec.ofBool s.cmd.busy

/-- The interrupt output: `IRQ = IE ∧ (DONE ∨ FAULT)` (60_exceptions.md R122). -/
def State.irq (s : State) : Bool := s.regs.ie && (s.cmd.done || s.cmd.fault)

/-- `CTRL` as read: only `IE` reads back (10_state.md R20). -/
def State.ctrlWord (s : State) : Word := (0 : BitVec 30) ++ BitVec.ofBool s.regs.ie ++ (0 : BitVec 1)

/-- `NODE_DATA0` of an entry: `kind | sym << 2 | left << 10 | right << 19` (10_state.md R39). -/
def Node.dataWord (n : Node) : Word := (0 : BitVec 4) ++ n.right ++ n.left ++ n.sym ++ n.kind.code

/-- `NODE_DATA0` of the selected entry, 0 for handle 511 (10_state.md R39). -/
def State.nodeData0 (s : State) : Word :=
  match s.tree.node.of s.regs.nodeIdx with
  | some n => n.dataWord
  | none => 0

/-- `NODE_DATA1` of the selected entry, 0 for handle 511 (10_state.md R39). -/
def State.nodeData1 (s : State) : Word :=
  match s.tree.node.of s.regs.nodeIdx with
  | some n => n.freq
  | none => 0

/-- `CODE_LEN`: `valid << 8 | len` of the selected symbol (10_state.md R40). -/
def State.codeLen (s : State) : Word :=
  let c := s.codes.enc.of s.regs.codeIdx
  (0 : BitVec 23) ++ BitVec.ofBool c.valid ++ c.len

/-- `CODE_DATA`: bits `255 − 32k` down to `224 − 32k` of the selected symbol's field (10_state.md R40). -/
def State.codeData (s : State) : Word :=
  (s.codes.enc.of s.regs.codeIdx).bits.extractLsb' (224 - 32 * s.regs.codeWsel.toNat) 32

end Sys2Proof.Machine
end

