-- ==== Sys2Proof/Machine/Ops.lean ====
section
/-! DEFINITION. The shared operations: memory, the ways a command ends, fault entry, reset, bus accesses, the bit-channel primitives. -/

namespace Sys2Proof.Machine

/-! ### Memory -/

/-- The canonical form: addresses strictly rising and below 2^32, no cell equal to what an unlisted address reads as. -/
def Memory.wf (m : Memory) : Bool :=
  decide (m.Pairwise fun x y => x.1 < y.1) && m.all fun c => decide (c.1 < 2 ^ 32) && decide (c.2 ≠ Config.blankByte)

/-- The byte at an address; an unlisted address reads as the blank byte (20_memory.md R43, entry 4). -/
def Memory.read : Memory → Nat → Byte
  | [], _ => Config.blankByte
  | (b, x) :: m, a => if a = b then x else Memory.read m a

/-- Storing the byte `v` at `a` (20_memory.md R43), keeping the canonical form. -/
def Memory.write : Memory → Nat → Byte → Memory
  | [], a, v => if v = Config.blankByte then [] else [(a, v)]
  | (b, x) :: m, a, v =>
    if a < b then (if v = Config.blankByte then (b, x) :: m else (a, v) :: (b, x) :: m)
    else if a = b then (if v = Config.blankByte then m else (a, v) :: m)
    else (b, x) :: Memory.write m a v

/-! ### How a command ends -/

/-- `finish` (60_exceptions.md R116). -/
def State.finish (s : State) : State := { s with cmd := { s.cmd with busy := false, done := true } }

/-- `error e` (60_exceptions.md R117). -/
def State.finishError (s : State) (e : ErrCode) : State :=
  { s with cmd := { s.cmd with err := e, busy := false, done := true } }

/-- FAULT ENTRY, `raise f(info)` (60_exceptions.md R118): the one operation that takes an exception. -/
def State.enterFault (s : State) (f : FaultCode) (info : Word) : State :=
  { s with cmd := { s.cmd with fault := true, fcode := f, fop := opField s.cmd.pcmd, finfo := info, busy := false } }

/-- `Reset()`, the only way out of a fault (70_reset_and_hazards.md R134, 60_exceptions.md R123): every register and array of the block;
system memory and the coming inputs are not touched. -/
def State.resetBlock (s : State) : State := { State.reset with mem := s.mem, env := s.env }

/-- Where a piece of a command's pseudocode leads: on with a value, `error`, `raise`, or a stop of the model. -/
inductive Flow (α : Type) where
  | ok (a : α) (s : State)
  | error (e : ErrCode) (s : State)
  | raise (f : FaultCode) (info : Word) (s : State)
  | stop (r : Fault)
  deriving Repr

/-- What follows runs only if the piece goes on (00_scope.md R10: no later step of the command is performed). -/
def Flow.bind {α β : Type} (x : Flow α) (k : α → State → Flow β) : Flow β :=
  match x with
  | .ok a s => k a s
  | .error e s => .error e s
  | .raise f info s => .raise f info s
  | .stop r => .stop r

/-- A pure computation that may meet a malformed arena. -/
def Flow.lift {α : Type} (x : Except Fault α) (s : State) : Flow α :=
  match x with
  | .ok a => .ok a s
  | .error r => .stop r

/-- The end of a command: `finish`, `error` or `raise` gives the next state (60_exceptions.md R116 to R118). -/
def Flow.complete (x : Flow Unit) : Host.Outcome State Fault Refusal :=
  match x with
  | .ok _ s => .next s.finish
  | .error e s => .next (s.finishError e)
  | .raise f info s => .next (s.enterFault f info)
  | .stop r => .fault r

/-! ### Checks made before a command runs -/

/-- The channel must be in mode `m`, else `WRONG_MODE(CHMODE)` (42_bitchannel.md R96). -/
def requireMode (m : ChMode) (s : State) : Flow Unit :=
  if s.ch.mode = m then .ok () s else .raise .wrongMode (s.ch.mode.code.setWidth 32) s

/-- `TVALID = 1`, else `NO_TREE(0)` (60_exceptions.md R120). -/
def requireTree (s : State) : Flow Unit := if s.tree.tvalid then .ok () s else .raise .noTree 0 s

/-- `CVALID = 1`, else `NO_CODES(0)` (60_exceptions.md R120). -/
def requireCodes (s : State) : Flow Unit := if s.codes.cvalid then .ok () s else .raise .noCodes 0 s

/-- `RegionOK`, else `REGION_FAULT` with the offset of the base register (20_memory.md R48). -/
def requireRegion (base len info : Word) (s : State) : Flow Unit :=
  if regionOK base len then .ok () s else .raise .regionFault info s

/-- The region does not overlap the stream region, else `REGION_FAULT` (20_memory.md R48). -/
def requireApart (base len info : Word) (s : State) : Flow Unit :=
  if overlaps base len s.ch.lbase s.ch.llen then .raise .regionFault info s else .ok () s

/-- `TVALID <- 0; CVALID <- 0` (10_state.md R26, R29). -/
def State.invalidate (s : State) : State :=
  { s with tree := { s.tree with tvalid := false }, codes := { s.codes with cvalid := false } }

/-! ### Draws and bus accesses -/

/-- The next draw `busOk`: the next settled one, or a free one when none is settled (20_memory.md R43, entry 2). -/
def State.drawOk (s : State) : Bool :=
  match s.env.draws with
  | b :: _ => b
  | [] => Config.busOk s.env.drawn

/-- The state after a draw is taken. -/
def State.drawNext (s : State) : State :=
  { s with env := { s.env with draws := s.env.draws.tail, drawn := s.env.drawn + 1 } }

/-- `raise f(n)` where `n` may be 2^32, which the 32-bit `FINFO` cannot hold: its value is then free (entry 6). -/
def raiseAt {α : Type} (f : FaultCode) (n : Nat) (s : State) : Flow α :=
  if n < 2 ^ 32 then .raise f (BitVec.ofNat 32 n) s
  else .raise f (Config.freeInfo s.env.drawn) s

/-- `MemRead(a, 1)`: one byte, one draw, `BUS_ERROR(a)` when the bus does not complete it (20_memory.md R43). -/
def memRead (a : Nat) (s : State) : Flow Byte :=
  if a < 2 ^ 32 then
    if s.drawOk then .ok (s.mem.read a) s.drawNext else .raise .busError (BitVec.ofNat 32 a) s.drawNext
  else .stop .addressOutsideMemory

/-- `MemWrite(a, 1, v)`: one byte, one draw; when the bus does not complete it, `BUS_ERROR(a)` and the byte is any value (R43). -/
def memWrite (a : Nat) (v : Byte) (s : State) : Flow Unit :=
  if a < 2 ^ 32 then
    if s.drawOk then .ok () { s.drawNext with mem := s.mem.write a v }
    else .raise .busError (BitVec.ofNat 32 a) { s.drawNext with mem := s.mem.write a (Config.freeByte s.env.drawn) }
  else .stop .addressOutsideMemory

/-! ### The bit channel's primitives (20_memory.md R54 to R57) -/

/-- `BPOS <- n`; at 2^32 the 32-bit register's value is free and the position is kept by `bposPast` (entry 5). Every use follows a
bus access, which has advanced the counter, so each use has a free value of its own. -/
def State.setPos (s : State) (n : Nat) : State :=
  if n < 2 ^ 32 then { s with ch := { s.ch with bpos := BitVec.ofNat 32 n, bposPast := false } }
  else { s with ch := { s.ch with bpos := Config.freePos s.env.drawn, bposPast := true } }

/-- `Commit(v)` (R55): the checks in the order `STREAM_OVERFLOW`, `HEADER_OVERFLOW`, `BUS_ERROR`. -/
def commit (v : Byte) (s : State) : Flow Unit :=
  if s.ch.lbase.toNat + s.ch.llen.toNat ≤ s.ch.pos then .raise .streamOverflow s.ch.bpos s
  else if 0xFFFFFFF7 < s.ch.chT.toNat then .raise .headerOverflow s.ch.chT s
  else
    (memWrite s.ch.pos v s).bind fun _ s =>
      let s := s.setPos (s.ch.pos + 1)
      .ok () { s with ch := { s.ch with chT := s.ch.chT + 8 } }

/-- The two lines before the commit in `WriteBit`: shift the bit into `BACC` and count it (R54). -/
def State.pushBit (s : State) (b : Bool) : State :=
  { s with ch := { s.ch with bacc := s.ch.bacc <<< 1 ||| (BitVec.ofBool b).setWidth 8, bn := s.ch.bn + 1 } }

/-- `BACC <- 0; BN <- 0`. -/
def State.clearAcc (s : State) : State := { s with ch := { s.ch with bacc := 0, bn := 0 } }

/-- `WriteBit(b)` (R54). -/
def writeBit (b : Bool) (s : State) : Flow Unit :=
  let s := s.pushBit b
  if s.ch.bn = 8 then (commit s.ch.bacc s).bind fun _ s => .ok () s.clearAcc else .ok () s

/-- `WriteBit` for each bit of a bit string, first bit first. -/
def writeString : List Bool → State → Flow Unit
  | [], s => .ok () s
  | b :: p, s => (writeBit b s).bind fun _ s => writeString p s

/-- `WriteBits(n, v)`: the low `n` bits of `v`, MSB-first (R54). -/
def writeBits {w : Nat} (n : Nat) (v : BitVec w) (s : State) : Flow Unit := writeString (bitsMsb n v) s

/-- The refill of `ReadBit`: when no bit is buffered, fetch the byte at `BPOS` (R56). -/
def refill (s : State) : Flow Unit :=
  if s.ch.bn = 0 then
    (memRead s.ch.pos s).bind fun v s =>
      let s := s.setPos (s.ch.pos + 1)
      .ok () { s with ch := { s.ch with bacc := v, bn := 8 } }
  else .ok () s

/-- `ReadBit()` (R56); the caller has checked its bound (R58). -/
def readBit (s : State) : Flow Bool :=
  (refill s).bind fun _ s =>
    .ok (s.ch.bacc.getLsbD (s.ch.bn.toNat - 1)) { s with ch := { s.ch with bn := s.ch.bn - 1, chC := s.ch.chC + 1 } }

/-- `repeat n times: v <- 2·v + ReadBit()`. -/
def readNat : Nat → Nat → State → Flow Nat
  | 0, v, s => .ok v s
  | n + 1, v, s => (readBit s).bind fun b s => readNat n (2 * v + b.toNat) s

/-- `PeekBit(k)`: one `MemRead`, no channel state changed (R57). -/
def peekBit (k : Nat) (s : State) : Flow Bool :=
  (memRead (s.ch.lbase.toNat + 4 + k / 8) s).bind fun v s => .ok (v.getLsbD (7 - k % 8)) s

/-- `PeekZero(k, k + n)`: every one of `n` bits from bit `k` on is 0. Every bit is read (41_tree_codec.md R91, R93, entry 7). -/
def peekZero : Nat → Nat → State → Flow Bool
  | 0, _, s => .ok true s
  | n + 1, k, s =>
    (peekBit k s).bind fun b s => (peekZero n (k + 1) s).bind fun z s => .ok (!b && z) s

end Sys2Proof.Machine
end

