-- ==== Sys2Proof/Machine/Frequency.lean ====
section
/-! DEFINITION. The frequency counters: FREQ_CLEAR and FREQ_COUNT (spec/40_frequency_tree.md R75, R76). -/

namespace Sys2Proof.Machine

/-- `FREQ[b] <- v`. -/
def State.setFreq (s : State) (b : Byte) (v : Word) : State := { s with cnt := { s.cnt with freq := s.cnt.freq.put b v } }

/-- `FREQ_CLEAR` (R75). -/
def execFreqClear (s : State) : Host.Outcome State Fault Refusal :=
  (Flow.ok () ({ s with cnt := { freq := Vector.replicate 256 0, total := 0 } } : State).invalidate).complete

/-- The loop of `FREQ_COUNT` over `n` bytes from address `a` (R76). -/
def countBytes : Nat → Nat → State → Flow Unit
  | 0, _, s => .ok () s
  | n + 1, a, s =>
    (memRead a s).bind fun b s =>
      if s.cnt.freq.of b = 0xFFFFFFFF then .error .freqOverflow s
      else countBytes n (a + 1) (s.setFreq b (s.cnt.freq.of b + 1))

/-- `FREQ_COUNT` (R76). -/
def execFreqCount (s : State) : Host.Outcome State Fault Refusal :=
  ((requireRegion s.regs.ibase s.regs.ilen 0x018 s).bind fun _ s =>
    countBytes s.regs.ilen.toNat s.regs.ibase.toNat s.invalidate).complete

end Sys2Proof.Machine
end

