-- ==== Sys2Proof/Machine/Writer.lean ====
section
/-! DEFINITION. The bit channel's writer: W_OPEN, W_BITS, W_MAGIC, W_CLOSE (spec/42_bitchannel.md R98 to R101). -/

namespace Sys2Proof.Machine

/-- Writing a list of bytes at `a, a + 1, …`, in that order. -/
def writeBytes : Nat → List Byte → State → Flow Unit
  | _, [], s => .ok () s
  | a, v :: vs, s => (memWrite a v s).bind fun _ s => writeBytes (a + 1) vs s

/-- `LBASE <- SBASE; LLEN <- SLEN` (10_state.md R23). -/
def State.latch (s : State) : State := { s with ch := { s.ch with lbase := s.regs.sbase, llen := s.regs.slen } }

/-- What a successful `W_OPEN` leaves after its header writes (R98). -/
def State.openWriter (s : State) : State :=
  let s := s.setPos (s.ch.lbase.toNat + 4)
  { s with ch := { s.ch with mode := .write, bacc := 0, bn := 0, chT := 0, chC := 0, fileLen := 0 } }

/-- `W_OPEN` (R98). -/
def execWOpen (s : State) : Host.Outcome State Fault Refusal :=
  ((requireMode .idle s).bind fun _ s =>
    (requireRegion s.regs.sbase s.regs.slen 0x020 s).bind fun _ s =>
      let s := s.latch
      if s.ch.llen.toNat < 4 then .raise .streamOverflow s.ch.lbase s
      else
        (writeBytes s.ch.lbase.toNat (List.replicate 4 0) s).bind fun _ s => .ok () s.openWriter).complete

/-- `W_BITS n` (R99, 30_encoding.md R68). -/
def execWBits (n : BitVec 6) (s : State) : Host.Outcome State Fault Refusal :=
  ((requireMode .write s).bind fun _ s => writeBits n.toNat s.regs.arg s).complete

/-- `W_MAGIC` (R100). -/
def execWMagic (s : State) : Host.Outcome State Fault Refusal :=
  ((requireMode .write s).bind fun _ s =>
    (requireCodes s).bind fun _ s =>
      (writeBits 8 (0x48 : Byte) s).bind fun _ s =>
        (writeBits 8 (0x46 : Byte) s).bind fun _ s => writeBits 8 (s.codes.wpad.setWidth 8) s).complete

/-- The pad commit of `W_CLOSE`: a partial byte is filled with zeros and committed (R101). -/
def padCommit (s : State) : Flow Unit :=
  if 0 < s.ch.bn.toNat then
    (commit (s.ch.bacc <<< (8 - s.ch.bn.toNat)) s).bind fun _ s => .ok () s.clearAcc
  else .ok () s

/-- The four header bytes of a total-bit count, big-endian (20_memory.md R51). -/
def headerBytes (t : Word) : List Byte := (List.range 4).map (headerByte t)

/-- What `W_CLOSE` leaves after its header writes (R101). -/
def State.closeWriter (s : State) : State :=
  { s with ch := { s.ch with fileLen := BitVec.ofNat 32 (4 + s.ch.chT.toNat / 8), mode := .idle } }

/-- `W_CLOSE` (R101). -/
def execWClose (s : State) : Host.Outcome State Fault Refusal :=
  ((requireMode .write s).bind fun _ s =>
    (padCommit s).bind fun _ s =>
      (writeBytes s.ch.lbase.toNat (headerBytes s.ch.chT) s).bind fun _ s => .ok () s.closeWriter).complete

end Sys2Proof.Machine
end

