-- ==== Sys2Proof/Machine/Reader.lean ====
section
/-! DEFINITION. The bit channel's reader: R_OPEN, R_BITS, R_MAGIC, R_CLOSE (spec/42_bitchannel.md R102 to R105). -/

namespace Sys2Proof.Machine

/-- Reading `n` bytes from `a` on as one big-endian number: `t <- 256·t + MemRead(a, 1)` (R102). -/
def readBigEndian : Nat → Nat → Nat → State → Flow Nat
  | 0, _, t, s => .ok t s
  | n + 1, a, t, s => (memRead a s).bind fun v s => readBigEndian n (a + 1) (256 * t + v.toNat) s

/-- What a successful `R_OPEN` leaves: a reader over `t` bits (R102). -/
def State.openReader (s : State) (t : Nat) : State :=
  let s := s.setPos (s.ch.lbase.toNat + 4)
  { s with ch := { s.ch with mode := .read, bacc := 0, bn := 0, chT := BitVec.ofNat 32 t, chC := 0, rpad := 0 } }

/-- `R_OPEN` (R102). -/
def execROpen (s : State) : Host.Outcome State Fault Refusal :=
  ((requireMode .idle s).bind fun _ s =>
    (requireRegion s.regs.sbase s.regs.slen 0x020 s).bind fun _ s =>
      let s := s.latch
      if s.ch.llen.toNat < 4 then .error .badLength s
      else
        (readBigEndian 4 s.ch.lbase.toNat 0 s).bind fun t s =>
          if s.ch.llen.toNat < 4 + (t + 7) / 8 then .error .badLength s else .ok () (s.openReader t)).complete

/-- `R_BITS n` (R103): the bound is checked for the whole count before any bit is read. -/
def execRBits (n : BitVec 6) (s : State) : Host.Outcome State Fault Refusal :=
  ((requireMode .read s).bind fun _ s =>
    if s.ch.chT.toNat < s.ch.chC.toNat + n.toNat then .raise .readPastEnd s.ch.chC s
    else
      (readNat n.toNat 0 s).bind fun v s => .ok () { s with res := { s.res with result := BitVec.ofNat 32 v } }).complete

/-- `R_MAGIC` (R104). -/
def execRMagic (s : State) : Host.Outcome State Fault Refusal :=
  ((requireMode .read s).bind fun _ s =>
    if s.ch.chT.toNat < s.ch.chC.toNat + 24 then .error .badLength s
    else
      (readNat 16 0 s).bind fun m s =>
        if m ≠ 0x4846 then .error .badMagic s
        else
          (readNat 8 0 s).bind fun p s =>
            if 7 < p ∨ s.ch.chT.toNat < s.ch.chC.toNat + p then .error .badPad s
            else .ok () { s with ch := { s.ch with rpad := BitVec.ofNat 3 p } }).complete

/-- `R_CLOSE` (R105). -/
def execRClose (s : State) : Host.Outcome State Fault Refusal :=
  ((requireMode .read s).bind fun _ s => .ok () { s with ch := { s.ch with mode := .idle } }).complete

end Sys2Proof.Machine
end

