-- ==== Sys2Proof/Machine/StreamCodec.lean ====
section
/-! DEFINITION. The stream codec: S_ENCODE and S_DECODE (spec/43_stream_codec.md R106, R107). -/

namespace Sys2Proof.Machine

/-- The loop of `S_ENCODE` over `n` bytes from address `a` (R106). -/
def encodeBytes : Nat → Nat → State → Flow Unit
  | 0, _, s => .ok () s
  | n + 1, a, s =>
    (memRead a s).bind fun b s =>
      if (s.codes.enc.of b).valid then
        (writeString (s.codes.enc.of b).string s).bind fun _ s => encodeBytes n (a + 1) s
      else .raise .unknownSymbol (BitVec.ofNat 32 a) s

/-- `S_ENCODE` (R106). -/
def execSEncode (s : State) : Host.Outcome State Fault Refusal :=
  ((requireMode .write s).bind fun _ s =>
    (requireCodes s).bind fun _ s =>
      (requireRegion s.regs.ibase s.regs.ilen 0x018 s).bind fun _ s =>
        (requireApart s.regs.ibase s.regs.ilen 0x018 s).bind fun _ s =>
          encodeBytes s.regs.ilen.toNat s.regs.ibase.toNat s).complete

/-- `OCNT <- v`. -/
def State.setOcnt (s : State) (v : Word) : State := { s with res := { s.res with ocnt := v } }

/-- Writing a decoded symbol to the output region (R107). -/
def emitSymbol (b : Byte) (s : State) : Flow Unit :=
  if s.regs.olen.toNat ≤ s.res.ocnt.toNat then raiseAt .sinkOverflow (s.regs.obase.toNat + s.res.ocnt.toNat) s
  else
    (memWrite (s.regs.obase.toNat + s.res.ocnt.toNat) b s).bind fun _ s => .ok () (s.setOcnt (s.res.ocnt + 1))

/-- The loop of `S_DECODE` over the `n` bits up to the payload end, with the accumulator `acc` (R107); the answer is the accumulator
that is left. -/
def decodeBits : Nat → List Bool → State → Flow (List Bool)
  | 0, acc, s => .ok acc s
  | n + 1, acc, s =>
    (readBit s).bind fun b s =>
      match decodeTable s.codes.enc (acc ++ [b]) with
      | some y => (emitSymbol y s).bind fun _ s => decodeBits n [] s
      | none => if startsCode s.codes.enc (acc ++ [b]) then decodeBits n (acc ++ [b]) s else .error .badCode s

/-- `S_DECODE` (R107). -/
def execSDecode (s : State) : Host.Outcome State Fault Refusal :=
  ((requireMode .read s).bind fun _ s =>
    (requireCodes s).bind fun _ s =>
      (requireRegion s.regs.obase s.regs.olen 0x028 s).bind fun _ s =>
        (requireApart s.regs.obase s.regs.olen 0x028 s).bind fun _ s =>
          let s := s.setOcnt 0
          if s.ch.payloadEnd < (s.ch.chC.toNat : Int) then .error .badLength s
          else
            (decodeBits s.ch.bitsLeft [] s).bind fun acc s =>
              if acc = [] then .ok () s else .error .residue s).complete

end Sys2Proof.Machine
end

