-- ==== Sys2Proof/Machine/CodesBuild.lean ====
section
/-! DEFINITION. The code tables and the projection: CODES_BUILD (spec/40_frequency_tree.md R82 to R84). -/

namespace Sys2Proof.Machine

/-- The levels a walk may have: a tree HUFFCORE holds has depth at most `MAXCODE = 255` (R87), so its nodes stand on 256 levels. -/
def maxLevels : Nat := 256

/-- `Visit(n, p)`: depth-first, left before right, over the code table and the cost `TB` so far (R82). The first argument is how many
levels may still follow. -/
def visit (t : Arena) : Nat → Handle → List Bool → CodeTable × Nat → Except Fault (CodeTable × Nat)
  | 0, _, _, _ => .error .treeTooDeep
  | d + 1, h, p, (e, tb) =>
    match t.of h with
    | none => .error .notATreeNode
    | some n =>
      match n.kind with
      | .leaf => .ok (e.put n.sym (Code.ofString p), tb + 9)
      | .inner =>
        match visit t d n.left (p ++ [false]) (e, tb + 1) with
        | .ok acc => visit t d n.right (p ++ [true]) acc
        | .error r => .error r
      | .placeholder => .ok (e, tb + 1)
      | .free => .error .notATreeNode

/-- The code table and `TB` of the tree at `root`: nothing for the empty tree (R82). -/
def codesOfTree (t : Arena) (root : Handle) : Except Fault (CodeTable × Nat) :=
  if root = nilHandle then .ok (Vector.replicate 256 Code.blank, 0)
  else visit t maxLevels root [] (Vector.replicate 256 Code.blank, 0)

/-- `DB`: Σ over the symbols with a code of `FREQ[s] × len` (R82). -/
def dataCost (f : FreqTable) (e : CodeTable) : Nat :=
  (symbols.map fun s => if (e.of s).valid then (f.of s).toNat * (e.of s).len.toNat else 0).sum

/-- `WPAD`: the bits that fill the last byte (R82). -/
def padOf (bits : Nat) : Nat := (8 - bits % 8) % 8

/-- The code-table registers `CODES_BUILD` leaves (R82, R84). -/
def codeRegs (f : FreqTable) (total : Word) (e : CodeTable) (tb : Nat) : Codes :=
  let db := dataCost f e
  let proj := 24 + tb + db + padOf (tb + db)
  { enc := e, cvalid := true, treeBits := BitVec.ofNat 32 tb, dataBits := BitVec.ofNat 64 db,
    wpad := BitVec.ofNat 3 (padOf (tb + db)), proj := BitVec.ofNat 64 proj, worth := decide (proj < 8 * total.toNat) }

/-- `CODES_BUILD` (R82). -/
def execCodesBuild (s : State) : Host.Outcome State Fault Refusal :=
  ((requireTree s).bind fun _ s =>
    (Flow.lift (codesOfTree s.tree.node s.tree.root) s).bind fun r s =>
      .ok () { s with codes := codeRegs s.cnt.freq s.cnt.total r.1 r.2 }).complete

end Sys2Proof.Machine
end

