-- ==== Sys2Proof/Machine/TreeBuild.lean ====
section
/-! DEFINITION. The tree builder: TREE_BUILD (spec/40_frequency_tree.md R77 to R80). -/

namespace Sys2Proof.Machine

/-- `Σ FREQ`, exact (R79). -/
def freqSum (f : FreqTable) : Nat := (symbols.map fun s => (f.of s).toNat).sum

/-- The order of leaves: ascending frequency, ties by ascending symbol (R77). -/
abbrev leafBefore (f : FreqTable) (a b : Byte) : Prop :=
  (f.of a).toNat < (f.of b).toNat ∨ ((f.of a).toNat = (f.of b).toNat ∧ a.toNat ≤ b.toNat)

/-- The symbols in the map, in leaf order (R77). -/
def leafOrder (f : FreqTable) : List Byte := (symbols.filter fun s => f.of s ≠ 0).insertionSort (leafBefore f)

/-- `LEAF(sym s, freq FREQ[s], left NIL, right NIL)` (R79). -/
def leafNode (f : FreqTable) (s : Byte) : Node :=
  { kind := .leaf, sym := s, left := nilHandle, right := nilHandle, freq := f.of s }

/-- `INTERNAL(sym 0, left x, right y, freq v)` (R79). -/
def innerNode (x y : Handle) (v : Word) : Node := { kind := .inner, sym := 0, left := x, right := y, freq := v }

/-- `PLACEHOLDER(sym 0, left NIL, right NIL, freq 0)` (R79, 10_state.md R28). -/
def placeholderNode : Node := { kind := .placeholder, sym := 0, left := nilHandle, right := nilHandle, freq := 0 }

/-- The arena with a list of entries placed at `i, i + 1, …`. -/
def placeFrom : Nat → List Node → Arena → Arena
  | _, [], t => t
  | i, n :: ns, t => placeFrom (i + 1) ns (t.setIfInBounds i n)

/-- The frequency of an entry; 0 for a handle that names none. -/
def Arena.weight (t : Arena) (h : Handle) : Word :=
  match t.of h with
  | some n => n.freq
  | none => 0

/-- The entry of least frequency at the earliest position, and the collection without it (R78). -/
def extractMin (t : Arena) : List Handle → Option (Handle × List Handle)
  | [] => none
  | h :: q =>
    match extractMin t q with
    | none => some (h, [])
    | some (m, rest) => if (t.weight h).toNat ≤ (t.weight m).toNat then some (h, q) else some (m, h :: rest)

/-- The merge loop, at most `n` merges: while two nodes are left, remove the two least, append their parent (R78, R79).
The answer is the collection left over and the arena. -/
def mergeLoop : Nat → List Handle → Nat → Arena → List Handle × Arena
  | 0, q, _, t => (q, t)
  | n + 1, q, next, t =>
    match extractMin t q with
    | none => (q, t)
    | some (x, q₁) =>
      match extractMin t q₁ with
      | none => (q, t)
      | some (y, q₂) =>
        mergeLoop n (q₂ ++ [BitVec.ofNat 9 next]) (next + 1)
          (t.put (BitVec.ofNat 9 next) (innerNode x y (t.weight x + t.weight y)))

/-- The handles 0, 1, …, n − 1. -/
def handlesBelow (n : Nat) : List Handle := (List.range n).map (BitVec.ofNat 9)

/-- The arena, `ROOT` and `ALPHA` that `TREE_BUILD` makes of a frequency map (R79). -/
def buildTree (f : FreqTable) : Tree :=
  let order := leafOrder f
  let leaves := placeFrom 0 (order.map (leafNode f)) (Vector.replicate 511 Node.blank)
  match order with
  | [] => { node := leaves, root := nilHandle, alpha := 0, tvalid := true }
  | [s] =>
    { node := (leaves.put 1 placeholderNode).put 2 (innerNode 0 1 (f.of s)), root := 2, alpha := 1, tvalid := true }
  | _ :: _ :: _ =>
    let r := mergeLoop order.length (handlesBelow order.length) order.length leaves
    { node := r.2, root := r.1.headD nilHandle, alpha := BitVec.ofNat 9 order.length, tvalid := true }

/-- `TREE_BUILD` (R79). -/
def execTreeBuild (s : State) : Host.Outcome State Fault Refusal :=
  let s := s.invalidate
  (if 0xFFFFFFFF < freqSum s.cnt.freq then Flow.error .freqOverflow s
   else
    .ok () { s with
      cnt := { s.cnt with total := BitVec.ofNat 32 (freqSum s.cnt.freq) }
      tree := buildTree s.cnt.freq }).complete

end Sys2Proof.Machine
end

