-- ==== Sys2Proof/Machine/TreeCodec.lean ====
section
/-! DEFINITION. The tree serializer and deserializer: T_SERIALIZE and T_DESERIALIZE (spec/41_tree_codec.md R88 to R95). -/

namespace Sys2Proof.Machine

/-- The serialized form of the tree at a handle (R88): a leaf is `0` and its 8 symbol bits, an internal node `1` and its two
subtrees, the placeholder `1` alone. The first argument is how many levels may still follow. -/
def serialForm (t : Arena) : Nat → Handle → Except Fault (List Bool)
  | 0, _ => .error .treeTooDeep
  | d + 1, h =>
    match t.of h with
    | none => .error .notATreeNode
    | some n =>
      match n.kind with
      | .leaf => .ok (false :: bitsMsb 8 n.sym)
      | .inner =>
        match serialForm t d n.left, serialForm t d n.right with
        | .ok l, .ok r => .ok (true :: (l ++ r))
        | .error e, _ => .error e
        | _, .error e => .error e
      | .placeholder => .ok [true]
      | .free => .error .notATreeNode

/-- The serialized form of the current tree: no bits for the empty tree (R88). -/
def serialTree (t : Tree) : Except Fault (List Bool) :=
  if t.root = nilHandle then .ok [] else serialForm t.node maxLevels t.root

/-- `T_SERIALIZE` (R90): the writes are the serialized form's bits in order (entry 15). -/
def execTSerialize (s : State) : Host.Outcome State Fault Refusal :=
  ((requireMode .write s).bind fun _ s =>
    (requireTree s).bind fun _ s =>
      (Flow.lift (serialTree s.tree) s).bind fun bits s => writeString bits s).complete

/-- What the deserializer keeps beside the state: `nalloc` and the symbols seen, one per leaf (R91, R95). -/
structure Parse where
  nalloc : Nat
  seen   : List Byte
  deriving DecidableEq, Repr

/-- `Bit()`: `BAD_TREE` at the payload end, else `ReadBit()` (R91). -/
def treeBit (s : State) : Flow Bool :=
  if s.ch.payloadEnd ≤ (s.ch.chC.toNat : Int) then .error .badTree s else readBit s

/-- The 8 bits of a leaf's symbol, MSB first (R91). -/
def treeBits : Nat → Nat → State → Flow Nat
  | 0, v, s => .ok v s
  | n + 1, v, s => (treeBit s).bind fun b s => treeBits n (2 * v + b.toNat) s

/-- `NODE[h] <- n`. -/
def State.setNode (s : State) (h : Handle) (n : Node) : State := { s with tree := { s.tree with node := s.tree.node.put h n } }

/-- `NODE[h]` with its left child set. -/
def State.setLeft (s : State) (h c : Handle) : State :=
  match s.tree.node.of h with
  | some n => s.setNode h { n with left := c }
  | none => s

/-- `NODE[h]` with its right child set. -/
def State.setRight (s : State) (h c : Handle) : State :=
  match s.tree.node.of h with
  | some n => s.setNode h { n with right := c }
  | none => s

/-- `Alloc(k, s)`: `BAD_TREE` when all 511 entries are taken (R91). -/
def allocNode (k : Kind) (sym : Byte) (p : Parse) (s : State) : Flow (Handle × Parse) :=
  if p.nalloc = 511 then .error .badTree s
  else
    let h := BitVec.ofNat 9 p.nalloc
    .ok (h, { p with nalloc := p.nalloc + 1 })
      (s.setNode h { kind := k, sym := sym, left := nilHandle, right := nilHandle, freq := 0 })

/-- `Leaf()` (R91). -/
def parseLeaf (p : Parse) (s : State) : Flow (Handle × Parse) :=
  (treeBits 8 0 s).bind fun v s =>
    let sym := BitVec.ofNat 8 v
    if sym ∈ p.seen then .error .badTree s else allocNode .leaf sym { p with seen := sym :: p.seen } s

/-- `Node()` (R91). The first argument is how many levels may still follow; the arena runs out before it does (entry 11). -/
def parseNode : Nat → Parse → State → Flow (Handle × Parse)
  | 0, _, _ => .stop .treeTooDeep
  | d + 1, p, s =>
    (treeBit s).bind fun b s =>
      if b then
        (allocNode .inner 0 p s).bind fun hp s =>
          (parseNode d hp.2 s).bind fun l s =>
            (parseNode d l.2 (s.setLeft hp.1 l.1)).bind fun r s => .ok (hp.1, r.2) (s.setRight hp.1 r.1)
      else parseLeaf p s

/-- More levels than the arena has entries. -/
def parseLevels : Nat := 513

/-- The entry is a leaf. -/
def Arena.isLeaf (t : Arena) (h : Handle) : Bool :=
  match t.of h with
  | some n => decide (n.kind = .leaf)
  | none => false

/-- `NODE[NODE[r].left].kind = LEAF` (R91). -/
def Arena.leftIsLeaf (t : Arena) (r : Handle) : Bool :=
  match t.of r with
  | some n => t.isLeaf n.left
  | none => false

/-- The two subtrees of an internal node just allocated. -/
def parseChildren (h : Handle) (p : Parse) (s : State) : Flow (Handle × Parse) :=
  (parseNode parseLevels p s).bind fun l s =>
    (parseNode parseLevels l.2 (s.setLeft h l.1)).bind fun r s => .ok (h, r.2) (s.setRight h r.1)

/-- `NODE[NODE[r].left].kind = LEAF and PeekZero(CH_C, E)`: the test for the placeholder (R91, R93). -/
def placeholderAhead (r : Handle) (s : State) : Flow Bool :=
  if s.tree.node.leftIsLeaf r then peekZero s.ch.bitsLeft s.ch.chC.toNat s else .ok false s

/-- `RootRight(r)` (R91). -/
def parseRootRight (r : Handle) (p : Parse) (s : State) : Flow (Handle × Parse) :=
  (treeBit s).bind fun b s =>
    if b then
      (placeholderAhead r s).bind fun z s =>
        if z then allocNode .placeholder 0 p s
        else (allocNode .inner 0 p s).bind fun hp s => parseChildren hp.1 hp.2 s
    else parseLeaf p s

/-- The arena cleared, no tree: the start of `T_DESERIALIZE` (R95). -/
def State.clearTree (s : State) : State :=
  { s with
    tree := { node := Vector.replicate 511 Node.blank, root := nilHandle, alpha := 0, tvalid := false }
    codes := { s.codes with cvalid := false } }

/-- `ROOT <- r; ALPHA <- a; TVALID <- 1` (R95). -/
def State.setTree (s : State) (r : Handle) (a : Nat) : State :=
  { s with tree := { s.tree with root := r, alpha := BitVec.ofNat 9 a, tvalid := true } }

/-- The parse of a non-empty tree (R95): the root must be internal. -/
def parseTree (s : State) : Flow Unit :=
  (treeBit s).bind fun b s =>
    if b then
      (allocNode .inner 0 { nalloc := 0, seen := [] } s).bind fun hp s =>
        (parseNode parseLevels hp.2 s).bind fun l s =>
          (parseRootRight hp.1 l.2 (s.setLeft hp.1 l.1)).bind fun r s =>
            .ok () ((s.setRight hp.1 r.1).setTree hp.1 r.2.seen.length)
    else .error .badTree s

/-- `T_DESERIALIZE` (R92 to R95). -/
def execTDeserialize (s : State) : Host.Outcome State Fault Refusal :=
  ((requireMode .read s).bind fun _ s =>
    let s := s.clearTree
    if (s.ch.chC.toNat : Int) = s.ch.payloadEnd then .ok () (s.setTree nilHandle 0)
    else if s.ch.payloadEnd < (s.ch.chC.toNat : Int) then .error .badTree s
    else parseTree s).complete

end Sys2Proof.Machine
end

