-- ==== Sys2Proof/Machine/Dispatch.lean ====
section
/-! DEFINITION. Which meaning each command has: one arm per row of spec/opcode_table.json. -/

namespace Sys2Proof.Machine

def exec (i : Instr) (s : State) : Host.Outcome State Fault Refusal :=
  match i with
  | .freqClear => Sys2Proof.Machine.execFreqClear s
  | .freqCount => Sys2Proof.Machine.execFreqCount s
  | .treeBuild => Sys2Proof.Machine.execTreeBuild s
  | .codesBuild => Sys2Proof.Machine.execCodesBuild s
  | .wOpen => Sys2Proof.Machine.execWOpen s
  | .wBits n => Sys2Proof.Machine.execWBits n s
  | .wMagic => Sys2Proof.Machine.execWMagic s
  | .wClose => Sys2Proof.Machine.execWClose s
  | .rOpen => Sys2Proof.Machine.execROpen s
  | .rBits n => Sys2Proof.Machine.execRBits n s
  | .rMagic => Sys2Proof.Machine.execRMagic s
  | .rClose => Sys2Proof.Machine.execRClose s
  | .tSerialize => Sys2Proof.Machine.execTSerialize s
  | .tDeserialize => Sys2Proof.Machine.execTDeserialize s
  | .sEncode => Sys2Proof.Machine.execSEncode s
  | .sDecode => Sys2Proof.Machine.execSDecode s

end Sys2Proof.Machine
end

