-- ==== Sys2Proof/Machine/HostPort.lean ====
section
/-! DEFINITION. The host's register window and its memory moves (spec/10_state.md R17 to R26, R37 to R40, 70_reset_and_hazards.md R136, R139). -/

namespace Sys2Proof.Machine

/-- The byte offset of a word index of the window (R17). -/
def regOffset (reg : BitVec 10) : Nat := 4 * reg.toNat

/-- A host read of a register (R17, R18): no side effect; an unmapped offset reads 0. -/
def readReg (s : State) (reg : BitVec 10) : Word :=
  match regOffset reg with
  | 0x000 => 0x48554631
  | 0x004 => s.ctrlWord
  | 0x008 => 0
  | 0x00C => s.status
  | 0x010 => s.regs.arg
  | 0x014 => s.res.result
  | 0x018 => s.regs.ibase
  | 0x01C => s.regs.ilen
  | 0x020 => s.regs.sbase
  | 0x024 => s.regs.slen
  | 0x028 => s.regs.obase
  | 0x02C => s.regs.olen
  | 0x030 => s.res.ocnt
  | 0x034 => s.cnt.total
  | 0x038 => s.tree.alpha.setWidth 32
  | 0x03C => s.tree.root.setWidth 32
  | 0x040 => s.codes.treeBits
  | 0x044 => s.codes.dataBits.extractLsb' 0 32
  | 0x048 => s.codes.dataBits.extractLsb' 32 32
  | 0x04C => s.codes.wpad.setWidth 32
  | 0x050 => s.ch.rpad.setWidth 32
  | 0x054 => s.codes.proj.extractLsb' 0 32
  | 0x058 => s.codes.proj.extractLsb' 32 32
  | 0x05C => s.ch.chT
  | 0x060 => s.ch.chC
  | 0x064 => s.ch.fileLen
  | 0x068 => s.regs.freqIdx.setWidth 32
  | 0x06C => s.cnt.freq.of s.regs.freqIdx
  | 0x070 => s.regs.nodeIdx.setWidth 32
  | 0x074 => s.nodeData0
  | 0x078 => s.nodeData1
  | 0x07C => s.regs.codeIdx.setWidth 32
  | 0x080 => s.regs.codeWsel.setWidth 32
  | 0x084 => s.codeLen
  | 0x088 => s.codeData
  | 0x08C => s.cmd.finfo
  | _ => 0

/-- Issuing a command (R21): `PCMD <- w; BUSY <- 1; DONE <- 0; ERR <- 0`. -/
def State.issue (s : State) (w : Word) : State :=
  { s with cmd := { s.cmd with pcmd := w, busy := true, done := false, err := .none } }

/-- A host write to `CTRL` (R20): soft reset, or `IE` and `ACK`. -/
def writeCtrl (s : State) (v : Word) : State :=
  if v.getLsbD 0 then s.resetBlock
  else
    { s with
      regs := { s.regs with ie := v.getLsbD 1 }
      cmd := { s.cmd with done := s.cmd.done && !v.getLsbD 2 } }

/-- A host write to `FREQ_DATA` (R26). -/
def writeFreqData (s : State) (v : Word) : State := (s.setFreq s.regs.freqIdx v).invalidate

/-- A host write, while no command is issued, to a register other than `CTRL` and `CMD`: read-only and unmapped offsets ignore it
(R17, R18, R23); bits outside the width used are ignored. -/
def writeIdle (s : State) (reg : BitVec 10) (v : Word) : State :=
  match regOffset reg with
  | 0x010 => { s with regs := { s.regs with arg := v } }
  | 0x018 => { s with regs := { s.regs with ibase := v } }
  | 0x01C => { s with regs := { s.regs with ilen := v } }
  | 0x020 => { s with regs := { s.regs with sbase := v } }
  | 0x024 => { s with regs := { s.regs with slen := v } }
  | 0x028 => { s with regs := { s.regs with obase := v } }
  | 0x02C => { s with regs := { s.regs with olen := v } }
  | 0x068 => { s with regs := { s.regs with freqIdx := v.setWidth 8 } }
  | 0x06C => writeFreqData s v
  | 0x070 => { s with regs := { s.regs with nodeIdx := v.setWidth 9 } }
  | 0x07C => { s with regs := { s.regs with codeIdx := v.setWidth 8 } }
  | 0x080 => { s with regs := { s.regs with codeWsel := v.setWidth 3 } }
  | _ => s

/-- A host write (R17, R20, R21, R37, R38). While `FAULT = 1`, `BUSY` counts as 0 (entry 13). -/
def writeReg (s : State) (reg : BitVec 10) (v : Word) : State :=
  if regOffset reg = 0x004 then writeCtrl s v
  else if s.cmd.busy && !s.cmd.fault then s.enterFault .busyWrite (BitVec.ofNat 32 (regOffset reg))
  else if regOffset reg = 0x008 then (if s.cmd.fault then s else s.issue v)
  else writeIdle s reg v

/-- The regions of system memory a command uses (70_reset_and_hazards.md R139, entry 8). -/
def usesAddress (s : State) (i : Instr) (a : Nat) : Bool :=
  let input := inRegion s.regs.ibase s.regs.ilen a
  let stream := inRegion s.ch.lbase s.ch.llen a
  let opened := inRegion s.regs.sbase s.regs.slen a
  let output := inRegion s.regs.obase s.regs.olen a
  match i with
  | .freqClear => false
  | .freqCount => input
  | .treeBuild => false
  | .codesBuild => false
  | .wOpen => opened
  | .wBits _ => stream
  | .wMagic => stream
  | .wClose => stream
  | .rOpen => opened
  | .rBits _ => stream
  | .rMagic => stream
  | .rClose => stream
  | .tSerialize => stream
  | .tDeserialize => stream
  | .sEncode => input || stream
  | .sDecode => output || stream

/-- The address lies in a region the issued command uses: a host access there is one the host is assumed never to make (R139). -/
def regionInUse (s : State) (a : Nat) : Bool :=
  s.cmd.busy && !s.cmd.fault &&
    match decode s.cmd.pcmd with
    | .command i => usesAddress s i a
    | .illegal _ => false

/-- A host store of one byte of system memory (20_memory.md R42, R62). -/
def hostStore (s : State) (a : Word) (v : Byte) : Host.Outcome State Fault Refusal :=
  if regionInUse s a.toNat then .refused .regionInUse else .next { s with mem := s.mem.write a.toNat v }

/-- The word the host's read returned (entry 9). -/
def State.setLastRead (s : State) (v : Word) : State := { s with env := { s.env with lastRead := v } }

/-- A host read of one byte of system memory. -/
def hostLoad (s : State) (a : Word) : Host.Outcome State Fault Refusal :=
  if regionInUse s a.toNat then .refused .regionInUse
  else .next (s.setLastRead ((s.mem.read a.toNat).setWidth 32))

/-- The Core has a step exactly when `BUSY = 1` and `FAULT = 0` (10_state.md R36). -/
def State.coreEnabled (s : State) : Bool := s.cmd.busy && !s.cmd.fault

end Sys2Proof.Machine
end

