-- ==== Sys2Proof/Machine/Step.lean ====
section
/-! DEFINITION. One step of the machine: the next turn is the Core's, the host's or the platform's (spec/10_state.md R36, 60_exceptions.md R121). -/

namespace Sys2Proof.Machine

/-- The Core step: decode `PCMD`, then execute it or raise `ILLEGAL_CMD(PCMD)` (10_state.md R36, 30_encoding.md R70). -/
def coreStep (s : State) : Host.Outcome State Fault Refusal :=
  match decode s.cmd.pcmd with
  | .command i => exec i s
  | .illegal _ => .next (s.enterFault .illegalCmd s.cmd.pcmd)

/-- The Core's turn: its step when it has one, else nothing happens (60_exceptions.md R133). -/
def coreTurn (s : State) : Host.Outcome State Fault Refusal := if s.coreEnabled then coreStep s else .next s

/-- What a turn does to the state it is taken in. -/
def takeTurn (t : Turn) (s : State) : Host.Outcome State Fault Refusal :=
  match t with
  | .core => coreTurn s
  | .write reg v => .next (writeReg s reg v)
  | .read reg => .next (s.setLastRead (readReg s reg))
  | .memWrite a v => hostStore s a v
  | .memRead a => hostLoad s a
  | .hardReset => .next s.resetBlock

/-- The state with its first waiting turn taken off the list. -/
def State.dropTurn (s : State) : State := { s with env := { s.env with turns := s.env.turns.tail } }

/-- One step: the first waiting turn; with none waiting, the Core's (entry 1). -/
def step (s : State) : Host.Outcome State Fault Refusal :=
  match s.env.turns with
  | [] => coreTurn s
  | t :: _ => takeTurn t s.dropTurn

/-- The state in which the command word `w` has just been issued and the very next turn is the Core's: this stands for the host's
write to `CMD`, the one way a command comes to run (10_state.md R21, entry 10). A fault in `s`, which would keep the Core from
stepping, is cleared. -/
def State.withFetchWord (s : State) (nbits w : Nat) : State :=
  { s with
    cmd :=
      { busy := true, pcmd := BitVec.ofNat 32 (w % 2 ^ nbits), done := false, err := .none, fault := false, fcode := .none,
        fop := 0, finfo := 0 }
    env := { s.env with turns := .core :: s.env.turns } }

end Sys2Proof.Machine
end

