-- ==== Sys2Proof/Safety.lean ====
section
/-! DEFINITION. The terms the claims use: bus draws, the bit region as bits, tree shapes, and the invariants of a good state. -/

namespace Sys2Proof.Machine

/-! ### Bus draws -/

/-- The draw of the i-th coming access: settled, or free beyond the settled ones (20_memory.md R43). -/
def Env.drawAt (e : Env) (i : Nat) : Bool :=
  match e.draws[i]? with
  | some b => b
  | none => Config.busOk (e.drawn + i)

/-- The bus completes the next `n` accesses. A claim that needs accesses to succeed has this as its hypothesis (93 I-2). -/
def Env.completes (e : Env) (n : Nat) : Bool := (List.range n).all e.drawAt

/-! ### The bit region -/

/-- Bit `k` of the bit region of a file at `base` (20_memory.md R50). -/
def regionBit (m : Memory) (base k : Nat) : Bool := (m.read (base + 4 + k / 8)).getLsbD (7 - k % 8)

/-- The `n` bits of the bit region from bit `k` on. -/
def regionBits (m : Memory) (base k n : Nat) : List Bool := (List.range n).map fun i => regionBit m base (k + i)

/-- The bits a writer has been given since it was opened: those committed to bytes, then those buffered (42_bitchannel.md R97). -/
def State.written (s : State) : List Bool :=
  regionBits s.mem s.ch.lbase.toNat 0 s.ch.chT.toNat ++ bitsMsb s.ch.bn.toNat s.ch.bacc

/-- The `n` bits in front of a reader. -/
def State.ahead (s : State) (n : Nat) : List Bool := regionBits s.mem s.ch.lbase.toNat s.ch.chC.toNat n

/-- The `n` bytes of memory from `a` on. -/
def bytesAt (m : Memory) (a n : Nat) : List Byte := (List.range n).map fun i => m.read (a + i)

/-- The big-endian number in the four bytes at `a` (20_memory.md R51). -/
def headerAt (m : Memory) (a : Nat) : Nat :=
  (m.read a).toNat * 2 ^ 24 + (m.read (a + 1)).toNat * 2 ^ 16 + (m.read (a + 2)).toNat * 2 ^ 8 + (m.read (a + 3)).toNat

/-- How many bytes a writer commits when it is given `n` bits more. -/
def Channel.commits (c : Channel) (n : Nat) : Nat := (c.bn.toNat + n) / 8

/-- The stream region and the header have room for `n` bits more (20_memory.md R55). -/
abbrev Channel.room (c : Channel) (n : Nat) : Prop :=
  4 + c.chT.toNat / 8 + c.commits n ≤ c.llen.toNat ∧ c.chT.toNat + 8 * c.commits n ≤ 0xFFFFFFF8

/-- How many bytes a reader fetches to consume `n` bits more (20_memory.md R56). -/
def Channel.fetches (c : Channel) (n : Nat) : Nat := (c.chC.toNat + n + 7) / 8 - (c.chC.toNat + 7) / 8

/-! ### The channel's invariants -/

/-- What holds while the channel is a writer (42_bitchannel.md R97); `BN` is 8 only after a fault at the commit of a full byte
(20_memory.md R54). -/
abbrev WriterOk (s : State) : Prop :=
  regionOK s.ch.lbase s.ch.llen = true ∧ s.ch.chT.toNat % 8 = 0 ∧
    s.ch.pos = s.ch.lbase.toNat + 4 + s.ch.chT.toNat / 8 ∧ (s.ch.bn.toNat ≤ 7 ∨ (s.ch.bn = 8 ∧ s.cmd.fault = true)) ∧
      4 + s.ch.chT.toNat / 8 ≤ s.ch.llen.toNat

/-- What holds while the channel is a reader (42_bitchannel.md R97, R102, R104). -/
abbrev ReaderOk (s : State) : Prop :=
  regionOK s.ch.lbase s.ch.llen = true ∧ s.ch.chC.toNat ≤ s.ch.chT.toNat ∧
    s.ch.pos = s.ch.lbase.toNat + 4 + (s.ch.chC.toNat + 7) / 8 ∧ s.ch.bn.toNat = (8 - s.ch.chC.toNat % 8) % 8 ∧
      4 + (s.ch.chT.toNat + 7) / 8 ≤ s.ch.llen.toNat ∧ s.ch.rpad.toNat ≤ s.ch.chT.toNat

/-- The bit channel in every mode. -/
def ChannelOk (s : State) : Prop :=
  match s.ch.mode with
  | .idle => True
  | .write => WriterOk s
  | .read => ReaderOk s

/-- The bits a reader has buffered are still those memory holds: the stream region did not change under it (20_memory.md R56,
42_bitchannel.md R97). -/
abbrev BufferAgrees (s : State) : Prop :=
  ∀ i < s.ch.bn.toNat, s.ch.bacc.getLsbD i = (s.mem.read (s.ch.pos - 1)).getLsbD i

/-! ### The handshake -/

/-- Command, error and fault state between steps (10_state.md R21, R22, R38, 60_exceptions.md R118). -/
def HandshakeOk (s : State) : Prop :=
  (s.cmd.fault = true →
      s.cmd.busy = false ∧ s.cmd.done = false ∧ s.cmd.err = .none ∧ s.cmd.fcode ≠ .none ∧ s.cmd.fop = opField s.cmd.pcmd) ∧
    (s.cmd.fault = false → s.cmd.fcode = .none ∧ s.cmd.fop = 0 ∧ s.cmd.finfo = 0) ∧
      (s.cmd.busy = true → s.cmd.done = false ∧ s.cmd.err = .none)

/-! ### Trees -/

/-- The tree an arena holds, without its handles and frequencies (10_state.md R27, R28). -/
inductive Shape where
  | leaf (sym : Byte)
  | placeholder
  | inner (l r : Shape)
  deriving DecidableEq, Repr

/-- The shape below a handle, `none` where the entries are no tree of the given number of levels. -/
def shapeAt (t : Arena) : Nat → Handle → Option Shape
  | 0, _ => none
  | d + 1, h =>
    match t.of h with
    | none => none
    | some n =>
      match n.kind with
      | .leaf => some (.leaf n.sym)
      | .placeholder => some .placeholder
      | .free => none
      | .inner =>
        match shapeAt t d n.left, shapeAt t d n.right with
        | some l, some r => some (.inner l r)
        | _, _ => none

/-- The shape of the tree at `ROOT`. -/
def Tree.shape (t : Tree) : Option Shape := shapeAt t.node maxLevels t.root

/-- The leaf symbols, left to right. -/
def Shape.leaves : Shape → List Byte
  | .leaf y => [y]
  | .placeholder => []
  | .inner l r => l.leaves ++ r.leaves

/-- A full binary tree of leaves: no placeholder (10_state.md R28). -/
def Shape.full : Shape → Bool
  | .leaf _ => true
  | .placeholder => false
  | .inner l r => l.full && r.full

/-- A tree HUFFCORE holds: a full binary tree with an internal root, or the A = 1 tree (10_state.md R28, 41_tree_codec.md R94). -/
def Shape.legal : Shape → Bool
  | .inner (.leaf _) .placeholder => true
  | .inner l r => l.full && r.full
  | .leaf _ => false
  | .placeholder => false

/-- The serialized form (41_tree_codec.md R88). -/
def Shape.bits : Shape → List Bool
  | .leaf y => false :: bitsMsb 8 y
  | .placeholder => [true]
  | .inner l r => true :: (l.bits ++ r.bits)

/-- The serialized-tree cost: 1 bit per internal node, the placeholder counted, and 9 per leaf (40_frequency_tree.md R83). -/
def Shape.cost : Shape → Nat
  | .leaf _ => 9
  | .placeholder => 1
  | .inner l r => 1 + l.cost + r.cost

/-- Reading the serialized form up to the end of the first leaf that repeats a symbol of `seen` or of an earlier leaf, or to its end: how
many bits that takes, and the symbols seen, `none` where one was repeated (41_tree_codec.md R91). -/
def Shape.readUntilRepeat : Shape → List Byte → Nat × Option (List Byte)
  | .leaf y, seen => (9, if y ∈ seen then none else some (y :: seen))
  | .placeholder, seen => (1, some seen)
  | .inner l r, seen =>
    match l.readUntilRepeat seen with
    | (n, none) => (1 + n, none)
    | (n, some seen) => (1 + n + (r.readUntilRepeat seen).1, (r.readUntilRepeat seen).2)

/-- What lies between the reader and the payload end starts with the serialized form of a tree HUFFCORE holds; behind the tree of A = 1
every bit is 0 (41_tree_codec.md R88, R93, R94). -/
def State.treeAhead (s : State) (sh : Shape) : Prop :=
  sh.legal = true ∧ sh.leaves.Nodup ∧ sh.cost ≤ s.ch.bitsLeft ∧ s.ahead sh.cost = sh.bits ∧
    (sh.full = false → ∀ b ∈ (s.ahead s.ch.bitsLeft).drop sh.cost, b = false)

/-- The root-to-leaf path of a symbol, 0 = left, 1 = right (40_frequency_tree.md R83). -/
def Shape.path : Shape → Byte → Option (List Bool)
  | .leaf y, x => if x = y then some [] else none
  | .placeholder, _ => none
  | .inner l r, x =>
    match l.path x with
    | some p => some (false :: p)
    | none =>
      match r.path x with
      | some p => some (true :: p)
      | none => none

/-- The path of a symbol in the current tree; the empty tree has none. -/
def Tree.pathOf (t : Tree) (x : Byte) : Option (List Bool) :=
  if t.root = nilHandle then none
  else
    match t.shape with
    | some sh => sh.path x
    | none => none

/-- The serialized-tree cost of the current tree; 0 for the empty tree (40_frequency_tree.md R82). -/
def Tree.cost (t : Tree) : Nat :=
  if t.root = nilHandle then 0
  else
    match t.shape with
    | some sh => sh.cost
    | none => 0

/-- The serialized form of the current tree; no bits for the empty tree (41_tree_codec.md R88). -/
def Tree.form (t : Tree) : List Bool :=
  if t.root = nilHandle then []
  else
    match t.shape with
    | some sh => sh.bits
    | none => []

/-- The symbol-stream cost under a frequency map: Σ of frequency times path length (40_frequency_tree.md R82). -/
def Tree.dataBits (t : Tree) (f : FreqTable) : Nat :=
  (symbols.map fun x =>
    match t.pathOf x with
    | some p => (f.of x).toNat * p.length
    | none => 0).sum

/-- Entry `z` stands in the builder's collection when entry `h` is created, among `a` leaves: it exists and no earlier merge took
it. New entries are appended at the end and get rising handles, so the earlier of two positions is the smaller handle
(40_frequency_tree.md R78, R80). -/
def Tree.waits (t : Tree) (a h : Nat) (z : Handle) : Prop :=
  z.toNat < h ∧ ∀ h', a ≤ h' → h' < h → ∀ n, t.node.of (BitVec.ofNat 9 h') = some n → n.left ≠ z ∧ n.right ≠ z

/-- Entry `x` comes before entry `z` in the merge selection: less frequency, or the same and an earlier position (R78). -/
def Tree.precedes (t : Tree) (x z : Handle) : Prop :=
  (t.node.weight x).toNat < (t.node.weight z).toNat ∨
    ((t.node.weight x).toNat = (t.node.weight z).toNat ∧ x.toNat < z.toNat)

/-- The entry that a walk from `h` along the bits reaches, through internal nodes only (43_stream_codec.md R108). -/
def descend (t : Arena) : Handle → List Bool → Option Node
  | h, [] => t.of h
  | h, b :: p =>
    match t.of h with
    | some n => if n.kind = .inner then descend t (if b then n.right else n.left) p else none
    | none => none

/-- While `TVALID = 1` the arena holds a tree HUFFCORE can hold, with distinct leaf symbols, `ALPHA` of them; or the empty tree
(10_state.md R28, R29, 40_frequency_tree.md R86, R87). -/
def TreeOk (s : State) : Prop :=
  s.tree.tvalid = true →
    (s.tree.root = nilHandle ∧ s.tree.alpha = 0) ∨
      (s.tree.root ≠ nilHandle ∧
        ∃ sh, s.tree.shape = some sh ∧ sh.legal = true ∧ sh.leaves.Nodup ∧ s.tree.alpha.toNat = sh.leaves.length)

/-- While `CVALID = 1`, `ENC` is the code table of the current tree and `TREE_BITS` its cost (10_state.md R30, R32). -/
def CodesOk (s : State) : Prop :=
  s.codes.cvalid = true →
    s.tree.tvalid = true ∧
      ∃ tb, codesOfTree s.tree.node s.tree.root = .ok (s.codes.enc, tb) ∧ s.codes.treeBits = BitVec.ofNat 32 tb

/-- A good state: every invariant of the machine. -/
def State.Good (s : State) : Prop := s.mem.wf = true ∧ HandshakeOk s ∧ ChannelOk s ∧ TreeOk s ∧ CodesOk s

/-- The codes of a byte string, one after another (43_stream_codec.md R106). -/
def codeString (e : CodeTable) (msg : List Byte) : List Bool := msg.flatMap fun y => (e.of y).string

/-- The command `i`, run on `s`, gives the writer the bit string `p` first of all, `reads` bus reads being made before the last of its bits
and `first` commits before the last of these reads. `S_ENCODE` reads a byte and then writes its code; the others write without reading
(42_bitchannel.md R99, R100, 41_tree_codec.md R90, 43_stream_codec.md R106). -/
def State.gives (s : State) (i : Instr) (p : List Bool) (reads first : Nat) : Prop :=
  match i with
  | .wBits n => countOk n = true ∧ p = bitsMsb n.toNat s.regs.arg ∧ reads = 0 ∧ first = 0
  | .wMagic =>
    s.codes.cvalid = true ∧ p = bitsMsb 8 (0x48 : Byte) ++ bitsMsb 8 (0x46 : Byte) ++ bitsMsb 8 (s.codes.wpad.setWidth 8) ∧
      reads = 0 ∧ first = 0
  | .tSerialize => s.tree.tvalid = true ∧ TreeOk s ∧ p = s.tree.form ∧ reads = 0 ∧ first = 0
  | .sEncode =>
    s.codes.cvalid = true ∧ regionOK s.regs.ibase s.regs.ilen = true ∧
      overlaps s.regs.ibase s.regs.ilen s.ch.lbase s.ch.llen = false ∧ 1 ≤ reads ∧ reads ≤ s.regs.ilen.toNat ∧
        (∀ y ∈ bytesAt s.mem s.regs.ibase.toNat reads, (s.codes.enc.of y).valid = true) ∧
          p = codeString s.codes.enc (bytesAt s.mem s.regs.ibase.toNat reads) ∧
            first = s.ch.commits (codeString s.codes.enc (bytesAt s.mem s.regs.ibase.toNat (reads - 1))).length
  | .freqClear | .freqCount | .treeBuild | .codesBuild | .wOpen | .wClose | .rOpen | .rBits _ | .rMagic | .rClose
  | .tDeserialize | .sDecode => False

/-- How a fault at commit `j` (from 0) of the bit string `p` leaves the writer: the bytes before it committed, its byte in `BACC` with
`BN = 8`, neither `BPOS` nor `CH_T` counting it (20_memory.md R54, R55, 60_exceptions.md R119). -/
def Uncommitted (s t : State) (p : List Bool) (j : Nat) : Prop :=
  t.ch.mode = .write ∧ t.ch.pos = s.ch.pos + j ∧ t.ch.chT.toNat = s.ch.chT.toNat + 8 * j ∧ t.ch.bn = 8 ∧
    bitsMsb 8 t.ch.bacc = ((bitsMsb s.ch.bn.toNat s.ch.bacc ++ p).drop (8 * j)).take 8 ∧
      regionBits t.mem s.ch.lbase.toNat 0 (s.ch.chT.toNat + 8 * j) = (s.written ++ p).take (s.ch.chT.toNat + 8 * j)

/-- The channel mode a command needs, none for those that run in any mode (42_bitchannel.md R96). -/
def modeNeeded : Instr → Option ChMode
  | .freqClear => none
  | .freqCount => none
  | .treeBuild => none
  | .codesBuild => none
  | .wOpen => some .idle
  | .wBits _ => some .write
  | .wMagic => some .write
  | .wClose => some .write
  | .rOpen => some .idle
  | .rBits _ => some .read
  | .rMagic => some .read
  | .rClose => some .read
  | .tSerialize => some .write
  | .tDeserialize => some .read
  | .sEncode => some .write
  | .sDecode => some .read

end Sys2Proof.Machine
end

