-- ==== Sys2Proof/Certificates/Slice0/Obligations.lean ====
section
/-! DEFINITION. The statements for the provers, in the order of spec/: encoding, host interface, every command, each family, invariants. -/

open Sys2Proof Sys2Proof.Machine

/-! ### Encoding (30_encoding.md) -/

/-- Decoding and encoding agree: an encoded command decodes to itself, with every count its encoding admits, and a word that decodes to a
command is that command's one encoding, so no bit of a word is ignored (R67, R69, R70, R72). -/
def Obligations.DecodeAndEncodeAgree : Prop :=
  (∀ i : Instr, i.wellFormed = true → decode (encode i) = .command i ∧ decodeTableWord 32 (encode i).toNat = some i) ∧
    ∀ (w : Word) (i : Instr), decode w = .command i → i.wellFormed = true ∧ encode i = w

/-- A few words of each family, written out from R67 and R69, decode to the commands they stand for. -/
def Obligations.WordsDecode : Prop :=
  decode 0b000000000000000000_000000_00000001#32 = .command .freqClear ∧
    decode 0b000000000000000000_000000_00000011#32 = .command .treeBuild ∧
      decode 0b000000000000000000_000011_00010001#32 = .command (.wBits 3) ∧
        decode 0b000000000000000000_100000_00011001#32 = .command (.rBits 32) ∧
          decode 0b000000000000000000_000000_00011010#32 = .command .rMagic ∧
            decode 0b000000000000000000_000000_00100001#32 = .command .tDeserialize ∧
              decode 0b000000000000000000_000000_00110000#32 = .command .sEncode

/-- R70: the Core step decodes `PCMD` first. A word with a reserved bit set, an opcode outside the map or a count outside its
range raises `ILLEGAL_CMD` with `FINFO` = the word; any other word runs the command of its `OP` with its `N`. -/
def Obligations.CoreStepDecodesFirst : Prop :=
  ∀ s : State, s.cmd.busy = true → s.cmd.fault = false → s.env.turns = [] →
    let op := s.cmd.pcmd.toNat % 2 ^ 8
    let n := s.cmd.pcmd.toNat / 2 ^ 8 % 2 ^ 6
    let illegal :=
      s.cmd.pcmd.toNat / 2 ^ 14 ≠ 0 ∨
        op ∉ [0x01, 0x02, 0x03, 0x04, 0x10, 0x11, 0x12, 0x13, 0x18, 0x19, 0x1A, 0x1B, 0x20, 0x21, 0x30, 0x31] ∨
          (op ∈ [0x11, 0x19] ∧ (n = 0 ∨ 32 < n)) ∨ (op ∉ [0x11, 0x19] ∧ n ≠ 0)
    (illegal →
        step s = .next { s with
          cmd := { s.cmd with
            fault := true, fcode := .illegalCmd, fop := BitVec.ofNat 8 op, finfo := s.cmd.pcmd, busy := false } }) ∧
      (¬illegal →
        ∃ i, decode s.cmd.pcmd = .command i ∧ (opcodeOf i).toNat = op ∧ (countOf i).toNat = n ∧ step s = exec i s)

/-! ### Steps and the host's register window (10_state.md) -/

/-- A step runs the decoded command: with a command issued, the Core's turn is `exec` of it, on the state with the turn taken off
the list; unless `BUSY = 1` and `FAULT = 0` the Core's turn changes nothing (10_state.md R36, 60_exceptions.md R133). Which turn comes
next is the model's list (entry 1). -/
def Obligations.StepRunsDecodedCommand : Prop :=
  ∀ s : State,
    (∀ i : Instr, s.cmd.busy = true → s.cmd.fault = false → decode s.cmd.pcmd = .command i →
      (s.env.turns = [] → step s = exec i s) ∧
        ∀ ts, s.env.turns = .core :: ts → step s = exec i { s with env := { s.env with turns := ts } }) ∧
      ((s.cmd.busy = false ∨ s.cmd.fault = true) →
        (s.env.turns = [] → step s = .next s) ∧
          ∀ ts, s.env.turns = .core :: ts → step s = .next { s with env := { s.env with turns := ts } })

/-- R21: a host write of `w` to `CMD` does exactly one of three things, and it decodes nothing. -/
def Obligations.CommandWrite : Prop :=
  ∀ (s : State) (w : Word) (ts : List Turn), s.env.turns = .write 0x002 w :: ts →
    let u : State := { s with env := { s.env with turns := ts } }
    (s.cmd.fault = true → step s = .next u) ∧
      (s.cmd.fault = false → s.cmd.busy = true →
          step s = .next { u with
            cmd := { u.cmd with
              fault := true, fcode := .busyWrite, fop := opField u.cmd.pcmd, finfo := 0x008, busy := false } }) ∧
        (s.cmd.fault = false → s.cmd.busy = false →
          step s = .next { u with cmd := { u.cmd with pcmd := w, busy := true, done := false, err := .none } })

/-- R37: a host write while `BUSY = 1` to any offset but `CTRL` writes no register, raises `BUSY_WRITE` with the offset and discards the
command; a host read returns the state before the Core step. -/
def Obligations.BusyWrite : Prop :=
  ∀ (s : State) (reg : BitVec 10) (ts : List Turn), s.cmd.busy = true → s.cmd.fault = false →
    let u : State := { s with env := { s.env with turns := ts } }
    (∀ v, reg ≠ 0x001 → s.env.turns = .write reg v :: ts →
        ∃ t, step s = .next t ∧ t.coreEnabled = false ∧
          t = { u with
            cmd := { u.cmd with
              fault := true, fcode := .busyWrite, fop := u.cmd.pcmd.extractLsb' 0 8,
              finfo := BitVec.ofNat 32 (4 * reg.toNat), busy := false } }) ∧
      (s.env.turns = .read reg :: ts → step s = .next { u with env := { u.env with lastRead := readReg s reg } })

/-- R17, R18, R24: while no command is issued, a write to a read-only or unmapped offset changes nothing; a read has no effect but on the
word returned; an unmapped offset reads 0, and the read-only views read the registers of their names, a 64-bit one as its two halves.
Here `reg` is offset / 4. -/
def Obligations.ReadOnlyRegisters : Prop :=
  ∀ (s : State) (reg : BitVec 10) (ts : List Turn),
    let u : State := { s with env := { s.env with turns := ts } }
    (∀ v, s.cmd.busy = false →
        4 * reg.toNat ∉ [0x004, 0x008, 0x010, 0x018, 0x01C, 0x020, 0x024, 0x028, 0x02C, 0x068, 0x06C, 0x070, 0x07C, 0x080] →
          s.env.turns = .write reg v :: ts → step s = .next u) ∧
      (s.env.turns = .read reg :: ts → step s = .next { u with env := { u.env with lastRead := readReg s reg } }) ∧
      (0x08C < 4 * reg.toNat → readReg s reg = 0) ∧ readReg s 0x000 = 0x48554631 ∧ readReg s 0x002 = 0 ∧
      (readReg s 0x011).toNat = s.codes.dataBits.toNat % 2 ^ 32 ∧ (readReg s 0x012).toNat = s.codes.dataBits.toNat / 2 ^ 32 ∧
      (readReg s 0x015).toNat = s.codes.proj.toNat % 2 ^ 32 ∧ (readReg s 0x016).toNat = s.codes.proj.toNat / 2 ^ 32 ∧
      readReg s 0x005 = s.res.result ∧ readReg s 0x00C = s.res.ocnt ∧ readReg s 0x00D = s.cnt.total ∧
      (readReg s 0x00E).toNat = s.tree.alpha.toNat ∧ (readReg s 0x00F).toNat = s.tree.root.toNat ∧
      readReg s 0x010 = s.codes.treeBits ∧ (readReg s 0x013).toNat = s.codes.wpad.toNat ∧
      (readReg s 0x014).toNat = s.ch.rpad.toNat ∧ readReg s 0x017 = s.ch.chT ∧ readReg s 0x018 = s.ch.chC ∧
      readReg s 0x019 = s.ch.fileLen ∧ readReg s 0x023 = s.cmd.finfo

/-- R18, R23: a host write, with no command issued, to a plain storage register stores the bits of its width and nothing else, and the
register reads back what was stored. -/
def Obligations.PlainRegistersStore : Prop :=
  ∀ (s : State) (v : Word) (ts : List Turn) (reg : BitVec 10), s.cmd.busy = false → s.env.turns = .write reg v :: ts →
    let u : State := { s with env := { s.env with turns := ts } }
    let stores (r : HostRegs) (kept : Word) : Prop :=
      step s = .next { u with regs := r } ∧ readReg { u with regs := r } reg = kept
    (4 * reg.toNat = 0x010 → stores { s.regs with arg := v } v) ∧
      (4 * reg.toNat = 0x018 → stores { s.regs with ibase := v } v) ∧
      (4 * reg.toNat = 0x01C → stores { s.regs with ilen := v } v) ∧
      (4 * reg.toNat = 0x020 → stores { s.regs with sbase := v } v) ∧
      (4 * reg.toNat = 0x024 → stores { s.regs with slen := v } v) ∧
      (4 * reg.toNat = 0x028 → stores { s.regs with obase := v } v) ∧
      (4 * reg.toNat = 0x02C → stores { s.regs with olen := v } v) ∧
      (4 * reg.toNat = 0x068 → stores { s.regs with freqIdx := v.setWidth 8 } (v &&& 0xFF)) ∧
      (4 * reg.toNat = 0x070 → stores { s.regs with nodeIdx := v.setWidth 9 } (v &&& 0x1FF)) ∧
      (4 * reg.toNat = 0x07C → stores { s.regs with codeIdx := v.setWidth 8 } (v &&& 0xFF)) ∧
      (4 * reg.toNat = 0x080 → stores { s.regs with codeWsel := v.setWidth 3 } (v &&& 0x7))

/-- R26: `FREQ_DATA` reads the selected counter; a host write sets that counter alone and clears `TVALID` and `CVALID`; `FREQ_IDX`
does not move. -/
def Obligations.FreqDataWindow : Prop :=
  ∀ s : State, readReg s 0x01B = s.cnt.freq.of s.regs.freqIdx ∧
    ∀ (v : Word) (ts : List Turn), s.cmd.busy = false → s.env.turns = .write 0x01B v :: ts →
      ∃ t, step s = .next t ∧ readReg t 0x01B = v ∧ t.cnt.freq.of s.regs.freqIdx = v ∧
        (∀ x, x ≠ s.regs.freqIdx → t.cnt.freq.of x = s.cnt.freq.of x) ∧ t.tree.tvalid = false ∧ t.codes.cvalid = false ∧
          t.regs = s.regs ∧ t.cmd = s.cmd ∧ t.res = s.res ∧ t.cnt.total = s.cnt.total ∧
            t.tree = { s.tree with tvalid := false } ∧ t.codes = { s.codes with cvalid := false } ∧ t.ch = s.ch ∧ t.mem = s.mem

/-- R20: a `CTRL` write with `SRST = 0`, at any time, sets `IE` to bit 1 and with bit 2 clears `DONE`, and does nothing else; only `IE`
reads back. -/
def Obligations.ControlWrite : Prop :=
  ∀ (s : State) (v : Word) (ts : List Turn), s.env.turns = .write 0x001 v :: ts → v.getLsbD 0 = false →
    let t : State :=
      { s with
        regs := { s.regs with ie := v.getLsbD 1 }
        cmd := { s.cmd with done := if v.getLsbD 2 then false else s.cmd.done }
        env := { s.env with turns := ts } }
    step s = .next t ∧ readReg t 0x001 = v &&& 0x2

/-- R134, R136: a soft reset at any time, busy or faulted, and a hard reset leave the same state: every register, array and flag at the
value R134 gives it, `IRQ` low, no command issued; system memory is not touched. Two clauses are the model's choice: that `NODE_DATA0`,
a view, reads 0x0FFFFC00, the children `NIL` of entry 0, where R134's summary has "every other register reads 0" (entry 18); and that a hard
reset is one turn (entry 12). -/
def Obligations.ResetAction : Prop :=
  ∀ (s : State) (ts : List Turn),
    (s.env.turns = .hardReset :: ts ∨ ∃ v : Word, s.env.turns = .write 0x001 v :: ts ∧ v.getLsbD 0 = true) →
      ∃ t, step s = .next t ∧ t.mem = s.mem ∧ t.coreEnabled = false ∧ t.irq = false ∧
        (∀ reg, readReg t reg = if reg = 0x000 then 0x48554631 else if reg = 0x00F then 511 else if reg = 0x01D then 0x0FFFFC00 else 0) ∧
          t.regs = ⟨0, 0, 0, 0, 0, 0, 0, 0, 0, 0, 0, false⟩ ∧ t.cmd = ⟨false, 0, false, .none, false, .none, 0, 0⟩ ∧
            t.res = ⟨0, 0⟩ ∧ (∀ x, t.cnt.freq.of x = 0) ∧ t.cnt.total = 0 ∧
              (∀ h : Handle, h ≠ 511 → t.tree.node.of h = some ⟨.free, 0, 511, 511, 0⟩) ∧ t.tree.root = 511 ∧ t.tree.alpha = 0 ∧
                t.tree.tvalid = false ∧ (∀ x, t.codes.enc.of x = ⟨false, 0, 0⟩) ∧ t.codes.cvalid = false ∧
                  t.codes.treeBits = 0 ∧ t.codes.dataBits = 0 ∧ t.codes.wpad = 0 ∧ t.codes.proj = 0 ∧ t.codes.worth = false ∧
                    t.ch = ⟨.idle, 0, 0, 0, false, 0, 0, 0, 0, 0, 0⟩

/-- R22: every field of `STATUS`, at its bits, computed from the state, with the codes of R114 and R115. -/
def Obligations.StatusFields : Prop :=
  ∀ s : State,
    (readReg s 0x003).toNat =
      s.cmd.busy.toNat + 2 ^ 1 * s.cmd.done.toNat + 2 ^ 2 * s.cmd.fault.toNat +
        2 ^ 3 * (match s.ch.mode with | .idle => 0 | .write => 1 | .read => 2) +
        2 ^ 5 * (decide (s.ch.mode = .read ∧ s.ch.chC = s.ch.chT)).toNat +
        2 ^ 6 * (decide (s.ch.mode = .read ∧ s.ch.chC.toNat + s.ch.rpad.toNat = s.ch.chT.toNat)).toNat +
        2 ^ 7 * s.tree.tvalid.toNat + 2 ^ 8 * s.codes.cvalid.toNat + 2 ^ 9 * s.codes.worth.toNat +
        2 ^ 12 *
          (match s.cmd.err with
            | .none => 0 | .badMagic => 1 | .badLength => 2 | .badPad => 3 | .badTree => 4 | .badCode => 5 | .residue => 6
            | .freqOverflow => 7) +
        2 ^ 16 *
          (match s.cmd.fcode with
            | .none => 0x00 | .illegalCmd => 0x01 | .busyWrite => 0x02 | .wrongMode => 0x03 | .readPastEnd => 0x04
            | .noTree => 0x05 | .noCodes => 0x06 | .unknownSymbol => 0x07 | .streamOverflow => 0x08 | .sinkOverflow => 0x09
            | .headerOverflow => 0x0A | .regionFault => 0x0B | .busError => 0x0C) +
        2 ^ 24 * s.cmd.fop.toNat

/-- R39, R40: the arena window and the code window. Bit 31 of word 0 of `CODE_DATA` is the first bit of the code. -/
def Obligations.InspectionWindows : Prop :=
  ∀ s : State,
    (∀ n, s.tree.node.of s.regs.nodeIdx = some n →
        (readReg s 0x01D).toNat =
            (match n.kind with | .free => 0 | .leaf => 1 | .inner => 2 | .placeholder => 3) + 2 ^ 2 * n.sym.toNat +
              2 ^ 10 * n.left.toNat + 2 ^ 19 * n.right.toNat ∧
          readReg s 0x01E = n.freq) ∧
      (s.regs.nodeIdx ≠ 511 → (s.tree.node.of s.regs.nodeIdx).isSome = true) ∧
      (s.regs.nodeIdx = 511 → readReg s 0x01D = 0 ∧ readReg s 0x01E = 0) ∧
      (readReg s 0x021).toNat =
        2 ^ 8 * (s.codes.enc.of s.regs.codeIdx).valid.toNat + (s.codes.enc.of s.regs.codeIdx).len.toNat ∧
      ∀ j < 32, (readReg s 0x022).getLsbD j =
        (s.codes.enc.of s.regs.codeIdx).bits.getLsbD (224 - 32 * s.regs.codeWsel.toNat + j)

/-- The host stores and reads one byte of memory, and nothing else changes, unless the address lies in a region the issued command uses, as
R139 names them: that move, and no other step, is refused (70_reset_and_hazards.md R139, R144). The refusal, and the stream region of an
open as `SBASE`, `SLEN` and of the other commands as `LBASE`, `LLEN`, are the model's choice (entry 8). -/
def Obligations.HostMemoryMoves : Prop :=
  (∀ (s : State) (a : Word) (ts : List Turn), s.mem.wf = true →
    let u : State := { s with env := { s.env with turns := ts } }
    let lies (base len : Word) : Prop := base.toNat ≤ a.toNat ∧ a.toNat < base.toNat + len.toNat
    let inUse : Prop :=
      s.cmd.busy = true ∧ s.cmd.fault = false ∧ ∃ i, decode s.cmd.pcmd = .command i ∧
        ((i ∈ [.freqCount, .sEncode] ∧ lies s.regs.ibase s.regs.ilen) ∨ (i ∈ [.wOpen, .rOpen] ∧ lies s.regs.sbase s.regs.slen) ∨
          ((i ∈ [.wMagic, .wClose, .rMagic, .rClose, .tSerialize, .tDeserialize, .sEncode, .sDecode] ∨
              (∃ n, i = .wBits n) ∨ ∃ n, i = .rBits n) ∧ lies s.ch.lbase s.ch.llen) ∨
            (i = .sDecode ∧ lies s.regs.obase s.regs.olen))
    (∀ v, s.env.turns = .memWrite a v :: ts →
        (inUse → step s = .refused .regionInUse) ∧
          (¬inUse → ∃ m : Memory, step s = .next { u with mem := m } ∧ m.wf = true ∧ m.read a.toNat = v ∧
            ∀ b, b ≠ a.toNat → m.read b = s.mem.read b)) ∧
      (s.env.turns = .memRead a :: ts →
        (inUse → step s = .refused .regionInUse) ∧
          (¬inUse → step s = .next { u with env := { u.env with lastRead := (s.mem.read a.toNat).setWidth 32 } }))) ∧
    ∀ (s : State) (r : Refusal), step s = .refused r →
      r = .regionInUse ∧ s.cmd.busy = true ∧ s.cmd.fault = false ∧
        ∃ a ts, s.env.turns = .memRead a :: ts ∨ ∃ v, s.env.turns = .memWrite a v :: ts

/-- R38, R124: a fault is left only by a reset; until then `FAULT`, `FCODE`, `FOP`, `FINFO` and `PCMD` stay, whatever turn is taken, and a
reset clears it. -/
def Obligations.FaultIsSticky : Prop :=
  ∀ s t : State, s.cmd.fault = true → step s = .next t →
    let resets : Prop :=
      (∃ ts, s.env.turns = .hardReset :: ts) ∨ ∃ v ts, s.env.turns = .write 0x001 v :: ts ∧ v.getLsbD 0 = true
    (resets → t.cmd.fault = false) ∧
      (¬resets → t.cmd.fault = true ∧ t.cmd.busy = s.cmd.busy ∧ t.cmd.fcode = s.cmd.fcode ∧ t.cmd.fop = s.cmd.fop ∧
        t.cmd.finfo = s.cmd.finfo ∧ t.cmd.pcmd = s.cmd.pcmd ∧ t.coreEnabled = false)

/-! ### Rules of every command (60_exceptions.md) -/

/-- R36, R116, R117, R118, R122: a command that was issued ends in exactly one way: completed, with or without an error, or in a fault
that records the opcode byte and leaves `DONE` and `ERR` 0. Before the step `IRQ` is low; after it, in every case, `IRQ = IE`. -/
def Obligations.CommandEndsOneWay : Prop :=
  ∀ (i : Instr) (s t : State), HandshakeOk s → s.cmd.busy = true → exec i s = .next t →
    t.cmd.busy = false ∧ t.cmd.pcmd = s.cmd.pcmd ∧ s.irq = false ∧ t.irq = s.regs.ie ∧
      ((t.cmd.done = true ∧ t.cmd.fault = false ∧ t.cmd.fcode = .none ∧ t.cmd.fop = 0 ∧ t.cmd.finfo = 0) ∨
        (t.cmd.done = false ∧ t.cmd.err = .none ∧ t.cmd.fault = true ∧ t.cmd.fcode ≠ .none ∧
          t.cmd.fop = s.cmd.pcmd.extractLsb' 0 8))

/-- R23, R24, R25, R29, R30, R33, R34, R35: commands never write the host's registers or `PCMD`, and each result register, counter, table,
channel register and flag is written by the commands its rule names, and by no other; `ERR` changes only with `DONE` set, the fault
registers only with `FAULT` set; memory is written only by the commands that write the stream or the output; no command takes a coming
turn or touches what the host last read. -/
def Obligations.OnlyNamedCommandsWrite : Prop :=
  ∀ (i : Instr) (s t : State), exec i s = .next t →
    let writesBits : Prop := (∃ n, i = .wBits n) ∨ i ∈ [.wMagic, .tSerialize, .sEncode]
    let readsBits : Prop := (∃ n, i = .rBits n) ∨ i ∈ [.rMagic, .tDeserialize, .sDecode]
    t.regs = s.regs ∧ t.env.turns = s.env.turns ∧ t.env.lastRead = s.env.lastRead ∧ t.cmd.pcmd = s.cmd.pcmd ∧
      (t.cmd.err ≠ s.cmd.err → t.cmd.done = true) ∧
      (t.cmd.fault ≠ s.cmd.fault ∨ t.cmd.fcode ≠ s.cmd.fcode ∨ t.cmd.fop ≠ s.cmd.fop ∨ t.cmd.finfo ≠ s.cmd.finfo →
        t.cmd.fault = true) ∧
      (t.res.result ≠ s.res.result → ∃ n, i = .rBits n) ∧ (t.res.ocnt ≠ s.res.ocnt → i = .sDecode) ∧
      (t.cnt.total ≠ s.cnt.total → i = .freqClear ∨ i = .treeBuild) ∧
      (t.cnt.freq ≠ s.cnt.freq → i = .freqClear ∨ i = .freqCount) ∧
      (t.tree.node ≠ s.tree.node ∨ t.tree.root ≠ s.tree.root ∨ t.tree.alpha ≠ s.tree.alpha → i = .treeBuild ∨ i = .tDeserialize) ∧
      (t.tree.tvalid ≠ s.tree.tvalid → i = .freqClear ∨ i = .freqCount ∨ i = .treeBuild ∨ i = .tDeserialize) ∧
      (t.codes.cvalid ≠ s.codes.cvalid →
        (i = .codesBuild ∧ t.codes.cvalid = true) ∨
          (i ∈ [.freqClear, .freqCount, .treeBuild, .tDeserialize] ∧ t.codes.cvalid = false)) ∧
      (t.codes.enc ≠ s.codes.enc ∨ t.codes.treeBits ≠ s.codes.treeBits ∨ t.codes.dataBits ≠ s.codes.dataBits ∨
          t.codes.wpad ≠ s.codes.wpad ∨ t.codes.proj ≠ s.codes.proj ∨ t.codes.worth ≠ s.codes.worth → i = .codesBuild) ∧
      (t.ch.rpad ≠ s.ch.rpad → i = .rOpen ∨ i = .rMagic) ∧ (t.ch.fileLen ≠ s.ch.fileLen → i = .wOpen ∨ i = .wClose) ∧
      (t.ch.lbase ≠ s.ch.lbase ∨ t.ch.llen ≠ s.ch.llen → i = .wOpen ∨ i = .rOpen) ∧
      (t.ch.chT ≠ s.ch.chT → i = .wOpen ∨ i = .rOpen ∨ i = .wClose ∨ writesBits) ∧
      (t.ch.chC ≠ s.ch.chC → i = .wOpen ∨ i = .rOpen ∨ readsBits) ∧
      (t.ch.bpos ≠ s.ch.bpos ∨ t.ch.bposPast ≠ s.ch.bposPast ∨ t.ch.bacc ≠ s.ch.bacc ∨ t.ch.bn ≠ s.ch.bn →
        i = .wOpen ∨ i = .rOpen ∨ i = .wClose ∨ writesBits ∨ readsBits) ∧
      ((∃ a, t.mem.read a ≠ s.mem.read a) → i = .wOpen ∨ i = .wClose ∨ writesBits ∨ i = .sDecode) ∧
      (t.ch.mode ≠ s.ch.mode →
        (i = .wOpen ∧ s.ch.mode = .idle ∧ t.ch.mode = .write) ∨ (i = .rOpen ∧ s.ch.mode = .idle ∧ t.ch.mode = .read) ∨
          (i = .wClose ∧ s.ch.mode = .write ∧ t.ch.mode = .idle) ∨ (i = .rClose ∧ s.ch.mode = .read ∧ t.ch.mode = .idle))

/-- R96: a channel command outside its mode raises `WRONG_MODE` with `FINFO = CHMODE` before any other check, and nothing else changes;
the frequency, tree and code commands run in any mode. -/
def Obligations.ModeDiscipline : Prop :=
  ∀ s : State,
    let refuses (i : Instr) : Prop :=
      exec i s = .next { s with
        cmd := { s.cmd with
          fault := true, fcode := .wrongMode, fop := s.cmd.pcmd.extractLsb' 0 8,
          finfo := match s.ch.mode with | .idle => 0 | .write => 1 | .read => 2
          busy := false } }
    (s.ch.mode ≠ .idle → refuses .wOpen ∧ refuses .rOpen) ∧
      (s.ch.mode ≠ .write →
        (∀ n, refuses (.wBits n)) ∧ refuses .wMagic ∧ refuses .wClose ∧ refuses .tSerialize ∧ refuses .sEncode) ∧
      (s.ch.mode ≠ .read →
        (∀ n, refuses (.rBits n)) ∧ refuses .rMagic ∧ refuses .rClose ∧ refuses .tDeserialize ∧ refuses .sDecode) ∧
      ∀ (i : Instr) (t : State), i ∈ [.freqClear, .freqCount, .treeBuild, .codesBuild] → exec i s = .next t →
        s.cmd.fcode ≠ .wrongMode → t.cmd.fcode ≠ .wrongMode

/-- The checks of R120 after the mode, in their order, with nothing else changed: a command that needs a tree or a code table and has
none raises `NO_TREE(0)` or `NO_CODES(0)`; then the region checks of R48 raise `REGION_FAULT` with the offset of the base register. Two
regions overlap when both are non-empty and they share an address (00_scope.md R11). -/
def Obligations.ChecksBeforeExecution : Prop :=
  ∀ s : State,
    let raises (i : Instr) (f : FaultCode) (info : Word) : Prop :=
      exec i s = .next { s with
        cmd := { s.cmd with
          fault := true, fcode := f, fop := s.cmd.pcmd.extractLsb' 0 8, finfo := info, busy := false } }
    let wraps (base len : Word) : Prop := 2 ^ 32 < base.toNat + len.toNat
    let meets (base len : Word) : Prop :=
      ∃ a : Nat, (base.toNat ≤ a ∧ a < base.toNat + len.toNat) ∧ s.ch.lbase.toNat ≤ a ∧ a < s.ch.lbase.toNat + s.ch.llen.toNat
    (s.tree.tvalid = false → raises .codesBuild .noTree 0) ∧
      (s.tree.tvalid = false → s.ch.mode = .write → raises .tSerialize .noTree 0) ∧
      (s.codes.cvalid = false → s.ch.mode = .write → raises .wMagic .noCodes 0 ∧ raises .sEncode .noCodes 0) ∧
      (s.codes.cvalid = false → s.ch.mode = .read → raises .sDecode .noCodes 0) ∧
      (wraps s.regs.ibase s.regs.ilen → raises .freqCount .regionFault 0x018) ∧
      (wraps s.regs.sbase s.regs.slen → s.ch.mode = .idle →
        raises .wOpen .regionFault 0x020 ∧ raises .rOpen .regionFault 0x020) ∧
      (wraps s.regs.ibase s.regs.ilen ∨ meets s.regs.ibase s.regs.ilen → s.ch.mode = .write → s.codes.cvalid = true →
        raises .sEncode .regionFault 0x018) ∧
      (wraps s.regs.obase s.regs.olen ∨ meets s.regs.obase s.regs.olen → s.ch.mode = .read → s.codes.cvalid = true →
        raises .sDecode .regionFault 0x028)

/-! ### Frequency counters, tree, codes (40_frequency_tree.md) -/

/-- Frame of the frequency, tree and code commands: no byte of memory changes, nor the channel, the results or a host register. Of the
rest, `FREQ_CLEAR` and `FREQ_COUNT` keep the arena, `ROOT`, `ALPHA`, `ENC` and the projection, and `FREQ_COUNT` keeps `TOTAL` (R75, R76);
`TREE_BUILD` keeps the counters, `ENC` and the projection (R79); `CODES_BUILD` keeps the counters, `TOTAL` and the tree (R82). -/
def Obligations.FrameFrequencyTreeCodes : Prop :=
  ∀ (i : Instr) (s t : State), i ∈ [.freqClear, .freqCount, .treeBuild, .codesBuild] → exec i s = .next t →
    (∀ a, t.mem.read a = s.mem.read a) ∧ t.regs = s.regs ∧ t.res = s.res ∧ t.ch = s.ch ∧
      (i = .freqClear ∨ i = .freqCount → t.tree = { s.tree with tvalid := t.tree.tvalid }) ∧
      (i ≠ .codesBuild → t.codes = { s.codes with cvalid := t.codes.cvalid }) ∧
      (i = .freqCount → t.cnt.total = s.cnt.total) ∧
      (i = .treeBuild → t.cnt.freq = s.cnt.freq) ∧
      (i = .codesBuild → t.tree = s.tree ∧ t.cnt = s.cnt)

/-- R75: `FREQ_CLEAR` completes in every state, zeroes every counter and `TOTAL`, clears `TVALID` and `CVALID`, and changes nothing else. -/
def Obligations.FreqClearResult : Prop :=
  ∀ s : State, ∃ f : FreqTable, (∀ x, f.of x = 0) ∧
    exec .freqClear s = .next { s with
      cnt := { freq := f, total := 0 }
      tree := { s.tree with tvalid := false }
      codes := { s.codes with cvalid := false }
      cmd := { s.cmd with busy := false, done := true } }

/-- `FREQ_COUNT` adds to each counter the number of times its symbol occurs in the input region, takes one draw a byte, and clears
`TVALID` and `CVALID`, when the bus completes and no counter would pass 0xFFFFFFFF (R76). -/
def Obligations.FreqCountResult : Prop :=
  ∀ s : State, s.regs.ibase.toNat + s.regs.ilen.toNat ≤ 2 ^ 32 → s.env.completes s.regs.ilen.toNat = true →
    let msg := bytesAt s.mem s.regs.ibase.toNat s.regs.ilen.toNat
    (∀ x, (s.cnt.freq.of x).toNat + msg.count x ≤ 0xFFFFFFFF) →
      ∃ t, exec .freqCount s = .next t ∧ (∀ x, (t.cnt.freq.of x).toNat = (s.cnt.freq.of x).toNat + msg.count x) ∧
        t.tree.tvalid = false ∧ t.codes.cvalid = false ∧ t.cmd = { s.cmd with busy := false, done := true } ∧
          t.env.drawn = s.env.drawn + s.regs.ilen.toNat

/-- `FREQ_COUNT` stops at byte `k`, the bytes before it staying counted and it not: with `BUS_ERROR(IBASE + k)` when its read fails,
else with the error `FREQ_OVERFLOW` when its counter already holds 0xFFFFFFFF (R76, 60_exceptions.md R119). -/
def Obligations.FreqCountStops : Prop :=
  ∀ (s : State) (k : Nat), s.regs.ibase.toNat + s.regs.ilen.toNat ≤ 2 ^ 32 → k < s.regs.ilen.toNat →
    s.env.completes k = true →
    let msg := bytesAt s.mem s.regs.ibase.toNat k
    let b := s.mem.read (s.regs.ibase.toNat + k)
    (∀ x, (s.cnt.freq.of x).toNat + msg.count x ≤ 0xFFFFFFFF) →
      (s.env.drawAt k = false →
          ∃ t, exec .freqCount s = .next t ∧ t.cmd.fault = true ∧ t.cmd.fcode = .busError ∧
            t.cmd.finfo.toNat = s.regs.ibase.toNat + k ∧ t.tree.tvalid = false ∧ t.codes.cvalid = false ∧
              ∀ x, (t.cnt.freq.of x).toNat = (s.cnt.freq.of x).toNat + msg.count x) ∧
        (s.env.drawAt k = true → (s.cnt.freq.of b).toNat + msg.count b = 0xFFFFFFFF →
          ∃ t, exec .freqCount s = .next t ∧ t.cmd.done = true ∧ t.cmd.err = .freqOverflow ∧ t.cmd.fault = s.cmd.fault ∧
            t.tree.tvalid = false ∧ t.codes.cvalid = false ∧
              ∀ x, (t.cnt.freq.of x).toNat = (s.cnt.freq.of x).toNat + msg.count x)

/-- R77: `TREE_BUILD` completes, and the leaves stand at handles 0, 1, … in ascending order of frequency, ties by ascending symbol: one
leaf for each symbol with a frequency above 0. -/
def Obligations.TreeBuildLeafOrder : Prop :=
  ∀ s : State, (symbols.map fun x => (s.cnt.freq.of x).toNat).sum ≤ 0xFFFFFFFF →
    ∃ t, exec .treeBuild s = .next t ∧
      ∃ order : List Byte, t.tree.alpha.toNat = order.length ∧ (∀ x, x ∈ order ↔ s.cnt.freq.of x ≠ 0) ∧
        order.Pairwise (fun x y =>
          (s.cnt.freq.of x).toNat < (s.cnt.freq.of y).toNat ∨ (s.cnt.freq.of x = s.cnt.freq.of y ∧ x.toNat < y.toNat)) ∧
        ∀ (k : Nat) (x : Byte), order[k]? = some x →
          t.tree.node.of (BitVec.ofNat 9 k) = some ⟨.leaf, x, 511, 511, s.cnt.freq.of x⟩

/-- R78: each internal node joins, left, the entry of least frequency at the earliest position of the collection and, right, the next
by the same rule; its frequency is their sum, and it is appended at the end. After A − 1 merges the last node is the root. -/
def Obligations.TreeBuildMergeSelection : Prop :=
  ∀ s : State, (symbols.map fun x => (s.cnt.freq.of x).toNat).sum ≤ 0xFFFFFFFF →
    ∃ t, exec .treeBuild s = .next t ∧
      (2 ≤ t.tree.alpha.toNat → t.tree.root.toNat = 2 * t.tree.alpha.toNat - 2) ∧
      ∀ h : Nat, 2 ≤ t.tree.alpha.toNat → t.tree.alpha.toNat ≤ h → h ≤ 2 * t.tree.alpha.toNat - 2 →
        ∃ n, t.tree.node.of (BitVec.ofNat 9 h) = some n ∧ n.kind = .inner ∧ n.sym = 0 ∧
          n.freq.toNat = (t.tree.node.weight n.left).toNat + (t.tree.node.weight n.right).toNat ∧
            t.tree.waits t.tree.alpha.toNat h n.left ∧ t.tree.waits t.tree.alpha.toNat h n.right ∧ n.left ≠ n.right ∧
              (∀ z, t.tree.waits t.tree.alpha.toNat h z → z ≠ n.left → t.tree.precedes n.left z) ∧
                ∀ z, t.tree.waits t.tree.alpha.toNat h z → z ≠ n.left → z ≠ n.right → t.tree.precedes n.right z

/-- `TREE_BUILD` takes `TOTAL`, `ALPHA` and `ROOT` as R79 says, for A = 0, A = 1 and A ≥ 2: for A ≥ 2 the tree at `ROOT = 2A − 2` is a full
binary tree whose leaves are the symbols of the map, each once; entries it does not use are `FREE`. When Σ FREQ does not
fit 32 bits it ends with the error `FREQ_OVERFLOW`, the arena, `ROOT`, `ALPHA` and `TOTAL` unchanged. -/
def Obligations.TreeBuildTree : Prop :=
  (∀ s : State, 0xFFFFFFFF < (symbols.map fun x => (s.cnt.freq.of x).toNat).sum →
    exec .treeBuild s = .next { s with
      tree := { s.tree with tvalid := false }
      codes := { s.codes with cvalid := false }
      cmd := { s.cmd with err := .freqOverflow, busy := false, done := true } }) ∧
  ∀ s : State, (symbols.map fun x => (s.cnt.freq.of x).toNat).sum ≤ 0xFFFFFFFF →
    let present := symbols.filter fun x => s.cnt.freq.of x ≠ 0
    ∃ t, exec .treeBuild s = .next t ∧ t.cmd = { s.cmd with busy := false, done := true } ∧ t.tree.tvalid = true ∧
      t.codes.cvalid = false ∧ t.cnt.total.toNat = (symbols.map fun x => (s.cnt.freq.of x).toNat).sum ∧
        t.tree.alpha.toNat = present.length ∧
          (present = [] → t.tree.root = 511) ∧
            (∀ x, present = [x] →
              t.tree.root = 2 ∧ t.tree.node.of 0 = some ⟨.leaf, x, 511, 511, s.cnt.freq.of x⟩ ∧
                t.tree.node.of 1 = some ⟨.placeholder, 0, 511, 511, 0⟩ ∧
                  t.tree.node.of 2 = some ⟨.inner, 0, 0, 1, s.cnt.freq.of x⟩) ∧
              (2 ≤ present.length →
                t.tree.root.toNat = 2 * present.length - 2 ∧
                  ∃ sh, t.tree.shape = some sh ∧ sh.full = true ∧ sh.leaves.Perm present) ∧
                ∀ h : Handle, h ≠ 511 → (present.length = 1 → 2 < h.toNat) → 2 * present.length - 1 ≤ h.toNat →
                  t.tree.node.of h = some ⟨.free, 0, 511, 511, 0⟩

/-- `CODES_BUILD` on a valid tree: `ENC` holds each leaf's root-to-leaf path and nothing for other symbols; the costs, padding, projection
and `WORTH` are those of R82 (R83, R84), and the serialized
form has `TREE_BITS` bits (41_tree_codec.md R88). -/
def Obligations.CodesBuildResult : Prop :=
  ∀ s : State, s.tree.tvalid = true → TreeOk s →
    let tb := s.tree.cost
    let db := s.tree.dataBits s.cnt.freq
    ∃ t, exec .codesBuild s = .next t ∧ t.cmd = { s.cmd with busy := false, done := true } ∧ t.codes.cvalid = true ∧
      (∀ x, match s.tree.pathOf x with
        | some p =>
          (t.codes.enc.of x).valid = true ∧ (t.codes.enc.of x).len.toNat = p.length ∧ (t.codes.enc.of x).string = p ∧
            ∀ k, p.length ≤ k → (t.codes.enc.of x).bits.getMsbD k = false
        | none => t.codes.enc.of x = ⟨false, 0, 0⟩) ∧
      t.codes.treeBits.toNat = tb ∧ s.tree.form.length = tb ∧ t.codes.dataBits.toNat = db ∧ t.codes.wpad.toNat = (8 - (tb + db) % 8) % 8 ∧
        t.codes.proj.toNat = 24 + tb + db + t.codes.wpad.toNat ∧
          (t.codes.worth = true ↔ t.codes.proj.toNat < 8 * s.cnt.total.toNat)

/-- While `CVALID = 1`, codes are prefix-free and not empty (R86), so the decoder table `DT` is a function: `DT(w)` is the symbol whose
valid code is exactly `w`, and there is none when no code is (10_state.md R31). -/
def Obligations.CodesArePrefixFree : Prop :=
  ∀ s : State, TreeOk s → CodesOk s → s.codes.cvalid = true →
    (∀ x y : Byte, (s.codes.enc.of x).valid = true → (s.codes.enc.of y).valid = true →
      1 ≤ (s.codes.enc.of x).len.toNat ∧ (x ≠ y → ¬(s.codes.enc.of x).string <+: (s.codes.enc.of y).string)) ∧
      ∀ (w : List Bool) (x : Byte),
        decodeTable s.codes.enc w = some x ↔ ((s.codes.enc.of x).valid = true ∧ (s.codes.enc.of x).string = w)

/-! ### The bit channel (20_memory.md, 42_bitchannel.md) -/

/-- Frame of the commands that write bits: memory changes only from the position on, byte by byte up to the position reached, and at that
position itself only when the bus failed there; at most as many bytes are committed as the bits allow. -/
def Obligations.FrameBitWriters : Prop :=
  ∀ (i : Instr) (s t : State), ((∃ n, i = .wBits n) ∨ i = .wMagic ∨ i = .tSerialize ∨ i = .sEncode) → exec i s = .next t →
    (∀ a, a < s.ch.pos ∨ t.ch.pos < a ∨ (a = t.ch.pos ∧ t.cmd.fcode ≠ .busError) → t.mem.read a = s.mem.read a) ∧
      t.regs = s.regs ∧ t.res = s.res ∧ t.cnt = s.cnt ∧ t.tree = s.tree ∧ t.codes = s.codes ∧ t.ch.mode = s.ch.mode ∧
        t.ch.lbase = s.ch.lbase ∧ t.ch.llen = s.ch.llen ∧ t.ch.chC = s.ch.chC ∧ t.ch.rpad = s.ch.rpad ∧
          t.ch.fileLen = s.ch.fileLen ∧
            (∀ n, i = .wBits n → t.ch.pos ≤ s.ch.pos + s.ch.commits n.toNat) ∧
              (i = .wMagic → t.ch.pos ≤ s.ch.pos + s.ch.commits 24) ∧
                (i = .tSerialize → ∀ p, serialTree s.tree = .ok p → t.ch.pos ≤ s.ch.pos + s.ch.commits p.length) ∧
                  (i = .sEncode → t.ch.pos ≤ s.ch.pos + s.ch.commits (255 * s.regs.ilen.toNat))

/-- Frame of `W_OPEN` and `W_CLOSE`: memory changes only in the four header bytes, at `SBASE` when opening and at `LBASE` when closing, and
when closing with bits buffered in the byte at the position, which takes the padded byte (R98, R101). -/
def Obligations.FrameWriterOpenClose : Prop :=
  ∀ (i : Instr) (s t : State), i = .wOpen ∨ i = .wClose → exec i s = .next t →
    (∀ a, (i = .wOpen → a < s.regs.sbase.toNat ∨ s.regs.sbase.toNat + 4 ≤ a) →
        (i = .wClose → (a < s.ch.lbase.toNat ∨ s.ch.lbase.toNat + 4 ≤ a) ∧ (a = s.ch.pos → s.ch.bn = 0)) →
          t.mem.read a = s.mem.read a) ∧
      t.regs = s.regs ∧ t.res = s.res ∧ t.cnt = s.cnt ∧ t.tree = s.tree ∧ t.codes = s.codes ∧ t.ch.rpad = s.ch.rpad ∧
        (i = .wClose → t.ch.lbase = s.ch.lbase ∧ t.ch.llen = s.ch.llen ∧ t.ch.chC = s.ch.chC)

/-- Frame of the reader's commands and `T_DESERIALIZE`: no byte of memory changes, nor the counters, `OCNT` or `FILE_LEN`; the tree only by
`T_DESERIALIZE`, which clears `CVALID` and keeps the code table; `RESULT` only by `R_BITS`; `RPAD` only by `R_OPEN` and `R_MAGIC`. -/
def Obligations.FrameReaders : Prop :=
  ∀ (i : Instr) (s t : State), (i = .rOpen ∨ (∃ n, i = .rBits n) ∨ i = .rMagic ∨ i = .rClose ∨ i = .tDeserialize) →
    exec i s = .next t →
      (∀ a, t.mem.read a = s.mem.read a) ∧ t.regs = s.regs ∧ t.cnt = s.cnt ∧ t.res.ocnt = s.res.ocnt ∧
        t.ch.fileLen = s.ch.fileLen ∧ ((∀ n, i ≠ .rBits n) → t.res = s.res) ∧
          (i ≠ .tDeserialize → t.tree = s.tree ∧ t.codes = s.codes) ∧
            t.codes = { s.codes with cvalid := t.codes.cvalid } ∧
              (i ≠ .rOpen → t.ch.lbase = s.ch.lbase ∧ t.ch.llen = s.ch.llen ∧ t.ch.chT = s.ch.chT) ∧
                (i ≠ .rOpen → i ≠ .rMagic → t.ch.rpad = s.ch.rpad) ∧
                  (i = .rClose → t.ch = { s.ch with mode := t.ch.mode })

/-- `W_OPEN` on an idle channel over a region of at least 4 bytes: the header bytes become 0 and an empty writer is open behind them (R98). -/
def Obligations.WOpenResult : Prop :=
  ∀ s : State, s.mem.wf = true → s.ch.mode = .idle → s.regs.sbase.toNat + s.regs.slen.toNat ≤ 2 ^ 32 → 4 ≤ s.regs.slen.toNat →
    s.env.completes 4 = true →
      ∃ t, exec .wOpen s = .next t ∧ t.cmd = { s.cmd with busy := false, done := true } ∧
        bytesAt t.mem s.regs.sbase.toNat 4 = [0, 0, 0, 0] ∧ t.ch.mode = .write ∧ t.ch.lbase = s.regs.sbase ∧
          t.ch.llen = s.regs.slen ∧ t.ch.pos = s.regs.sbase.toNat + 4 ∧
            (s.regs.sbase.toNat + 4 < 2 ^ 32 → t.ch.bpos = s.regs.sbase + 4) ∧ t.ch.bacc = 0 ∧ t.ch.bn = 0 ∧ t.ch.chT = 0 ∧
              t.ch.chC = 0 ∧ t.ch.fileLen = 0 ∧ t.written = []

/-- A stream region shorter than the header: `W_OPEN` raises `STREAM_OVERFLOW(LBASE)` and `R_OPEN` ends with `BAD_LENGTH`; the region is
latched, the channel stays idle, nothing else changes (R98, R102). -/
def Obligations.OpenShortRegion : Prop :=
  ∀ s : State, s.ch.mode = .idle → s.regs.sbase.toNat + s.regs.slen.toNat ≤ 2 ^ 32 → s.regs.slen.toNat < 4 →
    let latched : State := { s with ch := { s.ch with lbase := s.regs.sbase, llen := s.regs.slen } }
    exec .wOpen s = .next { latched with
        cmd := { s.cmd with
          fault := true, fcode := .streamOverflow, fop := s.cmd.pcmd.extractLsb' 0 8, finfo := s.regs.sbase, busy := false } } ∧
      exec .rOpen s = .next { latched with cmd := { s.cmd with err := .badLength, busy := false, done := true } }

/-- `W_BITS n` appends the low `n` bits of `ARG`, the most significant first, and the writer stays one (20_memory.md R54, R55,
42_bitchannel.md R97, R99). -/
def Obligations.WBitsResult : Prop :=
  ∀ (s : State) (n : BitVec 6), countOk n = true → s.mem.wf = true → s.ch.mode = .write → WriterOk s → s.cmd.fault = false →
    s.ch.room n.toNat → s.env.completes (s.ch.commits n.toNat) = true →
      ∃ t, exec (.wBits n) s = .next t ∧ t.cmd = { s.cmd with busy := false, done := true } ∧
        t.written = s.written ++ (List.range n.toNat).map (fun k => s.regs.arg.getLsbD (n.toNat - 1 - k)) ∧
          t.ch.mode = .write ∧ WriterOk t ∧ t.ch.chT.toNat + t.ch.bn.toNat = s.ch.chT.toNat + s.ch.bn.toNat + n.toNat

/-- `W_MAGIC` appends 'H', 'F' and `WPAD` as a byte (R100). -/
def Obligations.WMagicResult : Prop :=
  ∀ s : State, s.mem.wf = true → s.ch.mode = .write → WriterOk s → s.cmd.fault = false → s.codes.cvalid = true →
    s.ch.room 24 → s.env.completes (s.ch.commits 24) = true →
      ∃ t, exec .wMagic s = .next t ∧ t.cmd = { s.cmd with busy := false, done := true } ∧
        t.written =
          s.written ++
            [false, true, false, false, true, false, false, false, false, true, false, false, false, true, true, false,
              false, false, false, false, false, s.codes.wpad.getLsbD 2, s.codes.wpad.getLsbD 1, s.codes.wpad.getLsbD 0] ∧
          t.ch.mode = .write ∧ WriterOk t

/-- `W_CLOSE` pads the buffered bits with zeros to a byte, writes T big-endian into the header, gives `FILE_LEN` and closes the channel: T
is the exact number of bits of the bit region (R101, 20_memory.md R51, R52, R53). -/
def Obligations.WCloseResult : Prop :=
  ∀ s : State, s.mem.wf = true → s.ch.mode = .write → WriterOk s → s.cmd.fault = false →
    (0 < s.ch.bn.toNat → s.ch.room (8 - s.ch.bn.toNat)) → s.env.completes (4 + (s.ch.bn.toNat + 7) / 8) = true →
      ∃ t, exec .wClose s = .next t ∧ t.cmd = { s.cmd with busy := false, done := true } ∧ t.ch.mode = .idle ∧
        t.ch.chT.toNat = 8 * ((s.ch.chT.toNat + s.ch.bn.toNat + 7) / 8) ∧ headerAt t.mem s.ch.lbase.toNat = t.ch.chT.toNat ∧
          t.ch.fileLen.toNat = 4 + t.ch.chT.toNat / 8 ∧
            regionBits t.mem s.ch.lbase.toNat 0 t.ch.chT.toNat =
              s.written ++ List.replicate ((8 - s.ch.bn.toNat) % 8) false ∧ t.ch.bn = 0 ∧
                (0 < s.ch.bn.toNat → t.ch.bacc = 0)

/-- Any commit with the stream region full raises `STREAM_OVERFLOW(BPOS)`; one with room but T at its bound, `HEADER_OVERFLOW(CH_T)`. The
byte is not written and no access is made. In `W_BITS`, `W_MAGIC`, `T_SERIALIZE` and `S_ENCODE` the commits before it stand and its byte
stays in `BACC` with `BN = 8`; at the pad commit of `W_CLOSE` nothing else changes at all (20_memory.md R54, R55, 42_bitchannel.md R101,
60_exceptions.md R119). `FINFO` of a commit at position 2^32 is `BPOS`, there a free value (entry 5). -/
def Obligations.CommitOverflows : Prop :=
  (∀ (s : State) (i : Instr) (p : List Bool) (reads first j : Nat), s.mem.wf = true → s.ch.mode = .write → WriterOk s →
    s.cmd.fault = false → s.gives i p reads first → first ≤ j → j < s.ch.commits p.length →
    4 + s.ch.chT.toNat / 8 + j ≤ s.ch.llen.toNat → s.ch.chT.toNat + 8 * j ≤ 0xFFFFFFF8 →
    s.env.completes (reads + j) = true →
    let full : Prop := s.ch.llen.toNat = 4 + s.ch.chT.toNat / 8 + j
    let stops (f : FaultCode) (info : State → Word) : Prop :=
      ∃ t, exec i s = .next t ∧
        t.cmd = { s.cmd with
          fault := true, fcode := f, fop := s.cmd.pcmd.extractLsb' 0 8, finfo := info t, busy := false } ∧
          Uncommitted s t p j ∧ (∀ a, a < s.ch.pos ∨ s.ch.pos + j ≤ a → t.mem.read a = s.mem.read a) ∧
            t.env.drawn = s.env.drawn + reads + j ∧ (s.ch.pos + j < 2 ^ 32 → t.ch.bpos.toNat = s.ch.pos + j) ∧
              (j = 0 → t.mem = s.mem ∧ t.ch.bpos = s.ch.bpos ∧ t.ch.chT = s.ch.chT)
    (full → stops .streamOverflow fun t => t.ch.bpos) ∧
      (¬full → 0xFFFFFFF7 < s.ch.chT.toNat + 8 * j → stops .headerOverflow fun t => t.ch.chT)) ∧
    ∀ s : State, s.ch.mode = .write → WriterOk s → s.cmd.fault = false → 0 < s.ch.bn.toNat →
      let full : Prop := s.ch.llen.toNat = 4 + s.ch.chT.toNat / 8
      let stops (f : FaultCode) (info : Word) : Prop :=
        exec .wClose s = .next { s with
          cmd := { s.cmd with
            fault := true, fcode := f, fop := s.cmd.pcmd.extractLsb' 0 8, finfo := info, busy := false } }
      (full → stops .streamOverflow s.ch.bpos) ∧ (¬full → 0xFFFFFFF7 < s.ch.chT.toNat → stops .headerOverflow s.ch.chT)

/-- A failed access, whichever of a command's it is, ends the command with `BUS_ERROR` and the byte's address, and nothing is rolled back
(20_memory.md R43, R55, R56, R57, 60_exceptions.md R119). First, of every command: it makes no access after a failed one, ends with
`BUS_ERROR` exactly when its last access failed, and `FINFO` is the address of that access. Then, access by access, what is left: the
header writes of `W_OPEN` and `W_CLOSE` (42_bitchannel.md R98, R101, 93 I-6), the header reads of `R_OPEN`, the pad commit of `W_CLOSE`, each
commit of the commands that write bits, the input reads of `S_ENCODE`, the refills of `R_BITS` and `R_MAGIC`, the peeks of
`T_DESERIALIZE`, the output writes and the refills of `S_DECODE`. A failed write leaves its byte any value, so no clause speaks of that
byte. That the placeholder test takes one access for each bit up to the payload end is the model's reading (entry 7). -/
def Obligations.BusErrors : Prop :=
  (∀ (i : Instr) (s t : State), s.cmd.fcode ≠ .busError → exec i s = .next t →
    let made := t.env.drawn - s.env.drawn
    let last := made - 1
    let info := t.cmd.finfo.toNat
    let pad := if 0 < s.ch.bn.toNat then 1 else 0
    s.env.drawn ≤ t.env.drawn ∧ (∀ k < last, s.env.drawAt k = true) ∧
      (t.cmd.fcode = .busError ↔ 0 < made ∧ s.env.drawAt last = false) ∧
        (t.cmd.fcode = .busError →
          t.cmd.fault = true ∧ t.cmd.busy = false ∧
            match i with
            | .freqCount => info = s.regs.ibase.toNat + last
            | .wOpen => info = s.regs.sbase.toNat + last ∧ t.ch.mode = .idle
            | .rOpen => info = s.regs.sbase.toNat + last ∧ t.ch.mode = .idle
            | .wBits _ => info = t.ch.pos ∧ t.ch.pos = s.ch.pos + last ∧ t.ch.bn = 8
            | .wMagic => info = t.ch.pos ∧ t.ch.pos = s.ch.pos + last ∧ t.ch.bn = 8
            | .tSerialize => info = t.ch.pos ∧ t.ch.pos = s.ch.pos + last ∧ t.ch.bn = 8
            | .sEncode => (info = t.ch.pos ∧ t.ch.bn = 8) ∨ ∃ k < s.regs.ilen.toNat, info = s.regs.ibase.toNat + k
            | .wClose => (last < pad ∧ info = s.ch.pos) ∨ (pad ≤ last ∧ info = s.ch.lbase.toNat + (last - pad))
            | .rBits _ => info = t.ch.pos ∧ t.ch.pos = s.ch.pos + last ∧ t.ch.bn = 0
            | .rMagic => info = t.ch.pos ∧ t.ch.pos = s.ch.pos + last ∧ t.ch.bn = 0
            | .tDeserialize =>
              (info = t.ch.pos ∧ t.ch.bn = 0) ∨
                ∃ k, t.ch.chC.toNat ≤ k ∧ k + s.ch.rpad.toNat < s.ch.chT.toNat ∧ info = s.ch.lbase.toNat + 4 + k / 8
            | .sDecode => (info = t.ch.pos ∧ t.ch.bn = 0) ∨ info = s.regs.obase.toNat + t.res.ocnt.toNat
            | .freqClear | .treeBuild | .codesBuild | .rClose => False)) ∧
    ∀ (s : State) (k : Nat), s.env.completes k = true → s.env.drawAt k = false → s.cmd.fault = false →
      let fails (i : Instr) (a : Nat) (left : State → Prop) : Prop :=
        ∃ t, exec i s = .next t ∧
          t.cmd = { s.cmd with
            fault := true, fcode := .busError, fop := s.cmd.pcmd.extractLsb' 0 8, finfo := BitVec.ofNat 32 a, busy := false } ∧
            left t
      let keeps (t : State) (lo hi : Nat) : Prop := ∀ a, a < lo ∨ hi < a → t.mem.read a = s.mem.read a
      let header := (s.ch.bn.toNat + 7) / 8
      (s.ch.mode = .idle → s.regs.sbase.toNat + s.regs.slen.toNat ≤ 2 ^ 32 → 4 ≤ s.regs.slen.toNat → k < 4 →
          (s.mem.wf = true →
            fails .wOpen (s.regs.sbase.toNat + k) fun t =>
              t.ch = { s.ch with lbase := s.regs.sbase, llen := s.regs.slen } ∧ bytesAt t.mem s.regs.sbase.toNat k = List.replicate k 0 ∧
                keeps t s.regs.sbase.toNat (s.regs.sbase.toNat + k)) ∧
            fails .rOpen (s.regs.sbase.toNat + k) fun t =>
              t.ch = { s.ch with lbase := s.regs.sbase, llen := s.regs.slen } ∧ t.mem = s.mem) ∧
        (s.ch.mode = .write → WriterOk s → 0 < s.ch.bn.toNat → s.ch.room 8 → k = 0 →
          fails .wClose s.ch.pos fun t => t.ch = s.ch ∧ keeps t s.ch.pos s.ch.pos) ∧
        (s.ch.mode = .write → WriterOk s → s.mem.wf = true → (0 < s.ch.bn.toNat → s.ch.room 8) → header ≤ k → k < header + 4 →
          fails .wClose (s.ch.lbase.toNat + (k - header)) fun t =>
            t.ch.mode = .write ∧ t.ch.fileLen = s.ch.fileLen ∧ t.ch.bn = 0 ∧
              t.ch.chT.toNat = 8 * ((s.ch.chT.toNat + s.ch.bn.toNat + 7) / 8) ∧
                (∀ m < k - header, (t.mem.read (s.ch.lbase.toNat + m)).toNat = t.ch.chT.toNat / 2 ^ (8 * (3 - m)) % 2 ^ 8) ∧
                  (∀ m < 4, k - header < m → t.mem.read (s.ch.lbase.toNat + m) = s.mem.read (s.ch.lbase.toNat + m)) ∧
                    regionBits t.mem s.ch.lbase.toNat 0 t.ch.chT.toNat =
                      s.written ++ List.replicate ((8 - s.ch.bn.toNat) % 8) false) ∧
        (∀ (i : Instr) (p : List Bool) (reads first j : Nat), s.mem.wf = true → s.ch.mode = .write → WriterOk s →
          s.gives i p reads first → first ≤ j → j < s.ch.commits p.length → 4 + s.ch.chT.toNat / 8 + (j + 1) ≤ s.ch.llen.toNat →
          s.ch.chT.toNat + 8 * (j + 1) ≤ 0xFFFFFFF8 → k = reads + j →
            fails i (s.ch.pos + j) fun t => Uncommitted s t p j ∧ keeps t s.ch.pos (s.ch.pos + j)) ∧
        (∀ m < s.regs.ilen.toNat, s.mem.wf = true → s.ch.mode = .write → WriterOk s → s.codes.cvalid = true →
          regionOK s.regs.ibase s.regs.ilen = true → overlaps s.regs.ibase s.regs.ilen s.ch.lbase s.ch.llen = false →
          let msg := bytesAt s.mem s.regs.ibase.toNat m
          let bits := codeString s.codes.enc msg
          (∀ y ∈ msg, (s.codes.enc.of y).valid = true) → s.ch.room bits.length → k = m + s.ch.commits bits.length →
            fails .sEncode (s.regs.ibase.toNat + m) fun t => t.written = s.written ++ bits ∧ t.ch.mode = .write ∧ WriterOk t) ∧
        (∀ n : BitVec 6, countOk n = true → s.ch.mode = .read → ReaderOk s → s.ch.chC.toNat + n.toNat ≤ s.ch.chT.toNat →
          k < s.ch.fetches n.toNat →
            fails (.rBits n) (s.ch.pos + k) fun t =>
              t.res = s.res ∧ t.mem = s.mem ∧ t.ch.bn = 0 ∧ t.ch.pos = s.ch.pos + k ∧
                t.ch.chC.toNat = s.ch.chC.toNat + s.ch.bn.toNat + 8 * k) ∧
        (s.ch.mode = .read → ReaderOk s → s.ch.chC.toNat + 24 ≤ s.ch.chT.toNat → k < s.ch.fetches 24 →
          (16 ≤ s.ch.bn.toNat + 8 * k → BufferAgrees s ∧ bitsToNat (s.ahead 16) = 0x4846) →
            fails .rMagic (s.ch.pos + k) fun t =>
              t.ch.rpad = s.ch.rpad ∧ t.mem = s.mem ∧ t.ch.bn = 0 ∧ t.ch.pos = s.ch.pos + k ∧
                t.ch.chC.toNat = s.ch.chC.toNat + s.ch.bn.toNat + 8 * k) ∧
        (∀ y : Byte, s.ch.mode = .read → ReaderOk s → BufferAgrees s → s.ahead 11 = true :: false :: (bitsMsb 8 y ++ [true]) →
          s.ch.fetches 11 ≤ k → 11 + (k - s.ch.fetches 11) < s.ch.bitsLeft →
            fails .tDeserialize (s.ch.lbase.toNat + 4 + (s.ch.chC.toNat + 11 + (k - s.ch.fetches 11)) / 8) fun t =>
              t.ch.chC.toNat = s.ch.chC.toNat + 11 ∧ t.mem = s.mem ∧ t.tree.root = 511 ∧ t.tree.alpha = 0 ∧
                t.tree.tvalid = false ∧ t.codes.cvalid = false) ∧
        ∀ (msg : List Byte) (q rest : List Bool), State.Good s → BufferAgrees s → s.ch.mode = .read → s.codes.cvalid = true →
          regionOK s.regs.obase s.regs.olen = true → overlaps s.regs.obase s.regs.olen s.ch.lbase s.ch.llen = false →
          s.ch.chC.toNat + s.ch.rpad.toNat ≤ s.ch.chT.toNat → (∀ y ∈ msg, (s.codes.enc.of y).valid = true) →
          s.ahead s.ch.bitsLeft = codeString s.codes.enc msg ++ (q ++ rest) →
          let consumed := (codeString s.codes.enc msg).length + q.length
          let decoded (t : State) : Prop :=
            bytesAt t.mem s.regs.obase.toNat msg.length = msg ∧ t.res.ocnt.toNat = msg.length ∧
              t.ch.chC.toNat = s.ch.chC.toNat + consumed ∧ t.ch.mode = .read
          (∀ y, (s.codes.enc.of y).valid = true → (s.codes.enc.of y).string = q → msg.length < s.regs.olen.toNat →
              k = s.ch.fetches consumed + msg.length →
              fails .sDecode (s.regs.obase.toNat + msg.length) fun t =>
                decoded t ∧ keeps t s.regs.obase.toNat (s.regs.obase.toNat + msg.length)) ∧
            ((q = [] ∨ ∃ y, (s.codes.enc.of y).valid = true ∧ q <+: (s.codes.enc.of y).string ∧ q ≠ (s.codes.enc.of y).string) →
              rest ≠ [] → (s.ch.chC.toNat + consumed) % 8 = 0 → msg.length ≤ s.regs.olen.toNat →
              k = s.ch.fetches consumed + msg.length →
              fails .sDecode (s.ch.pos + s.ch.fetches consumed) fun t =>
                decoded t ∧ t.ch.bn = 0 ∧ t.ch.pos = s.ch.pos + s.ch.fetches consumed ∧
                  ∀ a, (a < s.regs.obase.toNat ∨ s.regs.obase.toNat + msg.length ≤ a) → t.mem.read a = s.mem.read a)

/-- `R_OPEN` on an idle channel reads T from the big-endian header: the declared bit region must fit, else `BAD_LENGTH` with the mode, `CH_T`,
`CH_C` and `RPAD` unchanged (R102). -/
def Obligations.ROpenResult : Prop :=
  ∀ s : State, s.ch.mode = .idle → s.regs.sbase.toNat + s.regs.slen.toNat ≤ 2 ^ 32 → 4 ≤ s.regs.slen.toNat →
    s.env.completes 4 = true →
    let total := headerAt s.mem s.regs.sbase.toNat
    ∃ t, exec .rOpen s = .next t ∧ t.ch.lbase = s.regs.sbase ∧ t.ch.llen = s.regs.slen ∧
      (4 + (total + 7) / 8 ≤ s.regs.slen.toNat →
          t.cmd = { s.cmd with busy := false, done := true } ∧ t.ch.mode = .read ∧ t.ch.chT.toNat = total ∧ t.ch.chC = 0 ∧
            t.ch.rpad = 0 ∧ t.ch.pos = s.regs.sbase.toNat + 4 ∧
              (s.regs.sbase.toNat + 4 < 2 ^ 32 → t.ch.bpos = s.regs.sbase + 4) ∧ t.ch.bacc = 0 ∧ t.ch.bn = 0) ∧
        (s.regs.slen.toNat < 4 + (total + 7) / 8 →
          t.cmd = { s.cmd with err := .badLength, busy := false, done := true } ∧
            t.ch = { s.ch with lbase := s.regs.sbase, llen := s.regs.slen })

/-- `R_BITS n` reads the next `n` bits, the first into the most significant place; when fewer than `n` remain before T it raises
`READ_PAST_END(CH_C)` and consumes nothing (R103, 20_memory.md R56). -/
def Obligations.RBitsResult : Prop :=
  ∀ (s : State) (n : BitVec 6), countOk n = true → s.ch.mode = .read → ReaderOk s →
    (s.ch.chC.toNat + n.toNat ≤ s.ch.chT.toNat → BufferAgrees s → s.env.completes (s.ch.fetches n.toNat) = true →
        ∃ t, exec (.rBits n) s = .next t ∧ t.cmd = { s.cmd with busy := false, done := true } ∧
          t.res.result.toNat = bitsToNat (s.ahead n.toNat) ∧ t.ch.chC.toNat = s.ch.chC.toNat + n.toNat ∧ t.ch.mode = .read ∧
            ReaderOk t ∧ BufferAgrees t) ∧
      (s.ch.chT.toNat < s.ch.chC.toNat + n.toNat →
        exec (.rBits n) s = .next { s with
          cmd := { s.cmd with
            fault := true, fcode := .readPastEnd, fop := s.cmd.pcmd.extractLsb' 0 8, finfo := s.ch.chC, busy := false } })

/-- `R_MAGIC`, in the order of R104: fewer than 24 bits left is `BAD_LENGTH` and reads none; a wrong magic is `BAD_MAGIC` after 16 bits; a P
above 7 or past T is `BAD_PAD` after 24; otherwise `RPAD` takes P. -/
def Obligations.RMagicResult : Prop :=
  ∀ s : State, s.ch.mode = .read → ReaderOk s → BufferAgrees s →
    let left := s.ch.chT.toNat - s.ch.chC.toNat
    (24 ≤ left → s.env.completes (s.ch.fetches 24) = true) →
    let magic := bitsToNat (s.ahead 16)
    let p := bitsToNat ((s.ahead 24).drop 16)
    ∃ t, exec .rMagic s = .next t ∧
      (if left < 24 then t.cmd = { s.cmd with err := .badLength, busy := false, done := true } ∧ t.ch = s.ch
        else if magic ≠ 0x4846 then
          t.cmd = { s.cmd with err := .badMagic, busy := false, done := true } ∧ t.ch.chC.toNat = s.ch.chC.toNat + 16 ∧
            t.ch.rpad = s.ch.rpad
        else if 7 < p ∨ left - 24 < p then
          t.cmd = { s.cmd with err := .badPad, busy := false, done := true } ∧ t.ch.chC.toNat = s.ch.chC.toNat + 24 ∧
            t.ch.rpad = s.ch.rpad
        else
          t.cmd = { s.cmd with busy := false, done := true } ∧ t.ch.chC.toNat = s.ch.chC.toNat + 24 ∧ t.ch.rpad.toNat = p)

/-- R105: `R_CLOSE` on a reader sets the mode to IDLE and changes nothing else, wherever the reader stands. -/
def Obligations.RCloseResult : Prop :=
  ∀ s : State, s.ch.mode = .read →
    exec .rClose s = .next { s with ch := { s.ch with mode := .idle }, cmd := { s.cmd with busy := false, done := true } }

/-! ### Tree serializer and deserializer (41_tree_codec.md) -/

/-- `T_SERIALIZE` appends the serialized form of the current tree: nothing for the empty tree, else the preorder flags and symbols (R88,
R90). -/
def Obligations.TSerializeResult : Prop :=
  ∀ s : State, s.mem.wf = true → s.ch.mode = .write → WriterOk s → s.cmd.fault = false → s.tree.tvalid = true → TreeOk s →
    s.ch.room s.tree.form.length → s.env.completes (s.ch.commits s.tree.form.length) = true →
      ∃ t, exec .tSerialize s = .next t ∧ t.cmd = { s.cmd with busy := false, done := true } ∧
        t.written = s.written ++ s.tree.form ∧ t.ch.mode = .write ∧ WriterOk t

/-- R92: a reader exactly at the payload end gives the empty tree and reads no bit; one past it ends with `BAD_TREE`. -/
def Obligations.EmptyTree : Prop :=
  ∀ s : State, s.ch.mode = .read →
    (s.ch.chC.toNat + s.ch.rpad.toNat = s.ch.chT.toNat →
        ∃ t, exec .tDeserialize s = .next t ∧ t.tree.root = 511 ∧ t.tree.alpha = 0 ∧ t.tree.tvalid = true ∧
          t.codes.cvalid = false ∧ t.ch = s.ch ∧ t.cmd = { s.cmd with busy := false, done := true }) ∧
      (s.ch.chT.toNat < s.ch.chC.toNat + s.ch.rpad.toNat →
        ∃ t, exec .tDeserialize s = .next t ∧ t.tree.root = 511 ∧ t.tree.alpha = 0 ∧ t.tree.tvalid = false ∧
          t.codes.cvalid = false ∧ t.ch = s.ch ∧ t.cmd = { s.cmd with err := .badTree, busy := false, done := true })

/-- `T_DESERIALIZE` over the serialized form of a tree rebuilds its shape and symbols, with root 0 and frequencies 0, and stops right
behind the form. For the A = 1 tree every bit from the form to the payload end is 0 (R93, R95 corner cases (a), (b)). -/
def Obligations.DeserializeRebuilds : Prop :=
  ∀ (s : State) (sh : Shape), s.ch.mode = .read → ReaderOk s → BufferAgrees s → sh.legal = true → sh.leaves.Nodup →
    s.ch.chC.toNat + sh.cost + s.ch.rpad.toNat ≤ s.ch.chT.toNat → s.ahead sh.cost = sh.bits →
      (sh.full = false → ∀ b ∈ (s.ahead s.ch.bitsLeft).drop sh.cost, b = false) →
        s.env.completes (s.ch.fetches sh.cost + s.ch.bitsLeft) = true →
          ∃ t, exec .tDeserialize s = .next t ∧ t.cmd = { s.cmd with busy := false, done := true } ∧ t.tree.tvalid = true ∧
            t.codes.cvalid = false ∧ t.tree.shape = some sh ∧ t.tree.root = 0 ∧ t.tree.alpha.toNat = sh.leaves.length ∧
              (∀ h n, t.tree.node.of h = some n → n.freq = 0) ∧ t.ch.chC.toNat = s.ch.chC.toNat + sh.cost ∧ t.ch.mode = .read ∧
                ReaderOk t ∧ BufferAgrees t

/-- Whatever `T_DESERIALIZE` accepts is the serialized form of the tree it built, and that tree is one HUFFCORE holds: whenever it leaves
a valid tree, the bits it consumed are the form of that tree (R91, R94). -/
def Obligations.DeserializeAcceptsOnlyForms : Prop :=
  ∀ s t : State, s.ch.mode = .read → ReaderOk s → BufferAgrees s → exec .tDeserialize s = .next t → t.tree.tvalid = true →
    TreeOk t ∧ s.ahead (t.ch.chC.toNat - s.ch.chC.toNat) = t.tree.form ∧ t.ch.chC.toNat + s.ch.rpad.toNat ≤ s.ch.chT.toNat

/-- `T_DESERIALIZE` over bits that no tree HUFFCORE holds starts ends with the error `BAD_TREE`, whatever the cause; and for each cause of
R94 where the reader then stands, after the last bit read: a leaf root after its flag; a bit needed at the payload end, at the payload
end; a repeated symbol after the first leaf that repeats one; a 512th node after its flag, with all 511 entries taken. After any end that
is not a tree there is none, with `ROOT = NIL` and `ALPHA = 0`. A reader past the payload end is EmptyTree's. -/
def Obligations.MalformedTree : Prop :=
  (∀ s : State, s.ch.mode = .read → ReaderOk s → s.ch.chC.toNat + s.ch.rpad.toNat < s.ch.chT.toNat → BufferAgrees s →
    let ends (consumed : State → Prop) : Prop :=
      ∃ t, exec .tDeserialize s = .next t ∧ t.cmd = { s.cmd with err := .badTree, busy := false, done := true } ∧ consumed t
    let stands (n : Nat) (t : State) : Prop := t.ch.chC.toNat = s.ch.chC.toNat + n
    (s.ahead 1 = [false] → s.env.completes (s.ch.fetches 1) = true → ends (stands 1)) ∧
      (s.env.completes (s.ch.fetches s.ch.bitsLeft + s.ch.bitsLeft) = true →
        ((∀ sh, ¬s.treeAhead sh) → ends fun t => t.ch.chC.toNat + s.ch.rpad.toNat ≤ s.ch.chT.toNat) ∧
          (∀ sh : Shape, sh.legal = true → sh.full = true → (∀ y, ¬s.treeAhead (.inner (.leaf y) .placeholder)) →
            (s.ch.bitsLeft < sh.cost → s.ahead s.ch.bitsLeft = sh.bits.take s.ch.bitsLeft →
                ends fun t => sh.leaves.Nodup → t.ch.chC.toNat + s.ch.rpad.toNat = s.ch.chT.toNat) ∧
              (¬sh.leaves.Nodup → sh.cost ≤ s.ch.bitsLeft → s.ahead sh.cost = sh.bits →
                ends fun t => sh.leaves.length ≤ 256 → stands (sh.readUntilRepeat []).1 t)) ∧
            (512 ≤ s.ch.bitsLeft → s.ahead 512 = List.replicate 512 true →
              ends fun t => stands 512 t ∧ ∀ h : Handle, h ≠ 511 → ∃ n, t.tree.node.of h = some n ∧ n.kind = .inner))) ∧
    ∀ s t : State, s.ch.mode = .read → exec .tDeserialize s = .next t → t.tree.tvalid = false →
      t.tree.root = 511 ∧ t.tree.alpha = 0 ∧ t.codes.cvalid = false

/-! ### Stream codec (43_stream_codec.md) -/

/-- `S_ENCODE` appends the code of every input byte, in order, when each has one (R106). -/
def Obligations.SEncodeResult : Prop :=
  ∀ s : State, s.mem.wf = true → s.ch.mode = .write → WriterOk s → s.cmd.fault = false → s.codes.cvalid = true →
    regionOK s.regs.ibase s.regs.ilen = true → overlaps s.regs.ibase s.regs.ilen s.ch.lbase s.ch.llen = false →
    let msg := bytesAt s.mem s.regs.ibase.toNat s.regs.ilen.toNat
    let bits := codeString s.codes.enc msg
    (∀ y ∈ msg, (s.codes.enc.of y).valid = true) → s.ch.room bits.length →
      s.env.completes (s.regs.ilen.toNat + s.ch.commits bits.length) = true →
        ∃ t, exec .sEncode s = .next t ∧ t.cmd = { s.cmd with busy := false, done := true } ∧ t.written = s.written ++ bits ∧
          t.ch.mode = .write ∧ WriterOk t

/-- The first input byte without a code raises `UNKNOWN_SYMBOL` with its address; the codes of the bytes before it stay written (R106). -/
def Obligations.SEncodeUnknownSymbol : Prop :=
  ∀ (s : State) (k : Nat), s.mem.wf = true → s.ch.mode = .write → WriterOk s → s.cmd.fault = false → s.codes.cvalid = true →
    regionOK s.regs.ibase s.regs.ilen = true → overlaps s.regs.ibase s.regs.ilen s.ch.lbase s.ch.llen = false →
    k < s.regs.ilen.toNat →
    let msg := bytesAt s.mem s.regs.ibase.toNat k
    let bits := codeString s.codes.enc msg
    (∀ y ∈ msg, (s.codes.enc.of y).valid = true) → (s.codes.enc.of (s.mem.read (s.regs.ibase.toNat + k))).valid = false →
      s.ch.room bits.length → s.env.completes (k + 1 + s.ch.commits bits.length) = true →
        ∃ t, exec .sEncode s = .next t ∧
          t.cmd = { s.cmd with
            fault := true, fcode := .unknownSymbol, fop := s.cmd.pcmd.extractLsb' 0 8,
            finfo := BitVec.ofNat 32 (s.regs.ibase.toNat + k), busy := false } ∧ t.written = s.written ++ bits

/-- Frame of `S_DECODE`: memory changes only in the `OCNT` output bytes, and in the next one only when the bus failed there; `OCNT` stays
within `OLEN`; nothing else but the reader's position changes (R107). -/
def Obligations.FrameSDecode : Prop :=
  ∀ s t : State, exec .sDecode s = .next t →
    (∀ a, (a < s.regs.obase.toNat ∨ s.regs.obase.toNat + t.res.ocnt.toNat ≤ a) →
        (a = s.regs.obase.toNat + t.res.ocnt.toNat → t.cmd.fcode ≠ .busError) → t.mem.read a = s.mem.read a) ∧
      (t.res.ocnt.toNat ≤ s.regs.olen.toNat ∨ t.res = s.res) ∧ t.res.result = s.res.result ∧ t.regs = s.regs ∧ t.cnt = s.cnt ∧
        t.tree = s.tree ∧ t.codes = s.codes ∧ t.ch.mode = s.ch.mode ∧ t.ch.lbase = s.ch.lbase ∧ t.ch.llen = s.ch.llen ∧
          t.ch.chT = s.ch.chT ∧ t.ch.rpad = s.ch.rpad ∧ t.ch.fileLen = s.ch.fileLen

/-- `S_DECODE` over the codes of a byte string, up to the payload end, writes exactly that byte string (R107; with `S_ENCODE`'s
statement, the round trip of R111). -/
def Obligations.SDecodeInvertsCodes : Prop :=
  ∀ (s : State) (msg : List Byte), State.Good s → BufferAgrees s → s.ch.mode = .read → s.codes.cvalid = true →
    regionOK s.regs.obase s.regs.olen = true → overlaps s.regs.obase s.regs.olen s.ch.lbase s.ch.llen = false →
    s.ch.chC.toNat + s.ch.rpad.toNat ≤ s.ch.chT.toNat → (∀ y ∈ msg, (s.codes.enc.of y).valid = true) →
    s.ahead s.ch.bitsLeft = codeString s.codes.enc msg → msg.length ≤ s.regs.olen.toNat →
      s.env.completes (s.ch.fetches s.ch.bitsLeft + msg.length) = true →
        ∃ t, exec .sDecode s = .next t ∧ t.cmd = { s.cmd with busy := false, done := true } ∧
          bytesAt t.mem s.regs.obase.toNat msg.length = msg ∧ t.res.ocnt.toNat = msg.length ∧
            t.ch.chC.toNat + s.ch.rpad.toNat = s.ch.chT.toNat ∧ t.ch.mode = .read

/-- `S_DECODE` on a malformed stream, with the whole codes `msg` before it decoded and written: `BAD_CODE` at the first bit after which
what was read since the last symbol starts no code, `RESIDUE` when the payload ends inside a code (R107). -/
def Obligations.SDecodeMalformed : Prop :=
  ∀ (s : State) (msg : List Byte) (q rest : List Bool), State.Good s → BufferAgrees s → s.ch.mode = .read →
    s.codes.cvalid = true → regionOK s.regs.obase s.regs.olen = true →
    overlaps s.regs.obase s.regs.olen s.ch.lbase s.ch.llen = false → s.ch.chC.toNat + s.ch.rpad.toNat ≤ s.ch.chT.toNat →
    (∀ y ∈ msg, (s.codes.enc.of y).valid = true) → s.ahead s.ch.bitsLeft = codeString s.codes.enc msg ++ (q ++ rest) →
    msg.length ≤ s.regs.olen.toNat → s.env.completes (s.ch.fetches s.ch.bitsLeft + msg.length) = true → q ≠ [] →
    let starts (p : List Bool) : Prop := ∃ y, (s.codes.enc.of y).valid = true ∧ p <+: (s.codes.enc.of y).string
    (rest = [] → starts q → (∀ y, (s.codes.enc.of y).valid = true → (s.codes.enc.of y).string ≠ q) →
        ∃ t, exec .sDecode s = .next t ∧ t.cmd = { s.cmd with err := .residue, busy := false, done := true } ∧
          bytesAt t.mem s.regs.obase.toNat msg.length = msg ∧ t.res.ocnt.toNat = msg.length ∧
            t.ch.chC.toNat + s.ch.rpad.toNat = s.ch.chT.toNat) ∧
      ((q.dropLast = [] ∨ starts q.dropLast) → (∀ y, (s.codes.enc.of y).valid = true → (s.codes.enc.of y).string ≠ q.dropLast) →
        ¬starts q →
        ∃ t, exec .sDecode s = .next t ∧ t.cmd = { s.cmd with err := .badCode, busy := false, done := true } ∧
          bytesAt t.mem s.regs.obase.toNat msg.length = msg ∧ t.res.ocnt.toNat = msg.length ∧
            t.ch.chC.toNat = s.ch.chC.toNat + (codeString s.codes.enc msg).length + q.length)

/-- `S_DECODE` with the output region full at a decoded symbol raises `SINK_OVERFLOW` with the address past the region, the `OLEN` bytes
before it written; a reader past the payload end ends with `BAD_LENGTH`, `OCNT = 0` and nothing read (R107). The 32-bit `FINFO` of a
region that ends at 2^32 is a free value (entry 6), so that case says nothing of it. -/
def Obligations.SDecodeBounds : Prop :=
  ∀ s : State, State.Good s → s.ch.mode = .read → s.codes.cvalid = true → regionOK s.regs.obase s.regs.olen = true →
    overlaps s.regs.obase s.regs.olen s.ch.lbase s.ch.llen = false →
      (∀ (msg : List Byte) (y : Byte) (rest : List Bool), BufferAgrees s → s.ch.chC.toNat + s.ch.rpad.toNat ≤ s.ch.chT.toNat →
        (∀ z ∈ msg, (s.codes.enc.of z).valid = true) → (s.codes.enc.of y).valid = true →
        s.ahead s.ch.bitsLeft = codeString s.codes.enc (msg ++ [y]) ++ rest → msg.length = s.regs.olen.toNat →
        s.env.completes (s.ch.fetches s.ch.bitsLeft + msg.length) = true →
          ∃ t, exec .sDecode s = .next t ∧ t.cmd.fault = true ∧ t.cmd.fcode = .sinkOverflow ∧
            (s.regs.obase.toNat + s.regs.olen.toNat < 2 ^ 32 → t.cmd.finfo = s.regs.obase + s.regs.olen) ∧
              t.cmd.busy = false ∧ bytesAt t.mem s.regs.obase.toNat msg.length = msg ∧ t.res.ocnt = s.regs.olen) ∧
        (s.ch.chT.toNat < s.ch.chC.toNat + s.ch.rpad.toNat →
          exec .sDecode s = .next { s with
            res := { s.res with ocnt := 0 }, cmd := { s.cmd with err := .badLength, busy := false, done := true } })

/-- R108: while `CVALID = 1`, a walk of the arena from `ROOT` gives the table lookups: a leaf is the exact match, an internal node a proper
prefix of a code, the placeholder the start of no code; with `ROOT = NIL` no bit starts a code. -/
def Obligations.TreeWalkIsDecoderTable : Prop :=
  ∀ (s : State) (p : List Bool), TreeOk s → CodesOk s → s.codes.cvalid = true →
    (s.tree.root = 511 → decodeTable s.codes.enc p = none ∧ startsCode s.codes.enc p = false) ∧
      ∀ n, descend s.tree.node s.tree.root p = some n →
        (n.kind = .leaf → decodeTable s.codes.enc p = some n.sym) ∧
          (n.kind = .inner → decodeTable s.codes.enc p = none ∧ startsCode s.codes.enc p = true) ∧
            (n.kind = .placeholder → decodeTable s.codes.enc p = none ∧ startsCode s.codes.enc p = false) ∧ n.kind ≠ .free

/-! ### Invariants -/

/-- The state after reset is a good one. -/
def Obligations.ResetIsGood : Prop := State.reset.Good

/-- Every step keeps memory in its canonical form (entry 4). -/
def Obligations.StepKeepsMemoryForm : Prop := ∀ s t : State, s.mem.wf = true → step s = .next t → t.mem.wf = true

/-- Every step keeps the handshake: in the fault state the block is not busy, not done and has no error, and records the opcode byte;
outside it the fault registers read 0; a busy block is not done (10_state.md R21, R22, R38, 60_exceptions.md R118). -/
def Obligations.StepKeepsHandshake : Prop := ∀ s t : State, HandshakeOk s → step s = .next t → HandshakeOk t

/-- Every step keeps the channel invariants (42_bitchannel.md R97). -/
def Obligations.StepKeepsChannel : Prop := ∀ s t : State, ChannelOk s → step s = .next t → ChannelOk t

/-- Every step keeps the tree and its codes: while `TVALID = 1` the arena holds a tree HUFFCORE can hold, of depth at most 255, with
distinct leaf symbols, and while `CVALID = 1` `ENC` is its table (10_state.md R28, R29, R30, 40_frequency_tree.md R86, R87). -/
def Obligations.StepKeepsTreeAndCodes : Prop :=
  ∀ s t : State, TreeOk s → CodesOk s → step s = .next t → TreeOk t ∧ CodesOk t

/-- In a good state the model never stops: no step ends in a fault of the model (entry 11). With the invariants above, no run from a
good state ever does. -/
def Obligations.GoodStatesDoNotStop : Prop := ∀ (s : State) (r : Fault), State.Good s → step s ≠ .fault r
end

