-- ==== Sys2Proof/Laws/State.lean ====
section
/-! SUPPORT. Every named update of the state against every group of fields: what it changes and what it leaves. -/

namespace Sys2Proof.Machine

/-! ### `State.finish` -/

@[simp] theorem State.finish_regs (s : State) : (s.finish).regs = s.regs := rfl

@[simp] theorem State.finish_cmd (s : State) : (s.finish).cmd = { s.cmd with busy := false, done := true } := rfl

@[simp] theorem State.finish_res (s : State) : (s.finish).res = s.res := rfl

@[simp] theorem State.finish_cnt (s : State) : (s.finish).cnt = s.cnt := rfl

@[simp] theorem State.finish_tree (s : State) : (s.finish).tree = s.tree := rfl

@[simp] theorem State.finish_codes (s : State) : (s.finish).codes = s.codes := rfl

@[simp] theorem State.finish_ch (s : State) : (s.finish).ch = s.ch := rfl

@[simp] theorem State.finish_mem (s : State) : (s.finish).mem = s.mem := rfl

@[simp] theorem State.finish_env (s : State) : (s.finish).env = s.env := rfl

/-! ### `State.finishError` -/

@[simp] theorem State.finishError_regs (s : State) (e : ErrCode) : (s.finishError e).regs = s.regs := rfl

@[simp] theorem State.finishError_cmd (s : State) (e : ErrCode) : (s.finishError e).cmd = { s.cmd with err := e, busy := false, done := true } := rfl

@[simp] theorem State.finishError_res (s : State) (e : ErrCode) : (s.finishError e).res = s.res := rfl

@[simp] theorem State.finishError_cnt (s : State) (e : ErrCode) : (s.finishError e).cnt = s.cnt := rfl

@[simp] theorem State.finishError_tree (s : State) (e : ErrCode) : (s.finishError e).tree = s.tree := rfl

@[simp] theorem State.finishError_codes (s : State) (e : ErrCode) : (s.finishError e).codes = s.codes := rfl

@[simp] theorem State.finishError_ch (s : State) (e : ErrCode) : (s.finishError e).ch = s.ch := rfl

@[simp] theorem State.finishError_mem (s : State) (e : ErrCode) : (s.finishError e).mem = s.mem := rfl

@[simp] theorem State.finishError_env (s : State) (e : ErrCode) : (s.finishError e).env = s.env := rfl

/-! ### `State.enterFault` -/

@[simp] theorem State.enterFault_regs (s : State) (f : FaultCode) (info : Word) : (s.enterFault f info).regs = s.regs := rfl

@[simp] theorem State.enterFault_cmd (s : State) (f : FaultCode) (info : Word) : (s.enterFault f info).cmd = { s.cmd with fault := true, fcode := f, fop := opField s.cmd.pcmd, finfo := info, busy := false } := rfl

@[simp] theorem State.enterFault_res (s : State) (f : FaultCode) (info : Word) : (s.enterFault f info).res = s.res := rfl

@[simp] theorem State.enterFault_cnt (s : State) (f : FaultCode) (info : Word) : (s.enterFault f info).cnt = s.cnt := rfl

@[simp] theorem State.enterFault_tree (s : State) (f : FaultCode) (info : Word) : (s.enterFault f info).tree = s.tree := rfl

@[simp] theorem State.enterFault_codes (s : State) (f : FaultCode) (info : Word) : (s.enterFault f info).codes = s.codes := rfl

@[simp] theorem State.enterFault_ch (s : State) (f : FaultCode) (info : Word) : (s.enterFault f info).ch = s.ch := rfl

@[simp] theorem State.enterFault_mem (s : State) (f : FaultCode) (info : Word) : (s.enterFault f info).mem = s.mem := rfl

@[simp] theorem State.enterFault_env (s : State) (f : FaultCode) (info : Word) : (s.enterFault f info).env = s.env := rfl

/-! ### `State.invalidate` -/

@[simp] theorem State.invalidate_regs (s : State) : (s.invalidate).regs = s.regs := rfl

@[simp] theorem State.invalidate_cmd (s : State) : (s.invalidate).cmd = s.cmd := rfl

@[simp] theorem State.invalidate_res (s : State) : (s.invalidate).res = s.res := rfl

@[simp] theorem State.invalidate_cnt (s : State) : (s.invalidate).cnt = s.cnt := rfl

@[simp] theorem State.invalidate_tree (s : State) : (s.invalidate).tree = { s.tree with tvalid := false } := rfl

@[simp] theorem State.invalidate_codes (s : State) : (s.invalidate).codes = { s.codes with cvalid := false } := rfl

@[simp] theorem State.invalidate_ch (s : State) : (s.invalidate).ch = s.ch := rfl

@[simp] theorem State.invalidate_mem (s : State) : (s.invalidate).mem = s.mem := rfl

@[simp] theorem State.invalidate_env (s : State) : (s.invalidate).env = s.env := rfl

/-! ### `State.drawNext` -/

@[simp] theorem State.drawNext_regs (s : State) : (s.drawNext).regs = s.regs := rfl

@[simp] theorem State.drawNext_cmd (s : State) : (s.drawNext).cmd = s.cmd := rfl

@[simp] theorem State.drawNext_res (s : State) : (s.drawNext).res = s.res := rfl

@[simp] theorem State.drawNext_cnt (s : State) : (s.drawNext).cnt = s.cnt := rfl

@[simp] theorem State.drawNext_tree (s : State) : (s.drawNext).tree = s.tree := rfl

@[simp] theorem State.drawNext_codes (s : State) : (s.drawNext).codes = s.codes := rfl

@[simp] theorem State.drawNext_ch (s : State) : (s.drawNext).ch = s.ch := rfl

@[simp] theorem State.drawNext_mem (s : State) : (s.drawNext).mem = s.mem := rfl

@[simp] theorem State.drawNext_env (s : State) : (s.drawNext).env = { s.env with draws := s.env.draws.tail, drawn := s.env.drawn + 1 } := rfl

/-! ### `State.pushBit` -/

@[simp] theorem State.pushBit_regs (s : State) (b : Bool) : (s.pushBit b).regs = s.regs := rfl

@[simp] theorem State.pushBit_cmd (s : State) (b : Bool) : (s.pushBit b).cmd = s.cmd := rfl

@[simp] theorem State.pushBit_res (s : State) (b : Bool) : (s.pushBit b).res = s.res := rfl

@[simp] theorem State.pushBit_cnt (s : State) (b : Bool) : (s.pushBit b).cnt = s.cnt := rfl

@[simp] theorem State.pushBit_tree (s : State) (b : Bool) : (s.pushBit b).tree = s.tree := rfl

@[simp] theorem State.pushBit_codes (s : State) (b : Bool) : (s.pushBit b).codes = s.codes := rfl

@[simp] theorem State.pushBit_ch (s : State) (b : Bool) : (s.pushBit b).ch = { s.ch with bacc := s.ch.bacc <<< 1 ||| (BitVec.ofBool b).setWidth 8, bn := s.ch.bn + 1 } := rfl

@[simp] theorem State.pushBit_mem (s : State) (b : Bool) : (s.pushBit b).mem = s.mem := rfl

@[simp] theorem State.pushBit_env (s : State) (b : Bool) : (s.pushBit b).env = s.env := rfl

/-! ### `State.clearAcc` -/

@[simp] theorem State.clearAcc_regs (s : State) : (s.clearAcc).regs = s.regs := rfl

@[simp] theorem State.clearAcc_cmd (s : State) : (s.clearAcc).cmd = s.cmd := rfl

@[simp] theorem State.clearAcc_res (s : State) : (s.clearAcc).res = s.res := rfl

@[simp] theorem State.clearAcc_cnt (s : State) : (s.clearAcc).cnt = s.cnt := rfl

@[simp] theorem State.clearAcc_tree (s : State) : (s.clearAcc).tree = s.tree := rfl

@[simp] theorem State.clearAcc_codes (s : State) : (s.clearAcc).codes = s.codes := rfl

@[simp] theorem State.clearAcc_ch (s : State) : (s.clearAcc).ch = { s.ch with bacc := 0, bn := 0 } := rfl

@[simp] theorem State.clearAcc_mem (s : State) : (s.clearAcc).mem = s.mem := rfl

@[simp] theorem State.clearAcc_env (s : State) : (s.clearAcc).env = s.env := rfl

/-! ### `State.setFreq` -/

@[simp] theorem State.setFreq_regs (s : State) (b : Byte) (v : Word) : (s.setFreq b v).regs = s.regs := rfl

@[simp] theorem State.setFreq_cmd (s : State) (b : Byte) (v : Word) : (s.setFreq b v).cmd = s.cmd := rfl

@[simp] theorem State.setFreq_res (s : State) (b : Byte) (v : Word) : (s.setFreq b v).res = s.res := rfl

@[simp] theorem State.setFreq_cnt (s : State) (b : Byte) (v : Word) : (s.setFreq b v).cnt = { s.cnt with freq := s.cnt.freq.put b v } := rfl

@[simp] theorem State.setFreq_tree (s : State) (b : Byte) (v : Word) : (s.setFreq b v).tree = s.tree := rfl

@[simp] theorem State.setFreq_codes (s : State) (b : Byte) (v : Word) : (s.setFreq b v).codes = s.codes := rfl

@[simp] theorem State.setFreq_ch (s : State) (b : Byte) (v : Word) : (s.setFreq b v).ch = s.ch := rfl

@[simp] theorem State.setFreq_mem (s : State) (b : Byte) (v : Word) : (s.setFreq b v).mem = s.mem := rfl

@[simp] theorem State.setFreq_env (s : State) (b : Byte) (v : Word) : (s.setFreq b v).env = s.env := rfl

/-! ### `State.latch` -/

@[simp] theorem State.latch_regs (s : State) : (s.latch).regs = s.regs := rfl

@[simp] theorem State.latch_cmd (s : State) : (s.latch).cmd = s.cmd := rfl

@[simp] theorem State.latch_res (s : State) : (s.latch).res = s.res := rfl

@[simp] theorem State.latch_cnt (s : State) : (s.latch).cnt = s.cnt := rfl

@[simp] theorem State.latch_tree (s : State) : (s.latch).tree = s.tree := rfl

@[simp] theorem State.latch_codes (s : State) : (s.latch).codes = s.codes := rfl

@[simp] theorem State.latch_ch (s : State) : (s.latch).ch = { s.ch with lbase := s.regs.sbase, llen := s.regs.slen } := rfl

@[simp] theorem State.latch_mem (s : State) : (s.latch).mem = s.mem := rfl

@[simp] theorem State.latch_env (s : State) : (s.latch).env = s.env := rfl

/-! ### `State.closeWriter` -/

@[simp] theorem State.closeWriter_regs (s : State) : (s.closeWriter).regs = s.regs := rfl

@[simp] theorem State.closeWriter_cmd (s : State) : (s.closeWriter).cmd = s.cmd := rfl

@[simp] theorem State.closeWriter_res (s : State) : (s.closeWriter).res = s.res := rfl

@[simp] theorem State.closeWriter_cnt (s : State) : (s.closeWriter).cnt = s.cnt := rfl

@[simp] theorem State.closeWriter_tree (s : State) : (s.closeWriter).tree = s.tree := rfl

@[simp] theorem State.closeWriter_codes (s : State) : (s.closeWriter).codes = s.codes := rfl

@[simp] theorem State.closeWriter_ch (s : State) : (s.closeWriter).ch = { s.ch with fileLen := BitVec.ofNat 32 (4 + s.ch.chT.toNat / 8), mode := .idle } := rfl

@[simp] theorem State.closeWriter_mem (s : State) : (s.closeWriter).mem = s.mem := rfl

@[simp] theorem State.closeWriter_env (s : State) : (s.closeWriter).env = s.env := rfl

/-! ### `State.setOcnt` -/

@[simp] theorem State.setOcnt_regs (s : State) (v : Word) : (s.setOcnt v).regs = s.regs := rfl

@[simp] theorem State.setOcnt_cmd (s : State) (v : Word) : (s.setOcnt v).cmd = s.cmd := rfl

@[simp] theorem State.setOcnt_res (s : State) (v : Word) : (s.setOcnt v).res = { s.res with ocnt := v } := rfl

@[simp] theorem State.setOcnt_cnt (s : State) (v : Word) : (s.setOcnt v).cnt = s.cnt := rfl

@[simp] theorem State.setOcnt_tree (s : State) (v : Word) : (s.setOcnt v).tree = s.tree := rfl

@[simp] theorem State.setOcnt_codes (s : State) (v : Word) : (s.setOcnt v).codes = s.codes := rfl

@[simp] theorem State.setOcnt_ch (s : State) (v : Word) : (s.setOcnt v).ch = s.ch := rfl

@[simp] theorem State.setOcnt_mem (s : State) (v : Word) : (s.setOcnt v).mem = s.mem := rfl

@[simp] theorem State.setOcnt_env (s : State) (v : Word) : (s.setOcnt v).env = s.env := rfl

/-! ### `State.setNode` -/

@[simp] theorem State.setNode_regs (s : State) (h : Handle) (n : Node) : (s.setNode h n).regs = s.regs := rfl

@[simp] theorem State.setNode_cmd (s : State) (h : Handle) (n : Node) : (s.setNode h n).cmd = s.cmd := rfl

@[simp] theorem State.setNode_res (s : State) (h : Handle) (n : Node) : (s.setNode h n).res = s.res := rfl

@[simp] theorem State.setNode_cnt (s : State) (h : Handle) (n : Node) : (s.setNode h n).cnt = s.cnt := rfl

@[simp] theorem State.setNode_tree (s : State) (h : Handle) (n : Node) : (s.setNode h n).tree = { s.tree with node := s.tree.node.put h n } := rfl

@[simp] theorem State.setNode_codes (s : State) (h : Handle) (n : Node) : (s.setNode h n).codes = s.codes := rfl

@[simp] theorem State.setNode_ch (s : State) (h : Handle) (n : Node) : (s.setNode h n).ch = s.ch := rfl

@[simp] theorem State.setNode_mem (s : State) (h : Handle) (n : Node) : (s.setNode h n).mem = s.mem := rfl

@[simp] theorem State.setNode_env (s : State) (h : Handle) (n : Node) : (s.setNode h n).env = s.env := rfl

/-! ### `State.setTree` -/

@[simp] theorem State.setTree_regs (s : State) (r : Handle) (a : Nat) : (s.setTree r a).regs = s.regs := rfl

@[simp] theorem State.setTree_cmd (s : State) (r : Handle) (a : Nat) : (s.setTree r a).cmd = s.cmd := rfl

@[simp] theorem State.setTree_res (s : State) (r : Handle) (a : Nat) : (s.setTree r a).res = s.res := rfl

@[simp] theorem State.setTree_cnt (s : State) (r : Handle) (a : Nat) : (s.setTree r a).cnt = s.cnt := rfl

@[simp] theorem State.setTree_tree (s : State) (r : Handle) (a : Nat) : (s.setTree r a).tree = { s.tree with root := r, alpha := BitVec.ofNat 9 a, tvalid := true } := rfl

@[simp] theorem State.setTree_codes (s : State) (r : Handle) (a : Nat) : (s.setTree r a).codes = s.codes := rfl

@[simp] theorem State.setTree_ch (s : State) (r : Handle) (a : Nat) : (s.setTree r a).ch = s.ch := rfl

@[simp] theorem State.setTree_mem (s : State) (r : Handle) (a : Nat) : (s.setTree r a).mem = s.mem := rfl

@[simp] theorem State.setTree_env (s : State) (r : Handle) (a : Nat) : (s.setTree r a).env = s.env := rfl

/-! ### `State.clearTree` -/

@[simp] theorem State.clearTree_regs (s : State) : (s.clearTree).regs = s.regs := rfl

@[simp] theorem State.clearTree_cmd (s : State) : (s.clearTree).cmd = s.cmd := rfl

@[simp] theorem State.clearTree_res (s : State) : (s.clearTree).res = s.res := rfl

@[simp] theorem State.clearTree_cnt (s : State) : (s.clearTree).cnt = s.cnt := rfl

@[simp] theorem State.clearTree_tree (s : State) : (s.clearTree).tree = { node := Vector.replicate 511 Node.blank, root := nilHandle, alpha := 0, tvalid := false } := rfl

@[simp] theorem State.clearTree_codes (s : State) : (s.clearTree).codes = { s.codes with cvalid := false } := rfl

@[simp] theorem State.clearTree_ch (s : State) : (s.clearTree).ch = s.ch := rfl

@[simp] theorem State.clearTree_mem (s : State) : (s.clearTree).mem = s.mem := rfl

@[simp] theorem State.clearTree_env (s : State) : (s.clearTree).env = s.env := rfl

/-! ### `State.issue` -/

@[simp] theorem State.issue_regs (s : State) (w : Word) : (s.issue w).regs = s.regs := rfl

@[simp] theorem State.issue_cmd (s : State) (w : Word) : (s.issue w).cmd = { s.cmd with pcmd := w, busy := true, done := false, err := .none } := rfl

@[simp] theorem State.issue_res (s : State) (w : Word) : (s.issue w).res = s.res := rfl

@[simp] theorem State.issue_cnt (s : State) (w : Word) : (s.issue w).cnt = s.cnt := rfl

@[simp] theorem State.issue_tree (s : State) (w : Word) : (s.issue w).tree = s.tree := rfl

@[simp] theorem State.issue_codes (s : State) (w : Word) : (s.issue w).codes = s.codes := rfl

@[simp] theorem State.issue_ch (s : State) (w : Word) : (s.issue w).ch = s.ch := rfl

@[simp] theorem State.issue_mem (s : State) (w : Word) : (s.issue w).mem = s.mem := rfl

@[simp] theorem State.issue_env (s : State) (w : Word) : (s.issue w).env = s.env := rfl

/-! ### `State.setLastRead` -/

@[simp] theorem State.setLastRead_regs (s : State) (v : Word) : (s.setLastRead v).regs = s.regs := rfl

@[simp] theorem State.setLastRead_cmd (s : State) (v : Word) : (s.setLastRead v).cmd = s.cmd := rfl

@[simp] theorem State.setLastRead_res (s : State) (v : Word) : (s.setLastRead v).res = s.res := rfl

@[simp] theorem State.setLastRead_cnt (s : State) (v : Word) : (s.setLastRead v).cnt = s.cnt := rfl

@[simp] theorem State.setLastRead_tree (s : State) (v : Word) : (s.setLastRead v).tree = s.tree := rfl

@[simp] theorem State.setLastRead_codes (s : State) (v : Word) : (s.setLastRead v).codes = s.codes := rfl

@[simp] theorem State.setLastRead_ch (s : State) (v : Word) : (s.setLastRead v).ch = s.ch := rfl

@[simp] theorem State.setLastRead_mem (s : State) (v : Word) : (s.setLastRead v).mem = s.mem := rfl

@[simp] theorem State.setLastRead_env (s : State) (v : Word) : (s.setLastRead v).env = { s.env with lastRead := v } := rfl

/-! ### `State.dropTurn` -/

@[simp] theorem State.dropTurn_regs (s : State) : (s.dropTurn).regs = s.regs := rfl

@[simp] theorem State.dropTurn_cmd (s : State) : (s.dropTurn).cmd = s.cmd := rfl

@[simp] theorem State.dropTurn_res (s : State) : (s.dropTurn).res = s.res := rfl

@[simp] theorem State.dropTurn_cnt (s : State) : (s.dropTurn).cnt = s.cnt := rfl

@[simp] theorem State.dropTurn_tree (s : State) : (s.dropTurn).tree = s.tree := rfl

@[simp] theorem State.dropTurn_codes (s : State) : (s.dropTurn).codes = s.codes := rfl

@[simp] theorem State.dropTurn_ch (s : State) : (s.dropTurn).ch = s.ch := rfl

@[simp] theorem State.dropTurn_mem (s : State) : (s.dropTurn).mem = s.mem := rfl

@[simp] theorem State.dropTurn_env (s : State) : (s.dropTurn).env = { s.env with turns := s.env.turns.tail } := rfl

/-! ### `State.resetBlock` -/

@[simp] theorem State.resetBlock_regs (s : State) : (s.resetBlock).regs = State.reset.regs := rfl

@[simp] theorem State.resetBlock_cmd (s : State) : (s.resetBlock).cmd = State.reset.cmd := rfl

@[simp] theorem State.resetBlock_res (s : State) : (s.resetBlock).res = State.reset.res := rfl

@[simp] theorem State.resetBlock_cnt (s : State) : (s.resetBlock).cnt = State.reset.cnt := rfl

@[simp] theorem State.resetBlock_tree (s : State) : (s.resetBlock).tree = State.reset.tree := rfl

@[simp] theorem State.resetBlock_codes (s : State) : (s.resetBlock).codes = State.reset.codes := rfl

@[simp] theorem State.resetBlock_ch (s : State) : (s.resetBlock).ch = State.reset.ch := rfl

@[simp] theorem State.resetBlock_mem (s : State) : (s.resetBlock).mem = s.mem := rfl

@[simp] theorem State.resetBlock_env (s : State) : (s.resetBlock).env = s.env := rfl

/-! ### `State.setPos` -/

@[simp] theorem State.setPos_regs (s : State) (n : Nat) : (s.setPos n).regs = s.regs := by
  unfold State.setPos; split <;> rfl

@[simp] theorem State.setPos_cmd (s : State) (n : Nat) : (s.setPos n).cmd = s.cmd := by
  unfold State.setPos; split <;> rfl

@[simp] theorem State.setPos_res (s : State) (n : Nat) : (s.setPos n).res = s.res := by
  unfold State.setPos; split <;> rfl

@[simp] theorem State.setPos_cnt (s : State) (n : Nat) : (s.setPos n).cnt = s.cnt := by
  unfold State.setPos; split <;> rfl

@[simp] theorem State.setPos_tree (s : State) (n : Nat) : (s.setPos n).tree = s.tree := by
  unfold State.setPos; split <;> rfl

@[simp] theorem State.setPos_codes (s : State) (n : Nat) : (s.setPos n).codes = s.codes := by
  unfold State.setPos; split <;> rfl

@[simp] theorem State.setPos_mem (s : State) (n : Nat) : (s.setPos n).mem = s.mem := by
  unfold State.setPos; split <;> rfl

@[simp] theorem State.setPos_env (s : State) (n : Nat) : (s.setPos n).env = s.env := by
  unfold State.setPos; split <;> rfl

@[simp] theorem State.setPos_mode (s : State) (n : Nat) : (s.setPos n).ch.mode = s.ch.mode := by
  unfold State.setPos; split <;> rfl

@[simp] theorem State.setPos_lbase (s : State) (n : Nat) : (s.setPos n).ch.lbase = s.ch.lbase := by
  unfold State.setPos; split <;> rfl

@[simp] theorem State.setPos_llen (s : State) (n : Nat) : (s.setPos n).ch.llen = s.ch.llen := by
  unfold State.setPos; split <;> rfl

@[simp] theorem State.setPos_bacc (s : State) (n : Nat) : (s.setPos n).ch.bacc = s.ch.bacc := by
  unfold State.setPos; split <;> rfl

@[simp] theorem State.setPos_bn (s : State) (n : Nat) : (s.setPos n).ch.bn = s.ch.bn := by
  unfold State.setPos; split <;> rfl

@[simp] theorem State.setPos_chT (s : State) (n : Nat) : (s.setPos n).ch.chT = s.ch.chT := by
  unfold State.setPos; split <;> rfl

@[simp] theorem State.setPos_chC (s : State) (n : Nat) : (s.setPos n).ch.chC = s.ch.chC := by
  unfold State.setPos; split <;> rfl

@[simp] theorem State.setPos_rpad (s : State) (n : Nat) : (s.setPos n).ch.rpad = s.ch.rpad := by
  unfold State.setPos; split <;> rfl

@[simp] theorem State.setPos_fileLen (s : State) (n : Nat) : (s.setPos n).ch.fileLen = s.ch.fileLen := by
  unfold State.setPos; split <;> rfl

/-- The position is what was set, also at 2^32, where the 32-bit register's value is free. -/
theorem State.setPos_pos (s : State) (n : Nat) (h : n ≤ 2 ^ 32) : (s.setPos n).ch.pos = n := by
  unfold State.setPos Channel.pos
  split
  · simp only [Bool.false_eq_true, if_false, BitVec.toNat_ofNat]; omega
  · simp only [if_true]; omega

/-! ### `State.openWriter` -/

@[simp] theorem State.openWriter_regs (s : State) : (s.openWriter).regs = s.regs := by
  unfold State.openWriter; simp

@[simp] theorem State.openWriter_cmd (s : State) : (s.openWriter).cmd = s.cmd := by
  unfold State.openWriter; simp

@[simp] theorem State.openWriter_res (s : State) : (s.openWriter).res = s.res := by
  unfold State.openWriter; simp

@[simp] theorem State.openWriter_cnt (s : State) : (s.openWriter).cnt = s.cnt := by
  unfold State.openWriter; simp

@[simp] theorem State.openWriter_tree (s : State) : (s.openWriter).tree = s.tree := by
  unfold State.openWriter; simp

@[simp] theorem State.openWriter_codes (s : State) : (s.openWriter).codes = s.codes := by
  unfold State.openWriter; simp

@[simp] theorem State.openWriter_mem (s : State) : (s.openWriter).mem = s.mem := by
  unfold State.openWriter; simp

@[simp] theorem State.openWriter_env (s : State) : (s.openWriter).env = s.env := by
  unfold State.openWriter; simp

@[simp] theorem State.openWriter_mode (s : State) : (s.openWriter).ch.mode = .write := by
  unfold State.openWriter; simp

@[simp] theorem State.openWriter_lbase (s : State) : (s.openWriter).ch.lbase = s.ch.lbase := by
  unfold State.openWriter; simp

@[simp] theorem State.openWriter_llen (s : State) : (s.openWriter).ch.llen = s.ch.llen := by
  unfold State.openWriter; simp

@[simp] theorem State.openWriter_bacc (s : State) : (s.openWriter).ch.bacc = 0 := by
  unfold State.openWriter; simp

@[simp] theorem State.openWriter_bn (s : State) : (s.openWriter).ch.bn = 0 := by
  unfold State.openWriter; simp

@[simp] theorem State.openWriter_chT (s : State) : (s.openWriter).ch.chT = 0 := by
  unfold State.openWriter; simp

@[simp] theorem State.openWriter_chC (s : State) : (s.openWriter).ch.chC = 0 := by
  unfold State.openWriter; simp

@[simp] theorem State.openWriter_rpad (s : State) : (s.openWriter).ch.rpad = s.ch.rpad := by
  unfold State.openWriter; simp

@[simp] theorem State.openWriter_fileLen (s : State) : (s.openWriter).ch.fileLen = 0 := by
  unfold State.openWriter; simp

theorem State.openWriter_pos (s : State) (h : s.ch.lbase.toNat + 4 ≤ 2 ^ 32) :
    (s.openWriter).ch.pos = s.ch.lbase.toNat + 4 :=
  State.setPos_pos s _ h

/-! ### `State.openReader` -/

@[simp] theorem State.openReader_regs (s : State) (t : Nat) : (s.openReader t).regs = s.regs := by
  unfold State.openReader; simp

@[simp] theorem State.openReader_cmd (s : State) (t : Nat) : (s.openReader t).cmd = s.cmd := by
  unfold State.openReader; simp

@[simp] theorem State.openReader_res (s : State) (t : Nat) : (s.openReader t).res = s.res := by
  unfold State.openReader; simp

@[simp] theorem State.openReader_cnt (s : State) (t : Nat) : (s.openReader t).cnt = s.cnt := by
  unfold State.openReader; simp

@[simp] theorem State.openReader_tree (s : State) (t : Nat) : (s.openReader t).tree = s.tree := by
  unfold State.openReader; simp

@[simp] theorem State.openReader_codes (s : State) (t : Nat) : (s.openReader t).codes = s.codes := by
  unfold State.openReader; simp

@[simp] theorem State.openReader_mem (s : State) (t : Nat) : (s.openReader t).mem = s.mem := by
  unfold State.openReader; simp

@[simp] theorem State.openReader_env (s : State) (t : Nat) : (s.openReader t).env = s.env := by
  unfold State.openReader; simp

@[simp] theorem State.openReader_mode (s : State) (t : Nat) : (s.openReader t).ch.mode = .read := by
  unfold State.openReader; simp

@[simp] theorem State.openReader_lbase (s : State) (t : Nat) : (s.openReader t).ch.lbase = s.ch.lbase := by
  unfold State.openReader; simp

@[simp] theorem State.openReader_llen (s : State) (t : Nat) : (s.openReader t).ch.llen = s.ch.llen := by
  unfold State.openReader; simp

@[simp] theorem State.openReader_bacc (s : State) (t : Nat) : (s.openReader t).ch.bacc = 0 := by
  unfold State.openReader; simp

@[simp] theorem State.openReader_bn (s : State) (t : Nat) : (s.openReader t).ch.bn = 0 := by
  unfold State.openReader; simp

@[simp] theorem State.openReader_chT (s : State) (t : Nat) : (s.openReader t).ch.chT = BitVec.ofNat 32 t := by
  unfold State.openReader; simp

@[simp] theorem State.openReader_chC (s : State) (t : Nat) : (s.openReader t).ch.chC = 0 := by
  unfold State.openReader; simp

@[simp] theorem State.openReader_rpad (s : State) (t : Nat) : (s.openReader t).ch.rpad = 0 := by
  unfold State.openReader; simp

@[simp] theorem State.openReader_fileLen (s : State) (t : Nat) : (s.openReader t).ch.fileLen = s.ch.fileLen := by
  unfold State.openReader; simp

theorem State.openReader_pos (s : State) (t : Nat) (h : s.ch.lbase.toNat + 4 ≤ 2 ^ 32) :
    (s.openReader t).ch.pos = s.ch.lbase.toNat + 4 :=
  State.setPos_pos s _ h

/-! ### `State.setLeft` -/

@[simp] theorem State.setLeft_regs (s : State) (h c : Handle) : (s.setLeft h c).regs = s.regs := by
  unfold State.setLeft; split <;> rfl

@[simp] theorem State.setLeft_cmd (s : State) (h c : Handle) : (s.setLeft h c).cmd = s.cmd := by
  unfold State.setLeft; split <;> rfl

@[simp] theorem State.setLeft_res (s : State) (h c : Handle) : (s.setLeft h c).res = s.res := by
  unfold State.setLeft; split <;> rfl

@[simp] theorem State.setLeft_cnt (s : State) (h c : Handle) : (s.setLeft h c).cnt = s.cnt := by
  unfold State.setLeft; split <;> rfl

@[simp] theorem State.setLeft_codes (s : State) (h c : Handle) : (s.setLeft h c).codes = s.codes := by
  unfold State.setLeft; split <;> rfl

@[simp] theorem State.setLeft_ch (s : State) (h c : Handle) : (s.setLeft h c).ch = s.ch := by
  unfold State.setLeft; split <;> rfl

@[simp] theorem State.setLeft_mem (s : State) (h c : Handle) : (s.setLeft h c).mem = s.mem := by
  unfold State.setLeft; split <;> rfl

@[simp] theorem State.setLeft_env (s : State) (h c : Handle) : (s.setLeft h c).env = s.env := by
  unfold State.setLeft; split <;> rfl

@[simp] theorem State.setLeft_root (s : State) (h c : Handle) : (s.setLeft h c).tree.root = s.tree.root := by
  unfold State.setLeft; split <;> rfl

@[simp] theorem State.setLeft_alpha (s : State) (h c : Handle) : (s.setLeft h c).tree.alpha = s.tree.alpha := by
  unfold State.setLeft; split <;> rfl

@[simp] theorem State.setLeft_tvalid (s : State) (h c : Handle) : (s.setLeft h c).tree.tvalid = s.tree.tvalid := by
  unfold State.setLeft; split <;> rfl

theorem State.setLeft_node (s : State) (h c : Handle) (n : Node) (hn : s.tree.node.of h = some n) :
    (s.setLeft h c).tree.node = s.tree.node.put h { n with left := c } := by
  unfold State.setLeft; rw [hn]; rfl

/-! ### `State.setRight` -/

@[simp] theorem State.setRight_regs (s : State) (h c : Handle) : (s.setRight h c).regs = s.regs := by
  unfold State.setRight; split <;> rfl

@[simp] theorem State.setRight_cmd (s : State) (h c : Handle) : (s.setRight h c).cmd = s.cmd := by
  unfold State.setRight; split <;> rfl

@[simp] theorem State.setRight_res (s : State) (h c : Handle) : (s.setRight h c).res = s.res := by
  unfold State.setRight; split <;> rfl

@[simp] theorem State.setRight_cnt (s : State) (h c : Handle) : (s.setRight h c).cnt = s.cnt := by
  unfold State.setRight; split <;> rfl

@[simp] theorem State.setRight_codes (s : State) (h c : Handle) : (s.setRight h c).codes = s.codes := by
  unfold State.setRight; split <;> rfl

@[simp] theorem State.setRight_ch (s : State) (h c : Handle) : (s.setRight h c).ch = s.ch := by
  unfold State.setRight; split <;> rfl

@[simp] theorem State.setRight_mem (s : State) (h c : Handle) : (s.setRight h c).mem = s.mem := by
  unfold State.setRight; split <;> rfl

@[simp] theorem State.setRight_env (s : State) (h c : Handle) : (s.setRight h c).env = s.env := by
  unfold State.setRight; split <;> rfl

@[simp] theorem State.setRight_root (s : State) (h c : Handle) : (s.setRight h c).tree.root = s.tree.root := by
  unfold State.setRight; split <;> rfl

@[simp] theorem State.setRight_alpha (s : State) (h c : Handle) : (s.setRight h c).tree.alpha = s.tree.alpha := by
  unfold State.setRight; split <;> rfl

@[simp] theorem State.setRight_tvalid (s : State) (h c : Handle) : (s.setRight h c).tree.tvalid = s.tree.tvalid := by
  unfold State.setRight; split <;> rfl

theorem State.setRight_node (s : State) (h c : Handle) (n : Node) (hn : s.tree.node.of h = some n) :
    (s.setRight h c).tree.node = s.tree.node.put h { n with right := c } := by
  unfold State.setRight; rw [hn]; rfl

end Sys2Proof.Machine
end

