-- ==== Sys2Proof/Laws/Flow.lean ====
section
/-! SUPPORT. How the pieces of a command compose: what `bind`, `lift` and `complete` give, and one rule for what every end of a piece satisfies. -/

namespace Sys2Proof.Machine

variable {α β : Type}

@[simp] theorem Flow.bind_ok (a : α) (s : State) (k : α → State → Flow β) : (Flow.ok a s).bind k = k a s := rfl

@[simp] theorem Flow.bind_error (e : ErrCode) (s : State) (k : α → State → Flow β) :
    (Flow.error e s : Flow α).bind k = .error e s := rfl

@[simp] theorem Flow.bind_raise (f : FaultCode) (w : Word) (s : State) (k : α → State → Flow β) :
    (Flow.raise f w s : Flow α).bind k = .raise f w s := rfl

@[simp] theorem Flow.bind_stop (r : Fault) (k : α → State → Flow β) : (Flow.stop r : Flow α).bind k = .stop r := rfl

theorem Flow.bind_assoc {γ : Type} (x : Flow α) (k : α → State → Flow β) (l : β → State → Flow γ) :
    (x.bind k).bind l = x.bind fun a s => (k a s).bind l := by cases x <;> rfl

@[simp] theorem Flow.lift_ok (a : α) (s : State) : Flow.lift (.ok a) s = .ok a s := rfl

@[simp] theorem Flow.lift_error (r : Fault) (s : State) : (Flow.lift (.error r) s : Flow α) = .stop r := rfl

@[simp] theorem Flow.complete_ok (u : Unit) (s : State) : (Flow.ok u s).complete = .next s.finish := rfl

@[simp] theorem Flow.complete_error (e : ErrCode) (s : State) : (Flow.error e s).complete = .next (s.finishError e) := rfl

@[simp] theorem Flow.complete_raise (f : FaultCode) (w : Word) (s : State) :
    (Flow.raise f w s).complete = .next (s.enterFault f w) := rfl

@[simp] theorem Flow.complete_stop (r : Fault) : (Flow.stop r).complete = .fault r := rfl

/-- When a piece followed by `k` goes on, the piece went on and so did `k`. -/
theorem Flow.bind_eq_ok {x : Flow α} {k : α → State → Flow β} {b : β} {t : State} (h : x.bind k = .ok b t) :
    ∃ a s, x = .ok a s ∧ k a s = .ok b t := by
  cases x <;> simp_all [Flow.bind]

/-- Every way a piece of a command ends (going on, error or raise) satisfies `P`. -/
def Flow.Ends (P : State → Prop) : Flow α → Prop
  | .ok _ s => P s
  | .error _ s => P s
  | .raise _ _ s => P s
  | .stop _ => True

@[simp] theorem Flow.ends_ok (P : State → Prop) (a : α) (s : State) : (Flow.ok a s).Ends P ↔ P s := Iff.rfl

@[simp] theorem Flow.ends_error (P : State → Prop) (e : ErrCode) (s : State) :
    (Flow.error e s : Flow α).Ends P ↔ P s := Iff.rfl

@[simp] theorem Flow.ends_raise (P : State → Prop) (f : FaultCode) (w : Word) (s : State) :
    (Flow.raise f w s : Flow α).Ends P ↔ P s := Iff.rfl

@[simp] theorem Flow.ends_stop (P : State → Prop) (r : Fault) : (Flow.stop r : Flow α).Ends P := trivial

theorem Flow.Ends.mono {P Q : State → Prop} {x : Flow α} (h : x.Ends P) (hpq : ∀ s, P s → Q s) : x.Ends Q := by
  cases x <;> simp_all [Flow.Ends]

theorem Flow.Ends.and {P Q : State → Prop} {x : Flow α} (h : x.Ends P) (h' : x.Ends Q) :
    x.Ends fun s => P s ∧ Q s := by
  cases x <;> simp_all [Flow.Ends]

/-- The rule for a sequence: if the first piece ends in `P` and what follows leads from `P` to `P`, the whole ends in `P`. -/
theorem Flow.Ends.bind {P : State → Prop} {x : Flow α} {k : α → State → Flow β} (h : x.Ends P)
    (hk : ∀ a s, x = .ok a s → P s → (k a s).Ends P) : (x.bind k).Ends P := by
  cases x with
  | ok a s => exact hk a s rfl h
  | error e s => exact h
  | raise f w s => exact h
  | stop r => trivial

/-- The next state of a command in terms of how its last piece ended. -/
theorem Flow.complete_eq_next {x : Flow Unit} {t : State} (h : x.complete = .next t) :
    (∃ s, x = .ok () s ∧ t = s.finish) ∨ (∃ e s, x = .error e s ∧ t = s.finishError e) ∨
      ∃ f w s, x = .raise f w s ∧ t = s.enterFault f w := by
  cases x with
  | ok u s => exact .inl ⟨s, rfl, by simpa using h.symm⟩
  | error e s => exact .inr (.inl ⟨e, s, rfl, by simpa using h.symm⟩)
  | raise f w s => exact .inr (.inr ⟨f, w, s, rfl, by simpa using h.symm⟩)
  | stop r => simp at h

/-- A property of the state that the three endings keep carries over from a command's last piece to its next state. -/
theorem Flow.Ends.complete {P Q : State → Prop} {x : Flow Unit} {t : State} (h : x.Ends P)
    (ht : x.complete = .next t) (hf : ∀ s, P s → Q s.finish) (he : ∀ e s, P s → Q (s.finishError e))
    (hr : ∀ f w s, P s → Q (s.enterFault f w)) : Q t := by
  rcases Flow.complete_eq_next ht with ⟨s, rfl, rfl⟩ | ⟨e, s, rfl, rfl⟩ | ⟨f, w, s, rfl, rfl⟩
  · exact hf s h
  · exact he e s h
  · exact hr f w s h

/-! ### The checks before a command runs -/

theorem requireMode_ok {m : ChMode} {s : State} (h : s.ch.mode = m) : requireMode m s = .ok () s := if_pos h

theorem requireMode_wrong {m : ChMode} {s : State} (h : s.ch.mode ≠ m) :
    requireMode m s = .raise .wrongMode (s.ch.mode.code.setWidth 32) s := if_neg h

theorem requireTree_ok {s : State} (h : s.tree.tvalid = true) : requireTree s = .ok () s := if_pos h

theorem requireCodes_ok {s : State} (h : s.codes.cvalid = true) : requireCodes s = .ok () s := if_pos h

theorem requireRegion_ok {base len w : Word} {s : State} (h : regionOK base len = true) :
    requireRegion base len w s = .ok () s := if_pos h

theorem requireApart_ok {base len w : Word} {s : State} (h : overlaps base len s.ch.lbase s.ch.llen = false) :
    requireApart base len w s = .ok () s := by simp [requireApart, h]

/-- A check changes no state, whatever it finds. -/
theorem requireMode_ends {P : State → Prop} (m : ChMode) {s : State} (h : P s) : (requireMode m s).Ends P := by
  unfold requireMode; split <;> exact h

theorem requireTree_ends {P : State → Prop} {s : State} (h : P s) : (requireTree s).Ends P := by
  unfold requireTree; split <;> exact h

theorem requireCodes_ends {P : State → Prop} {s : State} (h : P s) : (requireCodes s).Ends P := by
  unfold requireCodes; split <;> exact h

theorem requireRegion_ends {P : State → Prop} (base len w : Word) {s : State} (h : P s) :
    (requireRegion base len w s).Ends P := by
  unfold requireRegion; split <;> exact h

theorem requireApart_ends {P : State → Prop} (base len w : Word) {s : State} (h : P s) :
    (requireApart base len w s).Ends P := by
  unfold requireApart; split <;> exact h

/-- What a check that goes on has found. -/
theorem requireMode_eq_ok {m : ChMode} {s t : State} {u : Unit} (h : requireMode m s = .ok u t) :
    t = s ∧ s.ch.mode = m := by
  unfold requireMode at h; split at h <;> simp_all

theorem requireTree_eq_ok {s t : State} {u : Unit} (h : requireTree s = .ok u t) : t = s ∧ s.tree.tvalid = true := by
  unfold requireTree at h; split at h <;> simp_all

theorem requireCodes_eq_ok {s t : State} {u : Unit} (h : requireCodes s = .ok u t) : t = s ∧ s.codes.cvalid = true := by
  unfold requireCodes at h; split at h <;> simp_all

theorem requireRegion_eq_ok {base len w : Word} {s t : State} {u : Unit} (h : requireRegion base len w s = .ok u t) :
    t = s ∧ regionOK base len = true := by
  unfold requireRegion at h; split at h <;> simp_all

theorem requireApart_eq_ok {base len w : Word} {s t : State} {u : Unit} (h : requireApart base len w s = .ok u t) :
    t = s ∧ overlaps base len s.ch.lbase s.ch.llen = false := by
  unfold requireApart at h; split at h <;> simp_all

end Sys2Proof.Machine
end

