-- ==== Sys2Proof/Laws/Memory.lean ====
section
/-! SUPPORT. The laws of system memory: read after write, the canonical form kept, and equal contents being equal data. -/

namespace Sys2Proof.Machine

theorem Memory.wf_iff (m : Memory) :
    m.wf = true ↔ m.Pairwise (fun x y => x.1 < y.1) ∧ ∀ c ∈ m, c.1 < 2 ^ 32 ∧ c.2 ≠ Config.blankByte := by
  simp [Memory.wf]

theorem Memory.read_write_same (m : Memory) (a : Nat) (v : Byte) (h : m.wf) : (m.write a v).read a = v := by
  induction m with
  | nil => unfold Memory.write; split <;> simp_all [Memory.read]
  | cons c m ih =>
    obtain ⟨b, x⟩ := c
    obtain ⟨hp, hc⟩ := (Memory.wf_iff _).mp h
    have hm : Memory.wf m = true := (Memory.wf_iff m).mpr ⟨(List.pairwise_cons.mp hp).2, fun c hc' => hc c (List.mem_cons_of_mem _ hc')⟩
    have fresh : ∀ m' : Memory, (∀ c ∈ m', a < c.1) → m'.read a = Config.blankByte := by
      intro m' hm'
      induction m' with
      | nil => rfl
      | cons c' m' ih' =>
        have := hm' c' (List.mem_cons_self ..)
        obtain ⟨b', x'⟩ := c'
        simp only [Memory.read, if_neg (show ¬ a = b' from Nat.ne_of_lt this)]
        exact ih' fun c hc => hm' c (List.mem_cons_of_mem _ hc)
    have later : ∀ c ∈ m, b < c.1 := (List.pairwise_cons.mp hp).1
    unfold Memory.write
    split
    · rename_i hab
      split
      · subst v
        exact fresh _ fun c hc' => by
          rcases List.mem_cons.mp hc' with rfl | hc'
          · exact hab
          · exact Nat.lt_trans hab (later c hc')
      · simp [Memory.read]
    · split
      · rename_i _ hab
        subst hab
        split
        · subst v; exact fresh _ later
        · simp [Memory.read]
      · rename_i _ hab
        simp only [Memory.read, if_neg hab]
        exact ih hm

theorem Memory.read_write_other (m : Memory) (a a' : Nat) (v : Byte) (h : a' ≠ a) :
    (m.write a v).read a' = m.read a' := by
  induction m with
  | nil => unfold Memory.write; split <;> simp_all [Memory.read]
  | cons c m ih =>
    obtain ⟨b, x⟩ := c
    unfold Memory.write
    split
    · split <;> simp [Memory.read, h]
    · split
      · rename_i _ hab
        subst hab
        split <;> simp [Memory.read, h]
      · simp [Memory.read, ih]

theorem Memory.write_mem (m : Memory) (a : Nat) (v : Byte) :
    ∀ c ∈ m.write a v, c ∈ m ∨ (c = (a, v) ∧ v ≠ Config.blankByte) := by
  induction m with
  | nil => unfold Memory.write; split <;> simp_all
  | cons c m ih =>
    obtain ⟨b, x⟩ := c
    unfold Memory.write
    intro c hc
    split at hc
    · split at hc
      · exact .inl hc
      · rename_i hv
        rcases List.mem_cons.mp hc with rfl | hc
        · exact .inr ⟨rfl, hv⟩
        · exact .inl hc
    · split at hc
      · split at hc
        · exact .inl (List.mem_cons_of_mem _ hc)
        · rename_i hv
          rcases List.mem_cons.mp hc with rfl | hc
          · exact .inr ⟨rfl, hv⟩
          · exact .inl (List.mem_cons_of_mem _ hc)
      · rcases List.mem_cons.mp hc with rfl | hc
        · exact .inl (List.mem_cons_self ..)
        · rcases ih c hc with h | h
          · exact .inl (List.mem_cons_of_mem _ h)
          · exact .inr h

/-- A write keeps the canonical form. -/
theorem Memory.write_wf (m : Memory) (a : Nat) (v : Byte) (ha : a < 2 ^ 32) (h : m.wf) : (m.write a v).wf := by
  replace h := (Memory.wf_iff m).mp h
  refine (Memory.wf_iff _).mpr ⟨?_, fun c hc => ?_⟩
  · obtain ⟨hp, -⟩ := h
    induction m with
    | nil => unfold Memory.write; split <;> simp
    | cons c m ih =>
      obtain ⟨b, x⟩ := c
      have later : ∀ c ∈ m, b < c.1 := (List.pairwise_cons.mp hp).1
      have hp' := (List.pairwise_cons.mp hp).2
      unfold Memory.write
      split
      · rename_i hab
        split
        · exact hp
        · refine List.pairwise_cons.mpr ⟨fun c hc => ?_, hp⟩
          rcases List.mem_cons.mp hc with rfl | hc
          · exact hab
          · exact Nat.lt_trans hab (later c hc)
      · split
        · rename_i _ hab
          subst hab
          split
          · exact hp'
          · exact List.pairwise_cons.mpr ⟨later, hp'⟩
        · rename_i h₁ h₂
          refine List.pairwise_cons.mpr ⟨fun c hc => ?_, ih hp'⟩
          rcases Memory.write_mem m a v c hc with hc | ⟨rfl, -⟩
          · exact later c hc
          · show b < a; omega
  · rcases Memory.write_mem m a v c hc with hc | ⟨rfl, hv⟩
    · exact h.2 c hc
    · exact ⟨ha, hv⟩

/-- No memory of two cells reads below its first address. -/
theorem Memory.read_below (m : Memory) (a : Nat) (h : ∀ c ∈ m, a < c.1) : m.read a = Config.blankByte := by
  induction m with
  | nil => rfl
  | cons c m ih =>
    obtain ⟨b, x⟩ := c
    have := h (b, x) (List.mem_cons_self ..)
    simp only [Memory.read, if_neg (Nat.ne_of_lt this)]
    exact ih fun c hc => h c (List.mem_cons_of_mem _ hc)

/-- In canonical form, memories that read alike are equal data. -/
theorem Memory.ext_read (m m' : Memory) (h : m.wf) (h' : m'.wf) (he : ∀ a, m.read a = m'.read a) : m = m' := by
  rw [Memory.wf_iff] at h h'
  induction m generalizing m' with
  | nil =>
    cases m' with
    | nil => rfl
    | cons c m' =>
      obtain ⟨b, x⟩ := c
      have := he b
      simp only [Memory.read, if_true] at this
      exact absurd this.symm (h'.2 (b, x) (List.mem_cons_self ..)).2
  | cons c m ih =>
    obtain ⟨b, x⟩ := c
    have hb := (h.2 (b, x) (List.mem_cons_self ..)).2
    have lm := (List.pairwise_cons.mp h.1).1
    cases m' with
    | nil =>
      have := he b
      simp only [Memory.read, if_true] at this
      exact absurd this hb
    | cons c' m' =>
      obtain ⟨b', x'⟩ := c'
      have hb' := (h'.2 (b', x') (List.mem_cons_self ..)).2
      have lm' := (List.pairwise_cons.mp h'.1).1
      have hbb : b = b' := by
        rcases Nat.lt_trichotomy b b' with hlt | heq | hgt
        · have e := he b
          rw [Memory.read_below ((b', x') :: m') b fun c hc => by
            rcases List.mem_cons.mp hc with rfl | hc
            · exact hlt
            · exact Nat.lt_trans hlt (lm' c hc)] at e
          simp only [Memory.read, if_true] at e
          exact absurd e hb
        · exact heq
        · have e := he b'
          rw [Memory.read_below ((b, x) :: m) b' fun c hc => by
            rcases List.mem_cons.mp hc with rfl | hc
            · exact hgt
            · exact Nat.lt_trans hgt (lm c hc)] at e
          simp only [Memory.read, if_true] at e
          exact absurd e.symm hb'
      subst hbb
      have hx : x = x' := by simpa [Memory.read] using he b
      subst hx
      have : m = m' := by
        refine ih m' ⟨(List.pairwise_cons.mp h.1).2, fun c hc => h.2 c (List.mem_cons_of_mem _ hc)⟩
          ⟨(List.pairwise_cons.mp h'.1).2, fun c hc => h'.2 c (List.mem_cons_of_mem _ hc)⟩ fun a => ?_
        have e := he a
        by_cases hab : a = b
        · subst hab
          rw [Memory.read_below m a lm, Memory.read_below m' a lm']
        · simpa [Memory.read, hab] using e
      rw [this]

end Sys2Proof.Machine
end

