-- ==== Sys2Proof/Laws/Bus.lean ====
section
/-! SUPPORT. Bus accesses: the draws they take, what they answer, and everything they leave unchanged. -/

namespace Sys2Proof.Machine

/-! ### Draws -/

/-- The model's own fields after `k` accesses. -/
def Env.after (e : Env) (k : Nat) : Env := { e with draws := e.draws.drop k, drawn := e.drawn + k }

theorem State.drawOk_eq (s : State) : s.drawOk = s.env.drawAt 0 := by
  unfold State.drawOk Env.drawAt
  cases s.env.draws <;> simp

@[simp] theorem Env.after_drawAt (e : Env) (k i : Nat) : (e.after k).drawAt i = e.drawAt (k + i) := by
  simp [Env.after, Env.drawAt, List.getElem?_drop, Nat.add_assoc]

theorem State.drawNext_env_after (s : State) : s.drawNext.env = s.env.after 1 := by
  simp [State.drawNext, Env.after]

@[simp] theorem Env.after_zero (e : Env) : e.after 0 = e := by simp [Env.after]

@[simp] theorem Env.after_after (e : Env) (j k : Nat) : (e.after j).after k = e.after (j + k) := by
  simp [Env.after, Nat.add_assoc]

@[simp] theorem Env.after_turns (e : Env) (k : Nat) : (e.after k).turns = e.turns := rfl

@[simp] theorem Env.after_lastRead (e : Env) (k : Nat) : (e.after k).lastRead = e.lastRead := rfl

theorem Env.completes_iff (e : Env) (n : Nat) : e.completes n = true ↔ ∀ i < n, e.drawAt i = true := by
  simp [Env.completes, List.all_eq_true]

theorem Env.completes_add (e : Env) (j k : Nat) :
    e.completes (j + k) = true ↔ e.completes j = true ∧ (e.after j).completes k = true := by
  simp only [Env.completes_iff, Env.after_drawAt]
  refine ⟨fun h => ⟨fun i hi => h i (by omega), fun i hi => h (j + i) (by omega)⟩, fun ⟨h₁, h₂⟩ i hi => ?_⟩
  by_cases hj : i < j
  · exact h₁ i hj
  · have := h₂ (i - j) (by omega)
    rwa [show j + (i - j) = i by omega] at this

theorem Env.completes_mono {e : Env} {j k : Nat} (h : e.completes k = true) (hjk : j ≤ k) : e.completes j = true := by
  rw [Env.completes_iff] at *
  exact fun i hi => h i (by omega)

@[simp] theorem Env.completes_zero (e : Env) : e.completes 0 = true := by simp [Env.completes]

/-! ### One access -/

theorem memRead_ok {a : Nat} {s : State} (ha : a < 2 ^ 32) (hd : s.env.completes 1 = true) :
    memRead a s = .ok (s.mem.read a) s.drawNext := by
  have : s.drawOk = true := by rw [State.drawOk_eq]; exact (Env.completes_iff _ _).mp hd 0 (by omega)
  rw [memRead, if_pos ha, if_pos this]

theorem memWrite_ok {a : Nat} {v : Byte} {s : State} (ha : a < 2 ^ 32) (hd : s.env.completes 1 = true) :
    memWrite a v s = .ok () { s.drawNext with mem := s.mem.write a v } := by
  have : s.drawOk = true := by rw [State.drawOk_eq]; exact (Env.completes_iff _ _).mp hd 0 (by omega)
  rw [memWrite, if_pos ha, if_pos this]

/-- A bus failure on a read: `BUS_ERROR` with the address, nothing else changed (20_memory.md R43). -/
theorem memRead_fails {a : Nat} {s : State} (ha : a < 2 ^ 32) (hd : s.drawOk = false) :
    memRead a s = .raise .busError (BitVec.ofNat 32 a) s.drawNext := by
  rw [memRead, if_pos ha, hd, if_neg Bool.false_ne_true]

/-- A bus failure on a write: `BUS_ERROR` with the address, the byte any value (20_memory.md R43). -/
theorem memWrite_fails {a : Nat} {v : Byte} {s : State} (ha : a < 2 ^ 32) (hd : s.drawOk = false) :
    memWrite a v s = .raise .busError (BitVec.ofNat 32 a)
      { s.drawNext with mem := s.mem.write a (Config.freeByte s.env.drawn) } := by
  rw [memWrite, if_pos ha, hd, if_neg Bool.false_ne_true]

/-- Everything but the channel, memory and the bus draws: what the bit channel's primitives never change. -/
def KeepsBlock (s t : State) : Prop :=
  t.regs = s.regs ∧ t.cmd = s.cmd ∧ t.res = s.res ∧ t.cnt = s.cnt ∧ t.tree = s.tree ∧ t.codes = s.codes ∧
    t.env.turns = s.env.turns ∧ t.env.lastRead = s.env.lastRead

theorem KeepsBlock.refl (s : State) : KeepsBlock s s := by simp [KeepsBlock]

theorem KeepsBlock.trans {s t u : State} (h : KeepsBlock s t) (h' : KeepsBlock t u) : KeepsBlock s u := by
  obtain ⟨a, b, c, d, e, f, g, i⟩ := h
  obtain ⟨a', b', c', d', e', f', g', i'⟩ := h'
  exact ⟨a'.trans a, b'.trans b, c'.trans c, d'.trans d, e'.trans e, f'.trans f, g'.trans g, i'.trans i⟩

/-- A read changes nothing but the draws. -/
theorem memRead_ends (a : Nat) (s : State) :
    (memRead a s).Ends fun t => KeepsBlock s t ∧ t.ch = s.ch ∧ t.mem = s.mem := by
  unfold memRead
  split
  · split <;> simp [KeepsBlock]
  · trivial

/-- A write changes at most the byte it addresses, and keeps the canonical form. -/
theorem memWrite_ends (a : Nat) (v : Byte) (s : State) :
    (memWrite a v s).Ends fun t =>
      KeepsBlock s t ∧ t.ch = s.ch ∧ (∀ a', a' ≠ a → t.mem.read a' = s.mem.read a') ∧ (s.mem.wf → t.mem.wf) := by
  unfold memWrite
  split
  · rename_i ha
    split
    · exact ⟨by simp [KeepsBlock], rfl, fun a' h => Memory.read_write_other _ _ _ _ h, Memory.write_wf _ _ _ ha⟩
    · exact ⟨by simp [KeepsBlock], rfl, fun a' h => Memory.read_write_other _ _ _ _ h, Memory.write_wf _ _ _ ha⟩
  · trivial

theorem memRead_eq_ok {a : Nat} {s t : State} {v : Byte} (h : memRead a s = .ok v t) :
    a < 2 ^ 32 ∧ v = s.mem.read a ∧ t = s.drawNext := by
  unfold memRead at h
  split at h
  · rename_i ha
    split at h <;> simp_all
  · simp at h

theorem memWrite_eq_ok {a : Nat} {v : Byte} {s t : State} {u : Unit} (h : memWrite a v s = .ok u t) :
    a < 2 ^ 32 ∧ t = { s.drawNext with mem := s.mem.write a v } := by
  unfold memWrite at h
  split at h
  · rename_i ha
    split at h <;> simp_all
  · simp at h

end Sys2Proof.Machine
end

