-- ==== Sys2Proof/Laws/Channel.lean ====
section
/-! SUPPORT. The bit channel's primitives: what they leave unchanged however they end. -/

namespace Sys2Proof.Machine

/-- What a writer's primitives leave of the channel. -/
def WriterKeeps (s t : State) : Prop :=
  KeepsBlock s t ∧ t.ch.mode = s.ch.mode ∧ t.ch.lbase = s.ch.lbase ∧ t.ch.llen = s.ch.llen ∧ t.ch.chC = s.ch.chC ∧
    t.ch.rpad = s.ch.rpad ∧ t.ch.fileLen = s.ch.fileLen

/-- What a reader's primitives leave: memory too. -/
def ReaderKeeps (s t : State) : Prop :=
  KeepsBlock s t ∧ t.ch.mode = s.ch.mode ∧ t.ch.lbase = s.ch.lbase ∧ t.ch.llen = s.ch.llen ∧ t.ch.chT = s.ch.chT ∧
    t.ch.rpad = s.ch.rpad ∧ t.ch.fileLen = s.ch.fileLen ∧ t.mem = s.mem

theorem WriterKeeps.refl (s : State) : WriterKeeps s s := by simp [WriterKeeps, KeepsBlock.refl]

theorem WriterKeeps.trans {s t u : State} (h : WriterKeeps s t) (h' : WriterKeeps t u) : WriterKeeps s u := by
  obtain ⟨a, b, c, d, e, f, g⟩ := h
  obtain ⟨a', b', c', d', e', f', g'⟩ := h'
  exact ⟨a.trans a', b'.trans b, c'.trans c, d'.trans d, e'.trans e, f'.trans f, g'.trans g⟩

theorem ReaderKeeps.refl (s : State) : ReaderKeeps s s := by simp [ReaderKeeps, KeepsBlock.refl]

theorem ReaderKeeps.trans {s t u : State} (h : ReaderKeeps s t) (h' : ReaderKeeps t u) : ReaderKeeps s u := by
  obtain ⟨a, b, c, d, e, f, g, i⟩ := h
  obtain ⟨a', b', c', d', e', f', g', i'⟩ := h'
  exact ⟨a.trans a', b'.trans b, c'.trans c, d'.trans d, e'.trans e, f'.trans f, g'.trans g, i'.trans i⟩

theorem setPos_keepsBlock (s : State) (n : Nat) : KeepsBlock s (s.setPos n) := by simp [KeepsBlock]

/-! ### Frames -/

theorem commit_ends (v : Byte) (s : State) :
    (commit v s).Ends fun t => WriterKeeps s t ∧ t.ch.bacc = s.ch.bacc ∧ t.ch.bn = s.ch.bn ∧ (s.mem.wf → t.mem.wf) ∧
      ∀ a, a ≠ s.ch.pos → t.mem.read a = s.mem.read a := by
  unfold commit
  split
  · exact ⟨WriterKeeps.refl s, rfl, rfl, id, fun _ _ => rfl⟩
  split
  · exact ⟨WriterKeeps.refl s, rfl, rfl, id, fun _ _ => rfl⟩
  have hw := memWrite_ends s.ch.pos v s
  refine Flow.Ends.bind (hw.mono ?_) ?_
  · rintro t ⟨hk, hc, hm, hwf⟩
    exact ⟨⟨hk, by simp [hc]⟩, by simp [hc], by simp [hc], hwf, fun a ha => hm a ha⟩
  · rintro _ t - ⟨⟨hk, h₁, h₂, h₃, h₄, h₅, h₆⟩, h₇, h₈, hwf, hm⟩
    refine ⟨⟨?_, ?_⟩, ?_, ?_, ?_, ?_⟩ <;> simp_all [KeepsBlock]

theorem writeBit_ends (b : Bool) (s : State) :
    (writeBit b s).Ends fun t => WriterKeeps s t ∧ (s.mem.wf → t.mem.wf) := by
  unfold writeBit
  have hp : WriterKeeps s (s.pushBit b) := by simp [WriterKeeps, KeepsBlock]
  simp only
  split
  · refine Flow.Ends.bind ((commit_ends _ _).mono ?_) ?_
    · rintro t ⟨hk, -, -, hwf, -⟩; exact ⟨hp.trans hk, hwf⟩
    · rintro _ t - ⟨hk, hwf⟩
      exact ⟨hk.trans (by simp [WriterKeeps, KeepsBlock]), hwf⟩
  · exact ⟨hp, id⟩

theorem writeString_ends (p : List Bool) (s : State) :
    (writeString p s).Ends fun t => WriterKeeps s t ∧ (s.mem.wf → t.mem.wf) := by
  induction p generalizing s with
  | nil => exact ⟨WriterKeeps.refl s, id⟩
  | cons b p ih =>
    refine Flow.Ends.bind (writeBit_ends b s) ?_
    rintro _ t - ⟨hk, hwf⟩
    exact (ih t).mono fun u ⟨hk', hwf'⟩ => ⟨hk.trans hk', fun h => hwf' (hwf h)⟩

theorem refill_ends (s : State) : (refill s).Ends fun t => ReaderKeeps s t ∧ t.ch.chC = s.ch.chC := by
  unfold refill
  split
  · refine Flow.Ends.bind ((memRead_ends _ _).mono ?_) ?_
    · rintro t ⟨hk, hc, hm⟩; exact ⟨⟨hk, by simp [hc, hm]⟩, by simp [hc]⟩
    · rintro _ t - ⟨⟨hk, h⟩, h'⟩
      refine ⟨⟨?_, ?_⟩, ?_⟩ <;> simp_all [KeepsBlock]
  · exact ⟨ReaderKeeps.refl s, rfl⟩

theorem readBit_ends (s : State) : (readBit s).Ends fun t => ReaderKeeps s t := by
  refine Flow.Ends.bind ((refill_ends s).mono fun t h => h.1) ?_
  rintro _ t - hk
  exact hk.trans (by simp [ReaderKeeps, KeepsBlock])

theorem readNat_ends (n v : Nat) (s : State) : (readNat n v s).Ends fun t => ReaderKeeps s t := by
  induction n generalizing v s with
  | zero => exact ReaderKeeps.refl s
  | succ n ih =>
    refine Flow.Ends.bind (readBit_ends s) ?_
    rintro b t - hk
    exact (ih _ t).mono fun u hk' => hk.trans hk'

theorem peekBit_ends (k : Nat) (s : State) :
    (peekBit k s).Ends fun t => KeepsBlock s t ∧ t.ch = s.ch ∧ t.mem = s.mem := by
  refine Flow.Ends.bind (memRead_ends _ _) ?_
  rintro _ t - h
  exact h

theorem peekZero_ends (n k : Nat) (s : State) :
    (peekZero n k s).Ends fun t => KeepsBlock s t ∧ t.ch = s.ch ∧ t.mem = s.mem := by
  induction n generalizing k s with
  | zero => exact ⟨KeepsBlock.refl s, rfl, rfl⟩
  | succ n ih =>
    refine Flow.Ends.bind (peekBit_ends k s) ?_
    rintro b t - ⟨hk, hc, hm⟩
    refine Flow.Ends.bind ((ih _ t).mono fun u ⟨hk', hc', hm'⟩ => ⟨hk.trans hk', hc'.trans hc, hm'.trans hm⟩) ?_
    rintro z u - h
    exact h

end Sys2Proof.Machine
end

