-- ==== Sys2Proof/Laws/Draws.lean ====
section
/-! SUPPORT. The draws of a piece of a command: one rule for a sequence, and the pieces that reach the bus. -/

namespace Sys2Proof.Machine

/-- How the draws of a piece run on `s` went: all completed, unless the piece raised `BUS_ERROR`; then the last of them, and no other,
failed (20_memory.md R43). -/
def Flow.Draws {α : Type} (s : State) : Flow α → Prop
  | .ok _ t => ∃ d, t.env = s.env.after d ∧ s.env.completes d = true
  | .error _ t => ∃ d, t.env = s.env.after d ∧ s.env.completes d = true
  | .raise f _ t =>
    ∃ d, s.env.completes d = true ∧
      if f = .busError then t.env = s.env.after (d + 1) ∧ s.env.drawAt d = false else t.env = s.env.after d
  | .stop _ => True

theorem Env.completes_trans {e : Env} {j k : Nat} (h : e.completes j = true) (h' : (e.after j).completes k = true) :
    e.completes (j + k) = true := (Env.completes_add e j k).mpr ⟨h, h'⟩

/-- A piece that makes no access. -/
theorem Flow.Draws.none {α : Type} {s t : State} (a : α) (h : t.env = s.env) : (Flow.ok a t).Draws s :=
  ⟨0, by simp [h], by simp⟩

theorem Flow.Draws.raise {α : Type} {s t : State} {f : FaultCode} (w : Word) (hf : f ≠ .busError) (h : t.env = s.env) :
    (Flow.raise f w t : Flow α).Draws s := ⟨0, by simp, by rw [if_neg hf]; simp [h]⟩

theorem Flow.Draws.error {α : Type} {s t : State} (e : ErrCode) (h : t.env = s.env) : (Flow.error e t : Flow α).Draws s :=
  ⟨0, by simp [h], by simp⟩

/-- Only the draws of the start matter. -/
theorem Flow.Draws.start {α : Type} {s s' : State} {x : Flow α} (h : x.Draws s) (he : s.env = s'.env) : x.Draws s' := by
  cases x <;> simp_all [Flow.Draws]

/-- The rule for a sequence. -/
theorem Flow.Draws.bind {α β : Type} {s : State} {x : Flow α} {k : α → State → Flow β} (h : x.Draws s)
    (hk : ∀ a t, x = .ok a t → (k a t).Draws t) : (x.bind k).Draws s := by
  cases x with
  | error e t => exact h
  | raise f w t => exact h
  | stop r => trivial
  | ok a t =>
    obtain ⟨d, he, hd⟩ := h
    have h' := hk a t rfl
    show (k a t).Draws s
    cases hx : k a t with
    | ok b u =>
      rw [hx] at h'; obtain ⟨d', he', hd'⟩ := h'
      exact ⟨d + d', by rw [he', he, Env.after_after], Env.completes_trans hd (he ▸ hd')⟩
    | error e u =>
      rw [hx] at h'; obtain ⟨d', he', hd'⟩ := h'
      exact ⟨d + d', by rw [he', he, Env.after_after], Env.completes_trans hd (he ▸ hd')⟩
    | raise f w u =>
      rw [hx] at h'; obtain ⟨d', hd', hf⟩ := h'
      refine ⟨d + d', Env.completes_trans hd (he ▸ hd'), ?_⟩
      by_cases hb : f = .busError
      · rw [if_pos hb] at hf ⊢
        obtain ⟨he', hn⟩ := hf
        exact ⟨by rw [he', he, Env.after_after, Nat.add_assoc], by rw [he] at hn; simpa using hn⟩
      · rw [if_neg hb] at hf ⊢
        rw [hf, he, Env.after_after]
    | stop r => trivial

theorem memRead_draws (a : Nat) (s : State) : (memRead a s).Draws s := by
  unfold memRead
  split
  · split
    · exact ⟨1, s.drawNext_env_after, by simp_all [State.drawOk_eq, Env.completes_iff]⟩
    · exact ⟨0, by simp, by rw [if_pos rfl]; exact ⟨s.drawNext_env_after, by simp_all [State.drawOk_eq]⟩⟩
  · trivial

theorem memWrite_draws (a : Nat) (v : Byte) (s : State) : (memWrite a v s).Draws s := by
  unfold memWrite
  split
  · split
    · exact ⟨1, s.drawNext_env_after, by simp_all [State.drawOk_eq, Env.completes_iff]⟩
    · exact ⟨0, by simp, by rw [if_pos rfl]; exact ⟨s.drawNext_env_after, by simp_all [State.drawOk_eq]⟩⟩
  · trivial

theorem commit_draws (v : Byte) (s : State) : (commit v s).Draws s := by
  unfold commit
  split
  · exact .raise _ (by decide) rfl
  split
  · exact .raise _ (by decide) rfl
  · exact (memWrite_draws _ _ s).bind fun _ t _ => .none () (by simp)

theorem writeBit_draws (b : Bool) (s : State) : (writeBit b s).Draws s := by
  unfold writeBit
  simp only
  split
  · exact ((commit_draws _ _).start rfl).bind fun _ t _ => .none () rfl
  · exact .none () rfl

theorem writeString_draws (p : List Bool) (s : State) : (writeString p s).Draws s := by
  induction p generalizing s with
  | nil => exact .none () rfl
  | cons b p ih => exact (writeBit_draws b s).bind fun _ t _ => ih t

theorem refill_draws (s : State) : (refill s).Draws s := by
  unfold refill
  split
  · exact (memRead_draws _ s).bind fun _ t _ => .none () (by simp)
  · exact .none () rfl

theorem readBit_draws (s : State) : (readBit s).Draws s :=
  (refill_draws s).bind fun _ _ _ => .none _ rfl

theorem readNat_draws (n v : Nat) (s : State) : (readNat n v s).Draws s := by
  induction n generalizing v s with
  | zero => exact .none _ rfl
  | succ n ih => exact (readBit_draws s).bind fun _ t _ => ih _ t

theorem peekBit_draws (k : Nat) (s : State) : (peekBit k s).Draws s :=
  (memRead_draws _ s).bind fun _ _ _ => .none _ rfl

theorem peekZero_draws (n k : Nat) (s : State) : (peekZero n k s).Draws s := by
  induction n generalizing k s with
  | zero => exact .none _ rfl
  | succ n ih => exact (peekBit_draws k s).bind fun _ t _ => (ih _ t).bind fun _ u _ => .none _ rfl

theorem writeBytes_draws (a : Nat) (l : List Byte) (s : State) : (writeBytes a l s).Draws s := by
  induction l generalizing a s with
  | nil => exact .none () rfl
  | cons v l ih => exact (memWrite_draws a v s).bind fun _ t _ => ih _ t

theorem readBigEndian_draws (n a t : Nat) (s : State) : (readBigEndian n a t s).Draws s := by
  induction n generalizing a t s with
  | zero => exact .none _ rfl
  | succ n ih => exact (memRead_draws a s).bind fun _ u _ => ih _ _ u

end Sys2Proof.Machine
end

