-- ==== Sys2Proof/Laws/Operands.lean ====
section
/-! SUPPORT. Bit strings and the numbers, bytes and code-table entries they stand for; tables and arenas after an update. -/

namespace Sys2Proof.Machine

/-! ### Bit strings and numbers -/

@[simp] theorem bitsMsb_length {w : Nat} (n : Nat) (v : BitVec w) : (bitsMsb n v).length = n := by simp [bitsMsb]

@[simp] theorem bitsMsb_zero {w : Nat} (v : BitVec w) : bitsMsb 0 v = [] := rfl

theorem bitsMsb_succ {w : Nat} (n : Nat) (v : BitVec w) : bitsMsb (n + 1) v = v.getLsbD n :: bitsMsb n v := by
  simp only [bitsMsb, List.range_succ_eq_map, List.map_cons, List.map_map]
  refine congrArg₂ _ (by simp) (List.map_congr_left fun i _ => ?_)
  simp only [Function.comp]
  congr 1; omega

/-- Only the low `n` bits count. -/
theorem bitsMsb_congr {w w' : Nat} (n : Nat) (v : BitVec w) (v' : BitVec w')
    (h : ∀ i < n, v.getLsbD i = v'.getLsbD i) : bitsMsb n v = bitsMsb n v' := by
  refine List.map_congr_left fun i hi => h _ ?_
  have := List.mem_range.mp hi
  omega

theorem bitsMsb_add {w : Nat} (n k : Nat) (v : BitVec w) :
    bitsMsb (n + k) v = bitsMsb n (v >>> k) ++ bitsMsb k v := by
  induction n with
  | zero => simp
  | succ n ih =>
    rw [show n + 1 + k = n + k + 1 by omega, bitsMsb_succ, bitsMsb_succ, ih]
    simp [BitVec.getLsbD_ushiftRight, Nat.add_comm]

theorem bitsToNat_foldl (p : List Bool) (v : Nat) :
    p.foldl (fun v b => 2 * v + b.toNat) v = v * 2 ^ p.length + bitsToNat p := by
  induction p generalizing v with
  | nil => simp [bitsToNat]
  | cons b p ih =>
    simp only [List.foldl_cons, List.length_cons, bitsToNat]
    rw [ih, ih (2 * 0 + b.toNat)]
    ring

@[simp] theorem bitsToNat_nil : bitsToNat [] = 0 := rfl

theorem bitsToNat_cons (b : Bool) (p : List Bool) : bitsToNat (b :: p) = b.toNat * 2 ^ p.length + bitsToNat p := by
  have := bitsToNat_foldl p (2 * 0 + b.toNat)
  rw [Nat.mul_zero, Nat.zero_add] at this
  rw [← this, bitsToNat, List.foldl_cons, Nat.mul_zero, Nat.zero_add]

theorem bitsToNat_append (p q : List Bool) : bitsToNat (p ++ q) = bitsToNat p * 2 ^ q.length + bitsToNat q := by
  unfold bitsToNat
  rw [List.foldl_append, bitsToNat_foldl]
  rfl

theorem bitsToNat_lt (p : List Bool) : bitsToNat p < 2 ^ p.length := by
  induction p with
  | nil => simp
  | cons b p ih =>
    rw [bitsToNat_cons, List.length_cons, Nat.pow_succ]
    have : b.toNat ≤ 1 := by cases b <;> simp
    nlinarith

/-- The number of an MSB-first field is the value modulo its width (30_encoding.md R68). -/
theorem bitsToNat_bitsMsb {w : Nat} (n : Nat) (v : BitVec w) : bitsToNat (bitsMsb n v) = v.toNat % 2 ^ n := by
  induction n with
  | zero => simp [Nat.mod_one]
  | succ n ih =>
    rw [bitsMsb_succ, bitsToNat_cons, ih, bitsMsb_length]
    have h := Nat.mod_pow_succ (x := v.toNat) (b := 2) (k := n)
    have hb : (v.getLsbD n).toNat = v.toNat / 2 ^ n % 2 := by
      rw [BitVec.getLsbD, Nat.testBit_eq_decide_div_mod_eq]
      rcases Nat.mod_two_eq_zero_or_one (v.toNat / 2 ^ n) with h | h <;> simp [h]
    rw [h, hb]
    ring

/-- The i-th bit of a string, as a bit of its number. -/
theorem bitsToNat_testBit (p : List Bool) (i : Nat) (h : i < p.length) :
    (bitsToNat p).testBit (p.length - 1 - i) = p[i] := by
  induction p generalizing i with
  | nil => simp at h
  | cons b p ih =>
    rw [bitsToNat_cons]
    cases i with
    | zero =>
      simp only [List.length_cons, Nat.add_sub_cancel, Nat.sub_zero, List.getElem_cons_zero]
      rw [Nat.mul_comm, Nat.testBit_two_pow_mul_add _ (bitsToNat_lt p)]
      cases b <;> simp
    | succ i =>
      have hi : i < p.length := by simpa using h
      simp only [List.length_cons, List.getElem_cons_succ]
      rw [Nat.mul_comm, Nat.testBit_two_pow_mul_add _ (bitsToNat_lt p),
        if_pos (show p.length + 1 - 1 - (i + 1) < p.length by omega), ← ih i hi]
      congr 1; omega

/-- A string of at most 255 bits survives being held in a code-table entry (10_state.md R30). -/
theorem Code.string_ofString (p : List Bool) (h : p.length ≤ 255) : (Code.ofString p).string = p := by
  have hl : (BitVec.ofNat 8 p.length).toNat = p.length := by simp; omega
  refine List.ext_getElem (by simp [Code.string, Code.ofString, hl]) fun i h₁ h₂ => ?_
  simp only [Code.string, Code.ofString, List.getElem_map, List.getElem_range]
  rw [BitVec.getMsbD_eq_getLsbD, BitVec.getLsbD_ofNat]
  have hi : i < 256 := by omega
  simp only [hi, decide_true, Bool.true_and, show 256 - 1 - i < 256 by omega]
  rw [show 256 - 1 - i = (256 - p.length) + (p.length - 1 - i) by omega, Nat.mul_comm, Nat.testBit_two_pow_mul]
  simp only [ge_iff_le, Nat.le_add_right, decide_true, Bool.true_and, Nat.add_sub_cancel_left]
  exact bitsToNat_testBit p i h₂

@[simp] theorem Code.ofString_valid (p : List Bool) : (Code.ofString p).valid = true := rfl

theorem Code.ofString_len (p : List Bool) (h : p.length ≤ 255) : (Code.ofString p).len.toNat = p.length := by
  simp [Code.ofString]; omega

theorem Code.string_length (c : Code) : c.string.length = c.len.toNat := by simp [Code.string]

/-! ### Tables and the arena after an update -/

theorem FreqTable.of_put (f : FreqTable) (a b : Byte) (v : Word) : (f.put a v).of b = if b = a then v else f.of b := by
  unfold FreqTable.of FreqTable.put
  rw [Vector.getElem_set]
  by_cases h : b = a
  · simp [h]
  · have : ¬ a.toNat = b.toNat := fun e => h (BitVec.eq_of_toNat_eq e.symm)
    simp [h, this]

theorem CodeTable.of_put (e : CodeTable) (a b : Byte) (c : Code) : (e.put a c).of b = if b = a then c else e.of b := by
  unfold CodeTable.of CodeTable.put
  rw [Vector.getElem_set]
  by_cases h : b = a
  · simp [h]
  · have : ¬ a.toNat = b.toNat := fun e => h (BitVec.eq_of_toNat_eq e.symm)
    simp [h, this]

@[simp] theorem CodeTable.of_blank (b : Byte) : CodeTable.of (Vector.replicate 256 Code.blank) b = Code.blank := by
  simp [CodeTable.of]

@[simp] theorem FreqTable.of_zero (b : Byte) : FreqTable.of (Vector.replicate 256 0) b = 0 := by
  simp [FreqTable.of]

theorem Arena.of_put (t : Arena) (h k : Handle) (n : Node) :
    (t.put h n).of k = if k = h ∧ h ≠ nilHandle then some n else t.of k := by
  unfold Arena.of Arena.put
  rw [Vector.getElem?_setIfInBounds]
  by_cases hk : k = h
  · subst hk
    have : k.toNat < 511 ↔ k ≠ nilHandle := by
      refine ⟨fun h e => by simp [e, nilHandle] at h, fun h => ?_⟩
      have : k.toNat ≠ 511 := fun e => h (BitVec.eq_of_toNat_eq e)
      have := k.isLt
      omega
    by_cases hn : k = nilHandle
    · simp [hn, nilHandle]
    · rw [if_pos rfl, if_pos (this.mpr hn), if_pos ⟨rfl, hn⟩]
  · have : ¬ h.toNat = k.toNat := fun e => hk (BitVec.eq_of_toNat_eq e.symm)
    simp [hk, this]

@[simp] theorem Arena.of_nil (t : Arena) : t.of nilHandle = none := by simp [Arena.of, nilHandle]

theorem mem_symbols (b : Byte) : b ∈ symbols := by
  refine List.mem_map.mpr ⟨b.toNat, List.mem_range.mpr b.isLt, by simp⟩

theorem symbols_nodup : symbols.Nodup := by
  refine (List.nodup_map_iff_inj_on List.nodup_range).mpr fun a ha b hb h => ?_
  have ha := List.mem_range.mp ha
  have hb := List.mem_range.mp hb
  have := congrArg BitVec.toNat h
  simp only [BitVec.toNat_ofNat] at this
  omega

/-! ### The bit region -/

@[simp] theorem regionBits_length (m : Memory) (b k n : Nat) : (regionBits m b k n).length = n := by simp [regionBits]

@[simp] theorem regionBits_zero (m : Memory) (b k : Nat) : regionBits m b k 0 = [] := rfl

theorem regionBits_add (m : Memory) (b k n j : Nat) :
    regionBits m b k (n + j) = regionBits m b k n ++ regionBits m b (k + n) j := by
  simp only [regionBits, List.range_add, List.map_append, List.map_map]
  congr 1
  refine List.map_congr_left fun i _ => ?_
  simp [Function.comp, Nat.add_assoc]

theorem regionBits_succ (m : Memory) (b k n : Nat) :
    regionBits m b k (n + 1) = regionBit m b k :: regionBits m b (k + 1) n := by
  rw [Nat.add_comm, regionBits_add]; simp [regionBits]

/-- The eight bits of a whole byte of the region. -/
theorem regionBits_byte (m : Memory) (b k : Nat) (h : k % 8 = 0) :
    regionBits m b k 8 = bitsMsb 8 (m.read (b + 4 + k / 8)) := by
  refine List.map_congr_left fun i hi => ?_
  have hi := List.mem_range.mp hi
  unfold regionBit
  rw [show (k + i) / 8 = k / 8 by omega, show 7 - (k + i) % 8 = 8 - 1 - i by omega]

/-- Bits whose bytes read alike are alike. -/
theorem regionBits_congr (m m' : Memory) (b k n : Nat)
    (h : ∀ i < n, m'.read (b + 4 + (k + i) / 8) = m.read (b + 4 + (k + i) / 8)) :
    regionBits m' b k n = regionBits m b k n := by
  refine List.map_congr_left fun i hi => ?_
  unfold regionBit
  rw [h i (List.mem_range.mp hi)]

end Sys2Proof.Machine
end

