-- ==== Sys2Proof/Laws/PerInstr.lean ====
section
/-! SUPPORT. The family OpcodeFields: the fields of every command's word are the ones 30_encoding.md gives (R67, R69), one lemma per constructor. -/

namespace Sys2Proof.Laws.OpcodeFields

open Sys2Proof

/-- The word of `i` has the opcode of `i` in `OP`, its count in `N` and 0 in `RSV` (R67, R69). -/
def Statement (i : Instr) : Prop :=
  opField (encode i) = opcodeOf i ∧ countField (encode i) = countOf i ∧ reservedField (encode i) = 0

/-- The three fields of a word joined from a count and an opcode. -/
theorem fields_of_append (n : BitVec 6) (op : Byte) :
    opField ((0 : BitVec 18) ++ n ++ op) = op ∧ countField ((0 : BitVec 18) ++ n ++ op) = n ∧
      reservedField ((0 : BitVec 18) ++ n ++ op) = 0 := by
  unfold opField countField reservedField
  refine ⟨?_, ?_, ?_⟩ <;> ext j hj <;> rw [BitVec.getElem_extractLsb', BitVec.getLsbD_append, BitVec.getLsbD_append]
  · simp [hj]
  · simp [show ¬8 + j < 8 by omega, hj]
  · simp [show ¬14 + j < 8 by omega, show ¬14 + j - 8 < 6 by omega]

theorem freqClear : Statement .freqClear := fields_of_append 0 _

theorem freqCount : Statement .freqCount := fields_of_append 0 _

theorem treeBuild : Statement .treeBuild := fields_of_append 0 _

theorem codesBuild : Statement .codesBuild := fields_of_append 0 _

theorem wOpen : Statement .wOpen := fields_of_append 0 _

theorem wBits (n : BitVec 6) : Statement (.wBits n) := fields_of_append n _

theorem wMagic : Statement .wMagic := fields_of_append 0 _

theorem wClose : Statement .wClose := fields_of_append 0 _

theorem rOpen : Statement .rOpen := fields_of_append 0 _

theorem rBits (n : BitVec 6) : Statement (.rBits n) := fields_of_append n _

theorem rMagic : Statement .rMagic := fields_of_append 0 _

theorem rClose : Statement .rClose := fields_of_append 0 _

theorem tSerialize : Statement .tSerialize := fields_of_append 0 _

theorem tDeserialize : Statement .tDeserialize := fields_of_append 0 _

theorem sEncode : Statement .sEncode := fields_of_append 0 _

theorem sDecode : Statement .sDecode := fields_of_append 0 _

end Sys2Proof.Laws.OpcodeFields
end

