-- ==== Sys2Proof/Laws/Reader.lean ====
section
/-! SUPPORT. The reader: before its bound and with a bus that completes, `ReadBit` returns the next bit of the bit region. -/

namespace Sys2Proof.Machine

/-- What reading `n` bits leaves: the channel a reader still, `n` bits further on, one access a fetched byte. -/
def Consumes (s t : State) (n : Nat) : Prop :=
  ReaderKeeps s t ∧ ReaderOk t ∧ BufferAgrees t ∧ t.ch.chC.toNat = s.ch.chC.toNat + n ∧
    t.env = s.env.after (s.ch.fetches n)

theorem Consumes.refl {s : State} (h : ReaderOk s) (ha : BufferAgrees s) : Consumes s s 0 := by
  refine ⟨ReaderKeeps.refl s, h, ha, rfl, ?_⟩
  have : s.ch.fetches 0 = 0 := by unfold Channel.fetches; omega
  rw [this, Env.after_zero]

theorem fetches_add (s t : State) (n m : Nat) (h : t.ch.chC.toNat = s.ch.chC.toNat + n) :
    s.ch.fetches n + t.ch.fetches m = s.ch.fetches (n + m) := by
  simp only [Channel.fetches, h]; omega

theorem Consumes.trans {s t u : State} {n m : Nat} (h : Consumes s t n) (h' : Consumes t u m) :
    Consumes s u (n + m) := by
  obtain ⟨k, r, b, c, e⟩ := h
  obtain ⟨k', r', b', c', e'⟩ := h'
  exact ⟨k.trans k', r', b', by rw [c', c]; omega, by rw [e', e, Env.after_after, fetches_add s t n m c]⟩

/-- The state after the first bit of a byte just fetched is taken. -/
def State.afterFetch (s : State) : State :=
  { s.drawNext.setPos (s.ch.pos + 1) with
    ch := { (s.drawNext.setPos (s.ch.pos + 1)).ch with bacc := s.mem.read s.ch.pos, bn := 7, chC := s.ch.chC + 1 } }

/-- The state after a buffered bit is taken. -/
def State.afterTake (s : State) : State := { s with ch := { s.ch with bn := s.ch.bn - 1, chC := s.ch.chC + 1 } }

theorem readBit_fetch {s : State} (h0 : s.ch.bn = 0) (hp : s.ch.pos < 2 ^ 32) (hd : s.env.completes 1 = true) :
    readBit s = .ok ((s.mem.read s.ch.pos).getLsbD 7) s.afterFetch := by
  unfold readBit refill
  rw [if_pos h0, memRead_ok hp hd]
  simp [State.afterFetch]

theorem readBit_take {s : State} (h0 : ¬ s.ch.bn = 0) :
    readBit s = .ok (s.ch.bacc.getLsbD (s.ch.bn.toNat - 1)) s.afterTake := by
  unfold readBit refill
  rw [if_neg h0]
  rfl

/-- One `ReadBit`. -/
theorem readBit_consumes (s : State) (hr : ReaderOk s) (ha : BufferAgrees s) (hlt : s.ch.chC.toNat < s.ch.chT.toNat)
    (hd : s.env.completes (s.ch.fetches 1) = true) :
    ∃ t, readBit s = .ok (regionBit s.mem s.ch.lbase.toNat s.ch.chC.toNat) t ∧ Consumes s t 1 := by
  obtain ⟨hreg, hle, hpos, hbn, hlen, hpad⟩ := hr
  have hreg' : s.ch.lbase.toNat + s.ch.llen.toNat ≤ 2 ^ 32 := by simpa [regionOK] using hreg
  have hT := s.ch.chT.isLt
  have hc1 : ∀ c : Word, c = s.ch.chC + 1 → c.toNat = s.ch.chC.toNat + 1 := by
    rintro c rfl; show (_ + 1) % 2 ^ 32 = _; omega
  by_cases h0 : s.ch.bn.toNat = 0
  · have hz : s.ch.bn = 0 := BitVec.eq_of_toNat_eq (by rw [h0]; rfl)
    have hf : s.ch.fetches 1 = 1 := by unfold Channel.fetches; omega
    rw [hf] at hd
    have hp32 : s.ch.pos < 2 ^ 32 := by omega
    refine ⟨s.afterFetch, ?_, ?_⟩
    · rw [readBit_fetch hz hp32 hd]
      refine congrArg₂ _ ?_ rfl
      unfold regionBit
      rw [show 7 - s.ch.chC.toNat % 8 = 7 by omega, hpos]
      congr 2; omega
    · have hp := State.setPos_pos s.drawNext (s.ch.pos + 1) hp32
      have hc : s.afterFetch.ch.chC.toNat = s.ch.chC.toNat + 1 := hc1 _ rfl
      refine ⟨?_, ⟨?_, ?_, ?_, ?_, ?_, ?_⟩, ?_, ?_, ?_⟩
      · simp [ReaderKeeps, KeepsBlock, State.afterFetch]
      · simpa [State.afterFetch] using hreg
      · rw [hc]; simp [State.afterFetch]; omega
      · rw [hc]
        show (s.drawNext.setPos (s.ch.pos + 1)).ch.pos = _
        rw [hp]; simp [State.afterFetch]; omega
      · rw [hc]; show 7 = _; omega
      · simpa [State.afterFetch] using hlen
      · simpa [State.afterFetch] using hpad
      · intro i hi
        show (s.mem.read s.ch.pos).getLsbD i = ((s.drawNext.setPos (s.ch.pos + 1)).mem.read
          ((s.drawNext.setPos (s.ch.pos + 1)).ch.pos - 1)).getLsbD i
        rw [hp]; simp
      · exact hc1 _ rfl
      · rw [hf]; simp [Env.after, State.afterFetch]
  · have hz : ¬ s.ch.bn = 0 := fun e => h0 (by rw [e]; rfl)
    have hf : s.ch.fetches 1 = 0 := by unfold Channel.fetches; omega
    have hb4 := s.ch.bn.isLt
    refine ⟨s.afterTake, ?_, ?_⟩
    · rw [readBit_take hz]
      refine congrArg₂ _ ?_ rfl
      rw [ha (s.ch.bn.toNat - 1) (by omega)]
      unfold regionBit
      rw [show s.ch.bn.toNat - 1 = 7 - s.ch.chC.toNat % 8 by omega,
        show s.ch.pos - 1 = s.ch.lbase.toNat + 4 + s.ch.chC.toNat / 8 by omega]
    · have hb1 : (s.ch.bn - 1).toNat = s.ch.bn.toNat - 1 := by
        rw [BitVec.toNat_sub]; show (2 ^ 4 - 1 + _) % 2 ^ 4 = _; omega
      have hc : s.afterTake.ch.chC.toNat = s.ch.chC.toNat + 1 := hc1 _ rfl
      refine ⟨?_, ⟨hreg, ?_, ?_, ?_, hlen, hpad⟩, ?_, ?_, ?_⟩
      · simp [ReaderKeeps, KeepsBlock, State.afterTake]
      · rw [hc]; exact hlt
      · rw [hc]; show s.ch.pos = s.ch.lbase.toNat + 4 + _; omega
      · rw [hc]; show (s.ch.bn - 1).toNat = _; omega
      · intro i hi
        have hi : i < (s.ch.bn - 1).toNat := hi
        exact ha i (by omega)
      · exact hc1 _ rfl
      · rw [hf]; simp [State.afterTake]

/-- `n` bits read are the number of the next `n` bits of the region, MSB-first. -/
theorem readNat_consumes (n v : Nat) (s : State) (hr : ReaderOk s) (ha : BufferAgrees s)
    (hle : s.ch.chC.toNat + n ≤ s.ch.chT.toNat) (hd : s.env.completes (s.ch.fetches n) = true) :
    ∃ t, readNat n v s = .ok (v * 2 ^ n + bitsToNat (s.ahead n)) t ∧ Consumes s t n := by
  induction n generalizing v s with
  | zero => exact ⟨s, by simp [readNat, State.ahead], Consumes.refl hr ha⟩
  | succ n ih =>
    have h1 : s.ch.fetches 1 ≤ s.ch.fetches (n + 1) := by unfold Channel.fetches; omega
    obtain ⟨t, ht, hct⟩ := readBit_consumes s hr ha (by omega) (Env.completes_mono hd h1)
    have hct' := hct
    obtain ⟨hk, hr', ha', hc, he⟩ := hct'
    have hadd := fetches_add s t 1 n hc
    rw [Nat.add_comm 1 n] at hadd
    have hT : t.ch.chT = s.ch.chT := hk.2.2.2.2.1
    obtain ⟨u, hu, hcu⟩ := ih (2 * v + (regionBit s.mem s.ch.lbase.toNat s.ch.chC.toNat).toNat) t hr' ha'
      (by rw [hT, hc]; omega) (by rw [← hadd, Env.completes_add] at hd; rw [he]; exact hd.2)
    refine ⟨u, ?_, by rw [Nat.add_comm]; exact hct.trans hcu⟩
    show (readBit s).bind _ = _
    rw [ht]
    simp only [Flow.bind_ok]
    rw [hu]
    congr 1
    have hm : t.mem = s.mem := hk.2.2.2.2.2.2.2
    have hl : t.ch.lbase = s.ch.lbase := hk.2.2.1
    unfold State.ahead
    rw [regionBits_succ, bitsToNat_cons, hm, hl, hc, regionBits_length]
    ring

end Sys2Proof.Machine
end

