-- ==== Sys2Proof/Laws/Trees.lean ====
section
/-! SUPPORT. What the walks over the arena compute, in terms of the shape of the tree it holds. -/

namespace Sys2Proof.Machine

/-! ### Unfolding a shape -/

theorem shapeAt_leaf {t : Arena} {h : Handle} {n : Node} (hn : t.of h = some n) (hk : n.kind = .leaf) (d : Nat) :
    shapeAt t (d + 1) h = some (.leaf n.sym) := by
  simp [shapeAt, hn, hk]

theorem shapeAt_placeholder {t : Arena} {h : Handle} {n : Node} (hn : t.of h = some n) (hk : n.kind = .placeholder)
    (d : Nat) : shapeAt t (d + 1) h = some .placeholder := by
  simp [shapeAt, hn, hk]

theorem shapeAt_inner {t : Arena} {h : Handle} {n : Node} {l r : Shape} {d : Nat} (hn : t.of h = some n)
    (hk : n.kind = .inner) (hl : shapeAt t d n.left = some l) (hr : shapeAt t d n.right = some r) :
    shapeAt t (d + 1) h = some (.inner l r) := by
  simp [shapeAt, hn, hk, hl, hr]

/-- The three ways a handle holds a shape. -/
theorem shapeAt_cases {t : Arena} {d : Nat} {h : Handle} {sh : Shape} (e : shapeAt t d h = some sh) :
    ∃ d' n, d = d' + 1 ∧ t.of h = some n ∧
      ((n.kind = .leaf ∧ sh = .leaf n.sym) ∨ (n.kind = .placeholder ∧ sh = .placeholder) ∨
        (n.kind = .inner ∧ ∃ l r, shapeAt t d' n.left = some l ∧ shapeAt t d' n.right = some r ∧ sh = .inner l r)) := by
  cases d with
  | zero => simp [shapeAt] at e
  | succ d =>
    cases hn : t.of h with
    | none => simp [shapeAt, hn] at e
    | some n =>
      refine ⟨d, n, rfl, rfl, ?_⟩
      cases hk : n.kind with
      | free => simp [shapeAt, hn, hk] at e
      | leaf => simp [shapeAt, hn, hk] at e; exact .inl ⟨rfl, e.symm⟩
      | placeholder => simp [shapeAt, hn, hk] at e; exact .inr (.inl ⟨rfl, e.symm⟩)
      | inner =>
        cases hl : shapeAt t d n.left with
        | none => simp [shapeAt, hn, hk, hl] at e
        | some l =>
          cases hr : shapeAt t d n.right with
          | none => simp [shapeAt, hn, hk, hl, hr] at e
          | some r =>
            simp [shapeAt, hn, hk, hl, hr] at e
            exact .inr (.inr ⟨rfl, l, r, rfl, rfl, e.symm⟩)

/-! ### The serialized form and its cost -/

theorem serialForm_of_shape {t : Arena} {d : Nat} {h : Handle} {sh : Shape} (e : shapeAt t d h = some sh) :
    serialForm t d h = .ok sh.bits := by
  induction d generalizing h sh with
  | zero => simp [shapeAt] at e
  | succ d ih =>
    obtain ⟨d', n, hd, hn, ⟨hk, rfl⟩ | ⟨hk, rfl⟩ | ⟨hk, l, r, hl, hr, rfl⟩⟩ := shapeAt_cases e
    · simp [serialForm, hn, hk, Shape.bits]
    · simp [serialForm, hn, hk, Shape.bits]
    · obtain rfl : d = d' := by omega
      simp [serialForm, hn, hk, ih hl, ih hr, Shape.bits]

theorem Shape.bits_length (sh : Shape) : sh.bits.length = sh.cost := by
  induction sh with
  | leaf y => simp [Shape.bits, Shape.cost]
  | placeholder => rfl
  | inner l r hl hr => simp [Shape.bits, Shape.cost, hl, hr]; omega

/-! ### The code table -/

/-- The table with the codes of a shape written into it, left before right (40_frequency_tree.md R82). -/
def Shape.writeCodes : Shape → List Bool → CodeTable → CodeTable
  | .leaf y, p, e => e.put y (Code.ofString p)
  | .placeholder, _, e => e
  | .inner l r, p, e => r.writeCodes (p ++ [true]) (l.writeCodes (p ++ [false]) e)

theorem visit_of_shape {t : Arena} {d : Nat} {h : Handle} {sh : Shape} (e : shapeAt t d h = some sh) (p : List Bool)
    (c : CodeTable) (tb : Nat) : visit t d h p (c, tb) = .ok (sh.writeCodes p c, tb + sh.cost) := by
  induction d generalizing h sh p c tb with
  | zero => simp [shapeAt] at e
  | succ d ih =>
    obtain ⟨d', n, hd, hn, ⟨hk, rfl⟩ | ⟨hk, rfl⟩ | ⟨hk, l, r, hl, hr, rfl⟩⟩ := shapeAt_cases e
    · simp [visit, hn, hk, Shape.writeCodes, Shape.cost]
    · simp [visit, hn, hk, Shape.writeCodes, Shape.cost]
    · obtain rfl : d = d' := by omega
      simp only [visit, hn, hk, ih hl, ih hr, Shape.writeCodes, Shape.cost]
      congr 2; omega

theorem Shape.path_isSome (sh : Shape) (x : Byte) : (sh.path x).isSome = true ↔ x ∈ sh.leaves := by
  induction sh with
  | leaf y => by_cases h : x = y <;> simp [Shape.path, Shape.leaves, h]
  | placeholder => simp [Shape.path, Shape.leaves]
  | inner l r hl hr =>
    simp only [Shape.path, Shape.leaves, List.mem_append, ← hl, ← hr]
    cases l.path x <;> cases r.path x <;> simp

theorem Shape.path_none {sh : Shape} {x : Byte} (h : x ∉ sh.leaves) : sh.path x = none := by
  have := (Shape.path_isSome sh x).not.mpr h
  simpa using this

/-- With distinct leaves, the entry of each leaf symbol is its path, and every other entry is as it was. -/
theorem Shape.of_writeCodes (sh : Shape) (hd : sh.leaves.Nodup) (p : List Bool) (e : CodeTable) (x : Byte) :
    (sh.writeCodes p e).of x =
      match sh.path x with
      | some q => Code.ofString (p ++ q)
      | none => e.of x := by
  induction sh generalizing p e with
  | leaf y =>
    simp only [Shape.writeCodes, Shape.path, CodeTable.of_put]
    by_cases h : x = y <;> simp [h]
  | placeholder => rfl
  | inner l r hl hr =>
    obtain ⟨hdl, hdr, hdis⟩ := List.nodup_append.mp hd
    simp only [Shape.writeCodes, hr hdr, hl hdl, Shape.path]
    cases hx : l.path x with
    | some q =>
      have hm : x ∈ l.leaves := (Shape.path_isSome l x).mp (by simp [hx])
      rw [Shape.path_none fun h => hdis x hm x h rfl]
      simp
    | none => cases r.path x <;> simp

/-- A path is shorter than the number of levels the tree was read with. -/
theorem shapeAt_path_lt {t : Arena} {d : Nat} {h : Handle} {sh : Shape} (e : shapeAt t d h = some sh) {x : Byte}
    {q : List Bool} (hq : sh.path x = some q) : q.length < d := by
  induction d generalizing h sh q with
  | zero => simp [shapeAt] at e
  | succ d ih =>
    obtain ⟨d', n, hd, hn, ⟨hk, rfl⟩ | ⟨hk, rfl⟩ | ⟨hk, l, r, hl, hr, rfl⟩⟩ := shapeAt_cases e
    · simp only [Shape.path] at hq
      split at hq
      · simp at hq; subst hq; simp
      · simp at hq
    · simp [Shape.path] at hq
    · obtain rfl : d = d' := by omega
      simp only [Shape.path] at hq
      cases hx : l.path x with
      | some q' =>
        simp only [hx, Option.some.injEq] at hq
        subst hq
        simpa using ih hl hx
      | none =>
        cases hx' : r.path x with
        | none => simp [hx, hx'] at hq
        | some q' =>
          simp only [hx, hx', Option.some.injEq] at hq
          subst hq
          simpa using ih hr hx'

/-- No path is a prefix of another's. -/
theorem Shape.path_prefix_free (sh : Shape) {x y : Byte} {p q : List Bool} (hx : sh.path x = some p)
    (hy : sh.path y = some q) (hpq : p <+: q) : x = y := by
  induction sh generalizing p q with
  | leaf z =>
    simp only [Shape.path] at hx hy
    split at hx <;> split at hy <;> simp_all
  | placeholder => simp [Shape.path] at hx
  | inner l r hl hr =>
    simp only [Shape.path] at hx hy
    cases hlx : l.path x with
    | some p' =>
      simp only [hlx, Option.some.injEq] at hx
      subst hx
      cases hly : l.path y with
      | some q' =>
        simp only [hly, Option.some.injEq] at hy
        subst hy
        exact hl hlx hly (by simpa using hpq)
      | none =>
        cases hry : r.path y with
        | none => simp [hly, hry] at hy
        | some q' =>
          simp only [hly, hry, Option.some.injEq] at hy
          subst hy
          simp at hpq
    | none =>
      cases hrx : r.path x with
      | none => simp [hlx, hrx] at hx
      | some p' =>
        simp only [hlx, hrx, Option.some.injEq] at hx
        subst hx
        cases hly : l.path y with
        | some q' =>
          simp only [hly, Option.some.injEq] at hy
          subst hy
          simp at hpq
        | none =>
          cases hry : r.path y with
          | none => simp [hly, hry] at hy
          | some q' =>
            simp only [hly, hry, Option.some.injEq] at hy
            subst hy
            exact hr hrx hry (by simpa using hpq)

/-- The code table of a tree. -/
theorem codesOfTree_of_shape {t : Arena} {root : Handle} {sh : Shape} (hr : root ≠ nilHandle)
    (e : shapeAt t maxLevels root = some sh) :
    codesOfTree t root = .ok (sh.writeCodes [] (Vector.replicate 256 Code.blank), sh.cost) := by
  rw [codesOfTree, if_neg hr, visit_of_shape e]; simp

end Sys2Proof.Machine
end

