-- ==== Sys2Proof/Laws/Writer.lean ====
section
/-! SUPPORT. The writer: with room in the stream region and a bus that completes, `WriteBit` appends its bit to the bits written. -/

namespace Sys2Proof.Machine

/-- What a run of `WriteBit`s of the string `p` leaves: the channel a writer still, the bits appended, one access a committed byte,
and no byte of memory changed outside those the channel passed. -/
def Appends (s t : State) (p : List Bool) : Prop :=
  WriterKeeps s t ∧ WriterOk t ∧ t.ch.bn.toNat = (s.ch.bn.toNat + p.length) % 8 ∧
    t.ch.chT.toNat = s.ch.chT.toNat + 8 * s.ch.commits p.length ∧ t.env = s.env.after (s.ch.commits p.length) ∧
      t.mem.wf = true ∧ t.written = s.written ++ p ∧
        ∀ a, a < s.ch.pos ∨ t.ch.pos ≤ a → t.mem.read a = s.mem.read a

theorem WriterOk.pos_lt {s : State} (h : WriterOk s) : s.ch.pos ≤ s.ch.lbase.toNat + s.ch.llen.toNat := by
  obtain ⟨-, -, hp, -, hl⟩ := h; omega

theorem Appends.refl {s : State} (h : WriterOk s) (hb : s.ch.bn.toNat ≤ 7) (hm : s.mem.wf = true) : Appends s s [] := by
  have hc : s.ch.commits 0 = 0 := by unfold Channel.commits; omega
  refine ⟨WriterKeeps.refl s, h, ?_, ?_, ?_, hm, by simp, fun _ _ => rfl⟩
  · show _ = (_ + 0) % 8; omega
  · show _ = _ + 8 * s.ch.commits 0; omega
  · show _ = s.env.after (s.ch.commits 0); rw [hc, Env.after_zero]

theorem Appends.trans {s t u : State} {p q : List Bool} (h : Appends s t p)
    (h' : Appends t u q) (hs : WriterOk s) : Appends s u (p ++ q) := by
  obtain ⟨k, w, b, c, e, m, wr, o⟩ := h
  obtain ⟨k', w', b', c', e', m', wr', o'⟩ := h'
  have hc : s.ch.commits p.length + t.ch.commits q.length = s.ch.commits (p ++ q).length := by
    simp only [Channel.commits, b, List.length_append]; omega
  have hpos : s.ch.pos ≤ t.ch.pos := by
    have e₁ : t.ch.lbase = s.ch.lbase := k.2.2.1
    obtain ⟨-, h8, hp, -⟩ := hs
    obtain ⟨-, h8', hp', -⟩ := w
    rw [hp, hp', e₁, c]; omega
  have hpos' : t.ch.pos ≤ u.ch.pos := by
    have e₁ : u.ch.lbase = t.ch.lbase := k'.2.2.1
    obtain ⟨-, h8, hp, -⟩ := w
    obtain ⟨-, h8', hp', -⟩ := w'
    rw [hp, hp', e₁, c']; omega
  refine ⟨k.trans k', w', ?_, ?_, ?_, m', ?_, fun a ha => ?_⟩
  · rw [b', b, List.length_append]; omega
  · rw [c', c, ← hc]; omega
  · rw [e', e, Env.after_after, hc]
  · rw [wr', wr, List.append_assoc]
  · rw [o' a (by omega), o a (by omega)]

/-- The buffered bits after one more. -/
theorem pushBit_acc (s : State) (b : Bool) (h : s.ch.bn.toNat ≤ 7) :
    bitsMsb (s.ch.bn.toNat + 1) (s.pushBit b).ch.bacc = bitsMsb s.ch.bn.toNat s.ch.bacc ++ [b] := by
  rw [bitsMsb_add, State.pushBit_ch]
  congr 1
  · refine bitsMsb_congr _ _ _ fun i hi => ?_
    have hi' : i + 1 < 8 := by omega
    have : (s.ch.bacc <<< 1 ||| (BitVec.ofBool b).setWidth 8).getLsbD (1 + i) = s.ch.bacc.getLsbD i := by
      rw [BitVec.getLsbD_or, BitVec.getLsbD_shiftLeft, BitVec.getLsbD_setWidth]
      have : ¬ (1 + i < 1) := by omega
      simp [show 1 + i < 8 by omega]
    rw [BitVec.getLsbD_ushiftRight]; exact this
  · show bitsMsb 1 _ = [b]
    rw [bitsMsb_succ, bitsMsb_zero]
    simp

theorem pushBit_bn (s : State) (b : Bool) (h : s.ch.bn.toNat ≤ 7) : (s.pushBit b).ch.bn.toNat = s.ch.bn.toNat + 1 := by
  show (s.ch.bn.toNat + 1) % 2 ^ 4 = _
  omega

/-- One `WriteBit`. -/
theorem writeBit_appends (s : State) (b : Bool) (hw : WriterOk s) (hb : s.ch.bn.toNat ≤ 7) (hm : s.mem.wf = true)
    (hr : s.ch.room 1) (hd : s.env.completes (s.ch.commits 1) = true) :
    ∃ t, writeBit b s = .ok () t ∧ Appends s t [b] := by
  obtain ⟨hreg, h8, hpos, -, hlen⟩ := hw
  have hreg' : s.ch.lbase.toNat + s.ch.llen.toNat ≤ 2 ^ 32 := by simpa [regionOK] using hreg
  have hbn := pushBit_bn s b hb
  have hppos : (s.pushBit b).ch.pos = s.ch.pos := rfl
  by_cases h7 : s.ch.bn.toNat = 7
  · have hc : s.ch.commits 1 = 1 := by simp [Channel.commits, h7]
    obtain ⟨hr₁, hr₂⟩ := hr
    rw [hc] at hr₁ hr₂ hd
    have h8' : (s.pushBit b).ch.bn = 8 := BitVec.eq_of_toNat_eq (by rw [hbn, h7]; rfl)
    have hlt : s.ch.pos < 2 ^ 32 := by omega
    let m := s.mem.write s.ch.pos (s.pushBit b).ch.bacc
    have hcommit : ∃ t, commit (s.pushBit b).ch.bacc (s.pushBit b) = .ok () t ∧ WriterKeeps s t ∧ t.mem = m ∧
        t.ch.pos = s.ch.pos + 1 ∧ t.ch.chT = s.ch.chT + 8 ∧ t.env = s.env.after 1 := by
      unfold commit
      rw [if_neg (by show ¬ _ ≤ s.ch.pos; simp only [State.pushBit_ch]; omega),
        if_neg (by simp only [State.pushBit_ch]; omega), memWrite_ok (by exact hlt) (by exact hd)]
      refine ⟨_, rfl, ?_, ?_, ?_, ?_, ?_⟩
      · simp [WriterKeeps, KeepsBlock]
      · simp [m]; rfl
      · exact State.setPos_pos _ _ hlt
      · simp
      · simp [Env.after]
    obtain ⟨t, ht, hk, hmem, hp, hT, he⟩ := hcommit
    have hTn : t.ch.chT.toNat = s.ch.chT.toNat + 8 := by
      rw [hT, BitVec.toNat_add]; show (_ + 8) % _ = _; omega
    have hlb : t.ch.lbase = s.ch.lbase := hk.2.2.1
    have hll : t.ch.llen = s.ch.llen := hk.2.2.2.1
    refine ⟨t.clearAcc, ?_, ?_, ?_, ?_, ?_, ?_, ?_, ?_, ?_⟩
    · unfold writeBit; simp only; rw [if_pos h8', ht]; rfl
    · exact hk.trans (by simp [WriterKeeps, KeepsBlock])
    · refine ⟨by simpa [hlb, hll] using hreg, ?_, ?_, .inl (by simp), ?_⟩
      · show t.ch.chT.toNat % 8 = 0; omega
      · show t.ch.pos = t.ch.lbase.toNat + 4 + t.ch.chT.toNat / 8; rw [hp, hlb, hTn]; omega
      · show 4 + t.ch.chT.toNat / 8 ≤ t.ch.llen.toNat; rw [hll, hTn]; omega
    · simp [h7]
    · show t.ch.chT.toNat = _; simp [hc, hTn]
    · show t.env = _; simp [hc, he]
    · show t.mem.wf = true; rw [hmem]; exact Memory.write_wf _ _ _ hlt hm
    · have hread : m.read s.ch.pos = (s.pushBit b).ch.bacc := Memory.read_write_same _ _ _ hm
      have hold : ∀ a, a ≠ s.ch.pos → m.read a = s.mem.read a := fun a ha => Memory.read_write_other _ _ _ _ ha
      show regionBits t.mem t.ch.lbase.toNat 0 t.ch.chT.toNat ++ bitsMsb 0 _ = _
      rw [hmem, hlb, hTn, regionBits_add, regionBits_byte _ _ _ (by omega), bitsMsb_zero, List.append_nil]
      rw [show s.ch.lbase.toNat + 4 + (0 + s.ch.chT.toNat) / 8 = s.ch.pos by rw [hpos]; omega, hread]
      rw [regionBits_congr s.mem m _ 0 _ fun i hi => hold _ (by rw [hpos]; omega)]
      have := pushBit_acc s b hb
      rw [h7] at this
      rw [this]
      simp [State.written, h7]
    · intro a ha
      show t.mem.read a = _
      rw [hmem]
      refine Memory.read_write_other _ _ _ _ ?_
      have : t.clearAcc.ch.pos = s.ch.pos + 1 := hp
      omega
  · have hc : s.ch.commits 1 = 0 := by simp [Channel.commits]; omega
    have h8' : ¬ (s.pushBit b).ch.bn = 8 := fun e => by
      have := congrArg BitVec.toNat e
      rw [hbn] at this
      exact h7 (by simpa using this)
    refine ⟨s.pushBit b, ?_, ?_, ?_, ?_, ?_, ?_, ?_, ?_, fun _ _ => rfl⟩
    · unfold writeBit; simp only; rw [if_neg h8']
    · simp [WriterKeeps, KeepsBlock]
    · exact ⟨hreg, h8, hpos, .inl (by omega), hlen⟩
    · rw [hbn]; simp; omega
    · simp [hc]
    · simp [hc]
    · exact hm
    · unfold State.written
      rw [hbn, pushBit_acc s b hb]
      simp

/-- A run of `WriteBit`s. -/
theorem writeString_appends (p : List Bool) (s : State) (hw : WriterOk s) (hb : s.ch.bn.toNat ≤ 7)
    (hm : s.mem.wf = true) (hr : s.ch.room p.length) (hd : s.env.completes (s.ch.commits p.length) = true) :
    ∃ t, writeString p s = .ok () t ∧ Appends s t p := by
  induction p generalizing s with
  | nil => exact ⟨s, rfl, Appends.refl hw hb hm⟩
  | cons b p ih =>
    have h1 : s.ch.commits 1 ≤ s.ch.commits (b :: p).length := by
      simp only [Channel.commits, List.length_cons]; omega
    obtain ⟨hr₁, hr₂⟩ := hr
    obtain ⟨t, ht, ha⟩ := writeBit_appends s b hw hb hm ⟨by omega, by omega⟩ (Env.completes_mono hd h1)
    have ha' := ha
    obtain ⟨hk, hw', hb', hT, he, hm', -, -⟩ := ha'
    simp only [List.length_singleton] at hb' hT he
    have hc : s.ch.commits 1 + t.ch.commits p.length = s.ch.commits (b :: p).length := by
      simp only [Channel.commits, hb', List.length_cons]; omega
    have hll : t.ch.llen = s.ch.llen := hk.2.2.2.1
    obtain ⟨u, hu, hau⟩ := ih t hw' (by omega) hm'
      ⟨by rw [hll, hT]; obtain ⟨-, h8, -⟩ := hw; omega, by rw [hT]; omega⟩
      (by rw [← hc, Env.completes_add] at hd; rw [he]; exact hd.2)
    refine ⟨u, ?_, ha.trans hau hw⟩
    show (writeBit b s).bind _ = _
    rw [ht]; exact hu

theorem writeString_append (p q : List Bool) (s : State) :
    writeString (p ++ q) s = (writeString p s).bind fun _ t => writeString q t := by
  induction p generalizing s with
  | nil => rfl
  | cons b p ih =>
    show (writeBit b s).bind _ = ((writeBit b s).bind _).bind _
    rw [Flow.bind_assoc]
    exact congrArg _ (funext fun _ => funext fun t => ih t)

/-- A run of `WriteBit`s up to its commit `j`: `u` is the state in which that commit is tried, its byte in `BACC`, the `j` commits before it
made. What the whole run does is what this commit, and after it the rest of the run, do. -/
theorem writeString_reaches (p : List Bool) (s : State) (j : Nat) (hmode : s.ch.mode = .write) (hw : WriterOk s)
    (hb : s.ch.bn.toNat ≤ 7) (hm : s.mem.wf = true) (hj : j < s.ch.commits p.length)
    (hr : 4 + s.ch.chT.toNat / 8 + j ≤ s.ch.llen.toNat ∧ s.ch.chT.toNat + 8 * j ≤ 0xFFFFFFF8)
    (hd : s.env.completes j = true) :
    ∃ u rest, p.length = 8 * j + 8 - s.ch.bn.toNat + rest.length ∧
      writeString p s = ((commit u.ch.bacc u).bind fun _ t => .ok () t.clearAcc).bind (fun _ t => writeString rest t) ∧
        Uncommitted s u p j ∧ WriterKeeps s u ∧ u.mem.wf = true ∧ u.env = s.env.after j ∧
          ∀ a, a < s.ch.pos ∨ s.ch.pos + j ≤ a → u.mem.read a = s.mem.read a := by
  have hj' : 8 * j + 8 ≤ s.ch.bn.toNat + p.length := by unfold Channel.commits at hj; omega
  let n := 8 * j + 7 - s.ch.bn.toNat
  have hn : n < p.length := by show 8 * j + 7 - s.ch.bn.toNat < _; omega
  have hl : (p.take n).length = n := by rw [List.length_take]; omega
  have hc : s.ch.commits (p.take n).length = j := by
    rw [hl]; show (_ + (8 * j + 7 - s.ch.bn.toNat)) / 8 = j; omega
  obtain ⟨t, ht, hk, hw', hb', hT, he, hm', hwr, ho⟩ :=
    writeString_appends (p.take n) s hw hb hm (by unfold Channel.room; rw [hc]; exact hr) (by rw [hc]; exact hd)
  rw [hc] at hT he
  have hb7 : t.ch.bn.toNat = 7 := by rw [hb', hl]; show (_ + (8 * j + 7 - s.ch.bn.toNat)) % 8 = 7; omega
  have hsplit : p = p.take n ++ (p[n] :: p.drop (n + 1)) := by
    rw [← List.drop_eq_getElem_cons hn, List.take_append_drop]
  have hlb : t.ch.lbase = s.ch.lbase := hk.2.2.1
  have hpos : t.ch.pos = s.ch.pos + j := by
    obtain ⟨-, h8, hp, -⟩ := hw; obtain ⟨-, h8', hp', -⟩ := hw'
    rw [hp', hp, hlb, hT]; omega
  have hbn : (t.pushBit p[n]).ch.bn = 8 := BitVec.eq_of_toNat_eq (by rw [pushBit_bn t _ (by omega), hb7]; rfl)
  have hwritten : regionBits t.mem s.ch.lbase.toNat 0 (s.ch.chT.toNat + 8 * j) ++ bitsMsb 7 t.ch.bacc =
      regionBits s.mem s.ch.lbase.toNat 0 s.ch.chT.toNat ++ (bitsMsb s.ch.bn.toNat s.ch.bacc ++ p.take n) := by
    have h := hwr
    simp only [State.written, hb7, hlb, hT, List.append_assoc] at h
    exact h
  have hacc : bitsMsb 8 (t.pushBit p[n]).ch.bacc = bitsMsb 7 t.ch.bacc ++ [p[n]] := by
    have := pushBit_acc t p[n] (by omega)
    rwa [hb7] at this
  have hall : s.written ++ p =
      regionBits t.mem s.ch.lbase.toNat 0 (s.ch.chT.toNat + 8 * j) ++ (bitsMsb 8 (t.pushBit p[n]).ch.bacc ++ p.drop (n + 1)) := by
    conv_lhs => rw [hsplit]
    rw [hacc]
    simp only [State.written, List.append_assoc] at *
    rw [← List.append_assoc, ← List.append_assoc, ← List.append_assoc (regionBits t.mem _ _ _), hwritten]
    simp
  refine ⟨t.pushBit p[n], p.drop (n + 1), ?_, ?_, ⟨?_, hpos, hT, hbn, ?_, ?_⟩, ?_, hm', he, ?_⟩
  · rw [List.length_drop]; show _ = _ + (_ - (8 * j + 7 - s.ch.bn.toNat + 1)); omega
  · conv_lhs => rw [hsplit, writeString_append, ht]
    show (writeBit p[n] t).bind _ = _
    unfold writeBit
    simp only
    rw [if_pos hbn]
  · show t.ch.mode = _; rw [hk.2.1, hmode]
  · have h := congrArg (List.drop (s.ch.chT.toNat + 8 * j)) hall
    rw [State.written, List.append_assoc, ← List.drop_drop, List.drop_left' (by simp)] at h
    rw [h.trans (List.drop_left' (by simp)), List.take_left' (by simp)]
  · rw [hall, List.take_append_of_le_length (by simp)]
    show regionBits t.mem _ _ _ = _
    rw [List.take_of_length_le (by simp)]
  · exact hk.trans (by simp [WriterKeeps, KeepsBlock])
  · intro a ha
    exact ho a (by rw [hpos]; exact ha)

/-! ### The three ways a commit fails (20_memory.md R55) -/

theorem commit_full {v : Byte} {s : State} (h : s.ch.lbase.toNat + s.ch.llen.toNat ≤ s.ch.pos) :
    commit v s = .raise .streamOverflow s.ch.bpos s := if_pos h

theorem commit_pastHeader {v : Byte} {s : State} (h : s.ch.pos < s.ch.lbase.toNat + s.ch.llen.toNat)
    (hT : 0xFFFFFFF7 < s.ch.chT.toNat) : commit v s = .raise .headerOverflow s.ch.chT s := by
  rw [commit, if_neg (by omega), if_pos hT]

theorem commit_busError {v : Byte} {s : State} (h : s.ch.pos < s.ch.lbase.toNat + s.ch.llen.toNat)
    (hT : s.ch.chT.toNat ≤ 0xFFFFFFF7) (hp : s.ch.pos < 2 ^ 32) (hd : s.drawOk = false) :
    commit v s = .raise .busError (BitVec.ofNat 32 s.ch.pos)
      { s.drawNext with mem := s.mem.write s.ch.pos (Config.freeByte s.env.drawn) } := by
  rw [commit, if_neg (by omega), if_neg (by omega), memWrite_fails hp hd]; rfl

end Sys2Proof.Machine
end

