-- ==== Sys2Proof/Tests/Slice0.lean ====
section
/-! SUPPORT. Tests: ill-formed terms, words written out from 30_encoding.md, one-step vectors of 95_test_vectors.md, and a witness for the hypotheses of every statement. -/

namespace Sys2Proof.Tests

open Sys2Proof Sys2Proof.Machine

set_option Elab.async false

/-! ### Well-formedness: the check refuses each ill-formed term -/

theorem test_wf_wBits_zero : (Instr.wBits 0).wellFormed = false := by decide
theorem test_wf_wBits_33 : (Instr.wBits 33).wellFormed = false := by decide
theorem test_wf_rBits_zero : (Instr.rBits 0).wellFormed = false := by decide
theorem test_wf_rBits_63 : (Instr.rBits 63).wellFormed = false := by decide

/-! ### Decoding: each word is written out as RSV, N, OP from R67 and R69 -/

theorem test_decode_freqClear : decode 0b000000000000000000_000000_00000001 = .command .freqClear := by decide
theorem test_decode_freqCount : decode 0b000000000000000000_000000_00000010 = .command .freqCount := by decide
theorem test_decode_treeBuild : decode 0b000000000000000000_000000_00000011 = .command .treeBuild := by decide
theorem test_decode_codesBuild : decode 0b000000000000000000_000000_00000100 = .command .codesBuild := by decide
theorem test_decode_wOpen : decode 0b000000000000000000_000000_00010000 = .command .wOpen := by decide
theorem test_decode_wBits : decode 0b000000000000000000_000011_00010001 = .command (.wBits 3) := by decide
theorem test_decode_wMagic : decode 0b000000000000000000_000000_00010010 = .command .wMagic := by decide
theorem test_decode_wClose : decode 0b000000000000000000_000000_00010011 = .command .wClose := by decide
theorem test_decode_rOpen : decode 0b000000000000000000_000000_00011000 = .command .rOpen := by decide
theorem test_decode_rBits : decode 0b000000000000000000_100000_00011001 = .command (.rBits 32) := by decide
theorem test_decode_rMagic : decode 0b000000000000000000_000000_00011010 = .command .rMagic := by decide
theorem test_decode_rClose : decode 0b000000000000000000_000000_00011011 = .command .rClose := by decide
theorem test_decode_tSerialize : decode 0b000000000000000000_000000_00100000 = .command .tSerialize := by decide
theorem test_decode_tDeserialize : decode 0b000000000000000000_000000_00100001 = .command .tDeserialize := by decide
theorem test_decode_sEncode : decode 0b000000000000000000_000000_00110000 = .command .sEncode := by decide
theorem test_decode_sDecode : decode 0b000000000000000000_000000_00110001 = .command .sDecode := by decide

/-- Vectors 2.1-1 to 2.1-6. -/
theorem test_decode_rejects :
    decode 0x00000000 = .illegal .unknownOpcode ∧ decode 0x00000005 = .illegal .unknownOpcode ∧
      decode 0x00000103 = .illegal .countOutOfRange ∧ decode 0x00004003 = .illegal .reservedBits ∧
        decode 0x00000011 = .illegal .countOutOfRange ∧ decode 0x00002111 = .illegal .countOutOfRange := by decide

theorem test_decodeTableWord :
    decodeTableWord 32 0x2011 = some (.wBits 32) ∧ decodeTableWord 32 0x31 = some .sDecode ∧ decodeTableWord 32 0x32 = none := by
  decide

/-! ### Small states -/

/-- The state a step gives. -/
def after (o : Host.Outcome State Fault Refusal) : Option State :=
  match o with
  | .next s => some s
  | .fault _ => none
  | .refused _ => none

/-- Memory with some bytes at an address. -/
def memOf (a : Nat) (l : List Byte) : Memory := (l.zipIdx).foldl (fun m b => m.write (a + b.2) b.1) []

/-- A state whose next 200 bus accesses complete. -/
def ready (s : State) : State := { s with env := { s.env with draws := List.replicate 200 true } }

/-- A state whose n-th coming bus access fails, the others completing. -/
def failing (n : Nat) (s : State) : State :=
  { s with env := { s.env with draws := List.replicate n true ++ false :: List.replicate 20 true } }

/-- The state right after reset, its bus working. -/
def s0 : State := ready State.reset

/-- A state with one turn waiting. -/
def turn (t : Turn) (s : State) : State := { s with env := { s.env with turns := [t] } }

/-- A state with a command word issued. -/
def issued (w : Word) (s : State) : State := s.issue w

/-- A writer just opened over the region at 0x2000. -/
def writer (len : Word) : State :=
  { s0 with ch := { s0.ch with mode := .write, lbase := 0x2000, llen := len, bpos := 0x2004 } }

/-- A stream region chosen by the host. -/
def stream (base len : Word) (s : State) : State := { s with regs := { s.regs with sbase := base, slen := len } }

/-- The input of vector V-1. -/
def v1Msg : List Byte := [0x41, 0x41, 0x41, 0x41, 0x41, 0x41, 0x41, 0x41, 0x42, 0x42, 0x42, 0x43, 0x43, 0x44]

/-- The counters of vector V-1. -/
def v1Freq : FreqTable :=
  FreqTable.put (FreqTable.put (FreqTable.put (FreqTable.put (Vector.replicate 256 0) 0x41 8) 0x42 3) 0x43 2) 0x44 1

/-- The counters of one symbol 'A'. -/
def oneFreq : FreqTable := FreqTable.put (Vector.replicate 256 0) 0x41 1

/-- The tree of V-1, entry by entry (95_test_vectors.md 1.1). -/
def v1Tree : Tree :=
  { node :=
      placeFrom 0
        [leafNode v1Freq 0x44, leafNode v1Freq 0x43, leafNode v1Freq 0x42, leafNode v1Freq 0x41, innerNode 0 1 3,
          innerNode 2 4 6, innerNode 5 3 14]
        (Vector.replicate 511 Node.blank)
    root := 6, alpha := 4, tvalid := true }

/-- The code table of V-1 (95_test_vectors.md 1.1), in the order the walk writes it. -/
def v1Enc : CodeTable :=
  CodeTable.put
    (CodeTable.put
      (CodeTable.put (CodeTable.put (Vector.replicate 256 Code.blank) 0x42 (Code.ofString [false, false])) 0x44
        (Code.ofString [false, true, false]))
      0x43 (Code.ofString [false, true, true]))
    0x41 (Code.ofString [true])

/-- A state with the tree and the codes of V-1. -/
def withV1 (s : State) : State :=
  { s with
    cnt := { freq := v1Freq, total := 14 }
    tree := v1Tree
    codes := { enc := v1Enc, cvalid := true, treeBits := 39, dataBits := 23, wpad := 2, proj := 88, worth := true } }

/-- The tree of the one symbol 'A' (2.3-8). -/
def oneTree : Tree :=
  { node := placeFrom 0 [leafNode oneFreq 0x41, placeholderNode, innerNode 0 1 1] (Vector.replicate 511 Node.blank)
    root := 2, alpha := 1, tvalid := true }

/-- The code table of the one symbol 'A': A = `0`. -/
def oneEnc : CodeTable := CodeTable.put (Vector.replicate 256 Code.blank) 0x41 (Code.ofString [false])

/-- A state with the tree and the codes of the one symbol 'A'. -/
def withOne (s : State) : State :=
  { s with
    cnt := { freq := oneFreq, total := 1 }
    tree := oneTree
    codes := { enc := oneEnc, cvalid := true, treeBits := 11, dataBits := 1, wpad := 4, proj := 40, worth := false } }

/-- V-1 built (2.3-3), with its input at 0x1000. -/
def v1 : State :=
  { withV1 s0 with mem := memOf 0x1000 v1Msg, regs := { s0.regs with ibase := 0x1000, ilen := 14 } }

/-- The file of V-1 (95_test_vectors.md 1.1). -/
def v1File : List Byte :=
  [0x00, 0x00, 0x00, 0x58, 0x48, 0x46, 0x02, 0xc8, 0x52, 0x21, 0x0c, 0x83, 0xfe, 0x03, 0x68]

/-- A reader over a file at 0x2000 of `t` bits, `c` of them consumed (`c` a multiple of 8), padding `p`. -/
def reader (file : List Byte) (t c : Nat) (p : BitVec 3) (s : State) : State :=
  { s with
    mem := memOf 0x2000 file
    ch :=
      { s.ch with
        mode := .read, lbase := 0x2000, llen := BitVec.ofNat 32 file.length, bpos := BitVec.ofNat 32 (0x2004 + c / 8),
        chT := BitVec.ofNat 32 t, chC := BitVec.ofNat 32 c, rpad := p } }

/-- The reader of V-1 as `R_MAGIC` leaves it. -/
def v1Reader : State := reader v1File 88 24 2 s0

/-- The reader of V-1 before the last code of its symbol stream, with the codes of V-1 and an output region. -/
def v1Decoding (olen : Word) : State :=
  let s := reader v1File 88 80 2 (withV1 s0)
  { s with
    regs := { s.regs with obase := 0x3000, olen := olen }
    ch := { s.ch with bpos := 0x200F, bacc := 0x68, bn := 5, chC := 83 } }

/-- The reader of 2.6-8 over the bits `01000000`, with the codes of 'A' and an output region. -/
def oneDecoding (olen : Word) : State :=
  let s := reader [0, 0, 0, 8, 0x40] 8 0 0 (withOne s0)
  { s with regs := { s.regs with obase := 0x3000, olen := olen } }

/-! ### One step each, with the values of 95_test_vectors.md -/

/-- 2.3-4. -/
theorem test_freqClear :
    (after (exec .freqClear v1)).map (fun s => (s.status, s.cnt.total, s.tree.root, s.cnt.freq.of 0x41)) =
      some (0x00000202, 0, 6, 0) := by decide +kernel

/-- 2.3-1. -/
theorem test_freqCount :
    (after (exec .freqCount { s0 with mem := v1.mem, regs := v1.regs })).map
        (fun s => (s.status, s.cnt.freq.of 0x41, s.cnt.freq.of 0x42, s.cnt.freq.of 0x43, s.cnt.freq.of 0x44, s.cnt.freq.of 0)) =
      some (0x00000002, 8, 3, 2, 1, 0) := by decide +kernel

/-- 2.3-17. -/
theorem test_freqCount_busError :
    (after (exec .freqCount
        (failing 1 { issued 2 s0 with mem := memOf 0x1000 [0x41, 0x42], regs := { s0.regs with ibase := 0x1000, ilen := 2 } }))).map
        (fun s => (s.status, s.cmd.finfo, s.cnt.freq.of 0x41, s.cnt.freq.of 0x42)) =
      some (0x020C0004, 0x1001, 1, 0) := by decide +kernel

/-- 2.3-2: the windows of handles 0, 3, 4, 5 and 6. -/
theorem test_treeBuild :
    (after (exec .treeBuild { s0 with cnt := { freq := v1Freq, total := 0 } })).map
        (fun s => ((s.status, s.cnt.total), (s.tree.alpha, s.tree.root),
          ([0, 3, 4, 5, 6] : List Handle).map fun h => (s.tree.node.of h).map fun n => (n.dataWord, n.freq))) =
      some ((0x00000082, 14), (4, 6),
        [some (0x0FFFFD11, 1), some (0x0FFFFD05, 8), some (0x00080002, 3), some (0x00200802, 6), some (0x00181402, 14)]) := by
  decide +kernel

/-- 2.3-8, the tree of one symbol. -/
theorem test_treeBuild_one :
    (after (exec .treeBuild { s0 with cnt := { freq := oneFreq, total := 0 } })).map
        (fun s => ((s.status, s.tree.alpha, s.tree.root),
          ([0, 1, 2] : List Handle).map fun h => (s.tree.node.of h).map fun n => (n.dataWord, n.freq))) =
      some ((0x00000082, 1, 2),
        [some (0x0FFFFD05, 1), some (0x0FFFFC03, 0), some (0x00080002, 1)]) := by
  decide +kernel

/-- 2.3-3. -/
theorem test_codesBuild :
    (after (exec .codesBuild { v1 with codes := s0.codes })).map
        (fun s => ((s.status, s.codes.treeBits, s.codes.dataBits, s.codes.wpad, s.codes.proj),
          ([0x41, 0x42, 0x43, 0x44, 0x45] : List Byte).map fun x => (s.codes.enc.of x).string)) =
      some ((0x00000382, 39, 23, 2, 88), [[true], [false, false], [false, true, true], [false, true, false], []]) := by
  decide +kernel

/-- 2.3-16. -/
theorem test_codesBuild_noTree :
    (after (exec .codesBuild (issued 4 s0))).map (fun s => (s.status, s.cmd.finfo)) = some (0x04050004, 0) := by decide +kernel

/-- 2.5-1. -/
theorem test_wOpen :
    (after (exec .wOpen { s0 with mem := memOf 0x2000 [1, 2, 3, 4, 5], regs := { s0.regs with sbase := 0x2000, slen := 64 } })).map
        (fun s => (s.status, s.ch.bpos, s.ch.chT, bytesAt s.mem 0x2000 5)) =
      some (0x0000000A, 0x2004, 0, [0, 0, 0, 0, 5]) := by decide +kernel

/-- 2.5-7. -/
theorem test_wOpen_short :
    (after (exec .wOpen { issued 0x10 s0 with regs := { s0.regs with sbase := 0x2000, slen := 3 } })).map
        (fun s => (s.status, s.cmd.finfo)) = some (0x10080004, 0x2000) := by decide +kernel

/-- 2.5-3. -/
theorem test_wBits :
    (after (exec (.wBits 32) { writer 64 with regs := { s0.regs with arg := 0x12345678 } })).map
        (fun s => (bytesAt s.mem 0x2004 4, s.ch.chT, s.ch.bn)) = some ([0x12, 0x34, 0x56, 0x78], 32, 0) := by decide +kernel

/-- 2.5-12, the second write. -/
theorem test_wBits_overflow :
    (after (exec (.wBits 8)
        { issued 0x811 (writer 5) with
          regs := { s0.regs with arg := 0xBB }, mem := memOf 0x2004 [0xAA], ch := { (writer 5).ch with bpos := 0x2005, chT := 8 } })).map
        (fun s => (s.status, s.cmd.finfo, s.ch.chT, s.ch.bn)) = some (0x1108000C, 0x2005, 8, 8) := by decide +kernel

/-- 2.5-11. -/
theorem test_wMagic :
    (after (exec .wMagic { v1 with ch := (writer 64).ch })).map (fun s => (s.status, bytesAt s.mem 0x2004 3, s.ch.chT)) =
      some (0x0000038A, [0x48, 0x46, 0x02], 24) := by decide +kernel

/-- 2.5-27. -/
theorem test_wMagic_busError :
    (after (exec .wMagic (failing 1 { issued 0x12 v1 with ch := (writer 64).ch }))).map
        (fun s => (s.status, s.cmd.finfo, s.ch.chT, s.ch.bpos, s.ch.bn, s.ch.bacc, s.mem.read 0x2004)) =
      some (0x120C038C, 0x2005, 8, 0x2005, 8, 0x46, 0x48) := by decide +kernel

/-- The example of R101: 86 bits written, `BACC` = 0b011010. -/
theorem test_wClose :
    (after (exec .wClose { writer 64 with
        ch := { (writer 64).ch with bpos := 0x200E, chT := 80, bn := 6, bacc := 0b011010 } })).map
        (fun s => (s.status, bytesAt s.mem 0x2000 4, s.mem.read 0x200E, s.ch.chT, s.ch.fileLen)) =
      some (0x00000002, [0, 0, 0, 0x58], 0x68, 88, 15) := by decide +kernel

/-- 2.5-13. -/
theorem test_wClose_overflow :
    (after (exec .wClose { issued 0x13 (writer 8) with
        ch := { (writer 8).ch with bpos := 0x2008, chT := 32, bn := 3, bacc := 5 } })).map
        (fun s => (s.status, s.cmd.finfo, bytesAt s.mem 0x2000 4)) = some (0x1308000C, 0x2008, [0, 0, 0, 0]) := by decide +kernel

/-- 2.5-17. -/
theorem test_rOpen :
    (after (exec .rOpen { s0 with mem := memOf 0x2000 v1File, regs := { s0.regs with sbase := 0x2000, slen := 15 } })).map
        (fun s => (s.status, s.ch.chT, s.ch.chC)) = some (0x00000012, 88, 0) := by decide +kernel

/-- 2.5-16. -/
theorem test_rOpen_badLength :
    (after (exec .rOpen { s0 with mem := memOf 0x2000 v1File, regs := { s0.regs with sbase := 0x2000, slen := 14 } })).map
        (fun s => s.status) = some 0x00002002 := by decide +kernel

/-- 2.5-18. -/
theorem test_rBits :
    (after (exec (.rBits 32) (reader v1File 88 0 0 s0))).map (fun s => (s.res.result, s.ch.chC)) = some (0x484602C8, 32) := by
  decide +kernel

/-- 2.5-6. -/
theorem test_rBits_past :
    (after (exec (.rBits 1) (reader [0, 0, 0, 0x10, 0x9d, 0x50] 16 16 0 (issued 0x119 s0)))).map
        (fun s => (s.status, s.cmd.finfo, s.ch.chC)) = some (0x19040074, 16, 16) := by decide +kernel

/-- 2.5-20. -/
theorem test_rMagic :
    (after (exec .rMagic (reader v1File 88 0 0 s0))).map (fun s => (s.status, s.ch.chC, s.ch.rpad)) =
      some (0x00000012, 24, 2) := by decide +kernel

/-- 2.5-22. -/
theorem test_rMagic_badPad :
    (after (exec .rMagic (reader [0, 0, 0, 0x18, 0x48, 0x46, 8] 24 0 0 s0))).map (fun s => (s.status, s.ch.chC, s.ch.rpad)) =
      some (0x00003072, 24, 0) := by decide +kernel

/-- 2.5-30, the mode and the counter. -/
theorem test_rClose :
    (after (exec .rClose v1Reader)).map (fun s => (s.status, s.ch.chC)) = some (0x00000002, 24) := by decide +kernel

/-- 2.4-1. -/
theorem test_tSerialize :
    (after (exec .tSerialize { v1 with ch := { (writer 64).ch with bpos := 0x2007, chT := 24 } })).map
        (fun s => (s.status, s.ch.chT, s.ch.bn, s.ch.bacc, bytesAt s.mem 0x2007 4)) =
      some (0x0000038A, 56, 7, 0b1000001, [0xc8, 0x52, 0x21, 0x0c]) := by decide +kernel

/-- 2.4-2: 11 bits `1 0 01000001 1`, one byte and three bits. -/
theorem test_tSerialize_one :
    (after (exec .tSerialize { withOne s0 with ch := (writer 64).ch })).map
        (fun s => (s.mem.read 0x2004, s.ch.bn, s.ch.bacc)) = some (0x90, 3, 0b011) := by decide +kernel

/-- 2.4-5. -/
theorem test_tDeserialize :
    (after (exec .tDeserialize v1Reader)).map
        (fun s => (s.status, s.ch.chC, s.tree.alpha, s.tree.root,
          ([0, 1, 2, 3, 4, 5, 6] : List Handle).map fun h => (s.tree.node.of h).map Node.dataWord)) =
      some (0x00000092, 63, 4, 0,
        [some 0x00300402, some 0x00180802, some 0x0FFFFD09, some 0x00281002, some 0x0FFFFD11, some 0x0FFFFD0D,
          some 0x0FFFFD05]) := by decide +kernel

/-- 2.4-10: a leaf repeats a symbol. -/
theorem test_tDeserialize_duplicate :
    (after (exec .tDeserialize (reader [0, 0, 0, 0x30, 0x48, 0x46, 0, 0x90, 0x48, 0x20] 48 24 0 s0))).map
        (fun s => (s.status, s.ch.chC, s.tree.root, (s.tree.node.of 0).map (fun n => n.left), (s.tree.node.of 2).map (fun n => n.kind))) =
      some (0x00004012, 43, 511, some 1, some .free) := by decide +kernel

/-- 2.6-1. -/
theorem test_sEncode :
    (after (exec .sEncode { v1 with ch := { (writer 64).ch with bpos := 0x200B, chT := 56, bn := 7, bacc := 0b1000001 } })).map
        (fun s => (s.status, s.ch.chT, s.ch.bn, s.ch.bacc, bytesAt s.mem 0x200B 3)) =
      some (0x0000038A, 80, 6, 0b011010, [0x83, 0xfe, 0x03]) := by decide +kernel

/-- 2.6-2. -/
theorem test_sEncode_unknown :
    (after (exec .sEncode { issued 0x30 v1 with
        ch := (writer 64).ch, mem := memOf 0x1100 [0x41, 0x42, 0x45], regs := { s0.regs with ibase := 0x1100, ilen := 3 } })).map
        (fun s => (s.status, s.cmd.finfo, s.ch.bacc, s.ch.bn, s.ch.chT)) = some (0x3007038C, 0x1102, 0b100, 3, 0) := by
  decide +kernel

/-- The last three bits of V-1's symbol stream, `010`, are the code of D (95_test_vectors.md 1.1). -/
theorem test_sDecode :
    (after (exec .sDecode (v1Decoding 64))).map (fun s => (bytesAt s.mem 0x3000 2, s.res.ocnt, s.ch.chC, s.status)) =
      some ([0x44, 0], 1, 86, 0x000003D2) := by decide +kernel

/-- 2.6-8: with the code table of 'A' alone, the bits `01` give one 'A', then no code. -/
theorem test_sDecode_badCode :
    (after (exec .sDecode (oneDecoding 8))).map (fun s => (s.status, s.res.ocnt, s.ch.chC, s.mem.read 0x3000)) =
      some (0x00005192, 1, 2, 0x41) := by decide +kernel

/-- The word placed by `withFetchWord` is the one the next step runs: 2.1-9 and 2.1-7 from reset. -/
theorem test_withFetchWord :
    (after (step (State.reset.withFetchWord 32 0x00000001))).map (fun s => s.status) = some 0x00000002 ∧
      (after (step (State.reset.withFetchWord 32 0x00000811))).map (fun s => s.status) = some 0x11030004 := by decide +kernel

/-! ### Witnesses: states that meet the hypotheses of each statement, clause by clause, at the bounds of its ranges -/

theorem next_of_isSome {o : Host.Outcome State Fault Refusal} (h : (after o).isSome = true) : ∃ t, o = .next t := by
  cases o with
  | next s => exact ⟨s, rfl⟩
  | fault r => cases h
  | refused r => cases h

/-- The shape of V-1's tree. -/
def v1Shape : Shape := .inner (.inner (.leaf 0x42) (.inner (.leaf 0x44) (.leaf 0x43))) (.leaf 0x41)

/-- The shape of the tree of 'A'. -/
def oneShape : Shape := .inner (.leaf 0x41) .placeholder

/-- The empty tree (2.3-9), with its empty code table. -/
def withEmpty (s : State) : State :=
  { s with tree := { s.tree with tvalid := true }, codes := { s.codes with cvalid := true, proj := 24 } }

theorem test_treeOk_v1 (s : State) : TreeOk (withV1 s) := fun _ =>
  .inr ⟨by show (6 : Handle) ≠ nilHandle; decide, v1Shape, by show v1Tree.shape = _; decide +kernel, by decide, by decide,
    by show (4 : BitVec 9).toNat = _; decide⟩

theorem test_treeOk_one (s : State) : TreeOk (withOne s) := fun _ =>
  .inr ⟨by show (2 : Handle) ≠ nilHandle; decide, oneShape, by show oneTree.shape = _; decide +kernel, by decide, by decide,
    by show (1 : BitVec 9).toNat = _; decide⟩

theorem test_treeOk_empty : TreeOk (withEmpty s0) := fun _ => .inl ⟨rfl, rfl⟩

theorem test_walk_v1 : codesOfTree v1Tree.node v1Tree.root = .ok (v1Enc, 39) := by decide +kernel

theorem test_walk_one : codesOfTree oneTree.node oneTree.root = .ok (oneEnc, 11) := by decide +kernel

theorem test_codesOk_v1 (s : State) : CodesOk (withV1 s) := fun _ => ⟨rfl, 39, test_walk_v1, rfl⟩

theorem test_codesOk_one (s : State) : CodesOk (withOne s) := fun _ => ⟨rfl, 11, test_walk_one, rfl⟩

theorem test_codesOk_empty : CodesOk (withEmpty s0) := fun _ => ⟨rfl, 0, rfl, rfl⟩

theorem test_good_v1Decoding (olen : Word) : State.Good (v1Decoding olen) :=
  ⟨by show (memOf 0x2000 v1File).wf = true; decide +kernel, ⟨fun h => (by cases h), fun _ => ⟨rfl, rfl, rfl⟩, fun h => (by cases h)⟩,
    (by decide : ReaderOk (v1Decoding 0)),
    test_treeOk_v1 s0, test_codesOk_v1 s0⟩

theorem test_good_oneDecoding (olen : Word) : State.Good (oneDecoding olen) :=
  ⟨by show (memOf 0x2000 [0, 0, 0, 8, 0x40]).wf = true; decide +kernel,
    ⟨fun h => (by cases h), fun _ => ⟨rfl, rfl, rfl⟩, fun h => (by cases h)⟩,
    (by decide : ReaderOk (oneDecoding 0)),
    test_treeOk_one s0, test_codesOk_one s0⟩

/-- V-1 with 87 bits read: one past the payload end (2.6-10). -/
def v1Past : State := { v1Decoding 8 with ch := { (v1Decoding 8).ch with bn := 1, chC := 87 } }

theorem test_hyp_DecodeAndEncodeAgree :
    (Instr.wBits 1).wellFormed = true ∧ (Instr.rBits 32).wellFormed = true ∧ decode 0x2011 = .command (.wBits 32) := by decide

/-- An issued word of each illegal kind at its bound, and the legal ones beside them. -/
theorem test_hyp_CoreStepDecodesFirst :
    ([0x00004003, 0x00000032, 0x00000111, 0x00000011, 0x00002111, 0x00000103, 0x00002011] : List Word).all (fun w =>
      (issued w s0).cmd.busy && !(issued w s0).cmd.fault && decide ((issued w s0).cmd.pcmd = w) &&
        decide ((issued w s0).env.turns = [])) = true := by decide

theorem test_hyp_StepRunsDecodedCommand :
    (issued 0x2019 s0).cmd.busy = true ∧ (issued 0x2019 s0).cmd.fault = false ∧
      decode (issued 0x2019 s0).cmd.pcmd = .command (.rBits 32) ∧ (issued 0x2019 s0).env.turns = [] ∧
        (turn .core (issued 0x2019 s0)).env.turns = [.core] ∧ s0.cmd.busy = false ∧ s0.env.turns = [] ∧
          (turn .core (s0.enterFault .noTree 0)).cmd.fault = true := by decide

theorem test_hyp_CommandWrite :
    (turn (.write 2 7) (s0.enterFault .noTree 0)).cmd.fault = true ∧ (turn (.write 2 7) (issued 1 s0)).cmd.fault = false ∧
      (turn (.write 2 7) (issued 1 s0)).cmd.busy = true ∧ (turn (.write 2 7) s0).cmd.busy = false ∧
        (turn (.write 2 7) s0).cmd.fault = false ∧ (turn (.write 2 7) s0).env.turns = [.write 0x002 7] := by decide

theorem test_hyp_BusyWrite :
    (issued 1 s0).cmd.busy = true ∧ (issued 1 s0).cmd.fault = false ∧ (0x000 : BitVec 10) ≠ 0x001 ∧ (0x3FF : BitVec 10) ≠ 0x001 ∧
      (turn (.write 0x3FF 0) (issued 1 s0)).env.turns = [.write 0x3FF 0] ∧
        (turn (.read 3) (issued 1 s0)).env.turns = [.read 3] := by decide

theorem test_hyp_ReadOnlyRegisters :
    ([0x000, 0x003, 0x023, 0x024, 0x3FF] : List (BitVec 10)).all (fun reg =>
        decide (4 * reg.toNat ∉
          [0x004, 0x008, 0x010, 0x018, 0x01C, 0x020, 0x024, 0x028, 0x02C, 0x068, 0x06C, 0x070, 0x07C, 0x080]) &&
          decide ((turn (.write reg 5) s0).env.turns = [.write reg 5]) && !(turn (.write reg 5) s0).cmd.busy) = true ∧
      0x08C < 4 * (0x024 : BitVec 10).toNat ∧ (turn (.read 0x3FF) s0).env.turns = [.read 0x3FF] := by decide

theorem test_hyp_PlainRegistersStore :
    s0.cmd.busy = false ∧
      ([0x010, 0x018, 0x01C, 0x020, 0x024, 0x028, 0x02C, 0x068, 0x070, 0x07C, 0x080] : List Nat).all (fun o =>
        decide (4 * (BitVec.ofNat 10 (o / 4)).toNat = o) &&
          decide ((turn (.write (BitVec.ofNat 10 (o / 4)) 0xFFFFFFFF) s0).env.turns =
            [.write (BitVec.ofNat 10 (o / 4)) 0xFFFFFFFF])) = true := by decide

theorem test_hyp_FreqDataWindow :
    (turn (.write 0x01B 5) s0).cmd.busy = false ∧ (turn (.write 0x01B 5) s0).env.turns = [.write 0x01B 5] := by decide

theorem test_hyp_ControlWrite :
    (turn (.write 1 0xFFFFFFFE) (issued 1 s0)).env.turns = [.write 0x001 0xFFFFFFFE] ∧
      (0xFFFFFFFE : Word).getLsbD 0 = false := by decide

theorem test_hyp_ResetAction :
    (turn .hardReset (issued 1 s0)).env.turns = [.hardReset] ∧
      (turn (.write 1 7) (s0.enterFault .noTree 0)).env.turns = [.write 0x001 7] ∧ (7 : Word).getLsbD 0 = true := by decide

/-- The three cases of the arena window at handles 510, 0 and 511. -/
theorem test_hyp_InspectionWindows :
    (v1.tree.node.of 510).isSome = true ∧ (v1.tree.node.of 0).isSome = true ∧
      ({ s0 with regs := { s0.regs with nodeIdx := 511 } } : State).regs.nodeIdx = 511 ∧ s0.regs.nodeIdx ≠ 511 := by
  decide +kernel

/-- A host access to the first or last byte of a region in use, and one just outside: the input region of `FREQ_COUNT`, the stream region of
`W_OPEN` at the top of memory and of `R_CLOSE`, the output region of `S_DECODE`. -/
def hostAccesses : List (State × Instr × Word × Bool) :=
  [(issued 0x02 v1, .freqCount, 0x1000, true), (issued 0x02 v1, .freqCount, 0x100D, true), (issued 0x02 v1, .freqCount, 0x100E, false),
    (issued 0x10 (stream 0xFFFFFFFC 4 s0), .wOpen, 0xFFFFFFFF, true), (issued 0x10 (stream 0xFFFFFFFC 4 s0), .wOpen, 0xFFFFFFFB, false),
    (issued 0x1B v1Reader, .rClose, 0x200E, true), (issued 0x1B v1Reader, .rClose, 0x200F, false),
    (issued 0x31 (v1Decoding 1), .sDecode, 0x3000, true), (issued 0x31 (v1Decoding 1), .sDecode, 0x3001, false),
    (issued 0x01 v1, .freqClear, 0x1000, false)]

theorem test_hyp_HostMemoryMoves :
    hostAccesses.all (fun x =>
      x.1.mem.wf && x.1.cmd.busy && !x.1.cmd.fault && decide (decode x.1.cmd.pcmd = .command x.2.1) &&
        decide ((turn (.memWrite x.2.2.1 1) x.1).env.turns = [.memWrite x.2.2.1 1]) &&
          decide ((turn (.memRead x.2.2.1) x.1).env.turns = [.memRead x.2.2.1])) = true ∧
      ((v1.regs.ibase.toNat ≤ 0x100D ∧ 0x100D < v1.regs.ibase.toNat + v1.regs.ilen.toNat) ∧
        ¬0x100E < v1.regs.ibase.toNat + v1.regs.ilen.toNat) := by decide +kernel

/-- The step is refused because a region is in use. -/
def refusesRegion (o : Host.Outcome State Fault Refusal) : Bool :=
  match o with
  | .next _ => false
  | .fault _ => false
  | .refused r => decide (r = .regionInUse)

theorem test_hyp_HostMemoryMoves_refused :
    hostAccesses.all (fun x =>
      (refusesRegion (step (turn (.memRead x.2.2.1) x.1)) == x.2.2.2) &&
        (refusesRegion (step (turn (.memWrite x.2.2.1 7) x.1)) == x.2.2.2)) = true := by
  decide +kernel

theorem test_hyp_FaultIsSticky :
    (s0.enterFault .noTree 0).cmd.fault = true ∧
      (∃ t, step (turn .hardReset (s0.enterFault .noTree 0)) = .next t) ∧
        ∃ t, step (turn (.write 2 1) (s0.enterFault .noTree 0)) = .next t :=
  ⟨rfl, ⟨_, rfl⟩, ⟨_, rfl⟩⟩

theorem test_hyp_CommandEndsOneWay :
    HandshakeOk (issued 1 s0) ∧ (issued 1 s0).cmd.busy = true ∧ (∃ t, exec .freqClear (issued 1 s0) = .next t) ∧
      ∃ t, exec .codesBuild (issued 4 s0) = .next t :=
  ⟨⟨by decide, by decide, by decide⟩, rfl, ⟨_, rfl⟩, ⟨_, rfl⟩⟩

/-- A command of each clause that changes what the clause names. -/
theorem test_hyp_OnlyNamedCommandsWrite :
    (after (exec (.rBits 8) (reader v1File 88 0 0 s0))).map (fun t => decide (t.res.result ≠ 0)) = some true ∧
      (after (exec .freqClear v1)).map
          (fun t => decide (t.cnt.total ≠ v1.cnt.total) && decide (t.cnt.freq.of 0x41 ≠ v1.cnt.freq.of 0x41) &&
            decide (t.tree.tvalid ≠ v1.tree.tvalid)) = some true ∧
        (after (exec .tDeserialize v1Reader)).map (fun t => decide (t.tree.root ≠ v1Reader.tree.root)) = some true ∧
          (after (exec .codesBuild (withEmpty s0))).map (fun t => t.codes.cvalid) = some true ∧
            (after (exec .rMagic (reader v1File 88 0 0 s0))).map (fun t => decide (t.ch.rpad ≠ 0)) = some true ∧
              (after (exec .wClose (writer 64))).map (fun t => decide (t.ch.fileLen ≠ 0 ∧ t.ch.mode = .idle)) = some true := by
  decide +kernel

/-- The same for `CH_T`, `CH_C`, `BPOS`, `BACC`, `BN`, `CVALID`, the error and fault registers, and memory. -/
theorem test_hyp_OnlyNamedCommandsWrite_channel :
    (after (exec (.wBits 9) { writer 64 with regs := { s0.regs with arg := 0x1FF } })).map
        (fun t => decide (t.ch.chT ≠ 0 ∧ t.ch.bpos ≠ 0x2004 ∧ t.ch.bacc ≠ 0 ∧ t.ch.bn ≠ 0 ∧ t.mem.read 0x2004 ≠ 0)) = some true ∧
      (after (exec (.rBits 8) v1Reader)).map (fun t => decide (t.ch.chC ≠ v1Reader.ch.chC)) = some true ∧
        (after (exec .freqClear v1)).map (fun t => decide (t.codes.cvalid ≠ v1.codes.cvalid)) = some true ∧
          (after (exec .tDeserialize v1Past)).map (fun t => decide (t.cmd.err ≠ v1Past.cmd.err)) = some true ∧
            (after (exec .codesBuild (issued 4 s0))).map (fun t => decide (t.cmd.fcode ≠ .none ∧ t.cmd.fault = true)) = some true := by
  decide +kernel

theorem test_hyp_ModeDiscipline :
    (writer 64).ch.mode ≠ .idle ∧ v1Reader.ch.mode ≠ .write ∧ s0.ch.mode ≠ .read ∧
      (∃ t, exec .freqClear (writer 64) = .next t) ∧ (writer 64).cmd.fcode ≠ .wrongMode :=
  ⟨by decide, by decide, by decide, ⟨_, rfl⟩, by decide⟩

theorem test_hyp_ChecksBeforeExecution :
    (s0.tree.tvalid = false ∧ (writer 64).tree.tvalid = false ∧ (writer 64).ch.mode = .write ∧ (writer 64).codes.cvalid = false ∧
      v1Reader.codes.cvalid = false ∧ v1Reader.ch.mode = .read) ∧
      (let s : State := { s0 with regs := { s0.regs with ibase := 0xFFFFFFFF, ilen := 2, sbase := 1, slen := 0xFFFFFFFF } };
        2 ^ 32 < s.regs.ibase.toNat + s.regs.ilen.toNat ∧ s.ch.mode = .idle) ∧
      (let s := stream 0xFFFFFFFF 2 s0; 2 ^ 32 < s.regs.sbase.toNat + s.regs.slen.toNat ∧ s.ch.mode = .idle) ∧
      (let s : State := withV1 { writer 64 with regs := { s0.regs with ibase := 0x203F, ilen := 1 } };
        s.ch.mode = .write ∧ s.codes.cvalid = true ∧
          (s.regs.ibase.toNat ≤ 0x203F ∧ 0x203F < s.regs.ibase.toNat + s.regs.ilen.toNat) ∧
            s.ch.lbase.toNat ≤ 0x203F ∧ 0x203F < s.ch.lbase.toNat + s.ch.llen.toNat) ∧
      (let s : State := { v1Decoding 1 with regs := { s0.regs with obase := 0x200E, olen := 1 } };
        s.ch.mode = .read ∧ s.codes.cvalid = true ∧
          (s.regs.obase.toNat ≤ 0x200E ∧ 0x200E < s.regs.obase.toNat + s.regs.olen.toNat) ∧
            s.ch.lbase.toNat ≤ 0x200E ∧ 0x200E < s.ch.lbase.toNat + s.ch.llen.toNat) := by decide

theorem test_hyp_FrameFrequencyTreeCodes :
    (∃ t, exec .freqClear v1 = .next t) ∧ (∃ t, exec .freqCount v1 = .next t) ∧ (∃ t, exec .treeBuild s0 = .next t) ∧
      ∃ t, exec .codesBuild (withEmpty s0) = .next t :=
  ⟨⟨_, rfl⟩, next_of_isSome (by decide +kernel), next_of_isSome (by decide +kernel), next_of_isSome (by decide +kernel)⟩

/-- 2.3-6: a region that ends at the top of the address space, and counters that end at their largest value. -/
theorem test_hyp_FreqCountResult :
    let s : State :=
      { s0 with
        regs := { s0.regs with ibase := 0xFFFFFFF0, ilen := 0x10 }
        cnt := { s0.cnt with freq := FreqTable.put s0.cnt.freq 0 0xFFFFFFEF } }
    s.regs.ibase.toNat + s.regs.ilen.toNat ≤ 2 ^ 32 ∧ s.env.completes s.regs.ilen.toNat = true ∧
      ∀ x, (s.cnt.freq.of x).toNat + (bytesAt s.mem s.regs.ibase.toNat s.regs.ilen.toNat).count x ≤ 0xFFFFFFFF := by
  decide +kernel

theorem test_hyp_FreqCountStops :
    let s : State :=
      { s0 with
        mem := memOf 0x1000 [0x42, 0x41]
        regs := { s0.regs with ibase := 0x1000, ilen := 2 }
        cnt := { s0.cnt with freq := FreqTable.put s0.cnt.freq 0x41 0xFFFFFFFF } }
    s.regs.ibase.toNat + s.regs.ilen.toNat ≤ 2 ^ 32 ∧ 1 < s.regs.ilen.toNat ∧ s.env.completes 1 = true ∧
      (∀ x, (s.cnt.freq.of x).toNat + (bytesAt s.mem s.regs.ibase.toNat 1).count x ≤ 0xFFFFFFFF) ∧
        (failing 1 s).env.completes 1 = true ∧ (failing 1 s).env.drawAt 1 = false ∧ s.env.drawAt 1 = true ∧
          (s.cnt.freq.of (s.mem.read (s.regs.ibase.toNat + 1))).toNat +
            (bytesAt s.mem s.regs.ibase.toNat 1).count (s.mem.read (s.regs.ibase.toNat + 1)) = 0xFFFFFFFF := by
  decide +kernel

/-- Counters whose sum is the largest that fits, and the smallest that does not (2.3-10). -/
theorem test_hyp_TreeBuildLeafOrder :
    (symbols.map fun x => (FreqTable.of (FreqTable.put (FreqTable.put s0.cnt.freq 0x41 0xFFFFFFFE) 0x42 1) x).toNat).sum = 0xFFFFFFFF ∧
      (symbols.map fun x => (FreqTable.of (FreqTable.put (FreqTable.put s0.cnt.freq 0x41 0xFFFFFFFF) 0x42 1) x).toNat).sum =
        0x100000000 := by decide +kernel

/-- The cases A = 0, A = 1 and A ≥ 2 of the tree. -/
theorem test_hyp_TreeBuildTree :
    (symbols.filter fun x => s0.cnt.freq.of x ≠ 0) = [] ∧ (symbols.filter fun x => oneFreq.of x ≠ 0) = [0x41] ∧
      (symbols.filter fun x => v1Freq.of x ≠ 0) = [0x41, 0x42, 0x43, 0x44] := by decide +kernel

/-- V-1's merges at their first and last entry: `ALPHA = 4`, entries 4 to 6. -/
theorem test_hyp_TreeBuildMergeSelection :
    (after (exec .treeBuild { s0 with cnt := { freq := v1Freq, total := 0 } })).map (fun t => t.tree.alpha.toNat) = some 4 ∧
      (2 ≤ 4 ∧ 4 ≤ 4 ∧ 6 ≤ 2 * 4 - 2) := by decide +kernel

theorem test_hyp_CodesBuildResult :
    (v1.tree.tvalid = true ∧ TreeOk v1) ∧ ((withOne s0).tree.tvalid = true ∧ TreeOk (withOne s0)) ∧
      ((withEmpty s0).tree.tvalid = true ∧ TreeOk (withEmpty s0)) :=
  ⟨⟨rfl, test_treeOk_v1 s0⟩, ⟨rfl, test_treeOk_one s0⟩, ⟨rfl, test_treeOk_empty⟩⟩

theorem test_hyp_CodesArePrefixFree :
    TreeOk v1 ∧ CodesOk v1 ∧ v1.codes.cvalid = true ∧ (v1.codes.enc.of 0x41).valid = true ∧ (v1.codes.enc.of 0x43).valid = true ∧
      (0x41 : Byte) ≠ 0x43 :=
  ⟨test_treeOk_v1 s0, test_codesOk_v1 s0, rfl, by decide +kernel, by decide +kernel, by decide⟩

theorem test_hyp_FrameBitWriters :
    (∃ t, exec (.wBits 9) (writer 64) = .next t) ∧ (∃ t, exec .wMagic (withV1 (writer 64)) = .next t) ∧
      (∃ t, exec .tSerialize (withV1 (writer 64)) = .next t) ∧ ∃ t, exec .sEncode { v1 with ch := (writer 64).ch } = .next t :=
  ⟨next_of_isSome (by decide +kernel), next_of_isSome (by decide +kernel), next_of_isSome (by decide +kernel),
    next_of_isSome (by decide +kernel)⟩

theorem test_hyp_FrameWriterOpenClose :
    (∃ t, exec .wOpen { s0 with regs := { s0.regs with slen := 4 } } = .next t) ∧
      ∃ t, exec .wClose { writer 64 with ch := { (writer 64).ch with bn := 3 } } = .next t :=
  ⟨next_of_isSome (by decide +kernel), next_of_isSome (by decide +kernel)⟩

/-- A region of 4 bytes at the top of the address space. -/
theorem test_hyp_WOpenResult :
    let s := stream 0xFFFFFFFC 4 s0
    s.mem.wf = true ∧ s.ch.mode = .idle ∧ s.regs.sbase.toNat + s.regs.slen.toNat ≤ 2 ^ 32 ∧ 4 ≤ s.regs.slen.toNat ∧
      s.env.completes 4 = true := by decide

/-- A region of 3 bytes at the top of the address space, and the empty one. -/
theorem test_hyp_OpenShortRegion :
    (let s := stream 0xFFFFFFFD 3 s0;
      s.ch.mode = .idle ∧ s.regs.sbase.toNat + s.regs.slen.toNat ≤ 2 ^ 32 ∧ s.regs.slen.toNat < 4) ∧ s0.regs.slen.toNat < 4 := by
  decide

/-- One byte of room taken exactly, and one bit into a full region that needs no commit. -/
theorem test_hyp_WBitsResult :
    (countOk 8 = true ∧ (writer 5).mem.wf = true ∧ (writer 5).ch.mode = .write ∧ WriterOk (writer 5) ∧
      (writer 5).cmd.fault = false ∧ (writer 5).ch.room 8 ∧ (writer 5).env.completes ((writer 5).ch.commits 8) = true) ∧
      countOk 1 = true ∧ WriterOk (writer 4) ∧ (writer 4).ch.room 1 ∧ (writer 4).env.completes ((writer 4).ch.commits 1) = true ∧
        countOk 32 = true ∧ WriterOk (writer 64) ∧ (writer 64).ch.room 32 ∧ (writer 64).env.completes ((writer 64).ch.commits 32) = true := by
  decide

theorem test_hyp_WMagicResult :
    let s := withV1 (writer 7)
    s.mem.wf = true ∧ s.ch.mode = .write ∧ WriterOk s ∧ s.cmd.fault = false ∧ s.codes.cvalid = true ∧ s.ch.room 24 ∧
      s.env.completes (s.ch.commits 24) = true := by decide

/-- Closing with no bit buffered, and with seven and one byte of room. -/
theorem test_hyp_WCloseResult :
    (let s := writer 4;
      s.mem.wf = true ∧ s.ch.mode = .write ∧ WriterOk s ∧ s.cmd.fault = false ∧ (0 < s.ch.bn.toNat → s.ch.room (8 - s.ch.bn.toNat)) ∧
        s.env.completes (4 + (s.ch.bn.toNat + 7) / 8) = true) ∧
      (let s : State := { writer 5 with ch := { (writer 5).ch with bn := 7, bacc := 0x55 } };
        s.mem.wf = true ∧ s.ch.mode = .write ∧ WriterOk s ∧ s.cmd.fault = false ∧ 0 < s.ch.bn.toNat ∧ s.ch.room (8 - s.ch.bn.toNat) ∧
          s.env.completes (4 + (s.ch.bn.toNat + 7) / 8) = true) := by decide

/-- The command gives the bits, and commit `j` of them is the first that has no room: all the hypotheses of the first clause. -/
def GivesAt (s : State) (i : Instr) (p : List Bool) (reads first j : Nat) : Prop :=
  s.mem.wf = true ∧ s.ch.mode = .write ∧ WriterOk s ∧ s.cmd.fault = false ∧ s.gives i p reads first ∧ first ≤ j ∧
    j < s.ch.commits p.length ∧ 4 + s.ch.chT.toNat / 8 + j ≤ s.ch.llen.toNat ∧ s.ch.chT.toNat + 8 * j ≤ 0xFFFFFFF8 ∧
      s.env.completes (reads + j) = true

/-- `S_ENCODE` of V-1's input: commit 1 comes while the twelfth code is written, at its second bit. -/
def v1Encoding (len : Word) : State := { v1 with ch := (writer len).ch }

/-- A writer at the largest total a header holds, with a byte of room left and seven bits buffered (2.5-29). -/
def lastTotal : State :=
  { s0 with ch := { s0.ch with mode := .write, llen := 0x20000010, bpos := 0x20000003, chT := 0xFFFFFFF8, bn := 7 } }

theorem test_gives_wBits (len : Word) : (writer len).gives (.wBits 8) (bitsMsb 8 (0 : Word)) 0 0 := ⟨by decide, rfl, rfl, rfl⟩

theorem test_gives_wMagic (len : Word) :
    (withV1 (writer len)).gives .wMagic (bitsMsb 8 (0x48 : Byte) ++ bitsMsb 8 (0x46 : Byte) ++ bitsMsb 8 (2 : Byte)) 0 0 :=
  ⟨rfl, rfl, rfl, rfl⟩

theorem test_gives_tSerialize (len : Word) : (withV1 (writer len)).gives .tSerialize v1Shape.bits 0 0 :=
  ⟨rfl, test_treeOk_v1 _, by show _ = v1Tree.form; decide +kernel, rfl, rfl⟩

theorem test_gives_sEncode :
    (v1Encoding 5).gives .sEncode (codeString v1Enc (v1Msg.take 12)) 12 1 ∧
      (v1Encoding 6).gives .sEncode (codeString v1Enc (v1Msg.take 12)) 12 1 := by
  refine ⟨⟨rfl, ?_⟩, ⟨rfl, ?_⟩⟩ <;> decide +kernel

/-- A full region at commit 0 of `W_BITS` (2.5-12), 1 of `W_MAGIC`, 3 of `T_SERIALIZE` and 1 of `S_ENCODE`; a total at its bound (2.5-29); and
both at the pad commit of `W_CLOSE` (2.5-13). -/
theorem test_hyp_CommitOverflows :
    (GivesAt (writer 4) (.wBits 8) (bitsMsb 8 (0 : Word)) 0 0 0 ∧ (4 : Word).toNat = 4 + (writer 4).ch.chT.toNat / 8 + 0) ∧
      GivesAt (withV1 (writer 5)) .wMagic (bitsMsb 8 (0x48 : Byte) ++ bitsMsb 8 (0x46 : Byte) ++ bitsMsb 8 (2 : Byte)) 0 0 1 ∧
        GivesAt (withV1 (writer 7)) .tSerialize v1Shape.bits 0 0 3 ∧
          GivesAt (v1Encoding 5) .sEncode (codeString v1Enc (v1Msg.take 12)) 12 1 1 ∧
            (GivesAt lastTotal (.wBits 1) (bitsMsb 1 (0 : Word)) 0 0 0 ∧
              lastTotal.ch.llen.toNat ≠ 4 + lastTotal.ch.chT.toNat / 8 + 0 ∧ 0xFFFFFFF7 < lastTotal.ch.chT.toNat + 8 * 0) ∧
              (let s : State := { writer 4 with ch := { (writer 4).ch with bn := 1 } };
                s.ch.mode = .write ∧ WriterOk s ∧ s.cmd.fault = false ∧ 0 < s.ch.bn.toNat ∧
                  s.ch.llen.toNat = 4 + s.ch.chT.toNat / 8) ∧
                lastTotal.ch.mode = .write ∧ WriterOk lastTotal ∧ 0 < lastTotal.ch.bn.toNat :=
  ⟨⟨⟨by decide, by decide, by decide, by decide, test_gives_wBits 4, by decide⟩, by decide⟩,
    ⟨by decide, by decide, by decide, by decide, test_gives_wMagic 5, by decide⟩,
    ⟨by decide, by decide, by decide, by decide, test_gives_tSerialize 7, by decide⟩,
    ⟨by decide +kernel, by decide, by decide, by decide, test_gives_sEncode.1, by decide +kernel⟩,
    ⟨⟨by decide, by decide, by decide, by decide, ⟨by decide, rfl, rfl, rfl⟩, by decide⟩, by decide⟩, by decide, by decide⟩

/-- The bus completes `k` accesses and fails the next; `BUS_ERROR` is what the command then ends with. -/
def FailsAt (s : State) (i : Instr) (k : Nat) : Prop :=
  s.env.completes k = true ∧ s.env.drawAt k = false ∧ s.cmd.fault = false ∧
    (after (exec i s)).map (fun t => t.cmd.fcode) = some .busError

/-- The last header access of an open at the top of memory; a refill of `R_BITS` up to T, and the last of `R_MAGIC`. -/
theorem test_hyp_BusErrors_headers :
    (let s := failing 3 (stream 0xFFFFFFFC 4 s0);
      FailsAt s .wOpen 3 ∧ FailsAt s .rOpen 3 ∧ s.mem.wf = true ∧ s.ch.mode = .idle ∧
        s.regs.sbase.toNat + s.regs.slen.toNat ≤ 2 ^ 32 ∧ 4 ≤ s.regs.slen.toNat) ∧
      (let s := failing 3 (reader v1File 88 56 0 s0);
        FailsAt s (.rBits 32) 3 ∧ countOk 32 = true ∧ s.ch.mode = .read ∧ ReaderOk s ∧
          s.ch.chC.toNat + (32 : BitVec 6).toNat ≤ s.ch.chT.toNat ∧ 3 < s.ch.fetches (32 : BitVec 6).toNat) ∧
      (let s := failing 2 (reader v1File 88 0 0 s0);
        FailsAt s .rMagic 2 ∧ s.ch.mode = .read ∧ ReaderOk s ∧ s.ch.chC.toNat + 24 ≤ s.ch.chT.toNat ∧ 2 < s.ch.fetches 24 ∧
          BufferAgrees s ∧ bitsToNat (s.ahead 16) = 0x4846) := by
  unfold FailsAt; decide +kernel

/-- The pad commit of `W_CLOSE`, and its last header write with a byte to pad and its first without. -/
theorem test_hyp_BusErrors_wClose :
    (let s : State := { failing 0 (writer 5) with ch := { (writer 5).ch with bn := 7 } };
        FailsAt s .wClose 0 ∧ s.ch.mode = .write ∧ WriterOk s ∧ 0 < s.ch.bn.toNat ∧ s.ch.room 8) ∧
      (let s : State := { failing 4 (writer 5) with ch := { (writer 5).ch with bn := 7 } };
        FailsAt s .wClose 4 ∧ s.mem.wf = true ∧ WriterOk s ∧ s.ch.room 8 ∧ 4 < (s.ch.bn.toNat + 7) / 8 + 4) ∧
      (let s := failing 0 (writer 4);
        FailsAt s .wClose 0 ∧ s.mem.wf = true ∧ WriterOk s ∧ ¬0 < s.ch.bn.toNat ∧ (s.ch.bn.toNat + 7) / 8 ≤ 0) := by
  unfold FailsAt; decide +kernel

/-- A commit of each command that writes bits: 0 of `W_BITS`, 2 of `W_MAGIC`, 3 of `T_SERIALIZE`, 1 of `S_ENCODE` after 12 reads. -/
theorem test_hyp_BusErrors_commits :
    ((failing 0 (writer 5)).gives (.wBits 8) (bitsMsb 8 (0 : Word)) 0 0 ∧ FailsAt (failing 0 (writer 5)) (.wBits 8) 0) ∧
      ((failing 2 (withV1 (writer 7))).gives .wMagic (bitsMsb 8 (0x48 : Byte) ++ bitsMsb 8 (0x46 : Byte) ++ bitsMsb 8 (2 : Byte)) 0 0 ∧
        FailsAt (failing 2 (withV1 (writer 7))) .wMagic 2) ∧
      ((failing 3 (withV1 (writer 8))).gives .tSerialize v1Shape.bits 0 0 ∧ FailsAt (failing 3 (withV1 (writer 8))) .tSerialize 3) ∧
      (failing 13 (v1Encoding 6)).gives .sEncode (codeString v1Enc (v1Msg.take 12)) 12 1 ∧ FailsAt (failing 13 (v1Encoding 6)) .sEncode 13 :=
  ⟨⟨test_gives_wBits 5, by unfold FailsAt; decide +kernel⟩, ⟨test_gives_wMagic 7, by unfold FailsAt; decide +kernel⟩,
    ⟨test_gives_tSerialize 8, by unfold FailsAt; decide +kernel⟩, test_gives_sEncode.2, by unfold FailsAt; decide +kernel⟩

/-- The room and the writer's invariants at those commits, up to the last byte of the region. -/
theorem test_hyp_BusErrors_room :
    ([(failing 0 (writer 5), 0, 8), (failing 2 (withV1 (writer 7)), 2, 24), (failing 3 (withV1 (writer 8)), 3, 39),
        (failing 13 (v1Encoding 6), 1, 17)] : List (State × Nat × Nat)).all (fun x =>
      x.1.mem.wf && decide (x.1.ch.mode = .write) && decide (WriterOk x.1) && decide (x.2.1 < x.1.ch.commits x.2.2) &&
        decide (4 + x.1.ch.chT.toNat / 8 + (x.2.1 + 1) ≤ x.1.ch.llen.toNat) &&
          decide (x.1.ch.chT.toNat + 8 * (x.2.1 + 1) ≤ 0xFFFFFFF8)) = true ∧
      (codeString v1Enc (v1Msg.take 12)).length = 17 := by decide +kernel

/-- The last input read of `S_ENCODE` (two commits before it), the one peek of the tree of 'A' (2.4-6). -/
theorem test_hyp_BusErrors_reads :
    (let s := failing 15 (v1Encoding 64);
      let bits := codeString s.codes.enc (bytesAt s.mem s.regs.ibase.toNat 13);
      FailsAt s .sEncode 15 ∧ 13 < s.regs.ilen.toNat ∧ s.mem.wf = true ∧ s.ch.mode = .write ∧ WriterOk s ∧ s.codes.cvalid = true ∧
        regionOK s.regs.ibase s.regs.ilen = true ∧ overlaps s.regs.ibase s.regs.ilen s.ch.lbase s.ch.llen = false ∧
          (∀ y ∈ bytesAt s.mem s.regs.ibase.toNat 13, (s.codes.enc.of y).valid = true) ∧ s.ch.room bits.length ∧
            15 = 13 + s.ch.commits bits.length) ∧
      (let s := failing 2 (reader [0, 0, 0, 0x28, 0x48, 0x46, 4, 0x90, 0x60] 40 24 4 s0);
        FailsAt s .tDeserialize 2 ∧ s.ch.mode = .read ∧ ReaderOk s ∧ BufferAgrees s ∧
          s.ahead 11 = true :: false :: (bitsMsb 8 (0x41 : Byte) ++ [true]) ∧ s.ch.fetches 11 ≤ 2 ∧
            11 + (2 - s.ch.fetches 11) < s.ch.bitsLeft) := by
  unfold FailsAt; decide +kernel

/-- The write of the last symbol of V-1, D, and the first refill over the bits `01000000` with the code of 'A' alone. -/
theorem test_hyp_BusErrors_sDecode :
    (State.Good (failing 0 (v1Decoding 1)) ∧
      (let s := failing 0 (v1Decoding 1);
        FailsAt s .sDecode 0 ∧ BufferAgrees s ∧ s.ch.mode = .read ∧ s.codes.cvalid = true ∧ regionOK s.regs.obase s.regs.olen = true ∧
          overlaps s.regs.obase s.regs.olen s.ch.lbase s.ch.llen = false ∧ s.ch.chC.toNat + s.ch.rpad.toNat ≤ s.ch.chT.toNat ∧
            s.ahead s.ch.bitsLeft = codeString s.codes.enc [] ++ ([false, true, false] ++ []) ∧ (s.codes.enc.of 0x44).valid = true ∧
              (s.codes.enc.of 0x44).string = [false, true, false] ∧ ([] : List Byte).length < s.regs.olen.toNat ∧
                0 = s.ch.fetches ((codeString s.codes.enc []).length + [false, true, false].length) + ([] : List Byte).length)) ∧
      State.Good (failing 0 (oneDecoding 1)) ∧
        (let s := failing 0 (oneDecoding 1);
          FailsAt s .sDecode 0 ∧ BufferAgrees s ∧ s.ch.mode = .read ∧ s.codes.cvalid = true ∧
            regionOK s.regs.obase s.regs.olen = true ∧ overlaps s.regs.obase s.regs.olen s.ch.lbase s.ch.llen = false ∧
              s.ch.chC.toNat + s.ch.rpad.toNat ≤ s.ch.chT.toNat ∧
                s.ahead s.ch.bitsLeft = codeString s.codes.enc [] ++ ([] ++ (false :: true :: List.replicate 6 false)) ∧
                  (s.ch.chC.toNat + ((codeString s.codes.enc []).length + 0)) % 8 = 0 ∧
                    0 = s.ch.fetches ((codeString s.codes.enc []).length + 0) + ([] : List Byte).length) :=
  ⟨⟨test_good_v1Decoding 1, by unfold FailsAt; decide +kernel⟩, test_good_oneDecoding 1, by unfold FailsAt; decide +kernel⟩

/-- A failed access of each kind ends a command, from a state without a bus error. -/
theorem test_hyp_BusErrors : s0.cmd.fcode ≠ .busError ∧ ∃ t, exec .freqCount (failing 1 v1) = .next t :=
  ⟨by decide, next_of_isSome (by decide +kernel)⟩

theorem test_hyp_FrameReaders :
    (∃ t, exec .rOpen { s0 with regs := { s0.regs with slen := 4 } } = .next t) ∧ (∃ t, exec (.rBits 9) v1Reader = .next t) ∧
      (∃ t, exec .rMagic v1Reader = .next t) ∧ (∃ t, exec .rClose v1Reader = .next t) ∧ ∃ t, exec .tDeserialize v1Reader = .next t :=
  ⟨next_of_isSome (by decide +kernel), next_of_isSome (by decide +kernel), next_of_isSome (by decide +kernel), ⟨_, rfl⟩,
    next_of_isSome (by decide +kernel)⟩

/-- The file of V-1 in a region of exactly its length, and one byte short (2.5-16). -/
theorem test_hyp_ROpenResult :
    (let s := stream 0x2000 15 { s0 with mem := memOf 0x2000 v1File };
      s.ch.mode = .idle ∧ s.regs.sbase.toNat + s.regs.slen.toNat ≤ 2 ^ 32 ∧ 4 ≤ s.regs.slen.toNat ∧ s.env.completes 4 = true ∧
        4 + (headerAt s.mem s.regs.sbase.toNat + 7) / 8 ≤ s.regs.slen.toNat) ∧
      (let s := stream 0x2000 14 { s0 with mem := memOf 0x2000 v1File };
        s.ch.mode = .idle ∧ s.regs.sbase.toNat + s.regs.slen.toNat ≤ 2 ^ 32 ∧ 4 ≤ s.regs.slen.toNat ∧ s.env.completes 4 = true ∧
          s.regs.slen.toNat < 4 + (headerAt s.mem s.regs.sbase.toNat + 7) / 8) := by decide +kernel

/-- Reading up to T exactly, and one bit past it. -/
theorem test_hyp_RBitsResult :
    let s := reader v1File 88 56 0 s0
    countOk 32 = true ∧ s.ch.mode = .read ∧ ReaderOk s ∧ s.ch.chC.toNat + (32 : BitVec 6).toNat ≤ s.ch.chT.toNat ∧ BufferAgrees s ∧
      s.env.completes (s.ch.fetches (32 : BitVec 6).toNat) = true ∧
        (let u := reader v1File 88 88 0 s0;
          countOk 1 = true ∧ u.ch.mode = .read ∧ ReaderOk u ∧ u.ch.chT.toNat < u.ch.chC.toNat + (1 : BitVec 6).toNat) := by
  decide +kernel

/-- The four ends of `R_MAGIC`: 23 bits left, 24 bits left with a bad magic, P = 8, P past T, and success. -/
theorem test_hyp_RMagicResult :
    ([reader [0, 0, 0, 0x17, 0x48, 0x46, 0] 23 0 0 s0, reader [0, 0, 0, 0x18, 0x58, 0x46, 0] 24 0 0 s0,
        reader [0, 0, 0, 0x18, 0x48, 0x46, 8] 24 0 0 s0, reader [0, 0, 0, 0x18, 0x48, 0x46, 3] 24 0 0 s0,
        reader [0, 0, 0, 0x18, 0x48, 0x46, 0] 24 0 0 s0] : List State).all
      (fun s => decide (s.ch.mode = .read) && decide (ReaderOk s) && decide (BufferAgrees s) &&
        s.env.completes (s.ch.fetches 24)) = true := by decide +kernel

theorem test_hyp_RCloseResult : v1Reader.ch.mode = .read := by decide

theorem test_hyp_TSerializeResult :
    let s := withV1 (writer 64)
    s.mem.wf = true ∧ s.ch.mode = .write ∧ WriterOk s ∧ s.cmd.fault = false ∧ s.tree.tvalid = true ∧ TreeOk s ∧
      s.ch.room s.tree.form.length ∧ s.env.completes (s.ch.commits s.tree.form.length) = true :=
  ⟨by decide, by decide, by decide, by decide, rfl, test_treeOk_v1 _, by decide +kernel, by decide +kernel⟩

/-- A reader exactly at the payload end (2.4-8), and one bit past it. -/
theorem test_hyp_EmptyTree :
    (let s := reader [0, 0, 0, 0x18, 0x48, 0x46, 0] 24 24 0 s0;
      s.ch.mode = .read ∧ s.ch.chC.toNat + s.ch.rpad.toNat = s.ch.chT.toNat) ∧
      (let s := reader [0, 0, 0, 0x18, 0x48, 0x46, 1] 24 24 1 s0;
        s.ch.mode = .read ∧ s.ch.chT.toNat < s.ch.chC.toNat + s.ch.rpad.toNat) := by decide

/-- V-1's tree in its file, and the tree of 'A' in its file, where the bit before the payload end is 0 (2.4-6). -/
theorem test_hyp_DeserializeRebuilds :
    (let s := v1Reader;
      s.ch.mode = .read ∧ ReaderOk s ∧ BufferAgrees s ∧ v1Shape.legal = true ∧ v1Shape.leaves.Nodup ∧
        s.ch.chC.toNat + v1Shape.cost + s.ch.rpad.toNat ≤ s.ch.chT.toNat ∧ s.ahead v1Shape.cost = v1Shape.bits ∧
          v1Shape.full = true ∧ s.env.completes (s.ch.fetches v1Shape.cost + s.ch.bitsLeft) = true) ∧
      (let s := reader [0, 0, 0, 0x28, 0x48, 0x46, 4, 0x90, 0x60] 40 24 4 s0;
        s.ch.mode = .read ∧ ReaderOk s ∧ BufferAgrees s ∧ oneShape.legal = true ∧ oneShape.leaves.Nodup ∧
          s.ch.chC.toNat + oneShape.cost + s.ch.rpad.toNat ≤ s.ch.chT.toNat ∧ s.ahead oneShape.cost = oneShape.bits ∧
            oneShape.full = false ∧ (∀ b ∈ (s.ahead s.ch.bitsLeft).drop oneShape.cost, b = false) ∧
              s.env.completes (s.ch.fetches oneShape.cost + s.ch.bitsLeft) = true) := by decide +kernel

theorem test_hyp_DeserializeAcceptsOnlyForms :
    v1Reader.ch.mode = .read ∧ ReaderOk v1Reader ∧ BufferAgrees v1Reader ∧
      (after (exec .tDeserialize v1Reader)).map (fun t => t.tree.tvalid) = some true := by decide +kernel

/-- The common hypotheses: a reader before its payload end, over what memory holds, with a bus that completes. -/
def parses (s : State) : Bool :=
  decide (s.ch.mode = .read) && decide (ReaderOk s) && decide (s.ch.chC.toNat + s.ch.rpad.toNat < s.ch.chT.toNat) &&
    decide (BufferAgrees s) && s.env.completes (s.ch.fetches 1) && s.env.completes (s.ch.fetches s.ch.bitsLeft + s.ch.bitsLeft)

/-- A leaf root (2.4-9), which also leaves no tree. -/
def leafRoot : State := reader [0, 0, 0, 0x28, 0x48, 0x46, 0, 0x20, 0x80] 40 24 0 s0

/-- No tree HUFFCORE holds starts with a leaf. -/
theorem test_leafRoot_noTree (sh : Shape) : ¬leafRoot.treeAhead sh := by
  rintro ⟨hl, -, -, hb, -⟩
  cases sh with
  | leaf y => cases hl
  | placeholder => cases hl
  | inner l r =>
    have h := congrArg List.head? hb
    rw [show (Shape.inner l r).cost = (l.cost + r.cost) + 1 by simp only [Shape.cost]; omega, State.ahead, regionBits_succ] at h
    rw [show regionBit leafRoot.mem leafRoot.ch.lbase.toNat leafRoot.ch.chC.toNat = false by decide +kernel] at h
    simp [Shape.bits] at h

theorem test_hyp_MalformedTree :
    parses leafRoot = true ∧ leafRoot.ahead 1 = [false] ∧
      (after (exec .tDeserialize leafRoot)).map (fun t => t.tree.tvalid) = some false := by
  decide +kernel

/-- V-1's tree cut off after 20 and after 38 of its 39 bits; 'A' twice (2.4-10). -/
theorem test_hyp_MalformedTree_causes :
    (let s := reader v1File 44 24 0 s0;
      parses s = true ∧ v1Shape.legal = true ∧ v1Shape.full = true ∧ v1Shape.leaves.Nodup ∧ s.ch.bitsLeft < v1Shape.cost ∧
        s.ahead s.ch.bitsLeft = v1Shape.bits.take s.ch.bitsLeft) ∧
      (let s := reader v1File 62 24 0 s0; parses s = true ∧ s.ch.bitsLeft + 1 = v1Shape.cost ∧
        s.ahead s.ch.bitsLeft = v1Shape.bits.take s.ch.bitsLeft) ∧
      (let s := reader [0, 0, 0, 0x30, 0x48, 0x46, 0, 0x90, 0x48, 0x20] 48 24 0 s0;
        let sh : Shape := .inner (.leaf 0x41) (.leaf 0x41);
        parses s = true ∧ sh.legal = true ∧ sh.full = true ∧ ¬sh.leaves.Nodup ∧ sh.cost ≤ s.ch.bitsLeft ∧ s.ahead sh.cost = sh.bits ∧
          sh.leaves.length ≤ 256 ∧ (sh.readUntilRepeat []).1 = 19) := by
  decide +kernel

theorem test_hyp_MalformedTree_noPlaceholder :
    (∀ y, ¬(reader v1File 44 24 0 s0).treeAhead (.inner (.leaf y) .placeholder)) ∧
      ∀ y, ¬(reader [0, 0, 0, 0x30, 0x48, 0x46, 0, 0x90, 0x48, 0x20] 48 24 0 s0).treeAhead (.inner (.leaf y) .placeholder) := by
  unfold State.treeAhead; decide +kernel

/-- 512 bits, all 1, and the payload end behind them. -/
theorem test_hyp_MalformedTree_full :
    (let s : State :=
        { reader (List.replicate 4 0 ++ List.replicate 64 0xFF) 512 0 0 s0 with env := { s0.env with draws := List.replicate 600 true } };
      parses s = true ∧ 512 ≤ s.ch.bitsLeft ∧ s.ahead 512 = List.replicate 512 true) := by decide +kernel

theorem test_hyp_SEncodeResult :
    let s : State := { v1 with ch := (writer 64).ch }
    let msg := bytesAt s.mem s.regs.ibase.toNat s.regs.ilen.toNat
    s.mem.wf = true ∧ s.ch.mode = .write ∧ WriterOk s ∧ s.cmd.fault = false ∧ s.codes.cvalid = true ∧
      regionOK s.regs.ibase s.regs.ilen = true ∧ overlaps s.regs.ibase s.regs.ilen s.ch.lbase s.ch.llen = false ∧
        (∀ y ∈ msg, (s.codes.enc.of y).valid = true) ∧ s.ch.room (codeString s.codes.enc msg).length ∧
          s.env.completes (s.regs.ilen.toNat + s.ch.commits (codeString s.codes.enc msg).length) = true := by
  decide +kernel

/-- 2.6-2: the third byte has no code. -/
theorem test_hyp_SEncodeUnknownSymbol :
    let s : State :=
      { v1 with
        ch := (writer 64).ch, mem := memOf 0x1100 [0x41, 0x42, 0x45], regs := { s0.regs with ibase := 0x1100, ilen := 3 } }
    let msg := bytesAt s.mem s.regs.ibase.toNat 2
    s.mem.wf = true ∧ s.ch.mode = .write ∧ WriterOk s ∧ s.cmd.fault = false ∧ s.codes.cvalid = true ∧
      regionOK s.regs.ibase s.regs.ilen = true ∧ overlaps s.regs.ibase s.regs.ilen s.ch.lbase s.ch.llen = false ∧
        2 < s.regs.ilen.toNat ∧ (∀ y ∈ msg, (s.codes.enc.of y).valid = true) ∧
          (s.codes.enc.of (s.mem.read (s.regs.ibase.toNat + 2))).valid = false ∧
            s.ch.room (codeString s.codes.enc msg).length ∧
              s.env.completes (2 + 1 + s.ch.commits (codeString s.codes.enc msg).length) = true := by
  decide +kernel

theorem test_hyp_FrameSDecode : ∃ t, exec .sDecode (oneDecoding 8) = .next t := next_of_isSome (by decide +kernel)

/-- One D left in V-1, into an output region of one byte. -/
theorem test_hyp_SDecodeInvertsCodes :
    State.Good (v1Decoding 1) ∧
      (let s := v1Decoding 1;
        BufferAgrees s ∧ s.ch.mode = .read ∧ s.codes.cvalid = true ∧ regionOK s.regs.obase s.regs.olen = true ∧
          overlaps s.regs.obase s.regs.olen s.ch.lbase s.ch.llen = false ∧
            s.ch.chC.toNat + s.ch.rpad.toNat ≤ s.ch.chT.toNat ∧ (∀ y ∈ [(0x44 : Byte)], (s.codes.enc.of y).valid = true) ∧
              s.ahead s.ch.bitsLeft = codeString s.codes.enc [0x44] ∧ [(0x44 : Byte)].length ≤ s.regs.olen.toNat ∧
                s.env.completes (s.ch.fetches s.ch.bitsLeft + [(0x44 : Byte)].length) = true) :=
  ⟨test_good_v1Decoding 1, by decide +kernel⟩

/-- `BAD_CODE` (2.6-8): one 'A', then the bit 1. -/
theorem test_hyp_SDecodeMalformed_badCode :
    State.Good (oneDecoding 1) ∧
      (let s := oneDecoding 1;
        BufferAgrees s ∧ s.ch.mode = .read ∧ s.codes.cvalid = true ∧ regionOK s.regs.obase s.regs.olen = true ∧
          overlaps s.regs.obase s.regs.olen s.ch.lbase s.ch.llen = false ∧
            s.ch.chC.toNat + s.ch.rpad.toNat ≤ s.ch.chT.toNat ∧ (∀ y ∈ [(0x41 : Byte)], (s.codes.enc.of y).valid = true) ∧
              s.ahead s.ch.bitsLeft = codeString s.codes.enc [0x41] ++ ([true] ++ List.replicate 6 false) ∧
                [(0x41 : Byte)].length ≤ s.regs.olen.toNat ∧
                  s.env.completes (s.ch.fetches s.ch.bitsLeft + [(0x41 : Byte)].length) = true ∧
                    ([true].dropLast = ([] : List Bool)) ∧
                      (∀ y, (s.codes.enc.of y).valid = true → (s.codes.enc.of y).string ≠ [true].dropLast) ∧
                        ¬∃ y, (s.codes.enc.of y).valid = true ∧ [true] <+: (s.codes.enc.of y).string) :=
  ⟨test_good_oneDecoding 1, by decide +kernel⟩

/-- V-1's codes over the two bits `01` (2.6-9): the payload ends inside the codes of C and D. -/
def v1Residue : State :=
  let s := reader [0, 0, 0, 2, 0x40] 2 0 0 (withV1 s0)
  { s with regs := { s.regs with obase := 0x3000, olen := 8 } }

theorem test_hyp_SDecodeMalformed_residue :
    State.Good v1Residue ∧
      (let s := v1Residue;
        BufferAgrees s ∧ s.ch.mode = .read ∧ s.codes.cvalid = true ∧ regionOK s.regs.obase s.regs.olen = true ∧
          overlaps s.regs.obase s.regs.olen s.ch.lbase s.ch.llen = false ∧
            s.ch.chC.toNat + s.ch.rpad.toNat ≤ s.ch.chT.toNat ∧
              s.ahead s.ch.bitsLeft = codeString s.codes.enc [] ++ ([false, true] ++ []) ∧
                s.env.completes (s.ch.fetches s.ch.bitsLeft + 0) = true ∧
                  ((s.codes.enc.of 0x43).valid = true ∧ [false, true] <+: (s.codes.enc.of 0x43).string) ∧
                    ∀ y, (s.codes.enc.of y).valid = true → (s.codes.enc.of y).string ≠ [false, true]) :=
  ⟨⟨by show (memOf 0x2000 [0, 0, 0, 2, 0x40]).wf = true; decide +kernel,
      ⟨fun h => (by cases h), fun _ => ⟨rfl, rfl, rfl⟩, fun h => (by cases h)⟩,
      (by decide : ReaderOk v1Residue),
      test_treeOk_v1 s0, test_codesOk_v1 s0⟩, by decide +kernel⟩

/-- `SINK_OVERFLOW`: an output region of 0 bytes at the first symbol; and a reader past the payload end. -/
theorem test_hyp_SDecodeBounds :
    State.Good (v1Decoding 0) ∧
      (let s := v1Decoding 0;
        s.ch.mode = .read ∧ s.codes.cvalid = true ∧ regionOK s.regs.obase s.regs.olen = true ∧
          overlaps s.regs.obase s.regs.olen s.ch.lbase s.ch.llen = false ∧ BufferAgrees s ∧
            s.ch.chC.toNat + s.ch.rpad.toNat ≤ s.ch.chT.toNat ∧ (s.codes.enc.of 0x44).valid = true ∧
              s.ahead s.ch.bitsLeft = codeString s.codes.enc ([] ++ [0x44]) ++ [] ∧ ([] : List Byte).length = s.regs.olen.toNat ∧
                s.env.completes (s.ch.fetches s.ch.bitsLeft + ([] : List Byte).length) = true) :=
  ⟨test_good_v1Decoding 0, by decide +kernel⟩

theorem test_hyp_SDecodeBounds_past :
    State.Good v1Past ∧ v1Past.ch.mode = .read ∧ v1Past.codes.cvalid = true ∧ v1Past.ch.chT.toNat < v1Past.ch.chC.toNat + v1Past.ch.rpad.toNat :=
  ⟨⟨by show (memOf 0x2000 v1File).wf = true; decide +kernel, ⟨fun h => (by cases h), fun _ => ⟨rfl, rfl, rfl⟩, fun h => (by cases h)⟩,
      (by decide : ReaderOk v1Past),
      test_treeOk_v1 s0, test_codesOk_v1 s0⟩, by decide, rfl, by decide⟩

/-- The walk's four ends: an internal node, a leaf, the placeholder, and the empty tree. -/
theorem test_hyp_TreeWalkIsDecoderTable :
    (TreeOk v1 ∧ CodesOk v1 ∧ v1.codes.cvalid = true) ∧ (TreeOk (withOne s0) ∧ CodesOk (withOne s0)) ∧
      (TreeOk (withEmpty s0) ∧ CodesOk (withEmpty s0) ∧ (withEmpty s0).codes.cvalid = true ∧ (withEmpty s0).tree.root = 511) ∧
        (descend v1.tree.node v1.tree.root [false]).map (fun n => n.kind) = some .inner ∧
          (descend v1.tree.node v1.tree.root [false, true, true]).map (fun n => n.kind) = some .leaf ∧
            (descend oneTree.node oneTree.root [true]).map (fun n => n.kind) = some .placeholder :=
  ⟨⟨test_treeOk_v1 s0, test_codesOk_v1 s0, rfl⟩, ⟨test_treeOk_one s0, test_codesOk_one s0⟩,
    ⟨test_treeOk_empty, test_codesOk_empty, rfl, rfl⟩, by decide +kernel, by decide +kernel, by decide +kernel⟩

/-- A good state that has a tree, codes and an open reader, and that takes a step; it witnesses every invariant at once. -/
theorem test_hyp_Invariants :
    State.Good (issued 0x31 (v1Decoding 1)) ∧ ∃ t, step (issued 0x31 (v1Decoding 1)) = .next t :=
  ⟨⟨(test_good_v1Decoding 1).1, ⟨fun h => (by cases h), fun _ => ⟨rfl, rfl, rfl⟩, fun _ => ⟨rfl, rfl⟩⟩,
      (test_good_v1Decoding 1).2.2.1, (test_good_v1Decoding 1).2.2.2.1, (test_good_v1Decoding 1).2.2.2.2⟩,
    next_of_isSome (by decide +kernel)⟩

end Sys2Proof.Tests
end

section
/-! PROOFS. The host's register window (10_state.md): a host turn as one step, what a write and a read of an offset do, and the
fields of the words computed from the state. -/

namespace Sys2Proof.Machine

/-! ### A host turn -/

/-- A waiting turn is taken in the state without it. -/
theorem step_of_turns_cons {s : State} {t : Turn} {ts : List Turn} (h : s.env.turns = t :: ts) :
    step s = takeTurn t { s with env := { s.env with turns := ts } } := by
  simp only [step, h, State.dropTurn, List.tail_cons]

theorem step_of_write {s : State} {reg : BitVec 10} {v : Word} {ts : List Turn} (h : s.env.turns = .write reg v :: ts) :
    step s = .next (writeReg { s with env := { s.env with turns := ts } } reg v) :=
  step_of_turns_cons h

/-- No register depends on the waiting turns, so a read returns the state's word. -/
theorem step_of_read {s : State} {reg : BitVec 10} {ts : List Turn} (h : s.env.turns = .read reg :: ts) :
    step s = .next (({ s with env := { s.env with turns := ts } } : State).setLastRead (readReg s reg)) :=
  step_of_turns_cons h

/-! ### Host writes -/

theorem regOffset_injective : Function.Injective regOffset := fun a b h => by
  unfold regOffset at h
  exact BitVec.eq_of_toNat_eq (by omega)

theorem writeReg_of_busy {s : State} (hb : s.cmd.busy = true) (hf : s.cmd.fault = false) {reg : BitVec 10} (hr : reg ≠ 0x001)
    (v : Word) : writeReg s reg v = s.enterFault .busyWrite (BitVec.ofNat 32 (regOffset reg)) := by
  have hc : regOffset reg ≠ 0x004 := regOffset_injective.ne (a₂ := 0x001) hr
  simp [writeReg, hc, hb, hf]

theorem writeReg_cmd_of_fault {s : State} (hf : s.cmd.fault = true) (w : Word) : writeReg s 0x002 w = s := by
  simp [writeReg, regOffset, hf]

theorem writeReg_cmd_of_idle {s : State} (hf : s.cmd.fault = false) (hb : s.cmd.busy = false) (w : Word) :
    writeReg s 0x002 w = s.issue w := by
  simp [writeReg, regOffset, hf, hb]

/-- With no command issued, `CTRL` and `CMD` alone are not left to `writeIdle`. -/
theorem writeReg_of_idle {s : State} (hb : s.cmd.busy = false) {reg : BitVec 10} (h₁ : reg ≠ 0x001) (h₂ : reg ≠ 0x002)
    (v : Word) : writeReg s reg v = writeIdle s reg v := by
  have hctrl : regOffset reg ≠ 0x004 := regOffset_injective.ne (a₂ := 0x001) h₁
  have hcmd : regOffset reg ≠ 0x008 := regOffset_injective.ne (a₂ := 0x002) h₂
  simp [writeReg, hctrl, hcmd, hb]

theorem writeReg_freqData {s : State} (hb : s.cmd.busy = false) (v : Word) : writeReg s 0x01B v = writeFreqData s v :=
  writeReg_of_idle hb (by decide) (by decide) v

theorem writeFreqData_freq_of (s : State) (v : Word) (x : Byte) :
    (writeFreqData s v).cnt.freq.of x = if x = s.regs.freqIdx then v else s.cnt.freq.of x :=
  FreqTable.of_put ..

/-! ### Host reads -/

theorem readReg_status (s : State) : readReg s 0x003 = s.status := rfl

theorem readReg_freqData (s : State) : readReg s 0x01B = s.cnt.freq.of s.regs.freqIdx := rfl

theorem readReg_nodeData0 (s : State) : readReg s 0x01D = s.nodeData0 := rfl

theorem readReg_nodeData1 (s : State) : readReg s 0x01E = s.nodeData1 := rfl

theorem readReg_codeLen (s : State) : readReg s 0x021 = s.codeLen := rfl

theorem readReg_codeData (s : State) : readReg s 0x022 = s.codeData := rfl

/-! ### The words computed from the state -/

/-- Joined fields as a sum, the right one in the low bits. -/
theorem toNat_append_eq_add {m n : Nat} (x : BitVec m) (y : BitVec n) : (x ++ y).toNat = 2 ^ n * x.toNat + y.toNat := by
  rw [BitVec.toNat_append, ← Nat.shiftLeft_add_eq_or_of_lt y.isLt, Nat.shiftLeft_eq, Nat.mul_comm]

theorem State.eof_eq (s : State) : s.eof = decide (s.ch.mode = .read ∧ s.ch.chC = s.ch.chT) :=
  (Bool.decide_and _ _).symm

/-- The payload end is an integer, but the comparison with it needs no subtraction. -/
theorem State.eopf_eq (s : State) :
    s.eopf = decide (s.ch.mode = .read ∧ s.ch.chC.toNat + s.ch.rpad.toNat = s.ch.chT.toNat) := by
  have h : (s.ch.chC.toNat : Int) = s.ch.payloadEnd ↔ s.ch.chC.toNat + s.ch.rpad.toNat = s.ch.chT.toNat := by
    unfold Channel.payloadEnd
    omega
  rw [Bool.decide_and, ← decide_eq_decide.mpr h, State.eopf]

/-- `STATUS` with its coded fields as their codes (10_state.md R22). -/
theorem State.status_toNat (s : State) :
    s.status.toNat =
      s.cmd.busy.toNat + 2 ^ 1 * s.cmd.done.toNat + 2 ^ 2 * s.cmd.fault.toNat + 2 ^ 3 * s.ch.mode.code.toNat +
        2 ^ 5 * s.eof.toNat + 2 ^ 6 * s.eopf.toNat + 2 ^ 7 * s.tree.tvalid.toNat + 2 ^ 8 * s.codes.cvalid.toNat +
        2 ^ 9 * s.codes.worth.toNat + 2 ^ 12 * s.cmd.err.code.toNat + 2 ^ 16 * s.cmd.fcode.code.toNat +
        2 ^ 24 * s.cmd.fop.toNat := by
  simp only [State.status, toNat_append_eq_add, BitVec.toNat_ofBool, BitVec.ofNat_eq_ofNat, BitVec.toNat_zero]
  omega

/-- `NODE_DATA0` of an entry, its kind as its code (10_state.md R39). -/
theorem Node.dataWord_toNat (n : Node) :
    n.dataWord.toNat = n.kind.code.toNat + 2 ^ 2 * n.sym.toNat + 2 ^ 10 * n.left.toNat + 2 ^ 19 * n.right.toNat := by
  simp only [Node.dataWord, toNat_append_eq_add, BitVec.ofNat_eq_ofNat, BitVec.toNat_zero]
  omega

theorem State.nodeData0_of_some {s : State} {n : Node} (h : s.tree.node.of s.regs.nodeIdx = some n) :
    s.nodeData0 = n.dataWord := by
  simp only [State.nodeData0, h]

theorem State.nodeData1_of_some {s : State} {n : Node} (h : s.tree.node.of s.regs.nodeIdx = some n) : s.nodeData1 = n.freq := by
  simp only [State.nodeData1, h]

theorem State.nodeData0_of_nil {s : State} (h : s.regs.nodeIdx = nilHandle) : s.nodeData0 = 0 := by
  simp only [State.nodeData0, h, Arena.of_nil]

theorem State.nodeData1_of_nil {s : State} (h : s.regs.nodeIdx = nilHandle) : s.nodeData1 = 0 := by
  simp only [State.nodeData1, h, Arena.of_nil]

/-- Every handle but `NIL` names an entry (10_state.md R27). -/
theorem Arena.isSome_of {h : Handle} (hn : h ≠ nilHandle) (t : Arena) : (t.of h).isSome = true := by
  have hne : h.toNat ≠ 511 := fun e => hn (BitVec.eq_of_toNat_eq e)
  have hlt : h.toNat < 511 := by have := h.isLt; omega
  simp [Arena.of, hlt]

theorem State.codeLen_toNat (s : State) :
    s.codeLen.toNat =
      2 ^ 8 * (s.codes.enc.of s.regs.codeIdx).valid.toNat + (s.codes.enc.of s.regs.codeIdx).len.toNat := by
  simp only [State.codeLen, toNat_append_eq_add, BitVec.toNat_ofBool, BitVec.ofNat_eq_ofNat, BitVec.toNat_zero]
  omega

theorem State.codeData_getLsbD (s : State) {j : Nat} (hj : j < 32) :
    s.codeData.getLsbD j =
      (s.codes.enc.of s.regs.codeIdx).bits.getLsbD (224 - 32 * s.regs.codeWsel.toNat + j) := by
  simp only [State.codeData, BitVec.getLsbD_extractLsb', hj, decide_true, Bool.true_and]

/-! ### The obligations -/

/-- Settles O5: the three cases of R21 are the faulted, the busy and the idle write to `CMD`. -/
theorem commandWrite : Obligations.CommandWrite := by
  intro s w ts hts u
  have hstep : step s = .next (writeReg u 0x002 w) := step_of_write hts
  rw [hstep]
  refine ⟨fun hf => ?faulted, fun hf hb => ?busy, fun hf hb => ?idle⟩
  case faulted => rw [writeReg_cmd_of_fault (s := u) hf]
  case busy => rw [writeReg_of_busy (s := u) hb hf (by decide)]; rfl
  case idle => rw [writeReg_cmd_of_idle (s := u) hf hb]; rfl

/-- Settles O6: the write is fault entry with the offset, and fault entry keeps every register and ends the command. -/
theorem busyWrite : Obligations.BusyWrite := by
  intro s reg ts hb hf u
  refine ⟨fun v hreg hts => ⟨u.enterFault .busyWrite (BitVec.ofNat 32 (regOffset reg)), ?_, rfl, rfl⟩, step_of_read⟩
  have hstep : step s = .next (writeReg u reg v) := step_of_write hts
  rw [hstep, writeReg_of_busy (s := u) hb hf hreg]

/-- Settles O9: the write is `FREQ[FREQ_IDX] <- v` and the invalidation of tree and codes. -/
theorem freqDataWindow : Obligations.FreqDataWindow := by
  refine fun s => ⟨readReg_freqData s, fun v ts hb hts => ?_⟩
  let u : State := { s with env := { s.env with turns := ts } }
  have hstep : step s = .next (writeReg u 0x01B v) := step_of_write hts
  rw [writeReg_freqData (s := u) hb] at hstep
  have hsel : (writeFreqData u v).cnt.freq.of s.regs.freqIdx = v := (writeFreqData_freq_of u v _).trans (if_pos rfl)
  have hother (x : Byte) (hx : x ≠ s.regs.freqIdx) : (writeFreqData u v).cnt.freq.of x = s.cnt.freq.of x :=
    (writeFreqData_freq_of u v x).trans (if_neg hx)
  exact ⟨_, hstep, hsel, hsel, hother, rfl, rfl, rfl, rfl, rfl, rfl, rfl, rfl, rfl, rfl⟩

/-- Settles O12: the fields are joined at their bits, and each code is that of R22, R114 or R115. -/
theorem statusFields : Obligations.StatusFields := by
  intro s
  rw [readReg_status, State.status_toNat, State.eof_eq, State.eopf_eq]
  congr
  · cases s.ch.mode <;> rfl
  · cases s.cmd.err <;> rfl
  · cases s.cmd.fcode <;> rfl

/-- Settles O13: the arena window by whether the handle names an entry, then the code window. -/
theorem inspectionWindows : Obligations.InspectionWindows := by
  intro s
  rw [readReg_nodeData0, readReg_nodeData1, readReg_codeLen, readReg_codeData]
  refine ⟨fun n hn => ⟨?word0, State.nodeData1_of_some hn⟩, fun h => Arena.isSome_of h _,
    fun h => ⟨State.nodeData0_of_nil h, State.nodeData1_of_nil h⟩, State.codeLen_toNat s, fun j => State.codeData_getLsbD s⟩
  case word0 =>
    rw [State.nodeData0_of_some hn, Node.dataWord_toNat]
    congr
    cases n.kind <;> rfl

end Sys2Proof.Machine
end

section
/-! PROOFS. The decoder of command words in arithmetic on the word, and the Core step by what the decoder answers (30_encoding.md). -/

namespace Sys2Proof

/-! ### The fields of a word as numbers (R67) -/

theorem opField_toNat (w : Word) : (opField w).toNat = w.toNat % 2 ^ 8 := by
  simp only [opField, BitVec.extractLsb'_toNat, Nat.shiftRight_zero]

theorem countField_toNat (w : Word) : (countField w).toNat = w.toNat / 2 ^ 8 % 2 ^ 6 := by
  simp only [countField, BitVec.extractLsb'_toNat, Nat.shiftRight_eq_div_pow]

/-- The reserved field reaches the top of the word, so nothing is cut off above it. -/
theorem reservedField_toNat (w : Word) : (reservedField w).toNat = w.toNat / 2 ^ 14 := by
  have hw : w.toNat / 2 ^ 14 < 2 ^ 18 := by have := w.isLt; omega
  simp only [reservedField, BitVec.extractLsb'_toNat, Nat.shiftRight_eq_div_pow, Nat.mod_eq_of_lt hw]

/-! ### What the decoder accepts -/

/-- The opcodes that R69 assigns. -/
def opcodeMap : List Nat :=
  [0x01, 0x02, 0x03, 0x04, 0x10, 0x11, 0x12, 0x13, 0x18, 0x19, 0x1A, 0x1B, 0x20, 0x21, 0x30, 0x31]

/-- The opcodes of `W_BITS` and `R_BITS`, whose words carry a count (R67). -/
def countedOpcodes : List Nat := [0x11, 0x19]

/-- `N` lies in the range of its opcode (R70). -/
def CountFits (op n : Nat) : Prop := if op ∈ countedOpcodes then 1 ≤ n ∧ n ≤ 32 else n = 0

theorem uncounted_eq_command {n : BitVec 6} {i j : Instr} : uncounted n j = .command i ↔ n.toNat = 0 ∧ j = i := by
  unfold uncounted
  split <;> simp_all [← BitVec.toNat_inj]

theorem counted_eq_command {n : BitVec 6} {i j : Instr} :
    counted n j = .command i ↔ (1 ≤ n.toNat ∧ n.toNat ≤ 32) ∧ j = i := by
  unfold counted
  split <;> simp_all [countOk]

/-- One row of R69 after the other: the row's opcode is in the map, and its range is that of `uncounted` or `counted`. -/
theorem exists_decodeOp_eq_command_iff (op : Byte) (n : BitVec 6) :
    (∃ i, decodeOp op n = .command i) ↔ op.toNat ∈ opcodeMap ∧ CountFits op.toNat n.toNat := by
  unfold decodeOp
  split
  case h_17 => simp_all [opcodeMap]
  all_goals
    next hop => simp [hop, uncounted_eq_command, counted_eq_command, opcodeMap, CountFits, countedOpcodes]

/-- The command the decoder answers is the one of its row, with the word's count. -/
theorem fields_of_decodeOp_eq_command {op : Byte} {n : BitVec 6} {i : Instr} (h : decodeOp op n = .command i) :
    (opcodeOf i).toNat = op.toNat ∧ (countOf i).toNat = n.toNat := by
  unfold decodeOp at h
  split at h
  case h_17 => cases h
  all_goals
    next hop =>
      simp only [uncounted_eq_command, counted_eq_command] at h
      obtain ⟨hn, rfl⟩ := h
      simp [opcodeOf, countOf, hop, hn]

theorem decode_eq_command_iff {w : Word} {i : Instr} :
    decode w = .command i ↔ w.toNat / 2 ^ 14 = 0 ∧ decodeOp (opField w) (countField w) = .command i := by
  have hzero : reservedField w = 0 ↔ w.toNat / 2 ^ 14 = 0 := by
    rw [← reservedField_toNat, ← BitVec.toNat_inj]
    rfl
  rw [← hzero, decode]
  split <;> simp_all

/-- R70 as one criterion on the three fields. -/
theorem exists_decode_eq_command_iff (w : Word) :
    (∃ i, decode w = .command i) ↔
      w.toNat / 2 ^ 14 = 0 ∧ w.toNat % 2 ^ 8 ∈ opcodeMap ∧ CountFits (w.toNat % 2 ^ 8) (w.toNat / 2 ^ 8 % 2 ^ 6) := by
  rw [← opField_toNat, ← countField_toNat, ← exists_decodeOp_eq_command_iff]
  simp only [decode_eq_command_iff, exists_and_left]

theorem fields_of_decode_eq_command {w : Word} {i : Instr} (h : decode w = .command i) :
    (opcodeOf i).toNat = w.toNat % 2 ^ 8 ∧ (countOf i).toNat = w.toNat / 2 ^ 8 % 2 ^ 6 := by
  rw [← opField_toNat, ← countField_toNat]
  exact fields_of_decodeOp_eq_command (decode_eq_command_iff.mp h).2

theorem not_countFits_iff (op n : Nat) :
    ¬CountFits op n ↔ (op ∈ countedOpcodes ∧ (n = 0 ∨ 32 < n)) ∨ (op ∉ countedOpcodes ∧ n ≠ 0) := by
  by_cases h : op ∈ countedOpcodes
  · simp only [CountFits, h, if_true, true_and, not_true, false_and, or_false]
    omega
  · simp only [CountFits, h, if_false, not_false_eq_true, true_and, false_and, false_or, ne_eq]

end Sys2Proof

namespace Sys2Proof.Machine

/-! ### The Core step -/

/-- With a command issued and no turn waiting, the step is the Core's. -/
theorem step_of_issued {s : State} (hb : s.cmd.busy = true) (hf : s.cmd.fault = false) (ht : s.env.turns = []) :
    step s = coreStep s := by
  simp [step, ht, coreTurn, State.coreEnabled, hb, hf]

theorem coreStep_of_command {s : State} {i : Instr} (h : decode s.cmd.pcmd = .command i) : coreStep s = exec i s := by
  rw [coreStep, h]

theorem coreStep_of_no_command {s : State} (h : ¬∃ i, decode s.cmd.pcmd = .command i) :
    coreStep s = .next (s.enterFault .illegalCmd s.cmd.pcmd) := by
  unfold coreStep
  split
  · next i hi => exact absurd ⟨i, hi⟩ h
  · rfl

/-! ### The obligations -/

/-- Settles O3: the words R70 rejects are those that decode to no command, and a command has the opcode and count of its word. -/
theorem coreStepDecodesFirst : Obligations.CoreStepDecodesFirst := by
  intro s hb hf ht op n illegal
  have hreject : illegal ↔ ¬∃ i, decode s.cmd.pcmd = .command i := by
    rw [exists_decode_eq_command_iff, not_and_or, not_and_or, not_countFits_iff]
    rfl
  have hop : BitVec.ofNat 8 op = opField s.cmd.pcmd := by
    rw [show op = (opField s.cmd.pcmd).toNat from (opField_toNat _).symm, BitVec.ofNat_toNat, BitVec.setWidth_eq]
  rw [step_of_issued hb hf ht, hreject, not_not, hop]
  refine ⟨coreStep_of_no_command, fun ⟨i, hi⟩ => ?_⟩
  obtain ⟨hopcode, hcount⟩ := fields_of_decode_eq_command hi
  exact ⟨i, hi, hopcode, hcount, coreStep_of_command hi⟩

end Sys2Proof.Machine
end

section
/-! PROOFS. The frequency map and the tree builder: the leaves it places and the merges it makes (40_frequency_tree.md R75, R77 to R80). -/

namespace Sys2Proof.Machine

/-! ### The commands -/

theorem exec_freqClear (s : State) :
    exec .freqClear s = .next ({ s with cnt := { freq := Vector.replicate 256 0, total := 0 } } : State).invalidate.finish := rfl

/-- `TREE_BUILD` when Σ FREQ fits 32 bits (R79). -/
theorem exec_treeBuild_of_fits {s : State} (h : freqSum s.cnt.freq ≤ 0xFFFFFFFF) :
    exec .treeBuild s = .next ({ s.invalidate with
      cnt := { s.cnt with total := BitVec.ofNat 32 (freqSum s.cnt.freq) }
      tree := buildTree s.cnt.freq } : State).finish := by
  show execTreeBuild s = _
  have hfits : ¬0xFFFFFFFF < freqSum s.cnt.freq := h.not_gt
  simp only [execTreeBuild, State.invalidate_cnt, hfits, if_false, Flow.complete_ok]

/-! ### The order of the leaves (R77) -/

theorem leafOrder_perm (f : FreqTable) : (leafOrder f).Perm (symbols.filter fun s => f.of s ≠ 0) :=
  List.perm_insertionSort ..

theorem mem_leafOrder {f : FreqTable} {x : Byte} : x ∈ leafOrder f ↔ f.of x ≠ 0 := by
  simp [(leafOrder_perm f).mem_iff, mem_symbols]

theorem leafOrder_nodup (f : FreqTable) : (leafOrder f).Nodup :=
  (leafOrder_perm f).nodup_iff.mpr (symbols_nodup.filter _)

theorem leafOrder_length_le (f : FreqTable) : (leafOrder f).length ≤ 256 :=
  calc (leafOrder f).length = (symbols.filter fun s => f.of s ≠ 0).length := (leafOrder_perm f).length_eq
    _ ≤ symbols.length := List.length_filter_le ..
    _ = 256 := by simp [symbols]

theorem leafOrder_pairwise (f : FreqTable) : (leafOrder f).Pairwise (leafBefore f) := by
  have : Std.Total (leafBefore f) := ⟨fun a b => by unfold leafBefore; omega⟩
  have : IsTrans Byte (leafBefore f) := ⟨fun a b c => by unfold leafBefore; omega⟩
  exact List.pairwise_insertionSort ..

/-- No two leaves are alike, so the order is strict. -/
theorem leafOrder_pairwise_lt (f : FreqTable) :
    (leafOrder f).Pairwise fun x y =>
      (f.of x).toNat < (f.of y).toNat ∨ (f.of x = f.of y ∧ x.toNat < y.toNat) := by
  refine ((leafOrder_pairwise f).and (leafOrder_nodup f)).imp fun {x y} ⟨hle, hne⟩ => ?_
  refine hle.imp_right fun ⟨hfreq, hsym⟩ => ⟨BitVec.eq_of_toNat_eq hfreq, ?_⟩
  exact hsym.lt_of_ne fun h => hne (BitVec.eq_of_toNat_eq h)

/-- Only symbols in the map count towards Σ FREQ. -/
theorem sum_leafOrder_le (f : FreqTable) : ((leafOrder f).map fun x => (f.of x).toNat).sum ≤ freqSum f :=
  calc ((leafOrder f).map fun x => (f.of x).toNat).sum
      = ((symbols.filter fun s => f.of s ≠ 0).map fun x => (f.of x).toNat).sum := ((leafOrder_perm f).map _).sum_eq
    _ ≤ freqSum f := (List.filter_sublist.map _).sum_le_sum fun _ _ => Nat.zero_le _

/-! ### Placing entries -/

theorem handle_toNat {k : Nat} (h : k < 512) : (BitVec.ofNat 9 k).toNat = k :=
  Nat.mod_eq_of_lt h

/-- The list's entries stand from handle `i` on, and every other entry is as it was. -/
theorem placeFrom_of {i : Nat} {ns : List Node} {t : Arena} {h : Handle} (hfit : i + ns.length ≤ 511) :
    (placeFrom i ns t).of h = if i ≤ h.toNat then (ns[h.toNat - i]?).or (t.of h) else t.of h := by
  induction ns generalizing i t with
  | nil => simp [placeFrom]
  | cons n ns ih =>
    rw [List.length_cons] at hfit
    have hput : Arena.of (t.setIfInBounds i n) h = if i = h.toNat then some n else t.of h := by
      have hi : i < 511 := by omega
      simp [Arena.of, Vector.getElem?_setIfInBounds, hi]
    rw [placeFrom, ih (by omega), hput]
    rcases Nat.lt_trichotomy h.toNat i with hlt | heq | hgt
    · simp [show ¬i + 1 ≤ h.toNat by omega, show ¬i ≤ h.toNat by omega, hlt.ne']
    · simp [heq]
    · obtain ⟨j, hj⟩ : ∃ j, h.toNat = i + 1 + j := ⟨h.toNat - (i + 1), by omega⟩
      simp [hj, show i + 1 + j - i = j + 1 by omega, show i ≠ i + 1 + j by omega, show i ≤ i + 1 + j by omega]

/-- The arena with nothing but the leaves in it, as the builder begins (R79). -/
def leafArena (f : FreqTable) : Arena := placeFrom 0 ((leafOrder f).map (leafNode f)) (Vector.replicate 511 Node.blank)

theorem leafArena_of {f : FreqTable} {h : Handle} {x : Byte} (hx : (leafOrder f)[h.toNat]? = some x) :
    (leafArena f).of h = some (leafNode f x) := by
  have hfit : 0 + ((leafOrder f).map (leafNode f)).length ≤ 511 := by
    have := leafOrder_length_le f
    rw [List.length_map]
    omega
  rw [leafArena, placeFrom_of hfit]
  simp [hx]

/-! ### The merge selection (R78) -/

/-- Two trees that agree on the entries below `h` have the same collection when entry `h` is created. -/
theorem Tree.waits_congr {t t' : Tree} {h : Nat} (hof : ∀ z : Handle, z.toNat < h → t'.node.of z = t.node.of z) {a : Nat}
    {z : Handle} : t'.waits a h z ↔ t.waits a h z := by
  refine and_congr_right fun _ => forall_congr' fun h' => forall_congr' fun _ => forall_congr' fun hlt => ?_
  rw [hof _ ((Nat.mod_le ..).trans_lt hlt)]

theorem Arena.weight_congr {t t' : Arena} {z : Handle} (hof : t'.of z = t.of z) : t'.weight z = t.weight z := by
  simp only [Arena.weight, hof]

theorem Tree.precedes_congr {t t' : Tree} {x z : Handle} (hx : t'.node.of x = t.node.of x) (hz : t'.node.of z = t.node.of z) :
    t'.precedes x z ↔ t.precedes x z := by
  simp only [Tree.precedes, Arena.weight_congr hx, Arena.weight_congr hz]

/-- `x` and `y` are the first and the second entry of the collection that waits for entry `h`. -/
def Tree.Selects (t : Tree) (a h : Nat) (x y : Handle) : Prop :=
  t.waits a h x ∧ t.waits a h y ∧ x ≠ y ∧ (∀ z, t.waits a h z → z ≠ x → t.precedes x z) ∧
    ∀ z, t.waits a h z → z ≠ x → z ≠ y → t.precedes y z

/-- Entry `h` is the internal node that joins the two selected entries, with the exact sum of their frequencies. -/
def Tree.JoinsAt (t : Tree) (a h : Nat) : Prop :=
  ∃ n, t.node.of (BitVec.ofNat 9 h) = some n ∧ n.kind = .inner ∧ n.sym = 0 ∧
    n.freq.toNat = (t.node.weight n.left).toNat + (t.node.weight n.right).toNat ∧ t.Selects a h n.left n.right

theorem Tree.Selects.congr {t t' : Tree} {a h : Nat} {x y : Handle}
    (hof : ∀ z : Handle, z.toNat < h → t'.node.of z = t.node.of z) (hsel : t.Selects a h x y) : t'.Selects a h x y := by
  obtain ⟨hx, hy, hne, hfst, hsnd⟩ := hsel
  have hw {z : Handle} : t'.waits a h z ↔ t.waits a h z := Tree.waits_congr hof
  have hp {u z : Handle} (hu : t.waits a h u) (hz : t.waits a h z) : t'.precedes u z ↔ t.precedes u z :=
    Tree.precedes_congr (hof _ hu.1) (hof _ hz.1)
  exact ⟨hw.mpr hx, hw.mpr hy, hne, fun z hz hzx => (hp hx (hw.mp hz)).mpr (hfst z (hw.mp hz) hzx),
    fun z hz hzx hzy => (hp hy (hw.mp hz)).mpr (hsnd z (hw.mp hz) hzx hzy)⟩

theorem Tree.JoinsAt.congr {t t' : Tree} {a h : Nat} (hof : ∀ z : Handle, z.toNat < h + 1 → t'.node.of z = t.node.of z)
    (hj : t.JoinsAt a h) : t'.JoinsAt a h := by
  obtain ⟨n, hn, hkind, hsym, hfreq, hsel⟩ := hj
  have hbelow (z : Handle) (hz : z.toNat < h) : t'.node.of z = t.node.of z := hof z (by omega)
  refine ⟨n, ?_, hkind, hsym, ?_, hsel.congr hbelow⟩
  · rw [hof _ ((Nat.mod_le ..).trans_lt h.lt_succ_self), hn]
  · rw [Arena.weight_congr (hbelow _ hsel.1.1), Arena.weight_congr (hbelow _ hsel.2.1.1), hfreq]

/-- After entry `k` joins two entries, they no longer wait. -/
theorem Tree.waits_succ {t : Tree} {a k : Nat} {n : Node} (hak : a ≤ k) (hn : t.node.of (BitVec.ofNat 9 k) = some n) {z : Handle}
    (hz : z.toNat < k) : t.waits a (k + 1) z ↔ t.waits a k z ∧ z ≠ n.left ∧ z ≠ n.right := by
  constructor
  · rintro ⟨-, hfree⟩
    have hlast := hfree k hak k.lt_succ_self n hn
    exact ⟨⟨hz, fun h' ha hlt => hfree h' ha (by omega)⟩, hlast.1.symm, hlast.2.symm⟩
  · rintro ⟨⟨-, hfree⟩, hl, hr⟩
    refine ⟨by omega, fun h' ha hlt m hm => ?_⟩
    rcases Nat.lt_succ_iff_lt_or_eq.mp hlt with hlt | rfl
    · exact hfree h' ha hlt m hm
    · obtain rfl : n = m := Option.some.inj (hn.symm.trans hm)
      exact ⟨hl.symm, hr.symm⟩

/-- No entry joins itself or a later one, so the newest entry waits. -/
theorem Tree.waits_newest {t : Tree} {a k : Nat} (hk : k < 511) (hj : ∀ h, a ≤ h → h < k + 1 → t.JoinsAt a h) :
    t.waits a (k + 1) (BitVec.ofNat 9 k) := by
  have hk9 : (BitVec.ofNat 9 k).toNat = k := handle_toNat (by omega)
  refine ⟨by omega, fun h' ha hlt m hm => ?_⟩
  obtain ⟨n, hn, -, -, -, ⟨hl, -⟩, ⟨hr, -⟩, -⟩ := hj h' ha hlt
  obtain rfl : n = m := Option.some.inj (hn.symm.trans hm)
  exact ⟨fun heq => by rw [heq] at hl; omega, fun heq => by rw [heq] at hr; omega⟩

/-! ### Extracting the least entry -/

theorem extractMin_eq_none {t : Arena} {q : List Handle} : extractMin t q = none ↔ q = [] := by
  cases q with
  | nil => simp [extractMin]
  | cons h q => unfold extractMin; split <;> (try split) <;> simp

/-- The first entry is taken when none after it is less, else what the rest gives. -/
theorem extractMin_cons {t : Arena} {x m : Handle} {q rest : List Handle} (h : extractMin t (x :: q) = some (m, rest)) :
    (m = x ∧ rest = q ∧ ∀ m' r', extractMin t q = some (m', r') → (t.weight x).toNat ≤ (t.weight m').toNat) ∨
      ∃ r', extractMin t q = some (m, r') ∧ rest = x :: r' ∧ (t.weight m).toNat < (t.weight x).toNat := by
  unfold extractMin at h
  split at h
  · next hnone =>
    cases h
    exact .inl ⟨rfl, (extractMin_eq_none.mp hnone).symm, by simp [hnone]⟩
  · next m' r' hsome =>
    split at h <;> cases h
    · next hle => exact .inl ⟨rfl, rfl, by simpa [hsome] using hle⟩
    · next hnle => exact .inr ⟨r', hsome, rfl, Nat.lt_of_not_le hnle⟩

theorem extractMin_perm {t : Arena} {q rest : List Handle} {m : Handle} (h : extractMin t q = some (m, rest)) :
    q.Perm (m :: rest) := by
  induction q generalizing m rest with
  | nil => simp [extractMin] at h
  | cons x q ih =>
    obtain ⟨rfl, rfl, -⟩ | ⟨r', hr, rfl, -⟩ := extractMin_cons h
    · rfl
    · exact ((ih hr).cons x).trans (.swap ..)

theorem extractMin_sublist {t : Arena} {q rest : List Handle} {m : Handle} (h : extractMin t q = some (m, rest)) :
    rest.Sublist q := by
  induction q generalizing m rest with
  | nil => simp [extractMin] at h
  | cons x q ih =>
    obtain ⟨rfl, rfl, -⟩ | ⟨r', hr, rfl, -⟩ := extractMin_cons h
    · exact List.sublist_cons_self ..
    · exact (ih hr).cons_cons x

theorem mem_rest_of_extractMin {t : Arena} {q rest : List Handle} {m : Handle} (hq : q.Nodup)
    (h : extractMin t q = some (m, rest)) {z : Handle} : z ∈ rest ↔ z ∈ q ∧ z ≠ m := by
  have hperm := extractMin_perm h
  have hm : m ∉ rest := (List.nodup_cons.mp (hperm.nodup_iff.mp hq)).1
  rw [hperm.mem_iff, List.mem_cons]
  exact ⟨fun hz => ⟨.inr hz, fun e => hm (e ▸ hz)⟩, fun ⟨hz, hne⟩ => hz.resolve_left hne⟩

/-- In a collection whose handles rise, the extracted entry comes before all others. -/
theorem extractMin_precedes {t : Tree} {q rest : List Handle} {m : Handle} (hq : q.Pairwise fun x y => x.toNat < y.toNat)
    (h : extractMin t.node q = some (m, rest)) : ∀ z ∈ rest, t.precedes m z := by
  induction q generalizing m rest with
  | nil => simp [extractMin] at h
  | cons x q ih =>
    obtain ⟨hx, hsorted⟩ := List.pairwise_cons.mp hq
    obtain ⟨rfl, rfl, hle⟩ | ⟨r', hr, rfl, hlt⟩ := extractMin_cons h <;> intro z hz
    · obtain ⟨⟨m', r'⟩, hr⟩ := Option.ne_none_iff_exists'.mp (extractMin_eq_none.not.mpr (List.ne_nil_of_mem hz))
      have hxz := hx z hz
      have hxm := hle m' r' hr
      rcases List.mem_cons.mp ((extractMin_perm hr).mem_iff.mp hz) with rfl | hz
      · unfold Tree.precedes; omega
      · have hmz := ih hsorted hr z hz
        unfold Tree.precedes at *; omega
    · rcases List.mem_cons.mp hz with rfl | hz
      · exact .inl hlt
      · exact ih hsorted hr z hz

/-! ### The merge loop -/

/-- Placing entry `k` leaves the entries below it. -/
theorem Arena.of_put_of_lt {t : Arena} {k : Nat} (hk : k < 512) (n : Node) {z : Handle} (hz : z.toNat < k) :
    (t.put (BitVec.ofNat 9 k) n).of z = t.of z := by
  rw [Arena.of_put, if_neg]
  rintro ⟨rfl, -⟩
  rw [handle_toNat hk] at hz
  omega

theorem Arena.of_put_handle {t : Arena} {k : Nat} (hk : k < 511) (n : Node) :
    (t.put (BitVec.ofNat 9 k) n).of (BitVec.ofNat 9 k) = some n := by
  rw [Arena.of_put, if_pos]
  refine ⟨rfl, fun h => ?_⟩
  have := congrArg BitVec.toNat h
  rw [handle_toNat (by omega)] at this
  simp [nilHandle] at this
  omega

/-- The loop appends its entries at `k` and above. -/
theorem mergeLoop_of_lt {n k : Nat} (hfit : k + n ≤ 512) {q : List Handle} {t : Arena} {z : Handle} (hz : z.toNat < k) :
    (mergeLoop n q k t).2.of z = t.of z := by
  induction n generalizing k q t with
  | zero => rfl
  | succ n ih =>
    unfold mergeLoop
    split
    · rfl
    · split
      · rfl
      · rw [ih (by omega) (by omega), Arena.of_put_of_lt (by omega) _ hz]

/-- The loop's invariant when the next entry is `k`, with `a` leaves: the collection is what waits, in rising order, and every
entry from `a` on joins what R78 selects. -/
structure Merging (t : Tree) (a k : Nat) (q : List Handle) : Prop where
  sorted : q.Pairwise fun x y => x.toNat < y.toNat
  mem_iff : ∀ z, z ∈ q ↔ t.waits a k z
  length : q.length + k = 2 * a
  fits : (q.map fun z => (t.node.weight z).toNat).sum ≤ 0xFFFFFFFF
  joined : ∀ h, a ≤ h → h < k → t.JoinsAt a h

theorem Merging.nodup {t : Tree} {a k : Nat} {q : List Handle} (hm : Merging t a k q) : q.Nodup :=
  hm.sorted.imp fun hlt heq => by simp [heq] at hlt

theorem Merging.selects {t : Tree} {a k : Nat} {q q₁ q₂ : List Handle} {x y : Handle} (hm : Merging t a k q)
    (hx : extractMin t.node q = some (x, q₁)) (hy : extractMin t.node q₁ = some (y, q₂)) : t.Selects a k x y := by
  have hsub := extractMin_sublist hx
  have hrest₁ {z : Handle} := mem_rest_of_extractMin hm.nodup hx (z := z)
  have hrest₂ {z : Handle} := mem_rest_of_extractMin (hm.nodup.sublist hsub) hy (z := z)
  have hxmem : x ∈ q := (extractMin_perm hx).mem_iff.mpr (List.mem_cons_self ..)
  have hymem : y ∈ q₁ := (extractMin_perm hy).mem_iff.mpr (List.mem_cons_self ..)
  have hleft (z : Handle) (hz : t.waits a k z) (hzx : z ≠ x) : z ∈ q₁ := hrest₁.mpr ⟨(hm.mem_iff z).mpr hz, hzx⟩
  exact ⟨(hm.mem_iff x).mp hxmem, (hm.mem_iff y).mp (hsub.mem hymem), (hrest₁.mp hymem).2.symm,
    fun z hz hzx => extractMin_precedes hm.sorted hx z (hleft z hz hzx),
    fun z hz hzx hzy => extractMin_precedes (hm.sorted.sublist hsub) hy z (hrest₂.mpr ⟨hleft z hz hzx, hzy⟩)⟩

/-- The tree after one merge: entry `k` joins `x` and `y`. -/
def Tree.merge (t : Tree) (k : Nat) (x y : Handle) : Tree :=
  { t with node := t.node.put (BitVec.ofNat 9 k) (innerNode x y (t.node.weight x + t.node.weight y)) }

theorem Tree.merge_of_lt {t : Tree} {k : Nat} (hk : k < 511) (x y : Handle) {z : Handle} (hz : z.toNat < k) :
    (t.merge k x y).node.of z = t.node.of z :=
  Arena.of_put_of_lt (by omega) _ hz

theorem Tree.merge_of_newest (t : Tree) {k : Nat} (hk : k < 511) (x y : Handle) :
    (t.merge k x y).node.of (BitVec.ofNat 9 k) = some (innerNode x y (t.node.weight x + t.node.weight y)) :=
  Arena.of_put_handle hk _

/-- A sum that fits 32 bits is exact. -/
theorem Tree.merge_weight_newest {t : Tree} {k : Nat} (hk : k < 511) {x y : Handle}
    (hfits : (t.node.weight x).toNat + (t.node.weight y).toNat ≤ 0xFFFFFFFF) :
    ((t.merge k x y).node.weight (BitVec.ofNat 9 k)).toNat = (t.node.weight x).toNat + (t.node.weight y).toNat := by
  rw [Arena.weight, Tree.merge_of_newest t hk, innerNode, BitVec.toNat_add_of_lt (by omega)]

theorem Tree.Selects.joinsAt_merge {t : Tree} {a k : Nat} {x y : Handle} (hsel : t.Selects a k x y) (hk : k < 511)
    (hfits : (t.node.weight x).toNat + (t.node.weight y).toNat ≤ 0xFFFFFFFF) : (t.merge k x y).JoinsAt a k := by
  have hof (z : Handle) (hz : z.toNat < k) : (t.merge k x y).node.of z = t.node.of z := Tree.merge_of_lt hk x y hz
  refine ⟨_, Tree.merge_of_newest t hk x y, rfl, rfl, ?_, hsel.congr hof⟩
  rw [show (innerNode x y _).left = x from rfl, show (innerNode x y _).right = y from rfl,
    Arena.weight_congr (hof x hsel.1.1), Arena.weight_congr (hof y hsel.2.1.1), innerNode, BitVec.toNat_add_of_lt (by omega)]

theorem Merging.step {t : Tree} {a k : Nat} {q q₁ q₂ : List Handle} {x y : Handle} (hm : Merging t a k q) (hak : a ≤ k)
    (hk : k < 511) (hx : extractMin t.node q = some (x, q₁)) (hy : extractMin t.node q₁ = some (y, q₂)) :
    Merging (t.merge k x y) a (k + 1) (q₂ ++ [BitVec.ofNat 9 k]) := by
  have hsel := hm.selects hx hy
  have hperm : q.Perm (x :: y :: q₂) := (extractMin_perm hx).trans ((extractMin_perm hy).cons x)
  have hrest (z : Handle) : z ∈ q₂ ↔ z ∈ q ∧ z ≠ x ∧ z ≠ y := by
    rw [mem_rest_of_extractMin (hm.nodup.sublist (extractMin_sublist hx)) hy, mem_rest_of_extractMin hm.nodup hx, and_assoc]
  have hk9 : (BitVec.ofNat 9 k).toNat = k := handle_toNat (by omega)
  have hlt (z : Handle) (hz : z ∈ q₂) : z.toNat < k := ((hm.mem_iff z).mp ((hrest z).mp hz).1).1
  have hof (z : Handle) (hz : z.toNat < k) : (t.merge k x y).node.of z = t.node.of z := Tree.merge_of_lt hk x y hz
  have hsum := (hperm.map fun z => (t.node.weight z).toNat).sum_eq
  simp only [List.map_cons, List.sum_cons] at hsum
  have hfits := hm.fits
  have hxy : (t.node.weight x).toNat + (t.node.weight y).toNat ≤ 0xFFFFFFFF := by omega
  have hjoined (h : Nat) (ha : a ≤ h) (hh : h < k + 1) : (t.merge k x y).JoinsAt a h := by
    rcases Nat.lt_succ_iff_lt_or_eq.mp hh with hh | rfl
    · exact (hm.joined h ha hh).congr fun z hz => hof z (by omega)
    · exact hsel.joinsAt_merge hk hxy
  refine ⟨?sorted, fun z => ?mem, ?length, ?fits, hjoined⟩
  case sorted =>
    refine List.pairwise_append.mpr ⟨?_, List.pairwise_singleton .., ?_⟩
    · exact (hm.sorted.sublist (extractMin_sublist hx)).sublist (extractMin_sublist hy)
    · simpa [hk9] using hlt
  case mem =>
    rw [List.mem_append, List.mem_singleton]
    by_cases hz : z.toNat < k
    · have hne : z ≠ BitVec.ofNat 9 k := fun e => by rw [e, hk9] at hz; omega
      rw [Tree.waits_succ hak (Tree.merge_of_newest t hk x y) hz, Tree.waits_congr hof, ← hm.mem_iff, hrest, or_iff_left hne]
      rfl
    · constructor
      · rintro (hz' | rfl)
        · exact absurd (hlt z hz') hz
        · exact Tree.waits_newest hk hjoined
      · exact fun hw => .inr (BitVec.eq_of_toNat_eq (by have := hw.1; omega))
  case length =>
    have hlen := hm.length
    have := hperm.length_eq
    simp only [List.length_cons, List.length_append, List.length_nil] at *
    omega
  case fits =>
    have hweights : (q₂.map fun z => ((t.merge k x y).node.weight z).toNat) = q₂.map fun z => (t.node.weight z).toNat :=
      List.map_congr_left fun z hz => by rw [Arena.weight_congr (hof z (hlt z hz))]
    simp only [List.map_append, List.map_cons, List.map_nil, List.sum_append, List.sum_cons, List.sum_nil, hweights,
      Tree.merge_weight_newest hk hxy]
    omega

/-- With fuel for every merge, the loop ends with one entry left. -/
theorem Merging.mergeLoop_final {t : Tree} {n a k : Nat} {q : List Handle} (hm : Merging t a k q) (hak : a ≤ k) (ha : a ≤ 256)
    (hk : k < 2 * a) (hfuel : q.length ≤ n + 1) :
    Merging { t with node := (mergeLoop n q k t.node).2 } a (2 * a - 1) (mergeLoop n q k t.node).1 := by
  have hlen := hm.length
  have hone (h : q.length ≤ 1) : Merging { t with node := t.node } a (2 * a - 1) q := by
    rwa [show 2 * a - 1 = k by omega]
  induction n generalizing t k q with
  | zero => exact hone hfuel
  | succ n ih =>
    unfold mergeLoop
    split
    · next hnone => exact hone (by simp [extractMin_eq_none.mp hnone])
    · next x q₁ hx =>
      have hq := (extractMin_perm hx).length_eq
      split
      · next hnone => exact hone (by simp [hq, extractMin_eq_none.mp hnone])
      · next y q₂ hy =>
        have hq₁ := (extractMin_perm hy).length_eq
        simp only [List.length_cons] at hq hq₁
        have hnext := hm.step hak (by omega) hx hy
        have hnextLen := hnext.length
        refine ih hnext (by omega) (by omega) (by simp; omega) hnextLen fun h => ?_
        rwa [show 2 * a - 1 = k + 1 by omega]

/-- The newest entry waits, so the one entry left at the end is it. -/
theorem Merging.headD_final {t : Tree} {a : Nat} {q : List Handle} (hm : Merging t a (2 * a - 1) q) (h2 : 2 ≤ a) (ha : a ≤ 256) :
    q.headD nilHandle = BitVec.ofNat 9 (2 * a - 2) := by
  have hlen := hm.length
  obtain ⟨r, rfl⟩ := List.length_eq_one_iff.mp (show q.length = 1 by omega)
  have hk : 2 * a - 1 = 2 * a - 2 + 1 := by omega
  have hwaits : t.waits a (2 * a - 1) (BitVec.ofNat 9 (2 * a - 2)) := by
    rw [hk]
    exact Tree.waits_newest (by omega) fun h hah hlt => hm.joined h hah (by omega)
  exact (List.mem_singleton.mp ((hm.mem_iff _).mpr hwaits)).symm

/-! ### The tree that is built -/

theorem buildTree_of_nil {f : FreqTable} (h : leafOrder f = []) :
    buildTree f = { node := leafArena f, root := nilHandle, alpha := 0, tvalid := true } := by
  simp only [buildTree, leafArena, h]

theorem buildTree_of_singleton {f : FreqTable} {x : Byte} (h : leafOrder f = [x]) :
    buildTree f =
      { node := ((leafArena f).put 1 placeholderNode).put 2 (innerNode 0 1 (f.of x)), root := 2, alpha := 1, tvalid := true } := by
  simp only [buildTree, leafArena, h]

/-- The collection and the arena after the merges of `A` leaves (R78). -/
def mergedLeaves (f : FreqTable) : List Handle × Arena :=
  mergeLoop (leafOrder f).length (handlesBelow (leafOrder f).length) (leafOrder f).length (leafArena f)

theorem buildTree_of_two_le {f : FreqTable} (h : 2 ≤ (leafOrder f).length) :
    buildTree f =
      { node := (mergedLeaves f).2, root := (mergedLeaves f).1.headD nilHandle, alpha := BitVec.ofNat 9 (leafOrder f).length,
        tvalid := true } := by
  unfold buildTree mergedLeaves leafArena
  generalize leafOrder f = order at h ⊢
  match order, h with
  | _ :: _ :: _, _ => rfl

theorem buildTree_alpha (f : FreqTable) : (buildTree f).alpha.toNat = (leafOrder f).length := by
  match h : leafOrder f with
  | [] => rw [buildTree_of_nil h]; rfl
  | [x] => rw [buildTree_of_singleton h]; rfl
  | x :: y :: l =>
    have hle := leafOrder_length_le f
    rw [← h, buildTree_of_two_le (by simp [h])]
    exact handle_toNat (by omega)

/-- The entries that the builder adds stand above the leaves. -/
theorem buildTree_of_lt {f : FreqTable} {z : Handle} (hz : z.toNat < (leafOrder f).length) :
    (buildTree f).node.of z = (leafArena f).of z := by
  match h : leafOrder f with
  | [] => rw [buildTree_of_nil h]
  | [x] =>
    obtain rfl : z = 0 := BitVec.eq_of_toNat_eq (by simpa [h] using hz)
    rw [buildTree_of_singleton h]
    simp [Arena.of_put]
  | x :: y :: l =>
    have hle := leafOrder_length_le f
    rw [buildTree_of_two_le (by simp [h])]
    exact mergeLoop_of_lt (by omega) hz

/-- The collection that the merges begin with is every leaf (R77). -/
theorem handlesBelow_weights (f : FreqTable) :
    ((handlesBelow (leafOrder f).length).map fun z => ((leafArena f).weight z).toNat) = (leafOrder f).map fun x => (f.of x).toNat := by
  have hle := leafOrder_length_le f
  refine List.ext_getElem (by simp [handlesBelow]) fun k _ hk => ?_
  rw [List.length_map] at hk
  have hleaf : (leafArena f).of (BitVec.ofNat 9 k) = some (leafNode f (leafOrder f)[k]) :=
    leafArena_of (by rw [handle_toNat (by omega), List.getElem?_eq_getElem hk])
  simp [handlesBelow, Arena.weight, hleaf, leafNode]

theorem mem_handlesBelow {a : Nat} (ha : a ≤ 512) {z : Handle} : z ∈ handlesBelow a ↔ z.toNat < a := by
  simp only [handlesBelow, List.mem_map, List.mem_range]
  constructor
  · rintro ⟨k, hk, rfl⟩
    rwa [handle_toNat (by omega)]
  · exact fun hz => ⟨z.toNat, hz, by simp⟩

theorem handlesBelow_sorted {a : Nat} (ha : a ≤ 512) : (handlesBelow a).Pairwise fun x y => x.toNat < y.toNat := by
  refine List.pairwise_map.mpr ((List.pairwise_lt_range (n := a)).imp_of_mem fun {x y} hx hy hlt => ?_)
  rw [List.mem_range] at hx hy
  rwa [handle_toNat (by omega), handle_toNat (by omega)]

/-- Before the first merge every leaf waits. -/
theorem Merging.leaves {f : FreqTable} (hfits : freqSum f ≤ 0xFFFFFFFF) {t : Tree} (ht : t.node = leafArena f) :
    Merging t (leafOrder f).length (leafOrder f).length (handlesBelow (leafOrder f).length) := by
  have hle := leafOrder_length_le f
  refine ⟨handlesBelow_sorted (by omega), fun z => ?_, ?_, ?_, fun h ha hlt => absurd hlt ha.not_gt⟩
  · rw [mem_handlesBelow (by omega)]
    exact ⟨fun hz => ⟨hz, fun h ha hlt => absurd hlt ha.not_gt⟩, And.left⟩
  · simp [handlesBelow, two_mul]
  · rw [ht, handlesBelow_weights]
    exact (sum_leafOrder_le f).trans hfits

theorem buildTree_merging {f : FreqTable} (hfits : freqSum f ≤ 0xFFFFFFFF) (h2 : 2 ≤ (leafOrder f).length) :
    Merging (buildTree f) (leafOrder f).length (2 * (leafOrder f).length - 1) (mergedLeaves f).1 := by
  rw [buildTree_of_two_le h2]
  exact (Merging.leaves hfits (t := { node := leafArena f, .. }) rfl).mergeLoop_final le_rfl (leafOrder_length_le f) (by omega)
    (by simp [handlesBelow])

theorem buildTree_root {f : FreqTable} (hfits : freqSum f ≤ 0xFFFFFFFF) (h2 : 2 ≤ (leafOrder f).length) :
    (buildTree f).root.toNat = 2 * (leafOrder f).length - 2 := by
  have hle := leafOrder_length_le f
  have hhead := (buildTree_merging hfits h2).headD_final h2 hle
  rw [buildTree_of_two_le h2, hhead, handle_toNat (by omega)]

/-! ### The obligations -/

/-- Settles O21: the counters are the zero table, and nothing but the invalidation follows. -/
theorem freqClearResult : Obligations.FreqClearResult :=
  fun s => ⟨_, FreqTable.of_zero, exec_freqClear s⟩

/-- Settles O24: the builder's order is that of the leaves, and its merges leave the leaves' entries. -/
theorem treeBuildLeafOrder : Obligations.TreeBuildLeafOrder := by
  intro s hfits
  have hle := leafOrder_length_le s.cnt.freq
  refine ⟨_, exec_treeBuild_of_fits hfits, leafOrder s.cnt.freq, buildTree_alpha _, fun x => mem_leafOrder,
    leafOrder_pairwise_lt _, fun k x hx => ?_⟩
  obtain ⟨hk, -⟩ := List.getElem?_eq_some_iff.mp hx
  have hk9 : (BitVec.ofNat 9 k).toNat = k := handle_toNat (by omega)
  exact (buildTree_of_lt (by rwa [hk9])).trans (leafArena_of (by rwa [hk9]))

/-- Settles O25: the merge loop's invariant at its end, where one entry waits. -/
theorem treeBuildMergeSelection : Obligations.TreeBuildMergeSelection := by
  intro s hfits
  refine ⟨_, exec_treeBuild_of_fits hfits, ?_⟩
  simp only [State.finish_tree, buildTree_alpha]
  exact ⟨buildTree_root hfits, fun h h2 ha hh => (buildTree_merging hfits h2).joined h ha (by omega)⟩

end Sys2Proof.Machine
end

section
/-! PROOFS. The tree deserializer (41_tree_codec.md): where the reader stands against the payload end before any bit is read, and the
two ends that read none (R92). -/

namespace Sys2Proof.Machine

/-! ### The payload end -/

theorem Channel.eq_payloadEnd_iff (c : Channel) :
    (c.chC.toNat : Int) = c.payloadEnd ↔ c.chC.toNat + c.rpad.toNat = c.chT.toNat := by
  unfold Channel.payloadEnd
  omega

theorem Channel.payloadEnd_lt_iff (c : Channel) :
    c.payloadEnd < (c.chC.toNat : Int) ↔ c.chT.toNat < c.chC.toNat + c.rpad.toNat := by
  unfold Channel.payloadEnd
  omega

/-! ### The command -/

theorem exec_tDeserialize_of_read {s : State} (hm : s.ch.mode = .read) :
    exec .tDeserialize s =
      (if s.ch.chC.toNat + s.ch.rpad.toNat = s.ch.chT.toNat then .ok () (s.clearTree.setTree nilHandle 0)
        else if s.ch.chT.toNat < s.ch.chC.toNat + s.ch.rpad.toNat then .error .badTree s.clearTree
        else parseTree s.clearTree : Flow Unit).complete := by
  simp only [exec, execTDeserialize, requireMode_ok hm, Flow.bind_ok, State.clearTree_ch, Channel.eq_payloadEnd_iff,
    Channel.payloadEnd_lt_iff]

theorem exec_tDeserialize_at_end {s : State} (hm : s.ch.mode = .read) (hend : s.ch.chC.toNat + s.ch.rpad.toNat = s.ch.chT.toNat) :
    exec .tDeserialize s = .next (s.clearTree.setTree nilHandle 0).finish := by
  rw [exec_tDeserialize_of_read hm, if_pos hend, Flow.complete_ok]

theorem exec_tDeserialize_past_end {s : State} (hm : s.ch.mode = .read)
    (hpast : s.ch.chT.toNat < s.ch.chC.toNat + s.ch.rpad.toNat) :
    exec .tDeserialize s = .next (s.clearTree.finishError .badTree) := by
  rw [exec_tDeserialize_of_read hm, if_neg hpast.ne', if_pos hpast, Flow.complete_error]

/-! ### The obligations -/

/-- Settles O44: at the payload end the cleared arena is the tree, past it there is none; neither end touches the channel. -/
theorem emptyTree : Obligations.EmptyTree := fun _ hm =>
  ⟨fun hend => ⟨_, exec_tDeserialize_at_end hm hend, rfl, rfl, rfl, rfl, rfl, rfl⟩,
    fun hpast => ⟨_, exec_tDeserialize_past_end hm hpast, rfl, rfl, rfl, rfl, rfl, rfl⟩⟩

end Sys2Proof.Machine
end

section
/-! PROOFS. The mode of the bit channel (42_bitchannel.md R96): the check every channel command begins with, the four commands that make
none, and R_CLOSE (R105). -/

namespace Sys2Proof.Machine

/-! ### The channel commands -/

/-- The channel mode a command needs; none for the frequency, tree and code commands (R96). -/
def neededMode : Instr → Option ChMode
  | .wOpen | .rOpen => some .idle
  | .wBits _ | .wMagic | .wClose | .tSerialize | .sEncode => some .write
  | .rBits _ | .rMagic | .rClose | .tDeserialize | .sDecode => some .read
  | .freqClear | .freqCount | .treeBuild | .codesBuild => none

/-- The mode check comes before everything else that a channel command does. -/
theorem exec_eq_requireMode_bind {i : Instr} {m : ChMode} (hi : neededMode i = some m) (s : State) :
    ∃ k : Unit → State → Flow Unit, exec i s = ((requireMode m s).bind k).complete := by
  cases i <;> cases hi <;> exact ⟨_, rfl⟩

theorem exec_of_wrong_mode {i : Instr} {m : ChMode} {s : State} (hi : neededMode i = some m) (hm : s.ch.mode ≠ m) :
    exec i s = .next (s.enterFault .wrongMode (s.ch.mode.code.setWidth 32)) := by
  obtain ⟨k, hk⟩ := exec_eq_requireMode_bind hi s
  rw [hk, requireMode_wrong hm, Flow.bind_raise, Flow.complete_raise]

theorem exec_rClose_of_read {s : State} (hm : s.ch.mode = .read) :
    exec .rClose s = .next ({ s with ch := { s.ch with mode := .idle } } : State).finish := by
  simp only [exec, execRClose, requireMode_ok hm, Flow.bind_ok, Flow.complete_ok]

/-! ### A fault code that a piece never gives -/

/-- However the piece ends, `FCODE` is not `c` when its command is over. -/
def Flow.Avoids {α : Type} (c : FaultCode) : Flow α → Prop
  | .ok _ s => s.cmd.fcode ≠ c
  | .error _ s => s.cmd.fcode ≠ c
  | .raise f _ _ => f ≠ c
  | .stop _ => True

theorem Flow.Avoids.bind {α β : Type} {c : FaultCode} {x : Flow α} {k : α → State → Flow β} (h : x.Avoids c)
    (hk : ∀ a s, s.cmd.fcode ≠ c → (k a s).Avoids c) : (x.bind k).Avoids c := by
  cases x with
  | ok a s => exact hk a s h
  | error e s => exact h
  | raise f w s => exact h
  | stop r => trivial

theorem Flow.Avoids.complete {c : FaultCode} {x : Flow Unit} {t : State} (h : x.Avoids c) (ht : x.complete = .next t) :
    t.cmd.fcode ≠ c := by
  rcases Flow.complete_eq_next ht with ⟨s, rfl, rfl⟩ | ⟨e, s, rfl, rfl⟩ | ⟨f, w, s, rfl, rfl⟩ <;> exact h

section
variable {c : FaultCode} {s : State}

theorem Flow.lift_avoids {α : Type} (x : Except Fault α) (hs : s.cmd.fcode ≠ c) : (Flow.lift x s).Avoids c := by
  cases x with
  | ok a => exact hs
  | error r => trivial

theorem requireTree_avoids (hc : .noTree ≠ c) (hs : s.cmd.fcode ≠ c) : (requireTree s).Avoids c := by
  unfold requireTree
  split
  · exact hs
  · exact hc

theorem requireRegion_avoids (base len w : Word) (hc : .regionFault ≠ c) (hs : s.cmd.fcode ≠ c) :
    (requireRegion base len w s).Avoids c := by
  unfold requireRegion
  split
  · exact hs
  · exact hc

theorem memRead_avoids (a : Nat) (hc : .busError ≠ c) (hs : s.cmd.fcode ≠ c) : (memRead a s).Avoids c := by
  unfold memRead
  split
  · split
    · exact hs
    · exact hc
  · trivial

theorem countBytes_avoids (n a : Nat) (hc : .busError ≠ c) (hs : s.cmd.fcode ≠ c) : (countBytes n a s).Avoids c := by
  induction n generalizing a s with
  | zero => exact hs
  | succ n ih =>
    refine (memRead_avoids a hc hs).bind fun b s hs => ?_
    split
    · exact hs
    · exact ih (a + 1) hs

end

/-! ### The commands that run in any mode -/

/-- `TREE_BUILD` when Σ FREQ does not fit 32 bits (R79). -/
theorem exec_treeBuild_of_overflow {s : State} (h : 0xFFFFFFFF < freqSum s.cnt.freq) :
    exec .treeBuild s = .next (s.invalidate.finishError .freqOverflow) := by
  show execTreeBuild s = _
  simp only [execTreeBuild, State.invalidate_cnt, h, if_true, Flow.complete_error]

/-- FREQ_CLEAR and TREE_BUILD raise nothing, FREQ_COUNT at most `REGION_FAULT` and `BUS_ERROR`, CODES_BUILD at most `NO_TREE`. -/
theorem exec_fcode_ne_wrongMode {i : Instr} (hi : neededMode i = none) {s t : State} (ht : exec i s = .next t)
    (hs : s.cmd.fcode ≠ .wrongMode) : t.cmd.fcode ≠ .wrongMode := by
  cases i <;> cases hi
  case freqClear =>
    cases (exec_freqClear s).symm.trans ht
    exact hs
  case freqCount =>
    refine Flow.Avoids.complete (Flow.Avoids.bind ?_ fun _ s hs => ?_) ht
    · exact requireRegion_avoids _ _ _ (by decide) hs
    · exact countBytes_avoids _ _ (by decide) hs
  case treeBuild =>
    rcases le_or_gt (freqSum s.cnt.freq) 0xFFFFFFFF with h | h
    · cases (exec_treeBuild_of_fits h).symm.trans ht
      exact hs
    · cases (exec_treeBuild_of_overflow h).symm.trans ht
      exact hs
  case codesBuild =>
    refine Flow.Avoids.complete (Flow.Avoids.bind ?_ fun _ s hs => Flow.Avoids.bind ?_ fun _ s hs => ?_) ht
    · exact requireTree_avoids (by decide) hs
    · exact Flow.lift_avoids _ hs
    · exact hs

/-! ### The obligations -/

/-- Settles O18: a channel command's first check is its mode's, and no other command raises `WRONG_MODE`. -/
theorem modeDiscipline : Obligations.ModeDiscipline := by
  intro s refuses
  have hrefuses {i : Instr} {m : ChMode} (hm : s.ch.mode ≠ m) (hi : neededMode i = some m) : refuses i := by
    refine (exec_of_wrong_mode hi hm).trans ?_
    unfold State.enterFault
    cases s.ch.mode <;> rfl
  refine ⟨fun hm => ⟨hrefuses hm rfl, hrefuses hm rfl⟩,
    fun hm => ⟨fun n => hrefuses hm rfl, hrefuses hm rfl, hrefuses hm rfl, hrefuses hm rfl, hrefuses hm rfl⟩,
    fun hm => ⟨fun n => hrefuses hm rfl, hrefuses hm rfl, hrefuses hm rfl, hrefuses hm rfl, hrefuses hm rfl⟩, fun i t hi ht => ?_⟩
  have hfree : ∀ j ∈ [Instr.freqClear, .freqCount, .treeBuild, .codesBuild], neededMode j = none := by decide
  exact exec_fcode_ne_wrongMode (hfree i hi) ht

/-- Settles O42: on a reader the mode check goes on, and the mode is all that is set. -/
theorem rCloseResult : Obligations.RCloseResult := fun _ hm => exec_rClose_of_read hm

end Sys2Proof.Machine
end

section
/-! PROOFS. The walk of the arena against the decoder table (43_stream_codec.md R108): the subtree a bit string leads to, the codes that
begin with it, and what the kind of the entry there says about them. -/

namespace Sys2Proof.Machine

/-! ### Decoder-table lookups, by the entries of the code table -/

section
variable {e : CodeTable} {p : List Bool}

theorem decodeTable_eq_none_iff : decodeTable e p = none ↔ ∀ x, ¬((e.of x).valid = true ∧ (e.of x).string = p) := by
  simp [decodeTable, List.find?_eq_none, mem_symbols]

theorem code_of_decodeTable {x : Byte} (h : decodeTable e p = some x) : (e.of x).valid = true ∧ (e.of x).string = p := by
  simpa using List.find?_some h

/-- A code begins with `p` and is longer. -/
theorem startsCode_iff : startsCode e p = true ↔ ∃ x q, (e.of x).valid = true ∧ (e.of x).string = p ++ q ∧ q ≠ [] := by
  simp only [startsCode, List.any_eq_true, mem_symbols, true_and, Bool.and_eq_true, List.isPrefixOf_iff_prefix, decide_eq_true_eq]
  refine exists_congr fun x => ⟨?_, ?_⟩
  · rintro ⟨hv, ⟨q, hq⟩, hlt⟩
    refine ⟨q, hv, hq.symm, ?_⟩
    rintro rfl
    simp [← hq] at hlt
  · rintro ⟨q, hv, hq, hne⟩
    exact ⟨hv, ⟨q, hq.symm⟩, by simpa [hq, List.length_pos_iff] using hne⟩

end

/-! ### The codes of the current tree are its paths -/

theorem Code.blank_valid : Code.blank.valid = false := rfl

theorem Tree.pathOf_of_shape {t : Tree} {sh : Shape} (hroot : t.root ≠ nilHandle) (hsh : t.shape = some sh) (x : Byte) :
    t.pathOf x = sh.path x := by
  rw [Tree.pathOf, if_neg hroot, hsh]

/-- While the codes are valid, the valid codes of `ENC` are the root-to-leaf paths (R30, 40_frequency_tree.md R83). -/
theorem CodesOk.code_iff_pathOf {s : State} (hc : CodesOk s) (ht : TreeOk s) (hv : s.codes.cvalid = true) (x : Byte) (w : List Bool) :
    ((s.codes.enc.of x).valid = true ∧ (s.codes.enc.of x).string = w) ↔ s.tree.pathOf x = some w := by
  obtain ⟨htv, tb, hwalk, -⟩ := hc hv
  rcases ht htv with ⟨hnil, -⟩ | ⟨hroot, sh, hsh, -, hnodup, -⟩
  · simp only [codesOfTree, hnil, if_true, Except.ok.injEq, Prod.mk.injEq] at hwalk
    simp [← hwalk.1, Code.blank_valid, Tree.pathOf, hnil]
  · have henc := hwalk.symm.trans (codesOfTree_of_shape hroot hsh)
    simp only [Except.ok.injEq, Prod.mk.injEq] at henc
    rw [henc.1, Shape.of_writeCodes sh hnodup, Tree.pathOf_of_shape hroot hsh]
    cases hx : sh.path x with
    | none => simp [Code.blank_valid]
    | some q =>
      have hlen : q.length < 256 := shapeAt_path_lt hsh hx
      simp [Code.string_ofString q (by omega)]

/-! ### The subtree a bit string leads to -/

/-- The subtree of a shape behind a bit string, 0 = left, 1 = right; none where the string goes on behind a leaf or the placeholder. -/
def Shape.subtree : Shape → List Bool → Option Shape
  | sh, [] => some sh
  | .inner l r, b :: p => (if b then r else l).subtree p
  | .leaf _, _ :: _ => none
  | .placeholder, _ :: _ => none

/-- A walk of the arena reaches the root entry of the subtree its bits lead to. -/
theorem descend_eq_some {t : Arena} {d : Nat} {h : Handle} {sh : Shape} {p : List Bool} {n : Node} (e : shapeAt t d h = some sh)
    (w : descend t h p = some n) : ∃ d' h' sh', t.of h' = some n ∧ shapeAt t d' h' = some sh' ∧ sh.subtree p = some sh' := by
  induction p generalizing d h sh with
  | nil => exact ⟨d, h, sh, w, e, by simp [Shape.subtree]⟩
  | cons b p ih =>
    obtain ⟨d', m, rfl, hm, ⟨hk, rfl⟩ | ⟨hk, rfl⟩ | ⟨hk, l, r, hl, hr, rfl⟩⟩ := shapeAt_cases e
    · simp [descend, hm, hk] at w
    · simp [descend, hm, hk] at w
    · simp only [descend, hm, hk, if_true] at w
      cases b with
      | false => exact ih hl w
      | true => exact ih hr w

/-- With distinct leaves, a path through an inner node is a path of the child its first bit names. -/
theorem Shape.path_inner_cons {l r : Shape} (hd : (Shape.inner l r).leaves.Nodup) (x : Byte) (b : Bool) (q : List Bool) :
    (Shape.inner l r).path x = some (b :: q) ↔ (if b then r else l).path x = some q := by
  obtain ⟨-, -, hdis⟩ := List.nodup_append.mp hd
  cases hx : l.path x with
  | none => cases hy : r.path x <;> cases b <;> simp [Shape.path, hx, hy]
  | some p =>
    have hm : x ∈ l.leaves := (Shape.path_isSome l x).mp (by simp [hx])
    have hy : r.path x = none := Shape.path_none fun h => hdis x hm x h rfl
    cases b <;> simp [Shape.path, hx, hy]

theorem Shape.path_inner_ne_nil (l r : Shape) (x : Byte) : (Shape.inner l r).path x ≠ some [] := by
  cases hl : l.path x <;> cases hr : r.path x <;> simp [Shape.path, hl, hr]

/-- With distinct leaves, the paths that begin with `p` are those of the subtree `p` leads to. -/
theorem Shape.path_append_iff {sh sub : Shape} {p : List Bool} (hd : sh.leaves.Nodup) (hb : sh.subtree p = some sub) (x : Byte)
    (q : List Bool) : sh.path x = some (p ++ q) ↔ sub.path x = some q := by
  induction p generalizing sh with
  | nil => simp_all [Shape.subtree]
  | cons b p ih =>
    cases sh with
    | leaf y => simp [Shape.subtree] at hb
    | placeholder => simp [Shape.subtree] at hb
    | inner l r =>
      obtain ⟨hdl, hdr, -⟩ := List.nodup_append.mp hd
      rw [List.cons_append, Shape.path_inner_cons hd]
      cases b with
      | false => exact ih hdl hb
      | true => exact ih hdr hb

/-! ### A legal tree has a leaf below every inner node -/

theorem Shape.exists_leaf_of_full {sh : Shape} (hf : sh.full = true) : ∃ x, x ∈ sh.leaves := by
  induction sh with
  | leaf y => exact ⟨y, by simp [Shape.leaves]⟩
  | placeholder => simp [Shape.full] at hf
  | inner l r ihl _ =>
    simp only [Shape.full, Bool.and_eq_true] at hf
    obtain ⟨x, hx⟩ := ihl hf.1
    exact ⟨x, by simp [Shape.leaves, hx]⟩

theorem Shape.full_of_subtree {sh sub : Shape} {p : List Bool} (hf : sh.full = true) (hb : sh.subtree p = some sub) : sub.full = true := by
  induction p generalizing sh with
  | nil => simp_all [Shape.subtree]
  | cons b p ih =>
    cases sh with
    | leaf y => simp [Shape.subtree] at hb
    | placeholder => simp [Shape.subtree] at hb
    | inner l r =>
      simp only [Shape.full, Bool.and_eq_true] at hf
      cases b with
      | false => exact ih hf.1 hb
      | true => exact ih hf.2 hb

/-- The A = 1 tree and the full trees with an inner root (R28). -/
theorem Shape.legal_cases {sh : Shape} (h : sh.legal = true) :
    (∃ y, sh = .inner (.leaf y) .placeholder) ∨ (sh.full = true ∧ ∃ l r, sh = .inner l r) := by
  unfold Shape.legal at h
  split at h
  case h_1 y => exact .inl ⟨y, rfl⟩
  case h_2 l r _ => exact .inr ⟨h, l, r, rfl⟩
  case h_3 => simp at h
  case h_4 => simp at h

theorem Shape.exists_leaf_of_subtree_inner {sh l r : Shape} {p : List Bool} (hs : sh.legal = true) (hb : sh.subtree p = some (.inner l r)) :
    ∃ x, x ∈ (Shape.inner l r).leaves := by
  rcases Shape.legal_cases hs with ⟨y, rfl⟩ | ⟨hf, -⟩
  · match p with
    | [] =>
      cases hb
      exact ⟨y, by simp [Shape.leaves]⟩
    | [b] => cases b <;> simp [Shape.subtree] at hb
    | b :: _ :: _ => cases b <;> simp [Shape.subtree] at hb
  · exact Shape.exists_leaf_of_full (Shape.full_of_subtree hf hb)

/-! ### What the subtree behind a bit string says about the lookups -/

/-- The codes of `e` that begin with `p` are `p` and a path of `sub` behind it. -/
def CodesBehind (e : CodeTable) (p : List Bool) (sub : Shape) : Prop :=
  ∀ x q, ((e.of x).valid = true ∧ (e.of x).string = p ++ q) ↔ sub.path x = some q

section
variable {e : CodeTable} {p : List Bool}

theorem CodesBehind.decodeTable_none {sub : Shape} (h : CodesBehind e p sub) (hsub : ∀ x, sub.path x ≠ some []) :
    decodeTable e p = none :=
  decodeTable_eq_none_iff.mpr fun x hx => hsub x ((h x []).mp (by simpa using hx))

theorem CodesBehind.startsCode_iff {sub : Shape} (h : CodesBehind e p sub) :
    startsCode e p = true ↔ ∃ x q, sub.path x = some q ∧ q ≠ [] := by
  simp only [Machine.startsCode_iff, ← and_assoc, h _ _]

/-- A leaf is the exact match. -/
theorem CodesBehind.leaf {y : Byte} (h : CodesBehind e p (.leaf y)) : decodeTable e p = some y := by
  have hpath (x : Byte) : ((e.of x).valid = true ∧ (e.of x).string = p) ↔ x = y := by
    simpa [Shape.path] using h x []
  cases hx : decodeTable e p with
  | none => exact absurd ((hpath y).mpr rfl) (decodeTable_eq_none_iff.mp hx y)
  | some x => rw [(hpath x).mp (code_of_decodeTable hx)]

/-- An internal node with a leaf below it begins that leaf's code and is itself the code of no symbol. -/
theorem CodesBehind.inner {l r : Shape} (h : CodesBehind e p (.inner l r)) (hleaf : ∃ x, x ∈ (Shape.inner l r).leaves) :
    decodeTable e p = none ∧ startsCode e p = true := by
  refine ⟨h.decodeTable_none (Shape.path_inner_ne_nil l r), h.startsCode_iff.mpr ?_⟩
  obtain ⟨x, hx⟩ := hleaf
  obtain ⟨q, hq⟩ := Option.isSome_iff_exists.mp ((Shape.path_isSome _ x).mpr hx)
  exact ⟨x, q, hq, fun hnil => Shape.path_inner_ne_nil l r x (hnil ▸ hq)⟩

/-- Behind the placeholder there is no code. -/
theorem CodesBehind.placeholder (h : CodesBehind e p .placeholder) : decodeTable e p = none ∧ startsCode e p = false := by
  refine ⟨h.decodeTable_none fun x => by simp [Shape.path], Bool.eq_false_iff.mpr fun hs => ?_⟩
  obtain ⟨x, q, hq, -⟩ := h.startsCode_iff.mp hs
  simp [Shape.path] at hq

end

/-- Of the empty tree's codes none begins with any string. -/
theorem codesBehind_placeholder_of_nil {s : State} (hc : CodesOk s) (ht : TreeOk s) (hv : s.codes.cvalid = true)
    (hnil : s.tree.root = nilHandle) (p : List Bool) : CodesBehind s.codes.enc p .placeholder := fun x q => by
  simp [hc.code_iff_pathOf ht hv, Tree.pathOf, hnil, Shape.path]

theorem codesBehind_of_subtree {s : State} {sh sub : Shape} {p : List Bool} (hc : CodesOk s) (ht : TreeOk s)
    (hv : s.codes.cvalid = true) (hroot : s.tree.root ≠ nilHandle) (hsh : s.tree.shape = some sh) (hnodup : sh.leaves.Nodup)
    (hb : sh.subtree p = some sub) : CodesBehind s.codes.enc p sub := fun x q => by
  rw [hc.code_iff_pathOf ht hv, Tree.pathOf_of_shape hroot hsh, Shape.path_append_iff hnodup hb]

/-! ### The obligation -/

/-- The empty tree has no entry to walk to. -/
theorem descend_nil (t : Arena) (p : List Bool) : descend t nilHandle p = none := by
  cases p <;> simp only [descend, Arena.of_nil]

/-- Settles O54: the walk along `p` ends at the root of the subtree behind `p`, whose paths are what is left of the codes that begin
with `p`. -/
theorem treeWalkIsDecoderTable : Obligations.TreeWalkIsDecoderTable := by
  intro s p ht hc hv
  refine ⟨fun hnil => (codesBehind_placeholder_of_nil hc ht hv hnil p).placeholder, fun n hn => ?_⟩
  rcases ht (hc hv).1 with ⟨hnil, -⟩ | ⟨hroot, sh, hsh, hlegal, hnodup, -⟩
  · cases (descend_nil s.tree.node p).symm.trans (hnil ▸ hn)
  · obtain ⟨d, h, sub, hentry, hsub, hsubtree⟩ := descend_eq_some hsh hn
    have hcodes := codesBehind_of_subtree hc ht hv hroot hsh hnodup hsubtree
    obtain ⟨_, m, -, hm, hkind⟩ := shapeAt_cases hsub
    cases hentry.symm.trans hm
    rcases hkind with ⟨hk, rfl⟩ | ⟨hk, rfl⟩ | ⟨hk, l, r, -, -, rfl⟩
    · simpa [hk] using hcodes.leaf
    · simpa [hk] using hcodes.placeholder
    · simpa [hk] using hcodes.inner (Shape.exists_leaf_of_subtree_inner hlegal hsubtree)

end Sys2Proof.Machine
end

section
/-! PROOFS. Encoding (30_encoding.md R67 to R72): the encoder and the decoder are inverse on the commands a word can hold. -/

namespace Sys2Proof

theorem decode_eq_decodeOp {w : Word} (h : reservedField w = 0) : decode w = decodeOp (opField w) (countField w) := by
  simp only [decode, h, ne_eq, not_true, if_false]

/-- The row of the opcode map that a command's own opcode and count select is the command's. -/
theorem decodeOp_of_wellFormed {i : Instr} (h : i.wellFormed = true) : decodeOp (opcodeOf i) (countOf i) = .command i := by
  cases i
  case wBits n => exact if_pos h
  case rBits n => exact if_pos h
  all_goals rfl

theorem decode_encode {i : Instr} (h : i.wellFormed = true) : decode (encode i) = .command i := by
  obtain ⟨hop, hcount, hrsv⟩ := Laws.OpcodeFields.fields_of_append (countOf i) (opcodeOf i)
  have hdecode : decode (encode i) = decodeOp (opField (encode i)) (countField (encode i)) := decode_eq_decodeOp hrsv
  rw [hdecode, encode, hop, hcount, decodeOp_of_wellFormed h]

/-- A word of the table's own width is decoded as it stands (R72). -/
theorem decodeTableWord_of_word {w : Word} {i : Instr} (h : decode w = .command i) : decodeTableWord 32 w.toNat = some i := by
  have hmod : w.toNat % 2 ^ 32 = w.toNat := Nat.mod_eq_of_lt w.isLt
  simp only [decodeTableWord, hmod, w.isLt, if_true, BitVec.ofNat_toNat, BitVec.setWidth_eq, h]

theorem wellFormed_of_decodeOp {op : Byte} {n : BitVec 6} {i : Instr} (h : decodeOp op n = .command i) : i.wellFormed = true := by
  unfold decodeOp at h
  split at h
  case h_17 => cases h
  all_goals
    simp only [uncounted_eq_command, counted_eq_command] at h
    obtain ⟨hn, rfl⟩ := h
    simp [Instr.wellFormed, countOk, hn]

theorem wellFormed_of_decode {w : Word} {i : Instr} (h : decode w = .command i) : i.wellFormed = true :=
  wellFormed_of_decodeOp (decode_eq_command_iff.mp h).2

/-- The fields of a command's word as one number. -/
theorem encode_toNat (i : Instr) : (encode i).toNat = 2 ^ 8 * (countOf i).toNat + (opcodeOf i).toNat := by
  rw [encode, Machine.toNat_append_eq_add, Machine.toNat_append_eq_add]
  simp

theorem encode_of_decode {w : Word} {i : Instr} (h : decode w = .command i) : encode i = w := by
  obtain ⟨hop, hcount⟩ := fields_of_decode_eq_command h
  have hrsv := (decode_eq_command_iff.mp h).1
  refine BitVec.eq_of_toNat_eq ?_
  rw [encode_toNat, hop, hcount]
  omega

/-- Settles O1: the fields of an encoded command select its own row, and a decoded word is its fields. -/
theorem decodeAndEncodeAgree : Obligations.DecodeAndEncodeAgree :=
  ⟨fun _ h => ⟨decode_encode h, decodeTableWord_of_word (decode_encode h)⟩, fun _ _ h => ⟨wellFormed_of_decode h, encode_of_decode h⟩⟩

/-- Settles O2: each word by its fields. -/
theorem wordsDecode : Obligations.WordsDecode := by
  refine ⟨?_, ?_, ?_, ?_, ?_, ?_, ?_⟩ <;> decide

end Sys2Proof
end

section
/-! PROOFS. One step of the machine by the turn it takes (60_exceptions.md R121), the host's register window by offset (10_state.md R17 to R24)
and the host's memory moves (70_reset_and_hazards.md R139). -/

namespace Sys2Proof.Machine

/-! ### What a turn can do -/

/-- With no turn waiting the Core's is taken, and there is none to drop. -/
theorem step_eq_takeTurn (s : State) : step s = takeTurn (s.env.turns.headD .core) s.dropTurn := by
  cases h : s.env.turns with
  | nil =>
    have hdrop : s.dropTurn = s := by
      simp only [State.dropTurn, h, List.tail_nil]
      rw [← h]
    simp only [step, h, List.headD_nil, takeTurn, hdrop]
  | cons t ts => simp only [step, h, List.headD_cons]

theorem exec_eq_complete (i : Instr) (s : State) : ∃ x : Flow Unit, exec i s = x.complete := by
  cases i
  case freqClear => exact ⟨.ok () _, exec_freqClear s⟩
  case treeBuild =>
    rcases le_or_gt (freqSum s.cnt.freq) 0xFFFFFFFF with h | h
    · exact ⟨.ok () _, exec_treeBuild_of_fits h⟩
    · exact ⟨.error _ _, exec_treeBuild_of_overflow h⟩
  all_goals exact ⟨_, rfl⟩

theorem Flow.complete_ne_refused (x : Flow Unit) (r : Refusal) : x.complete ≠ .refused r := by
  cases x <;> simp [Flow.complete]

theorem coreTurn_of_disabled {s : State} (h : s.cmd.busy = false ∨ s.cmd.fault = true) : coreTurn s = .next s := by
  have : s.coreEnabled = false := by rcases h with h | h <;> simp [State.coreEnabled, h]
  simp [coreTurn, this]

/-- The three ends of the Core's turn: it has no step, its word is no command, or it runs the command. -/
theorem coreTurn_cases (s : State) :
    ((s.cmd.busy = false ∨ s.cmd.fault = true) ∧ coreTurn s = .next s) ∨
      (s.cmd.busy = true ∧ s.cmd.fault = false ∧
        (coreTurn s = .next (s.enterFault .illegalCmd s.cmd.pcmd) ∨
          ∃ i, decode s.cmd.pcmd = .command i ∧ coreTurn s = exec i s)) := by
  by_cases hoff : s.cmd.busy = false ∨ s.cmd.fault = true
  · exact .inl ⟨hoff, coreTurn_of_disabled hoff⟩
  · simp only [not_or, Bool.not_eq_false, Bool.not_eq_true] at hoff
    obtain ⟨hb, hf⟩ := hoff
    have hcore : coreTurn s = coreStep s := by simp [coreTurn, State.coreEnabled, hb, hf]
    refine .inr ⟨hb, hf, ?_⟩
    by_cases hcmd : ∃ i, decode s.cmd.pcmd = .command i
    · obtain ⟨i, hi⟩ := hcmd
      exact .inr ⟨i, hi, hcore.trans (coreStep_of_command hi)⟩
    · exact .inl (hcore.trans (coreStep_of_no_command hcmd))

/-- Every effect a host write can have. -/
theorem writeReg_cases (s : State) (reg : BitVec 10) (v : Word) :
    (reg = 0x001 ∧ v.getLsbD 0 = true ∧ writeReg s reg v = s.resetBlock) ∨
      (reg = 0x001 ∧ v.getLsbD 0 = false ∧
        writeReg s reg v = { s with regs := { s.regs with ie := v.getLsbD 1 }, cmd := { s.cmd with done := s.cmd.done && !v.getLsbD 2 } }) ∨
      (reg ≠ 0x001 ∧
        ((s.cmd.busy = true ∧ s.cmd.fault = false ∧ ∃ w, writeReg s reg v = s.enterFault .busyWrite w) ∨
          (s.cmd.busy = false ∧ s.cmd.fault = false ∧ writeReg s reg v = s.issue v) ∨
          (∃ r, writeReg s reg v = { s with regs := r }) ∨ writeReg s reg v = writeFreqData s v)) := by
  by_cases hctrl : reg = 0x001
  · subst hctrl
    have hw : writeReg s 0x001 v = writeCtrl s v := if_pos rfl
    rw [hw, writeCtrl]
    split
    · next h0 => exact .inl ⟨rfl, h0, rfl⟩
    · next h0 => exact .inr (.inl ⟨rfl, Bool.not_eq_true _ ▸ h0, rfl⟩)
  · have hne : regOffset reg ≠ 0x004 := regOffset_injective.ne (a₂ := 0x001) hctrl
    refine .inr (.inr ⟨hctrl, ?_⟩)
    unfold writeReg
    rw [if_neg hne]
    split
    · next hb => exact .inl ⟨by simp_all, by simp_all, _, rfl⟩
    split
    · split
      · exact .inr (.inr (.inl ⟨s.regs, rfl⟩))
      · next hb _ hf => exact .inr (.inl ⟨by simp_all, by simp_all, rfl⟩)
    · unfold writeIdle
      split
      case h_9 => exact .inr (.inr (.inr rfl))
      case h_13 => exact .inr (.inr (.inl ⟨s.regs, rfl⟩))
      all_goals exact .inr (.inr (.inl ⟨_, rfl⟩))

/-- The platform's reset, or the host's by `CTRL.SRST` (70_reset_and_hazards.md R136). -/
def Turn.Resets (turn : Turn) : Prop := turn = .hardReset ∨ ∃ v : Word, turn = .write 0x001 v ∧ v.getLsbD 0 = true

/-- Everything a turn can do to the state it is taken in. -/
inductive Effect (turn : Turn) (s : State) : State → Prop
  /-- An idle Core, a host read. -/
  | env (e : Env) : Effect turn s { s with env := e }
  | reset (h : turn.Resets) : Effect turn s s.resetBlock
  /-- A write to `CTRL` or to a plain register: `DONE` is at most cleared. -/
  | regs (r : HostRegs) (d : Bool) (h : d = true → s.cmd.done = true) : Effect turn s { s with regs := r, cmd := { s.cmd with done := d } }
  /-- A busy write, or a word that is no command. -/
  | fault (f : FaultCode) (w : Word) (hb : s.cmd.busy = true) (hf : s.cmd.fault = false) (h : f ≠ .none) : Effect turn s (s.enterFault f w)
  | issue (w : Word) (hb : s.cmd.busy = false) (hf : s.cmd.fault = false) : Effect turn s (s.issue w)
  | freqData (v : Word) : Effect turn s (writeFreqData s v)
  | store (a : Word) (v : Byte) : Effect turn s { s with mem := s.mem.write a.toNat v }
  | command (i : Instr) (t : State) (hi : i.wellFormed = true) (hb : s.cmd.busy = true) (hf : s.cmd.fault = false)
      (h : exec i s = .next t) : Effect turn s t

theorem takeTurn_effect {turn : Turn} {s t : State} (ht : takeTurn turn s = .next t) : Effect turn s t := by
  cases turn with
  | core =>
    replace ht : coreTurn s = .next t := ht
    rcases coreTurn_cases s with ⟨-, hc⟩ | ⟨hb, hf, hc | ⟨i, hi, hc⟩⟩
    · cases hc.symm.trans ht
      exact .env s.env
    · cases hc.symm.trans ht
      exact .fault _ _ hb hf (by decide)
    · exact .command i t (wellFormed_of_decode hi) hb hf (hc.symm.trans ht)
  | write reg v =>
    cases ht
    rcases writeReg_cases s reg v with ⟨rfl, h0, h⟩ | ⟨-, -, h⟩ | ⟨-, ⟨hb, hf, w, h⟩ | ⟨hb, hf, h⟩ | ⟨r, h⟩ | h⟩ <;> rw [h]
    · exact .reset (.inr ⟨v, rfl, h0⟩)
    · exact .regs _ _ (by simp +contextual)
    · exact .fault _ w hb hf (by decide)
    · exact .issue v hb hf
    · exact .regs r s.cmd.done id
    · exact .freqData v
  | read reg =>
    cases ht
    exact .env _
  | memWrite a v =>
    simp only [takeTurn, hostStore] at ht
    split at ht <;> cases ht
    exact .store a v
  | memRead a =>
    simp only [takeTurn, hostLoad] at ht
    split at ht <;> cases ht
    exact .env _
  | hardReset =>
    cases ht
    exact .reset (.inl rfl)

theorem step_effect {s t : State} (ht : step s = .next t) : Effect (s.env.turns.headD .core) s.dropTurn t :=
  takeTurn_effect (step_eq_takeTurn s ▸ ht)

/-! ### The register window by offset -/

theorem reg_eq_of_offset {reg k : BitVec 10} (h : 4 * reg.toNat = 4 * k.toNat) : reg = k := regOffset_injective h

/-- The offsets that a host write with no command issued acts on. -/
def writtenOffsets : List Nat := [0x004, 0x008, 0x010, 0x018, 0x01C, 0x020, 0x024, 0x028, 0x02C, 0x068, 0x06C, 0x070, 0x07C, 0x080]

theorem writeIdle_of_unwritten {s : State} {reg : BitVec 10} (h : regOffset reg ∉ writtenOffsets) (v : Word) : writeIdle s reg v = s := by
  unfold writeIdle
  split
  case h_13 => rfl
  all_goals
    next hreg => exact absurd (hreg ▸ h) (by decide)

theorem writeReg_of_unwritten {s : State} (hb : s.cmd.busy = false) {reg : BitVec 10} (h : regOffset reg ∉ writtenOffsets) (v : Word) :
    writeReg s reg v = s := by
  have hne (k : BitVec 10) (hk : regOffset k ∈ writtenOffsets) : reg ≠ k := fun e => h (e ▸ hk)
  rw [writeReg_of_idle hb (hne 0x001 (by decide)) (hne 0x002 (by decide)), writeIdle_of_unwritten h]

theorem readReg_of_unmapped {s : State} {reg : BitVec 10} (h : 0x08C < regOffset reg) : readReg s reg = 0 := by
  unfold readReg
  split
  case h_37 => rfl
  all_goals
    next hreg => exact absurd (hreg ▸ h) (by decide)

/-- A 64-bit register's halves. -/
theorem extractLsb'_toNat_low (x : BitVec 64) : (x.extractLsb' 0 32).toNat = x.toNat % 2 ^ 32 := by
  simp only [BitVec.extractLsb'_toNat, Nat.shiftRight_zero]

theorem extractLsb'_toNat_high (x : BitVec 64) : (x.extractLsb' 32 32).toNat = x.toNat / 2 ^ 32 := by
  have hx : x.toNat / 2 ^ 32 < 2 ^ 32 := by have := x.isLt; omega
  simp only [BitVec.extractLsb'_toNat, Nat.shiftRight_eq_div_pow, Nat.mod_eq_of_lt hx]

/-- A narrow register, read back, holds the low bits of what was written. -/
theorem setWidth_setWidth_word (v : Word) {k : Nat} (hk : k ≤ 32) : (v.setWidth k).setWidth 32 = v &&& BitVec.ofNat 32 (2 ^ k - 1) := by
  have hpow : 2 ^ k ≤ 2 ^ 32 := Nat.pow_le_pow_right (by decide) hk
  refine BitVec.eq_of_toNat_eq ?_
  have hlt : v.toNat % 2 ^ k < 2 ^ 32 := (Nat.mod_lt _ (Nat.two_pow_pos k)).trans_le hpow
  rw [BitVec.toNat_and, BitVec.toNat_ofNat, Nat.mod_eq_of_lt (b := 2 ^ 32) (by have := Nat.two_pow_pos k; omega),
    Nat.and_two_pow_sub_one_eq_mod, BitVec.toNat_setWidth, BitVec.toNat_setWidth, Nat.mod_eq_of_lt hlt]

theorem ctrlWord_eq_and (s : State) {v : Word} (h : s.regs.ie = v.getLsbD 1) : s.ctrlWord = v &&& 0x2 := by
  refine BitVec.eq_of_toNat_eq ?_
  have hmask : v.toNat &&& 2 = 2 * (v.getLsbD 1).toNat := by
    have := Nat.and_two_pow v.toNat 1
    rw [show (2 : Nat) ^ 1 = 2 from rfl] at this
    rw [this, Nat.mul_comm, BitVec.getLsbD]
  rw [State.ctrlWord, toNat_append_eq_add, toNat_append_eq_add, BitVec.toNat_and, BitVec.toNat_ofBool, h]
  simpa using hmask.symm

/-! ### Reset -/

theorem readReg_resetBlock (s : State) (reg : BitVec 10) : readReg s.resetBlock reg = readReg State.reset reg := rfl

theorem nodeData0_reset : State.reset.nodeData0 = 0x0FFFFC00 := by
  have : State.reset.tree.node.of State.reset.regs.nodeIdx = some Node.blank := by simp [State.reset, Arena.of]
  rw [State.nodeData0_of_some this]
  rfl

theorem nodeData1_reset : State.reset.nodeData1 = 0 := by
  have : State.reset.tree.node.of State.reset.regs.nodeIdx = some Node.blank := by simp [State.reset, Arena.of]
  rw [State.nodeData1_of_some this]
  rfl

theorem enc_reset_of (x : Byte) : State.reset.codes.enc.of x = Code.blank := CodeTable.of_blank x

/-- R134's summary of the register window, and the arena's view. -/
theorem readReg_reset (reg : BitVec 10) :
    readReg State.reset reg = if reg = 0x000 then 0x48554631 else if reg = 0x00F then 511 else if reg = 0x01D then 0x0FFFFC00 else 0 := by
  by_cases hid : reg = 0x000
  · subst hid; rfl
  by_cases hroot : reg = 0x00F
  · subst hroot; rfl
  by_cases hnode : reg = 0x01D
  · subst hnode; exact nodeData0_reset
  rw [if_neg hid, if_neg hroot, if_neg hnode]
  unfold readReg
  split
  case h_1 h => exact absurd (reg_eq_of_offset (k := 0x000) h) hid
  case h_16 h => exact absurd (reg_eq_of_offset (k := 0x00F) h) hroot
  case h_30 h => exact absurd (reg_eq_of_offset (k := 0x01D) h) hnode
  case h_28 => exact FreqTable.of_zero _
  case h_31 => exact nodeData1_reset
  case h_34 => simp only [State.codeLen, enc_reset_of]; rfl
  case h_35 => simp only [State.codeData, enc_reset_of]; rfl
  all_goals rfl

/-- The reset turns: the platform's, and a soft reset by `CTRL` (R136). -/
theorem step_of_reset {s : State} {ts : List Turn}
    (h : s.env.turns = .hardReset :: ts ∨ ∃ v : Word, s.env.turns = .write 0x001 v :: ts ∧ v.getLsbD 0 = true) :
    step s = .next ({ s with env := { s.env with turns := ts } } : State).resetBlock := by
  rcases h with hts | ⟨v, hts, h0⟩
  · exact step_of_turns_cons hts
  · rw [step_of_write hts]
    exact congrArg _ ((if_pos rfl).trans (if_pos h0))

/-! ### Host memory moves -/

theorem inRegion_iff {base len : Word} {a : Nat} : inRegion base len a = true ↔ base.toNat ≤ a ∧ a < base.toNat + len.toNat := by
  simp [inRegion]

/-- The regions of R139, each with the commands that use it. -/
theorem usesAddress_iff (s : State) (i : Instr) (a : Nat) :
    usesAddress s i a = true ↔
      (i ∈ [.freqCount, .sEncode] ∧ inRegion s.regs.ibase s.regs.ilen a = true) ∨
        (i ∈ [.wOpen, .rOpen] ∧ inRegion s.regs.sbase s.regs.slen a = true) ∨
          ((i ∈ [.wMagic, .wClose, .rMagic, .rClose, .tSerialize, .tDeserialize, .sEncode, .sDecode] ∨ (∃ n, i = .wBits n) ∨ ∃ n, i = .rBits n) ∧
              inRegion s.ch.lbase s.ch.llen a = true) ∨
            (i = .sDecode ∧ inRegion s.regs.obase s.regs.olen a = true) := by
  cases i <;> simp [usesAddress]
  case sDecode => exact or_comm

theorem regionInUse_iff (s : State) (a : Nat) :
    regionInUse s a = true ↔
      s.cmd.busy = true ∧ s.cmd.fault = false ∧ ∃ i, decode s.cmd.pcmd = .command i ∧ usesAddress s i a = true := by
  unfold regionInUse
  cases hd : decode s.cmd.pcmd <;> simp [and_assoc]

/-- Only a host's access to memory is refused. -/
theorem takeTurn_refused {turn : Turn} {s : State} {r : Refusal} (h : takeTurn turn s = .refused r) :
    r = .regionInUse ∧ ∃ a, regionInUse s a = true ∧ ∃ w : Word, turn = .memRead w ∨ ∃ v, turn = .memWrite w v := by
  cases turn with
  | core =>
    replace h : coreTurn s = .refused r := h
    rcases coreTurn_cases s with ⟨-, hc⟩ | ⟨-, -, hc | ⟨i, -, hc⟩⟩
    · cases hc.symm.trans h
    · cases hc.symm.trans h
    · obtain ⟨x, hx⟩ := exec_eq_complete i s
      exact absurd ((hx.symm.trans hc.symm).trans h) (Flow.complete_ne_refused x r)
  | memWrite w v =>
    simp only [takeTurn, hostStore] at h
    split at h <;> cases h
    next hu => exact ⟨rfl, _, hu, w, .inr ⟨v, rfl⟩⟩
  | memRead w =>
    simp only [takeTurn, hostLoad] at h
    split at h <;> cases h
    next hu => exact ⟨rfl, _, hu, w, .inl rfl⟩
  | _ => cases h

/-! ### The obligations -/

/-- Settles O4: the Core's turn with and without a command issued, whether it waits or comes because none does. -/
theorem stepRunsDecodedCommand : Obligations.StepRunsDecodedCommand := by
  refine fun s => ⟨fun i hb hf hi => ⟨fun hts => ?_, fun ts hts => ?_⟩, fun hoff => ⟨fun hts => ?_, fun ts hts => ?_⟩⟩
  · rw [step_of_issued hb hf hts, coreStep_of_command hi]
  · rw [step_of_turns_cons hts]
    let u : State := { s with env := { s.env with turns := ts } }
    show coreTurn u = exec i u
    rw [coreTurn, if_pos (by simp [State.coreEnabled, u, hb, hf]), coreStep_of_command (s := u) hi]
  · rw [step, hts]
    exact coreTurn_of_disabled hoff
  · rw [step_of_turns_cons hts]
    exact coreTurn_of_disabled (s := { s with env := { s.env with turns := ts } }) hoff

/-- Settles O7: a write to an offset that none of the window's arms names falls through, and each view is its arm of the read. -/
theorem readOnlyRegisters : Obligations.ReadOnlyRegisters := by
  intro s reg ts u
  have hwrite (v : Word) (hb : s.cmd.busy = false) (hreg : regOffset reg ∉ writtenOffsets) (hts : s.env.turns = .write reg v :: ts) :
      step s = .next u := by
    rw [step_of_write hts]
    exact congrArg _ (writeReg_of_unwritten (s := u) hb hreg v)
  refine ⟨hwrite, step_of_read, readReg_of_unmapped, rfl, rfl, ?_⟩
  refine ⟨extractLsb'_toNat_low _, extractLsb'_toNat_high _, extractLsb'_toNat_low _, extractLsb'_toNat_high _, rfl, rfl, rfl, ?_, ?_, rfl, ?_, ?_,
    rfl, rfl, rfl, rfl⟩
  all_goals exact BitVec.toNat_setWidth_of_le (by decide)

/-- Settles O8: each register by its word index; the narrow ones read back the bits of their width. -/
theorem plainRegistersStore : Obligations.PlainRegistersStore := by
  intro s v ts reg hb hts u stores
  have hstores (k : BitVec 10) (r : HostRegs) (kept : Word) (h₁ : k ≠ 0x001) (h₂ : k ≠ 0x002)
      (hw : writeIdle u k v = { u with regs := r }) (hr : readReg { u with regs := r } k = kept) (hreg : 4 * reg.toNat = 4 * k.toNat) :
      stores r kept := by
    obtain rfl := reg_eq_of_offset hreg
    refine ⟨?_, hr⟩
    rw [step_of_write hts]
    exact congrArg _ ((writeReg_of_idle (s := u) hb h₁ h₂ v).trans hw)
  refine ⟨hstores 0x004 _ _ ?_ ?_ rfl rfl, hstores 0x006 _ _ ?_ ?_ rfl rfl, hstores 0x007 _ _ ?_ ?_ rfl rfl, hstores 0x008 _ _ ?_ ?_ rfl rfl,
    hstores 0x009 _ _ ?_ ?_ rfl rfl, hstores 0x00A _ _ ?_ ?_ rfl rfl, hstores 0x00B _ _ ?_ ?_ rfl rfl,
    hstores 0x01A _ _ ?_ ?_ rfl (setWidth_setWidth_word v (k := 8) ?_), hstores 0x01C _ _ ?_ ?_ rfl (setWidth_setWidth_word v (k := 9) ?_),
    hstores 0x01F _ _ ?_ ?_ rfl (setWidth_setWidth_word v (k := 8) ?_), hstores 0x020 _ _ ?_ ?_ rfl (setWidth_setWidth_word v (k := 3) ?_)⟩
  all_goals decide

/-- Settles O10: the second of the effects that a write can have. -/
theorem controlWrite : Obligations.ControlWrite := by
  intro s v ts hts h0 t
  refine ⟨?_, ctrlWord_eq_and t rfl⟩
  let u : State := { s with env := { s.env with turns := ts } }
  have hctrl : writeReg u 0x001 v = writeCtrl u v := if_pos rfl
  have hdone : (s.cmd.done && !v.getLsbD 2) = if v.getLsbD 2 then false else s.cmd.done := by cases v.getLsbD 2 <;> simp
  rw [step_of_write hts, hctrl, writeCtrl, if_neg (by simp only [h0, Bool.false_eq_true, not_false_eq_true]), hdone]

/-- Settles O11: both resets end in `resetBlock`, whose registers and arrays are those of `State.reset`. -/
theorem resetAction : Obligations.ResetAction := by
  intro s ts h
  refine ⟨_, step_of_reset h, rfl, rfl, rfl, fun reg => (readReg_resetBlock _ reg).trans (readReg_reset reg), rfl, rfl, rfl, FreqTable.of_zero, rfl,
    fun h hne => ?_, rfl, rfl, rfl, enc_reset_of, rfl, rfl, rfl, rfl, rfl, rfl, rfl⟩
  have hlt : h.toNat < 511 := by
    have hne' : h.toNat ≠ 511 := fun e => hne (BitVec.eq_of_toNat_eq e)
    have := h.isLt
    omega
  simp [State.reset, Arena.of, Node.blank, hlt]

/-- Settles O14: the regions of R139 are those `usesAddress` names, and nothing but a host move is refused. -/
theorem hostMemoryMoves : Obligations.HostMemoryMoves := by
  refine ⟨?moves, fun s r h => ?refused⟩
  case moves =>
    intro s a ts hwf u lies inUse
    have hin : inUse ↔ regionInUse u a.toNat = true := by
      simp only [regionInUse_iff, usesAddress_iff, inRegion_iff]
      rfl
    refine ⟨fun v hts => ?_, fun hts => ?_⟩ <;> rw [hin, step_of_turns_cons hts]
    · refine ⟨fun hu => if_pos hu, fun hu => ⟨s.mem.write a.toNat v, if_neg hu, Memory.write_wf _ _ _ a.isLt hwf,
        Memory.read_write_same _ _ _ hwf, fun b hb => Memory.read_write_other _ _ _ _ hb⟩⟩
    · exact ⟨fun hu => if_pos hu, fun hu => if_neg hu⟩
  case refused =>
    rw [step_eq_takeTurn] at h
    obtain ⟨rfl, a, hu, w, hturn⟩ := takeTurn_refused h
    obtain ⟨hb, hf, -⟩ := (regionInUse_iff _ _).mp hu
    refine ⟨rfl, hb, hf, w, s.env.turns.tail, ?_⟩
    cases hts : s.env.turns with
    | nil => simp [hts] at hturn
    | cons turn ts => simpa [hts] using hturn

/-- Settles O15: of the effects a turn can have in a fault, only reset touches the fault registers, and only a reset turn resets. -/
theorem faultIsSticky : Obligations.FaultIsSticky := by
  intro s t hf ht resets
  refine ⟨fun hr => ?reset, fun hr => ?other⟩
  case reset =>
    have : ∃ u : State, t = u.resetBlock := by
      rcases hr with ⟨ts, hts⟩ | ⟨v, ts, hts, h0⟩
      · cases (step_of_reset (.inl hts)).symm.trans ht
        exact ⟨_, rfl⟩
      · cases (step_of_reset (.inr ⟨v, hts, h0⟩)).symm.trans ht
        exact ⟨_, rfl⟩
    obtain ⟨u, rfl⟩ := this
    rfl
  case other =>
    have hno : ¬(s.env.turns.headD .core).Resets := by
      intro hres
      cases hts : s.env.turns with
      | nil => simp [hts, Turn.Resets] at hres
      | cons turn ts =>
        rw [hts, List.headD_cons] at hres
        rcases hres with rfl | ⟨v, rfl, h0⟩
        · exact hr (.inl ⟨ts, hts⟩)
        · exact hr (.inr ⟨v, ts, hts, h0⟩)
    have hdone : ∃ d, t.cmd = { s.cmd with done := d } := by
      cases step_effect ht with
      | env e => exact ⟨_, rfl⟩
      | reset h => exact absurd h hno
      | regs r d h => exact ⟨_, rfl⟩
      | fault f w _ hf' => exact absurd (hf.symm.trans hf') (by decide)
      | issue w _ hf' => exact absurd (hf.symm.trans hf') (by decide)
      | freqData v => exact ⟨_, rfl⟩
      | store a v => exact ⟨_, rfl⟩
      | command i t _ _ hf' => exact absurd (hf.symm.trans hf') (by decide)
    obtain ⟨d, hd⟩ := hdone
    simp [hd, hf, State.coreEnabled]

end Sys2Proof.Machine
end

section
/-! PROOFS. How a piece of a command ends, by the three ways it can (60_exceptions.md R116 to R118), and what the bus and the bit channel's
primitives do in any state, whichever way they end. -/

namespace Sys2Proof.Machine

variable {α β : Type}

/-! ### Postconditions -/

/-- Each way a piece can end satisfies its own postcondition. -/
def Flow.Post (ok : α → State → Prop) (err : ErrCode → State → Prop) (raise : FaultCode → Word → State → Prop) : Flow α → Prop
  | .ok a s => ok a s
  | .error e s => err e s
  | .raise f w s => raise f w s
  | .stop _ => True

section
variable {ok : α → State → Prop} {err err' : ErrCode → State → Prop} {raise raise' : FaultCode → Word → State → Prop}

theorem Flow.Post.mono {ok' : α → State → Prop} {x : Flow α} (h : x.Post ok err raise) (hok : ∀ a s, ok a s → ok' a s)
    (herr : ∀ e s, err e s → err' e s) (hraise : ∀ f w s, raise f w s → raise' f w s) : x.Post ok' err' raise' := by
  cases x with
  | ok a s => exact hok a s h
  | error e s => exact herr e s h
  | raise f w s => exact hraise f w s h
  | stop r => trivial

/-- The rule for a sequence. -/
theorem Flow.Post.bind {ok' : β → State → Prop} {x : Flow α} {k : α → State → Flow β} (h : x.Post ok err raise)
    (hk : ∀ a s, ok a s → (k a s).Post ok' err raise) : (x.bind k).Post ok' err raise := by
  cases x with
  | ok a s => exact hk a s h
  | error e s => exact h
  | raise f w s => exact h
  | stop r => trivial

theorem Flow.Post.of_ok {x : Flow α} {a : α} {s : State} (h : x.Post ok err raise) (hx : x = .ok a s) : ok a s := by
  subst hx
  exact h

theorem Flow.Post.and {ok' : α → State → Prop} {x : Flow α} (h : x.Post ok err raise) (h' : x.Post ok' err' raise') :
    x.Post (fun a s => ok a s ∧ ok' a s) (fun e s => err e s ∧ err' e s) (fun f w s => raise f w s ∧ raise' f w s) := by
  cases x with
  | stop r => trivial
  | _ => exact ⟨h, h'⟩

/-- The next state of a command by the postconditions of its last piece. -/
theorem Flow.Post.complete {ok : Unit → State → Prop} {x : Flow Unit} {t : State} (h : x.Post ok err raise) (ht : x.complete = .next t) :
    (∃ u, ok () u ∧ t = u.finish) ∨ (∃ e u, err e u ∧ t = u.finishError e) ∨ ∃ f w u, raise f w u ∧ t = u.enterFault f w := by
  rcases Flow.complete_eq_next ht with ⟨u, rfl, rfl⟩ | ⟨e, u, rfl, rfl⟩ | ⟨f, w, u, rfl, rfl⟩
  · exact .inl ⟨u, h, rfl⟩
  · exact .inr (.inl ⟨e, u, h, rfl⟩)
  · exact .inr (.inr ⟨f, w, u, h, rfl⟩)

theorem Flow.lift_post {x : Except Fault α} {s : State} (h : ∀ a, x = .ok a → ok a s) : (Flow.lift x s).Post ok err raise := by
  cases x with
  | ok a => exact h a rfl
  | error r => trivial

end

/-- The piece does not stop the model. -/
def Flow.Safe (x : Flow α) : Prop := ∀ r, x ≠ .stop r

theorem Flow.Safe.bind {x : Flow α} {k : α → State → Flow β} (h : x.Safe) (hk : ∀ a s, x = .ok a s → (k a s).Safe) : (x.bind k).Safe := by
  cases x with
  | ok a s => exact hk a s rfl
  | error e s => exact fun _ => nofun
  | raise f w s => exact fun _ => nofun
  | stop r => exact absurd rfl (h r)

theorem Flow.safe_ok (a : α) (s : State) : (Flow.ok a s).Safe := fun _ => nofun

theorem Flow.safe_error (e : ErrCode) (s : State) : (Flow.error e s : Flow α).Safe := fun _ => nofun

theorem Flow.safe_raise (f : FaultCode) (w : Word) (s : State) : (Flow.raise f w s : Flow α).Safe := fun _ => nofun

theorem Flow.Safe.complete {x : Flow Unit} (h : x.Safe) (r : Fault) : x.complete ≠ .fault r := by
  cases x with
  | stop r => exact absurd rfl (h r)
  | _ => exact nofun

theorem raiseAt_eq (f : FaultCode) (n : Nat) (s : State) :
    ∃ w, (raiseAt f n s : Flow α) = .raise f w s ∧ (n < 2 ^ 32 → w = BitVec.ofNat 32 n) := by
  unfold raiseAt
  split
  · exact ⟨_, rfl, fun _ => rfl⟩
  · next h => exact ⟨_, rfl, fun h' => absurd h' h⟩

/-! ### The checks -/

section
variable {err : ErrCode → State → Prop} {raise : FaultCode → Word → State → Prop} {s : State}

theorem requireMode_post (m : ChMode) (h : s.ch.mode ≠ m → raise .wrongMode (s.ch.mode.code.setWidth 32) s) :
    (requireMode m s).Post (fun _ t => t = s ∧ s.ch.mode = m) err raise := by
  by_cases hm : s.ch.mode = m
  · rw [requireMode_ok hm]; exact ⟨rfl, hm⟩
  · rw [requireMode_wrong hm]; exact h hm

theorem requireTree_post (h : raise .noTree 0 s) : (requireTree s).Post (fun _ t => t = s ∧ s.tree.tvalid = true) err raise := by
  unfold requireTree
  split
  · next ht => exact ⟨rfl, ht⟩
  · exact h

theorem requireCodes_post (h : raise .noCodes 0 s) : (requireCodes s).Post (fun _ t => t = s ∧ s.codes.cvalid = true) err raise := by
  unfold requireCodes
  split
  · next ht => exact ⟨rfl, ht⟩
  · exact h

theorem requireRegion_post (base len w : Word) (h : raise .regionFault w s) :
    (requireRegion base len w s).Post (fun _ t => t = s ∧ regionOK base len = true) err raise := by
  unfold requireRegion
  split
  · next ht => exact ⟨rfl, ht⟩
  · exact h

theorem requireApart_post (base len w : Word) (h : raise .regionFault w s) :
    (requireApart base len w s).Post (fun _ t => t = s ∧ overlaps base len s.ch.lbase s.ch.llen = false) err raise := by
  unfold requireApart
  split
  · exact h
  · next ht => exact ⟨rfl, Bool.not_eq_true _ ▸ ht⟩

end

theorem requireMode_safe (m : ChMode) (s : State) : (requireMode m s).Safe := by
  unfold requireMode; split <;> exact fun _ => nofun

theorem requireTree_safe (s : State) : (requireTree s).Safe := by
  unfold requireTree; split <;> exact fun _ => nofun

theorem requireCodes_safe (s : State) : (requireCodes s).Safe := by
  unfold requireCodes; split <;> exact fun _ => nofun

theorem requireRegion_safe (base len w : Word) (s : State) : (requireRegion base len w s).Safe := by
  unfold requireRegion; split <;> exact fun _ => nofun

theorem requireApart_safe (base len w : Word) (s : State) : (requireApart base len w s).Safe := by
  unfold requireApart; split <;> exact fun _ => nofun

/-! ### One access -/

theorem memRead_post (a : Nat) (s : State) :
    (memRead a s).Post (fun v t => a < 2 ^ 32 ∧ v = s.mem.read a ∧ t = s.drawNext) (fun _ _ => False)
      (fun f w t => f = .busError ∧ w.toNat = a ∧ t = s.drawNext) := by
  unfold memRead
  split
  · next ha =>
    split
    · exact ⟨ha, rfl, rfl⟩
    · exact ⟨rfl, Nat.mod_eq_of_lt ha, rfl⟩
  · trivial

/-- The state after a byte was put at `a` by an access. -/
def State.stored (s : State) (a : Nat) (v : Byte) : State := { s.drawNext with mem := s.mem.write a v }

theorem memWrite_post (a : Nat) (v : Byte) (s : State) :
    (memWrite a v s).Post (fun _ t => a < 2 ^ 32 ∧ t = s.stored a v) (fun _ _ => False)
      (fun f w t => a < 2 ^ 32 ∧ f = .busError ∧ w.toNat = a ∧ t = s.stored a (Config.freeByte s.env.drawn)) := by
  unfold memWrite
  split
  · next ha =>
    split
    · exact ⟨ha, rfl⟩
    · exact ⟨ha, rfl, Nat.mod_eq_of_lt ha, rfl⟩
  · trivial

theorem memRead_safe {a : Nat} (ha : a < 2 ^ 32) (s : State) : (memRead a s).Safe := by
  unfold memRead
  rw [if_pos ha]
  split <;> exact fun _ => nofun

theorem memWrite_safe {a : Nat} (ha : a < 2 ^ 32) (v : Byte) (s : State) : (memWrite a v s).Safe := by
  unfold memWrite
  rw [if_pos ha]
  split <;> exact fun _ => nofun

theorem State.stored_read_other (s : State) {a b : Nat} (v : Byte) (h : b ≠ a) : (s.stored a v).mem.read b = s.mem.read b :=
  Memory.read_write_other _ _ _ _ h

theorem State.stored_wf (s : State) {a : Nat} (v : Byte) (ha : a < 2 ^ 32) (h : s.mem.wf = true) : (s.stored a v).mem.wf = true :=
  Memory.write_wf _ _ _ ha h

theorem State.stored_keepsBlock (s : State) (a : Nat) (v : Byte) : KeepsBlock s (s.stored a v) := by simp [KeepsBlock, State.stored]

@[simp] theorem State.stored_ch (s : State) (a : Nat) (v : Byte) : (s.stored a v).ch = s.ch := rfl

@[simp] theorem State.stored_env (s : State) (a : Nat) (v : Byte) : (s.stored a v).env = s.drawNext.env := rfl

@[simp] theorem State.stored_mem (s : State) (a : Nat) (v : Byte) : (s.stored a v).mem = s.mem.write a v := rfl

/-! ### Commits (20_memory.md R54, R55) -/

/-- What a writer may have done when it is given at most `n` bits more, in any state: the committed bytes lie between the two positions, one
access each, and `reads` other accesses were made; with `failed`, one access more failed at the position reached. -/
structure Wrote (s t : State) (n reads : Nat) (failed : Bool) : Prop where
  keeps : WriterKeeps s t
  wf : s.mem.wf = true → t.mem.wf = true
  pos_le : s.ch.pos ≤ t.ch.pos
  bits_le : 8 * t.ch.pos + t.ch.bn.toNat ≤ 8 * s.ch.pos + s.ch.bn.toNat + n
  drawn : t.env.drawn = s.env.drawn + reads + (t.ch.pos - s.ch.pos) + failed.toNat
  read : ∀ a, a < s.ch.pos ∨ t.ch.pos + failed.toNat ≤ a → t.mem.read a = s.mem.read a

theorem Wrote.refl (s : State) : Wrote s s 0 0 false :=
  ⟨WriterKeeps.refl s, id, le_rfl, le_rfl, by simp, fun _ _ => rfl⟩

theorem Wrote.trans {s t u : State} {n m j k : Nat} {b : Bool} (h : Wrote s t n j false) (h' : Wrote t u m k b) :
    Wrote s u (n + m) (j + k) b where
  keeps := h.keeps.trans h'.keeps
  wf := h'.wf ∘ h.wf
  pos_le := h.pos_le.trans h'.pos_le
  bits_le := by have := h.bits_le; have := h'.bits_le; omega
  drawn := by have := h.drawn; have := h'.drawn; have := h.pos_le; have := h'.pos_le; simp at *; omega
  read a ha := by
    have := h.pos_le
    have := h'.pos_le
    rw [h'.read a (by omega), h.read a (by simp; omega)]

theorem Wrote.mono {s t : State} {n m k : Nat} {b : Bool} (h : Wrote s t n k b) (hnm : n ≤ m) : Wrote s t m k b :=
  ⟨h.keeps, h.wf, h.pos_le, h.bits_le.trans (by omega), h.drawn, h.read⟩

/-- How a writer's commit can fail: the region full, the header's bound, or the bus (R55); the byte stays in `BACC` with `BN = 8`. -/
def CommitFails (s : State) (n reads : Nat) (f : FaultCode) (w : Word) (t : State) : Prop :=
  t.ch.bn = 8 ∧
    ((Wrote s t n reads false ∧ ((f = .streamOverflow ∧ w = t.ch.bpos) ∨ (f = .headerOverflow ∧ w = t.ch.chT))) ∨
      (Wrote s t n reads true ∧ f = .busError ∧ w.toNat = t.ch.pos))

theorem CommitFails.trans {s t u : State} {n m j k : Nat} {f : FaultCode} {w : Word} (h : Wrote s t n j false)
    (h' : CommitFails t m k f w u) : CommitFails s (n + m) (j + k) f w u :=
  h'.imp_right (Or.imp (And.imp_left h.trans) (And.imp_left h.trans))

theorem CommitFails.mono {s t : State} {n m k : Nat} {f : FaultCode} {w : Word} (h : CommitFails s n k f w t) (hnm : n ≤ m) :
    CommitFails s m k f w t :=
  h.imp_right (Or.imp (And.imp_left fun h => h.mono hnm) (And.imp_left fun h => h.mono hnm))

theorem commit_post (v : Byte) (s : State) :
    (commit v s).Post
      (fun _ t => t = { (s.stored s.ch.pos v).setPos (s.ch.pos + 1) with
          ch := { ((s.stored s.ch.pos v).setPos (s.ch.pos + 1)).ch with chT := s.ch.chT + 8 } } ∧
        s.ch.pos < 2 ^ 32 ∧ s.ch.pos < s.ch.lbase.toNat + s.ch.llen.toNat ∧ s.ch.chT.toNat ≤ 0xFFFFFFF7)
      (fun _ _ => False)
      (fun f w t => (t = s ∧ ((f = .streamOverflow ∧ w = s.ch.bpos) ∨ (f = .headerOverflow ∧ w = s.ch.chT))) ∨
        (s.ch.pos < 2 ^ 32 ∧ f = .busError ∧ w.toNat = s.ch.pos ∧ t = s.stored s.ch.pos (Config.freeByte s.env.drawn))) := by
  unfold commit
  split
  · exact .inl ⟨rfl, .inl ⟨rfl, rfl⟩⟩
  split
  · exact .inl ⟨rfl, .inr ⟨rfl, rfl⟩⟩
  · next hroom hT =>
    refine ((memWrite_post s.ch.pos v s).mono (fun _ _ => id) (fun _ _ => id) fun f w t h => .inr h).bind ?_
    rintro _ t ⟨ha, rfl⟩
    refine ⟨?_, ha, by omega, by omega⟩
    simp

/-- A writer that has committed its byte. -/
theorem wrote_of_commit {s t : State} {v : Byte} {b : Bool} (h7 : s.ch.bn.toNat = 7) (hp : s.ch.pos < 2 ^ 32)
    (ht : t = { ((s.pushBit b).stored s.ch.pos v).setPos (s.ch.pos + 1) with
      ch := { (((s.pushBit b).stored s.ch.pos v).setPos (s.ch.pos + 1)).ch with chT := s.ch.chT + 8 } }) :
    Wrote s t.clearAcc 1 0 false := by
  have hpos : t.clearAcc.ch.pos = s.ch.pos + 1 := by rw [ht]; exact State.setPos_pos _ _ hp
  have hmem : t.clearAcc.mem = s.mem.write s.ch.pos v := by rw [ht]; simp
  have henv : t.clearAcc.env.drawn = s.env.drawn + 1 := by rw [ht]; simp
  refine ⟨?_, fun hwf => ?_, by omega, ?_, by rw [hpos, henv]; simp, fun a ha => ?_⟩
  · rw [ht]; simp [WriterKeeps, KeepsBlock, State.stored]
  · rw [hmem]; exact Memory.write_wf _ _ _ hp hwf
  · rw [hpos, h7]; simp; omega
  · rw [hmem]; exact Memory.read_write_other _ _ _ _ (by rw [hpos] at ha; simp at ha; omega)

theorem pushBit_bn_eq_eight {s : State} {b : Bool} : (s.pushBit b).ch.bn = 8 ↔ s.ch.bn.toNat = 7 := by
  have := s.ch.bn.isLt
  rw [← BitVec.toNat_inj]
  show (s.ch.bn.toNat + 1) % 2 ^ 4 = 8 ↔ _
  omega

theorem writeBit_post (b : Bool) (s : State) :
    (writeBit b s).Post (fun _ t => Wrote s t 1 0 false) (fun _ _ => False) (CommitFails s 1 0) := by
  have hbn : (s.pushBit b).ch.bn.toNat ≤ s.ch.bn.toNat + 1 := by
    show (s.ch.bn.toNat + 1) % 2 ^ 4 ≤ _
    exact Nat.mod_le ..
  have hpush : Wrote s (s.pushBit b) 1 0 false :=
    ⟨by simp [WriterKeeps, KeepsBlock], id, le_rfl, by show 8 * s.ch.pos + _ ≤ _; omega,
      by show _ = _ + 0 + (s.ch.pos - s.ch.pos) + 0; simp, fun _ _ => rfl⟩
  unfold writeBit
  simp only
  split
  · next h8 =>
    have h7 := pushBit_bn_eq_eight.mp h8
    refine ((commit_post _ (s.pushBit b)).mono (fun _ _ => id) (fun _ _ => id) fun f w t h => ?_).bind ?_
    · rcases h with ⟨rfl, h⟩ | ⟨hp, rfl, hw, rfl⟩
      · exact ⟨h8, .inl ⟨hpush, h⟩⟩
      · refine ⟨h8, .inr ⟨⟨?_, fun hwf => State.stored_wf _ _ hp hwf, le_rfl, hpush.bits_le, ?_, fun a ha => ?_⟩, rfl, hw⟩⟩
        · simp [WriterKeeps, KeepsBlock, State.stored]
        · show s.env.drawn + 1 = _ + 0 + (s.ch.pos - s.ch.pos) + 1
          omega
        · exact State.stored_read_other _ _ (by
            have hpos : ((s.pushBit b).stored (s.pushBit b).ch.pos (Config.freeByte (s.pushBit b).env.drawn)).ch.pos = s.ch.pos := rfl
            rw [hpos] at ha
            show a ≠ s.ch.pos
            simp at ha
            omega)
    · rintro _ t ⟨ht, hp, -⟩
      exact wrote_of_commit h7 hp ht
  · exact hpush

theorem writeString_post (p : List Bool) (s : State) :
    (writeString p s).Post (fun _ t => Wrote s t p.length 0 false) (fun _ _ => False) (CommitFails s p.length 0) := by
  induction p generalizing s with
  | nil => exact Wrote.refl s
  | cons b p ih =>
    have hlen : 1 + p.length = (b :: p).length := by simp; omega
    rw [← hlen]
    refine ((writeBit_post b s).mono (fun _ _ => id) (fun _ _ => id) fun f w t h => h.mono (by omega)).bind fun _ t ht => ?_
    exact (ih t).mono (fun _ _ h => ht.trans h) (fun _ _ => id) fun f w u h => .trans ht h

/-! ### Fetches (20_memory.md R56) -/

/-- What reading bits may have done in any state: one access for each byte the position passed, and with `failed` one more that failed. -/
structure Fetched (s t : State) (failed : Bool) : Prop where
  keeps : ReaderKeeps s t
  pos_le : s.ch.pos ≤ t.ch.pos
  drawn : t.env.drawn = s.env.drawn + (t.ch.pos - s.ch.pos) + failed.toNat

theorem Fetched.refl (s : State) : Fetched s s false := ⟨ReaderKeeps.refl s, le_rfl, by simp⟩

theorem Fetched.trans {s t u : State} {b : Bool} (h : Fetched s t false) (h' : Fetched t u b) : Fetched s u b where
  keeps := h.keeps.trans h'.keeps
  pos_le := h.pos_le.trans h'.pos_le
  drawn := by have := h.drawn; have := h'.drawn; have := h.pos_le; have := h'.pos_le; simp at *; omega

/-- A refill failed: `BUS_ERROR` with the position, no bit buffered, nothing consumed since `s` but what the bits before it did. -/
def FetchFails (s : State) (f : FaultCode) (w : Word) (t : State) : Prop :=
  f = .busError ∧ Fetched s t true ∧ w.toNat = t.ch.pos ∧ t.ch.bn = 0

theorem FetchFails.trans {s t u : State} {f : FaultCode} {w : Word} (h : Fetched s t false) (h' : FetchFails t f w u) : FetchFails s f w u :=
  ⟨h'.1, h.trans h'.2.1, h'.2.2⟩

theorem refill_post (s : State) :
    (refill s).Post (fun _ t => Fetched s t false ∧ t.ch.chC = s.ch.chC) (fun _ _ => False)
      (fun f w t => FetchFails s f w t ∧ t.ch.chC = s.ch.chC) := by
  unfold refill
  split
  · next h0 =>
    refine ((memRead_post s.ch.pos s).mono (fun _ _ => id) (fun _ _ => id) fun f w t h => ?_).bind ?_
    · obtain ⟨rfl, hw, rfl⟩ := h
      refine ⟨⟨rfl, ⟨by simp [ReaderKeeps, KeepsBlock], le_rfl, ?_⟩, hw, h0⟩, rfl⟩
      show s.env.drawn + 1 = _ + (s.ch.pos - s.ch.pos) + 1
      omega
    · rintro v t ⟨hp, rfl, rfl⟩
      have hpos : (s.drawNext.setPos (s.drawNext.ch.pos + 1)).ch.pos = s.ch.pos + 1 := State.setPos_pos _ _ hp
      refine ⟨⟨by simp [ReaderKeeps, KeepsBlock], ?_, ?_⟩, by simp⟩
      · show s.ch.pos ≤ (s.drawNext.setPos (s.drawNext.ch.pos + 1)).ch.pos
        omega
      · show (s.drawNext.setPos _).env.drawn = s.env.drawn + ((s.drawNext.setPos (s.drawNext.ch.pos + 1)).ch.pos - s.ch.pos) + 0
        rw [hpos]
        simp
  · exact ⟨Fetched.refl s, rfl⟩

theorem readBit_post (s : State) :
    (readBit s).Post (fun _ t => Fetched s t false ∧ t.ch.chC = s.ch.chC + 1) (fun _ _ => False)
      (fun f w t => FetchFails s f w t ∧ t.ch.chC = s.ch.chC) := by
  refine (refill_post s).bind ?_
  rintro _ t ⟨ht, hc⟩
  refine ⟨ht.trans ⟨by simp [ReaderKeeps, KeepsBlock], le_rfl, ?_⟩, by simp [hc]⟩
  show t.env.drawn = _ + (t.ch.pos - t.ch.pos) + 0
  simp

theorem readNat_post (n v : Nat) (s : State) :
    (readNat n v s).Post (fun _ t => Fetched s t false) (fun _ _ => False) (FetchFails s) := by
  induction n generalizing v s with
  | zero => exact Fetched.refl s
  | succ n ih =>
    refine ((readBit_post s).mono (fun _ _ => And.left) (fun _ _ => id) fun _ _ _ => And.left).bind fun b t ht => ?_
    exact (ih _ t).mono (fun _ _ h => ht.trans h) (fun _ _ => id) fun _ _ _ h => .trans ht h

/-! ### Runs of accesses at consecutive addresses -/

/-- Writing a list of bytes from `a` on: everything but memory stays, `k` accesses completed, and with `failed` one more that failed. -/
structure WroteBytes (s t : State) (a k : Nat) (failed : Bool) : Prop where
  keeps : KeepsBlock s t
  ch : t.ch = s.ch
  wf : s.mem.wf = true → t.mem.wf = true
  drawn : t.env.drawn = s.env.drawn + k + failed.toNat
  read : ∀ b, b < a ∨ a + k + failed.toNat ≤ b → t.mem.read b = s.mem.read b

theorem WroteBytes.of_stored {s t : State} {a : Nat} {v : Byte} (ha : a < 2 ^ 32) (ht : t = s.stored a v) (b : Bool) :
    WroteBytes s t a (!b).toNat b := by
  subst ht
  refine ⟨s.stored_keepsBlock a v, rfl, s.stored_wf v ha, ?_, fun c hc => s.stored_read_other v ?_⟩
  · cases b <;> simp
  · cases b <;> simp at hc <;> omega

theorem WroteBytes.trans {s t u : State} {a k : Nat} {b : Bool} (h : WroteBytes s t a 1 false) (h' : WroteBytes t u (a + 1) k b) :
    WroteBytes s u a (k + 1) b where
  keeps := h.keeps.trans h'.keeps
  ch := h'.ch.trans h.ch
  wf := h'.wf ∘ h.wf
  drawn := by have := h.drawn; have := h'.drawn; simp at *; omega
  read b hb := by rw [h'.read b (by omega), h.read b (by simp; omega)]

theorem writeBytes_post (a : Nat) (l : List Byte) (s : State) :
    (writeBytes a l s).Post (fun _ t => WroteBytes s t a l.length false) (fun _ _ => False)
      (fun f w t => ∃ k < l.length, WroteBytes s t a k true ∧ f = .busError ∧ w.toNat = a + k) := by
  induction l generalizing a s with
  | nil => exact ⟨KeepsBlock.refl s, rfl, id, by simp, fun _ _ => rfl⟩
  | cons v l ih =>
    refine ((memWrite_post a v s).mono (fun _ _ => id) (fun _ _ => id) fun f w t h => ?_).bind ?_
    · obtain ⟨ha, rfl, hw, ht⟩ := h
      exact ⟨0, by simp, .of_stored ha ht true, rfl, hw⟩
    · rintro _ t ⟨ha, ht⟩
      have h1 : WroteBytes s t a 1 false := .of_stored ha ht false
      refine (ih (a + 1) t).mono (fun _ _ h => h1.trans h) (fun _ _ => id) fun f w u h => ?_
      obtain ⟨k, hk, hu, rfl, hw⟩ := h
      exact ⟨k + 1, by simpa using hk, h1.trans hu, rfl, by omega⟩

/-- Reading from `a` on: nothing but the draws changes. -/
structure ReadBytes (s t : State) (k : Nat) : Prop where
  keeps : KeepsBlock s t
  ch : t.ch = s.ch
  mem : t.mem = s.mem
  drawn : t.env.drawn = s.env.drawn + k

theorem ReadBytes.drawNext (s : State) : ReadBytes s s.drawNext 1 := ⟨by simp [KeepsBlock], rfl, rfl, rfl⟩

theorem ReadBytes.refl (s : State) : ReadBytes s s 0 := ⟨KeepsBlock.refl s, rfl, rfl, rfl⟩

theorem ReadBytes.trans {s t u : State} {j k : Nat} (h : ReadBytes s t j) (h' : ReadBytes t u k) : ReadBytes s u (j + k) :=
  ⟨h.keeps.trans h'.keeps, h'.ch.trans h.ch, h'.mem.trans h.mem, by rw [h'.drawn, h.drawn, Nat.add_assoc]⟩

theorem readBigEndian_post (n a v : Nat) (s : State) :
    (readBigEndian n a v s).Post (fun _ t => ReadBytes s t n) (fun _ _ => False)
      (fun f w t => ∃ k < n, ReadBytes s t (k + 1) ∧ f = .busError ∧ w.toNat = a + k) := by
  induction n generalizing a v s with
  | zero => exact ReadBytes.refl s
  | succ n ih =>
    refine ((memRead_post a s).mono (fun _ _ => id) (fun _ _ => id) fun f w t h => ?_).bind ?_
    · obtain ⟨rfl, hw, rfl⟩ := h
      exact ⟨0, by simp, .drawNext s, rfl, hw⟩
    · rintro b t ⟨-, -, rfl⟩
      refine (ih (a + 1) _ s.drawNext).mono (fun _ u h => ?_) (fun _ _ => id) fun f w u h => ?_
      · rw [Nat.add_comm]; exact (ReadBytes.drawNext s).trans h
      · obtain ⟨k, hk, hu, rfl, hw⟩ := h
        refine ⟨k + 1, by omega, ?_, rfl, by omega⟩
        rw [Nat.add_comm (k + 1)]; exact (ReadBytes.drawNext s).trans hu

/-- The peeks of the placeholder test, one access a bit (41_tree_codec.md R91). -/
theorem peekZero_post (n k : Nat) (s : State) :
    (peekZero n k s).Post (fun _ t => ReadBytes s t n) (fun _ _ => False)
      (fun f w t => f = .busError ∧ ∃ j < n, ReadBytes s t (j + 1) ∧ w.toNat = s.ch.lbase.toNat + 4 + (k + j) / 8) := by
  induction n generalizing k s with
  | zero => exact ReadBytes.refl s
  | succ n ih =>
    have hpeek : (peekBit k s).Post (fun _ t => ReadBytes s t 1) (fun _ _ => False)
        (fun f w t => f = .busError ∧ ∃ j < n + 1, ReadBytes s t (j + 1) ∧ w.toNat = s.ch.lbase.toNat + 4 + (k + j) / 8) := by
      refine ((memRead_post _ s).mono (fun _ _ => id) (fun _ _ => id) fun f w t h => ?_).bind ?_
      · obtain ⟨rfl, hw, rfl⟩ := h
        exact ⟨rfl, 0, by simp, .drawNext s, hw⟩
      · rintro v t ⟨-, -, rfl⟩
        exact .drawNext s
    refine hpeek.bind fun b t ht => ?_
    refine ((ih (k + 1) t).mono (fun _ u h => ?_) (fun _ _ => id) fun f w u h => ?_).bind fun _ u hu => hu
    · rw [Nat.add_comm]; exact ht.trans h
    · obtain ⟨rfl, j, hj, hu, hw⟩ := h
      refine ⟨rfl, j + 1, by omega, ?_, by rw [ht.ch] at hw; rw [hw]; congr 2; omega⟩
      rw [Nat.add_comm (j + 1)]; exact ht.trans hu

end Sys2Proof.Machine
end

section
/-! PROOFS. What the loops of the commands do in any state, whichever way they end: the byte loops of the frequency counter and of the stream
codec, and the deserializer's parse. -/

namespace Sys2Proof.Machine

/-! ### FREQ_COUNT (40_frequency_tree.md R76) -/

/-- The counting loop after `k` accesses: counters and draws apart, nothing changes. -/
def Counts (s t : State) (k : Nat) : Prop := ∃ f : FreqTable, t = { s with cnt := { s.cnt with freq := f }, env := s.env.after k }

theorem Counts.drawNext (s : State) : Counts s s.drawNext 1 := ⟨s.cnt.freq, by rw [← State.drawNext_env_after]; rfl⟩

theorem Counts.trans {s t u : State} {j k : Nat} (h : Counts s t j) (h' : Counts t u k) : Counts s u (j + k) := by
  obtain ⟨f, rfl⟩ := h
  obtain ⟨f', rfl⟩ := h'
  exact ⟨f', by simp⟩

theorem countBytes_post (n a : Nat) (s : State) :
    (countBytes n a s).Post (fun _ t => Counts s t n) (fun e t => e = .freqOverflow ∧ ∃ k, Counts s t k)
      (fun f w t => f = .busError ∧ ∃ k < n, Counts s t (k + 1) ∧ w.toNat = a + k) := by
  induction n generalizing a s with
  | zero => exact ⟨s.cnt.freq, by simp⟩
  | succ n ih =>
    refine ((memRead_post a s).mono (fun _ _ => id) (fun _ _ => False.elim) fun f w t h => ?_).bind ?_
    · obtain ⟨rfl, hw, rfl⟩ := h
      exact ⟨rfl, 0, by simp, .drawNext s, hw⟩
    · rintro b t ⟨-, -, rfl⟩
      split
      · exact ⟨rfl, 1, .drawNext s⟩
      · have h1 (v : Word) : Counts s (s.drawNext.setFreq b v) 1 := ⟨s.cnt.freq.put b v, by rw [← State.drawNext_env_after]; rfl⟩
        refine (ih (a + 1) _).mono (fun _ u h => ?_) (fun e u h => ?_) fun f w u h => ?_
        · rw [Nat.add_comm]; exact (h1 _).trans h
        · obtain ⟨rfl, k, hk⟩ := h
          exact ⟨rfl, 1 + k, (h1 _).trans hk⟩
        · obtain ⟨rfl, k, hk, hu, hw⟩ := h
          exact ⟨rfl, k + 1, by omega, by rw [Nat.add_comm (k + 1)]; exact (h1 _).trans hu, by omega⟩

/-! ### S_ENCODE (43_stream_codec.md R106) -/

theorem wrote_drawNext (s : State) : Wrote s s.drawNext 0 1 false :=
  ⟨by simp [WriterKeeps, KeepsBlock], id, le_rfl, le_rfl, by show s.env.drawn + 1 = _ + 1 + (s.ch.pos - s.ch.pos) + 0; omega, fun _ _ => rfl⟩

theorem Code.string_length_le (c : Code) : c.string.length ≤ 255 := by
  have := c.len.isLt
  rw [Code.string_length]
  omega

/-- The faults of the encoding loop over `n` bytes from `a`: a byte without a code, a commit, or a read of the input. -/
def EncodeFails (s : State) (n a : Nat) (f : FaultCode) (w : Word) (t : State) : Prop :=
  (∃ k, f = .unknownSymbol ∧ Wrote s t (255 * n) k false) ∨ (∃ k, CommitFails s (255 * n) k f w t) ∨
    ∃ k j, j < n ∧ Wrote s t (255 * n) k false ∧ f = .busError ∧ w.toNat = a + j

theorem encodeBytes_post (n a : Nat) (s : State) :
    (encodeBytes n a s).Post (fun _ t => ∃ k, Wrote s t (255 * n) k false) (fun _ _ => False) (EncodeFails s n a) := by
  induction n generalizing a s with
  | zero => exact ⟨0, Wrote.refl s⟩
  | succ n ih =>
    refine ((memRead_post a s).mono (fun _ _ => id) (fun _ _ => id) fun f w t h => ?_).bind ?_
    · obtain ⟨rfl, hw, rfl⟩ := h
      exact .inr (.inr ⟨1, 0, by simp, (wrote_drawNext s).mono (by omega), rfl, hw⟩)
    · rintro b t ⟨-, -, rfl⟩
      split
      · have hlen := ((s.drawNext).codes.enc.of b).string_length_le
        refine ((writeString_post _ s.drawNext).mono (fun _ _ => id) (fun _ _ => id) fun f w t h => ?_).bind fun _ t ht => ?_
        · exact .inr (.inl ⟨_, (CommitFails.trans (wrote_drawNext s) h).mono (by omega)⟩)
        · replace ht := (wrote_drawNext s).trans ht
          refine (ih (a + 1) t).mono (fun _ u hu => ?_) (fun _ _ => id) fun f w u hu => ?_
          · obtain ⟨k, hu⟩ := hu
            exact ⟨_, (ht.trans hu).mono (by omega)⟩
          · rcases hu with ⟨k, rfl, hu⟩ | ⟨k, hu⟩ | ⟨k, j, hj, hu, rfl, hw⟩
            · exact .inl ⟨_, rfl, (ht.trans hu).mono (by omega)⟩
            · exact .inr (.inl ⟨_, (CommitFails.trans ht hu).mono (by omega)⟩)
            · exact .inr (.inr ⟨_, j + 1, by omega, (ht.trans hu).mono (by omega), rfl, by omega⟩)
      · exact .inl ⟨1, rfl, (wrote_drawNext s).mono (by omega)⟩

/-! ### S_DECODE (43_stream_codec.md R107) -/

/-- What the decoding loop may have done: the output bytes from `OCNT` on, with `failed` one more, and the reader's position. -/
structure Decoded (s t : State) (failed : Bool) : Prop where
  regs : t.regs = s.regs
  cmd : t.cmd = s.cmd
  cnt : t.cnt = s.cnt
  tree : t.tree = s.tree
  codes : t.codes = s.codes
  turns : t.env.turns = s.env.turns
  lastRead : t.env.lastRead = s.env.lastRead
  result : t.res.result = s.res.result
  mode : t.ch.mode = s.ch.mode
  lbase : t.ch.lbase = s.ch.lbase
  llen : t.ch.llen = s.ch.llen
  chT : t.ch.chT = s.ch.chT
  rpad : t.ch.rpad = s.ch.rpad
  fileLen : t.ch.fileLen = s.ch.fileLen
  wf : s.mem.wf = true → t.mem.wf = true
  ocnt_le : s.res.ocnt.toNat ≤ t.res.ocnt.toNat
  ocnt_le_olen : s.res.ocnt.toNat ≤ s.regs.olen.toNat → t.res.ocnt.toNat ≤ s.regs.olen.toNat
  read : ∀ a, a < s.regs.obase.toNat + s.res.ocnt.toNat ∨ s.regs.obase.toNat + t.res.ocnt.toNat + failed.toNat ≤ a →
    t.mem.read a = s.mem.read a

theorem Decoded.refl (s : State) : Decoded s s false :=
  ⟨rfl, rfl, rfl, rfl, rfl, rfl, rfl, rfl, rfl, rfl, rfl, rfl, rfl, rfl, id, le_rfl, id, fun _ _ => rfl⟩

theorem Decoded.trans {s t u : State} {b : Bool} (h : Decoded s t false) (h' : Decoded t u b) : Decoded s u b where
  regs := h'.regs.trans h.regs
  cmd := h'.cmd.trans h.cmd
  cnt := h'.cnt.trans h.cnt
  tree := h'.tree.trans h.tree
  codes := h'.codes.trans h.codes
  turns := h'.turns.trans h.turns
  lastRead := h'.lastRead.trans h.lastRead
  result := h'.result.trans h.result
  mode := h'.mode.trans h.mode
  lbase := h'.lbase.trans h.lbase
  llen := h'.llen.trans h.llen
  chT := h'.chT.trans h.chT
  rpad := h'.rpad.trans h.rpad
  fileLen := h'.fileLen.trans h.fileLen
  wf := h'.wf ∘ h.wf
  ocnt_le := h.ocnt_le.trans h'.ocnt_le
  ocnt_le_olen hle := by
    have := h'.ocnt_le_olen
    rw [h.regs] at this
    exact this (h.ocnt_le_olen hle)
  read a ha := by
    have h₁ := h.ocnt_le
    have h₂ := h'.ocnt_le
    have h₃ := h'.read a
    rw [h.regs] at h₃
    rw [h₃ (by omega), h.read a (by simp; omega)]

theorem Fetched.decoded {s t : State} {b : Bool} (h : Fetched s t b) : Decoded s t false := by
  obtain ⟨⟨hregs, hcmd, hres, hcnt, htree, hcodes, hturns, hlast⟩, hmode, hlbase, hllen, hchT, hrpad, hlen, hmem⟩ := h.keeps
  exact ⟨hregs, hcmd, hcnt, htree, hcodes, hturns, hlast, by rw [hres], hmode, hlbase, hllen, hchT, hrpad, hlen, by rw [hmem]; exact id,
    by rw [hres], by rw [hres]; exact id, fun _ _ => by rw [hmem]⟩

/-- The faults of the decoding loop: the output full, a fetch, or an output write. -/
def DecodeFails (s : State) (f : FaultCode) (w : Word) (t : State) : Prop :=
  (f = .sinkOverflow ∧ Decoded s t false) ∨ (f = .busError ∧ Decoded s t false ∧ w.toNat = t.ch.pos ∧ t.ch.bn = 0) ∨
    (f = .busError ∧ Decoded s t true ∧ w.toNat = s.regs.obase.toNat + t.res.ocnt.toNat)

theorem DecodeFails.trans {s t u : State} {f : FaultCode} {w : Word} (h : Decoded s t false) (h' : DecodeFails t f w u) :
    DecodeFails s f w u := by
  unfold DecodeFails at h' ⊢
  rw [h.regs] at h'
  exact h'.imp (And.imp_right h.trans) (Or.imp (And.imp_right (And.imp_left h.trans)) (And.imp_right (And.imp_left h.trans)))

theorem emitSymbol_post (y : Byte) (s : State) :
    (emitSymbol y s).Post
      (fun _ t => t = (s.stored (s.regs.obase.toNat + s.res.ocnt.toNat) y).setOcnt (s.res.ocnt + 1) ∧
        s.regs.obase.toNat + s.res.ocnt.toNat < 2 ^ 32 ∧ s.res.ocnt.toNat < s.regs.olen.toNat)
      (fun _ _ => False)
      (fun f w t => (f = .sinkOverflow ∧ t = s) ∨
        (f = .busError ∧ w.toNat = s.regs.obase.toNat + s.res.ocnt.toNat ∧ w.toNat < 2 ^ 32 ∧
          t = s.stored (s.regs.obase.toNat + s.res.ocnt.toNat) (Config.freeByte s.env.drawn))) := by
  unfold emitSymbol
  split
  · obtain ⟨w, hw, -⟩ := raiseAt_eq (α := Unit) .sinkOverflow (s.regs.obase.toNat + s.res.ocnt.toNat) s
    rw [hw]
    exact .inl ⟨rfl, rfl⟩
  · next hlt =>
    refine ((memWrite_post _ y s).mono (fun _ _ => id) (fun _ _ => id) fun f w t h => ?_).bind ?_
    · obtain ⟨-, rfl, hw, rfl⟩ := h
      exact .inr ⟨rfl, hw, w.isLt, rfl⟩
    · rintro _ t ⟨ha, rfl⟩
      exact ⟨rfl, ha, by omega⟩

theorem emitSymbol_decoded (y : Byte) (s : State) :
    (emitSymbol y s).Post (fun _ t => Decoded s t false) (fun _ _ => False) (DecodeFails s) := by
  refine (emitSymbol_post y s).mono (fun _ t h => ?_) (fun _ _ => id) fun f w t h => ?_
  · obtain ⟨rfl, ha, hlt⟩ := h
    have holen := s.regs.olen.isLt
    have hinc : (s.res.ocnt + 1).toNat = s.res.ocnt.toNat + 1 := by
      show (_ + 1) % 2 ^ 32 = _
      omega
    refine ⟨rfl, rfl, rfl, rfl, rfl, rfl, rfl, rfl, rfl, rfl, rfl, rfl, rfl, rfl, s.stored_wf y ha, ?_, fun _ => ?_, fun b hb => ?_⟩
    · show _ ≤ (s.res.ocnt + 1).toNat
      omega
    · show (s.res.ocnt + 1).toNat ≤ _
      omega
    · replace hb : b < s.regs.obase.toNat + s.res.ocnt.toNat ∨ s.regs.obase.toNat + (s.res.ocnt + 1).toNat + 0 ≤ b := hb
      exact s.stored_read_other y (by omega)
  · rcases h with ⟨rfl, rfl⟩ | ⟨rfl, hw, hlt, rfl⟩
    · exact .inl ⟨rfl, Decoded.refl _⟩
    · refine .inr (.inr ⟨rfl, ⟨rfl, rfl, rfl, rfl, rfl, rfl, rfl, rfl, rfl, rfl, rfl, rfl, rfl, rfl, s.stored_wf _ (by omega), le_rfl, id,
        fun b hb => ?_⟩, hw⟩)
      replace hb : b < s.regs.obase.toNat + s.res.ocnt.toNat ∨ s.regs.obase.toNat + s.res.ocnt.toNat + 1 ≤ b := hb
      exact s.stored_read_other _ (by omega)

theorem decodeBits_post (n : Nat) (acc : List Bool) (s : State) :
    (decodeBits n acc s).Post (fun _ t => Decoded s t false) (fun _ t => Decoded s t false) (DecodeFails s) := by
  induction n generalizing acc s with
  | zero => exact Decoded.refl s
  | succ n ih =>
    refine ((readBit_post s).mono (fun _ _ h => h.1.decoded) (fun _ _ => False.elim) fun f w t h => ?_).bind fun b t ht => ?_
    · obtain ⟨⟨rfl, ht, hw, h0⟩, -⟩ := h
      exact .inr (.inl ⟨rfl, ht.decoded, hw, h0⟩)
    · have hnext (acc' : List Bool) (u : State) (hu : Decoded s u false) :
          (decodeBits n acc' u).Post (fun _ t => Decoded s t false) (fun _ t => Decoded s t false) (DecodeFails s) :=
        (ih acc' u).mono (fun _ _ h => hu.trans h) (fun _ _ h => hu.trans h) fun _ _ _ h => .trans hu h
      split
      · refine ((emitSymbol_decoded _ t).mono (fun _ _ => id) (fun _ _ => False.elim) fun f w u h => DecodeFails.trans ht h).bind fun _ u hu => ?_
        exact hnext [] u (ht.trans hu)
      · split
        · exact hnext _ t ht
        · exact ht

/-! ### T_DESERIALIZE (41_tree_codec.md R91) -/

/-- What the parse of a tree leaves: all but the arena's entries and the reader's position. -/
structure ParseKeeps (s t : State) : Prop where
  regs : t.regs = s.regs
  cmd : t.cmd = s.cmd
  res : t.res = s.res
  cnt : t.cnt = s.cnt
  codes : t.codes = s.codes
  turns : t.env.turns = s.env.turns
  lastRead : t.env.lastRead = s.env.lastRead
  mode : t.ch.mode = s.ch.mode
  lbase : t.ch.lbase = s.ch.lbase
  llen : t.ch.llen = s.ch.llen
  chT : t.ch.chT = s.ch.chT
  rpad : t.ch.rpad = s.ch.rpad
  fileLen : t.ch.fileLen = s.ch.fileLen
  mem : t.mem = s.mem
  tree : t.tree = { s.tree with node := t.tree.node }

theorem ParseKeeps.refl (s : State) : ParseKeeps s s := ⟨rfl, rfl, rfl, rfl, rfl, rfl, rfl, rfl, rfl, rfl, rfl, rfl, rfl, rfl, rfl⟩

theorem ParseKeeps.trans {s t u : State} (h : ParseKeeps s t) (h' : ParseKeeps t u) : ParseKeeps s u where
  regs := h'.regs.trans h.regs
  cmd := h'.cmd.trans h.cmd
  res := h'.res.trans h.res
  cnt := h'.cnt.trans h.cnt
  codes := h'.codes.trans h.codes
  turns := h'.turns.trans h.turns
  lastRead := h'.lastRead.trans h.lastRead
  mode := h'.mode.trans h.mode
  lbase := h'.lbase.trans h.lbase
  llen := h'.llen.trans h.llen
  chT := h'.chT.trans h.chT
  rpad := h'.rpad.trans h.rpad
  fileLen := h'.fileLen.trans h.fileLen
  mem := h'.mem.trans h.mem
  tree := by rw [h'.tree, h.tree]

theorem ReaderKeeps.parseKeeps {s t : State} (h : ReaderKeeps s t) : ParseKeeps s t := by
  obtain ⟨⟨hregs, hcmd, hres, hcnt, htree, hcodes, hturns, hlast⟩, hmode, hlbase, hllen, hchT, hrpad, hlen, hmem⟩ := h
  exact ⟨hregs, hcmd, hres, hcnt, hcodes, hturns, hlast, hmode, hlbase, hllen, hchT, hrpad, hlen, hmem, by rw [htree]⟩

theorem ReadBytes.parseKeeps {s t : State} {k : Nat} (h : ReadBytes s t k) : ParseKeeps s t := by
  obtain ⟨hregs, hcmd, hres, hcnt, htree, hcodes, hturns, hlast⟩ := h.keeps
  have hch := h.ch
  exact ⟨hregs, hcmd, hres, hcnt, hcodes, hturns, hlast, by rw [hch], by rw [hch], by rw [hch], by rw [hch], by rw [hch], by rw [hch], h.mem,
    by rw [htree]⟩

theorem setNode_parseKeeps (s : State) (h : Handle) (n : Node) : ParseKeeps s (s.setNode h n) :=
  ⟨rfl, rfl, rfl, rfl, rfl, rfl, rfl, rfl, rfl, rfl, rfl, rfl, rfl, rfl, rfl⟩

theorem setLeft_parseKeeps (s : State) (h c : Handle) : ParseKeeps s (s.setLeft h c) := by
  unfold State.setLeft
  split
  · exact setNode_parseKeeps s h _
  · exact .refl s

theorem setRight_parseKeeps (s : State) (h c : Handle) : ParseKeeps s (s.setRight h c) := by
  unfold State.setRight
  split
  · exact setNode_parseKeeps s h _
  · exact .refl s

/-- The faults of the parse: a fetch, or a peek of the placeholder test at a bit before the payload end. -/
def ParseFails (s : State) (f : FaultCode) (w : Word) (t : State) : Prop :=
  f = .busError ∧ ParseKeeps s t ∧
    ((w.toNat = t.ch.pos ∧ t.ch.bn = 0) ∨
      ∃ k, t.ch.chC.toNat ≤ k ∧ k + s.ch.rpad.toNat < s.ch.chT.toNat ∧ w.toNat = s.ch.lbase.toNat + 4 + k / 8)

theorem ParseFails.trans {s t u : State} {f : FaultCode} {w : Word} (h : ParseKeeps s t) (h' : ParseFails t f w u) : ParseFails s f w u := by
  unfold ParseFails at h' ⊢
  rw [h.chT, h.rpad, h.lbase] at h'
  exact h'.imp_right (And.imp_left h.trans)

/-- The postcondition of every piece of the parse. -/
def Flow.Parses {α : Type} (s : State) (x : Flow α) : Prop :=
  x.Post (fun _ t => ParseKeeps s t) (fun e t => e = .badTree ∧ ParseKeeps s t) (ParseFails s)

theorem Flow.Parses.bind {α β : Type} {s : State} {x : Flow α} {k : α → State → Flow β} (h : x.Parses s) (hk : ∀ a t, (k a t).Parses t) :
    (x.bind k).Parses s :=
  Flow.Post.bind h fun a t ht => (hk a t).mono (fun _ _ h => ht.trans h) (fun _ _ => And.imp_right ht.trans) fun _ _ _ h => .trans ht h

/-- A piece that goes on from a changed arena. -/
theorem Flow.Parses.after {α : Type} {s t : State} {x : Flow α} (ht : ParseKeeps s t) (h : x.Parses t) : x.Parses s :=
  Flow.Post.mono h (fun _ _ h => ht.trans h) (fun _ _ => And.imp_right ht.trans) fun _ _ _ h => .trans ht h

theorem Flow.parses_ok {α : Type} {s t : State} (a : α) (h : ParseKeeps s t) : (Flow.ok a t).Parses s := h

theorem Flow.parses_badTree {α : Type} (s : State) : (Flow.error .badTree s : Flow α).Parses s := ⟨rfl, .refl s⟩

theorem treeBit_parses (s : State) : (treeBit s).Parses s := by
  unfold treeBit
  split
  · exact Flow.parses_badTree s
  · refine (readBit_post s).mono (fun _ _ h => h.1.keeps.parseKeeps) (fun _ _ => False.elim) fun f w t h => ?_
    obtain ⟨⟨rfl, ht, hw, h0⟩, -⟩ := h
    exact ⟨rfl, ht.keeps.parseKeeps, .inl ⟨hw, h0⟩⟩

theorem treeBits_parses (n v : Nat) (s : State) : (treeBits n v s).Parses s := by
  induction n generalizing v s with
  | zero => exact .refl s
  | succ n ih => exact (treeBit_parses s).bind fun _ t => ih _ t

theorem allocNode_parses (k : Kind) (sym : Byte) (p : Parse) (s : State) : (allocNode k sym p s).Parses s := by
  unfold allocNode
  split
  · exact Flow.parses_badTree s
  · exact setNode_parseKeeps s _ _

theorem parseLeaf_parses (p : Parse) (s : State) : (parseLeaf p s).Parses s := by
  refine (treeBits_parses 8 0 s).bind fun v t => ?_
  simp only
  split
  · exact Flow.parses_badTree t
  · exact allocNode_parses _ _ _ t

theorem parseNode_parses (d : Nat) (p : Parse) (s : State) : (parseNode d p s).Parses s := by
  induction d generalizing p s with
  | zero => trivial
  | succ d ih =>
    refine (treeBit_parses s).bind fun b t => ?_
    split
    · refine (allocNode_parses .inner 0 p t).bind fun hp u => (ih hp.2 u).bind fun l v => ?_
      exact ((ih l.2 _).bind fun r w => Flow.parses_ok _ (setRight_parseKeeps w _ _)).after (setLeft_parseKeeps v _ _)
    · exact parseLeaf_parses p t

theorem placeholderAhead_parses (r : Handle) (s : State) : (placeholderAhead r s).Parses s := by
  unfold placeholderAhead
  split
  · refine (peekZero_post _ _ s).mono (fun _ _ h => h.parseKeeps) (fun _ _ => False.elim) fun f w t h => ?_
    obtain ⟨rfl, j, hj, ht, hw⟩ := h
    refine ⟨rfl, ht.parseKeeps, .inr ⟨s.ch.chC.toNat + j, by rw [ht.ch]; omega, ?_, hw⟩⟩
    unfold Channel.bitsLeft Channel.payloadEnd at hj
    omega
  · exact Flow.parses_ok _ (.refl s)

theorem parseRootRight_parses (r : Handle) (p : Parse) (s : State) : (parseRootRight r p s).Parses s := by
  refine (treeBit_parses s).bind fun b t => ?_
  split
  · refine (placeholderAhead_parses r t).bind fun z u => ?_
    split
    · exact allocNode_parses _ _ _ u
    · refine (allocNode_parses .inner 0 p u).bind fun hp v => (parseNode_parses _ hp.2 v).bind fun l w => ?_
      exact ((parseNode_parses _ l.2 _).bind fun r x => Flow.parses_ok _ (setRight_parseKeeps x _ _)).after (setLeft_parseKeeps w _ _)
  · exact parseLeaf_parses p t

theorem parseTree_post (s : State) :
    (parseTree s).Post (fun _ t => ∃ u r a, ParseKeeps s u ∧ t = u.setTree r a) (fun e t => e = .badTree ∧ ParseKeeps s t)
      (ParseFails s) := by
  have hbind {α : Type} {x : Flow α} {k : α → State → Flow Unit} (h : x.Parses s)
      (hk : ∀ a t, ParseKeeps s t → (k a t).Post (fun _ t => ∃ u r a, ParseKeeps s u ∧ t = u.setTree r a)
        (fun e t => e = .badTree ∧ ParseKeeps s t) (ParseFails s)) :
      (x.bind k).Post (fun _ t => ∃ u r a, ParseKeeps s u ∧ t = u.setTree r a) (fun e t => e = .badTree ∧ ParseKeeps s t) (ParseFails s) :=
    Flow.Post.bind h hk
  refine hbind (treeBit_parses s) fun b t ht => ?_
  split
  · refine hbind ((allocNode_parses _ _ _ t).after ht) fun hp u hu => hbind ((parseNode_parses _ _ u).after hu) fun l v hv => ?_
    refine hbind ((parseRootRight_parses _ _ _).after (hv.trans (setLeft_parseKeeps v _ _))) fun r w hw => ?_
    exact ⟨_, _, _, hw.trans (setRight_parseKeeps w _ _), rfl⟩
  · exact ⟨rfl, ht⟩

end Sys2Proof.Machine
end

section
/-! PROOFS. What each command does in any state, by the way it ends: its frame, the bytes it may have written and the address of the access
that failed. -/

namespace Sys2Proof.Machine

/-- The command ends in one of three ways, each with its own postcondition. -/
def Runs (i : Instr) (s : State) (ok : State → Prop) (err : ErrCode → State → Prop) (raise : FaultCode → Word → State → Prop) : Prop :=
  ∃ x : Flow Unit, exec i s = x.complete ∧ x.Post (fun _ => ok) err raise

section
variable {i : Instr} {s t : State} {ok ok' : State → Prop} {err err' : ErrCode → State → Prop} {raise raise' : FaultCode → Word → State → Prop}

theorem Runs.mono (h : Runs i s ok err raise) (hok : ∀ u, ok u → ok' u) (herr : ∀ e u, err e u → err' e u)
    (hraise : ∀ f w u, raise f w u → raise' f w u) : Runs i s ok' err' raise' := by
  obtain ⟨x, hx, hp⟩ := h
  exact ⟨x, hx, hp.mono (fun _ => hok) herr hraise⟩

theorem Runs.next (h : Runs i s ok err raise) (ht : exec i s = .next t) :
    (∃ u, ok u ∧ t = u.finish) ∨ (∃ e u, err e u ∧ t = u.finishError e) ∨ ∃ f w u, raise f w u ∧ t = u.enterFault f w := by
  obtain ⟨x, hx, hp⟩ := h
  exact hp.complete (hx.symm.trans ht)

end

/-- A check of R120 failed, in the state the command was issued in. -/
def CheckFails (s : State) (f : FaultCode) (t : State) : Prop := f ∈ [.wrongMode, .noTree, .noCodes, .regionFault] ∧ t = s

theorem CheckFails.mk {s : State} {f : FaultCode} (hf : f ∈ [.wrongMode, .noTree, .noCodes, .regionFault]) : CheckFails s f s := ⟨hf, rfl⟩

/-! ### Frequency, tree and code commands -/

theorem runs_freqCount (s : State) :
    Runs .freqCount s (fun u => Counts s.invalidate u s.regs.ilen.toNat) (fun e u => e = .freqOverflow ∧ ∃ k, Counts s.invalidate u k)
      (fun f w u => CheckFails s f u ∨
        (f = .busError ∧ ∃ k < s.regs.ilen.toNat, Counts s.invalidate u (k + 1) ∧ w.toNat = s.regs.ibase.toNat + k)) := by
  refine ⟨_, rfl, (requireRegion_post _ _ _ (.inl (.mk (by decide)))).bind ?_⟩
  rintro _ u ⟨rfl, -⟩
  exact (countBytes_post _ _ _).mono (fun _ _ => id) (fun _ _ => id) fun _ _ _ => .inr

theorem runs_codesBuild (s : State) :
    Runs .codesBuild s
      (fun u => s.tree.tvalid = true ∧ ∃ e tb, codesOfTree s.tree.node s.tree.root = .ok (e, tb) ∧
        u = { s with codes := codeRegs s.cnt.freq s.cnt.total e tb })
      (fun _ _ => False) (fun f _ u => CheckFails s f u) := by
  refine ⟨_, rfl, (requireTree_post (.mk (by decide))).bind ?_⟩
  rintro _ u ⟨rfl, hv⟩
  refine Flow.Post.bind (Flow.lift_post (ok := fun r t => t = u ∧ codesOfTree u.tree.node u.tree.root = .ok r) fun r hr => ⟨rfl, hr⟩) ?_
  rintro ⟨e, tb⟩ t ⟨rfl, hr⟩
  exact ⟨hv, e, tb, hr, rfl⟩

/-! ### Writer commands -/

theorem runs_wOpen (s : State) :
    Runs .wOpen s
      (fun u => s.ch.mode = .idle ∧ regionOK s.regs.sbase s.regs.slen = true ∧ 4 ≤ s.regs.slen.toNat ∧
        ∃ v, WroteBytes s.latch v s.regs.sbase.toNat 4 false ∧ u = v.openWriter)
      (fun _ _ => False)
      (fun f w u => CheckFails s f u ∨ (s.ch.mode = .idle ∧ ((f = .streamOverflow ∧ u = s.latch) ∨
        ∃ k < 4, WroteBytes s.latch u s.regs.sbase.toNat k true ∧ f = .busError ∧ w.toNat = s.regs.sbase.toNat + k))) := by
  refine ⟨_, rfl, (requireMode_post _ fun _ => .inl (.mk (by decide))).bind ?_⟩
  rintro _ u ⟨rfl, hm⟩
  refine (requireRegion_post _ _ _ (.inl (.mk (by decide)))).bind ?_
  rintro _ s ⟨rfl, hreg⟩
  simp only
  split
  · exact .inr ⟨hm, .inl ⟨rfl, rfl⟩⟩
  · next hlen =>
    refine ((writeBytes_post _ _ _).mono (fun _ _ => id) (fun _ _ => id) fun f w t h => .inr ⟨hm, .inr h⟩).bind fun _ v hv => ?_
    exact ⟨hm, hreg, Nat.le_of_not_lt hlen, v, hv, rfl⟩

theorem runs_wBits (n : BitVec 6) (s : State) :
    Runs (.wBits n) s (fun u => Wrote s u n.toNat 0 false) (fun _ _ => False) (fun f w u => CheckFails s f u ∨ CommitFails s n.toNat 0 f w u) := by
  refine ⟨_, rfl, (requireMode_post _ fun _ => .inl (.mk (by decide))).bind ?_⟩
  rintro _ u ⟨rfl, -⟩
  have h := writeString_post (bitsMsb n.toNat u.regs.arg) u
  rw [bitsMsb_length] at h
  exact h.mono (fun _ _ => id) (fun _ _ => id) fun _ _ _ => .inr

/-- `W_MAGIC`'s three runs of `WriteBits` are one run of its 24 bits. -/
def magicBits (s : State) : List Bool := bitsMsb 8 (0x48 : Byte) ++ bitsMsb 8 (0x46 : Byte) ++ bitsMsb 8 (s.codes.wpad.setWidth 8 : Byte)

theorem magicBits_length (s : State) : (magicBits s).length = 24 := by simp [magicBits]

theorem writeString_bind_codes {p : List Bool} {s : State} {k : State → List Bool} (hk : ∀ t, t.codes = s.codes → k t = k s) :
    ((writeString p s).bind fun _ t => writeString (k t) t) = (writeString p s).bind fun _ t => writeString (k s) t := by
  have h := writeString_ends p s
  cases hx : writeString p s with
  | ok a t =>
    rw [hx] at h
    rw [Flow.bind_ok, Flow.bind_ok, hk t h.1.1.2.2.2.2.2.1]
  | error e t => rfl
  | raise f w t => rfl
  | stop r => rfl

theorem exec_wMagic_of_write {s : State} (hm : s.ch.mode = .write) (hc : s.codes.cvalid = true) :
    exec .wMagic s = (writeString (magicBits s) s).complete := by
  have hpad : ((writeString (bitsMsb 8 (0x48 : Byte) ++ bitsMsb 8 (0x46 : Byte)) s).bind fun _ t =>
      writeString (bitsMsb 8 (t.codes.wpad.setWidth 8 : Byte)) t) = writeString (magicBits s) s := by
    rw [writeString_bind_codes (k := fun t => bitsMsb 8 (t.codes.wpad.setWidth 8 : Byte)) fun t h => by simp only [h], ← writeString_append]
    rfl
  rw [← hpad, writeString_append, Flow.bind_assoc]
  show execWMagic s = _
  rw [execWMagic, requireMode_ok hm, Flow.bind_ok, requireCodes_ok hc]
  rfl

theorem runs_wMagic (s : State) :
    Runs .wMagic s (fun u => Wrote s u 24 0 false) (fun _ _ => False) (fun f w u => CheckFails s f u ∨ CommitFails s 24 0 f w u) := by
  by_cases hm : s.ch.mode = .write
  · by_cases hc : s.codes.cvalid = true
    · have h := writeString_post (magicBits s) s
      rw [magicBits_length] at h
      exact ⟨_, exec_wMagic_of_write hm hc, h.mono (fun _ _ => id) (fun _ _ => id) fun _ _ _ => .inr⟩
    · refine ⟨.raise .noCodes 0 s, ?_, .inl (.mk (by decide))⟩
      show execWMagic s = _
      rw [execWMagic, requireMode_ok hm, Flow.bind_ok, requireCodes, if_neg hc, Flow.bind_raise]
  · exact ⟨.raise .wrongMode _ s, exec_of_wrong_mode rfl hm, .inl (.mk (by decide))⟩

theorem runs_tSerialize (s : State) :
    Runs .tSerialize s (fun u => ∃ p, serialTree s.tree = .ok p ∧ Wrote s u p.length 0 false) (fun _ _ => False)
      (fun f w u => CheckFails s f u ∨ ∃ p, serialTree s.tree = .ok p ∧ CommitFails s p.length 0 f w u) := by
  refine ⟨_, rfl, (requireMode_post _ fun _ => .inl (.mk (by decide))).bind ?_⟩
  rintro _ u ⟨rfl, -⟩
  refine (requireTree_post (.inl (.mk (by decide)))).bind ?_
  rintro _ s ⟨rfl, -⟩
  refine Flow.Post.bind (Flow.lift_post (ok := fun p t => t = s ∧ serialTree s.tree = .ok p) fun p hp => ⟨rfl, hp⟩) ?_
  rintro p t ⟨rfl, hp⟩
  exact (writeString_post p t).mono (fun _ _ h => ⟨p, hp, h⟩) (fun _ _ => id) fun _ _ _ h => .inr ⟨p, hp, h⟩

theorem runs_sEncode (s : State) :
    Runs .sEncode s (fun u => ∃ k, Wrote s u (255 * s.regs.ilen.toNat) k false) (fun _ _ => False)
      (fun f w u => CheckFails s f u ∨ EncodeFails s s.regs.ilen.toNat s.regs.ibase.toNat f w u) := by
  refine ⟨_, rfl, (requireMode_post _ fun _ => .inl (.mk (by decide))).bind ?_⟩
  rintro _ u ⟨rfl, -⟩
  refine (requireCodes_post (.inl (.mk (by decide)))).bind ?_
  rintro _ s ⟨rfl, -⟩
  refine (requireRegion_post _ _ _ (.inl (.mk (by decide)))).bind ?_
  rintro _ u ⟨rfl, -⟩
  refine (requireApart_post _ _ _ (.inl (.mk (by decide)))).bind ?_
  rintro _ s ⟨rfl, -⟩
  exact (encodeBytes_post _ _ _).mono (fun _ _ => id) (fun _ _ => id) fun _ _ _ => .inr

/-- What the pad commit leaves: with bits buffered one byte committed at the position, else nothing done. -/
structure Padded (s t : State) : Prop where
  keeps : WriterKeeps s t
  wf : s.mem.wf = true → t.mem.wf = true
  drawn : t.env.drawn = s.env.drawn + if 0 < s.ch.bn.toNat then 1 else 0
  read : ∀ a, (a = s.ch.pos → s.ch.bn = 0) → t.mem.read a = s.mem.read a

theorem padCommit_post (s : State) :
    (padCommit s).Post (fun _ t => Padded s t) (fun _ _ => False)
      (fun f w t => (t = s ∧ (f = .streamOverflow ∨ f = .headerOverflow)) ∨
        (0 < s.ch.bn.toNat ∧ s.ch.pos < 2 ^ 32 ∧ f = .busError ∧ w.toNat = s.ch.pos ∧ t = s.stored s.ch.pos (Config.freeByte s.env.drawn))) := by
  unfold padCommit
  split
  · next hbn =>
    have hne {a : Nat} (h : a = s.ch.pos → s.ch.bn = 0) : a ≠ s.ch.pos := fun e => by simp [h e] at hbn
    refine ((commit_post _ s).mono (fun _ _ => id) (fun _ _ => id) fun f w t h => ?_).bind ?_
    · exact h.imp (And.imp_right (Or.imp And.left And.left)) fun h => ⟨hbn, h⟩
    · rintro _ t ⟨rfl, hp, -⟩
      refine ⟨by simp [WriterKeeps, KeepsBlock, State.stored], fun hwf => ?_, by simp [hbn], fun a ha => ?_⟩
      · simpa using Memory.write_wf _ _ _ hp hwf
      · simpa using Memory.read_write_other _ _ _ _ (hne ha)
  · next hbn => exact ⟨WriterKeeps.refl s, id, by rw [if_neg hbn]; rfl, fun _ _ => rfl⟩

theorem runs_wClose (s : State) :
    Runs .wClose s
      (fun u => s.ch.mode = .write ∧ ∃ v x, Padded s v ∧ WroteBytes v x s.ch.lbase.toNat 4 false ∧ u = x.closeWriter)
      (fun _ _ => False)
      (fun f w u => CheckFails s f u ∨ (s.ch.mode = .write ∧
        ((u = s ∧ (f = .streamOverflow ∨ f = .headerOverflow)) ∨
          (0 < s.ch.bn.toNat ∧ s.ch.pos < 2 ^ 32 ∧ f = .busError ∧ w.toNat = s.ch.pos ∧ u = s.stored s.ch.pos (Config.freeByte s.env.drawn)) ∨
            ∃ v, Padded s v ∧ ∃ k < 4, WroteBytes v u s.ch.lbase.toNat k true ∧ f = .busError ∧ w.toNat = s.ch.lbase.toNat + k))) := by
  refine ⟨_, rfl, (requireMode_post _ fun _ => .inl (.mk (by decide))).bind ?_⟩
  rintro _ s ⟨rfl, hm⟩
  refine ((padCommit_post s).mono (fun _ _ => id) (fun _ _ => id) fun f w t h => .inr ⟨hm, h.imp_right .inl⟩).bind fun _ v hv => ?_
  have hlb : v.ch.lbase = s.ch.lbase := hv.keeps.2.2.1
  have hlen : (headerBytes v.ch.chT).length = 4 := by simp [headerBytes]
  have h := writeBytes_post v.ch.lbase.toNat (headerBytes v.ch.chT) v
  rw [hlen, hlb] at h
  rw [hlb]
  exact (h.mono (fun _ _ => id) (fun _ _ => id) fun f w t h => .inr ⟨hm, .inr (.inr ⟨v, hv, h⟩)⟩).bind fun _ x hx => ⟨hm, v, x, hv, hx, rfl⟩

/-! ### Reader commands -/

theorem runs_rOpen (s : State) :
    Runs .rOpen s
      (fun u => s.ch.mode = .idle ∧ regionOK s.regs.sbase s.regs.slen = true ∧ 4 ≤ s.regs.slen.toNat ∧
        ∃ v n, ReadBytes s.latch v 4 ∧ 4 + (n + 7) / 8 ≤ s.regs.slen.toNat ∧ u = v.openReader n)
      (fun e u => s.ch.mode = .idle ∧ e = .badLength ∧ ∃ k, ReadBytes s.latch u k)
      (fun f w u => CheckFails s f u ∨ (s.ch.mode = .idle ∧
        ∃ k < 4, ReadBytes s.latch u (k + 1) ∧ f = .busError ∧ w.toNat = s.regs.sbase.toNat + k)) := by
  refine ⟨_, rfl, (requireMode_post _ fun _ => .inl (.mk (by decide))).bind ?_⟩
  rintro _ u ⟨rfl, hm⟩
  refine (requireRegion_post _ _ _ (.inl (.mk (by decide)))).bind ?_
  rintro _ s ⟨rfl, hreg⟩
  simp only
  split
  · exact ⟨hm, rfl, 0, .refl _⟩
  · next hlen =>
    refine ((readBigEndian_post _ _ _ _).mono (fun _ _ => id) (fun _ _ => False.elim) fun f w t h => .inr ⟨hm, h⟩).bind fun n v hv => ?_
    have hllen : v.ch.llen = s.regs.slen := by rw [hv.ch]; rfl
    rw [hllen]
    split
    · exact ⟨hm, rfl, 4, hv⟩
    · next hfit => exact ⟨hm, hreg, Nat.le_of_not_lt hlen, v, n, hv, Nat.le_of_not_lt hfit, rfl⟩

theorem runs_rBits (n : BitVec 6) (s : State) :
    Runs (.rBits n) s (fun u => ∃ v r, Fetched s v false ∧ u = { v with res := { v.res with result := r } }) (fun _ _ => False)
      (fun f w u => ((CheckFails s f u ∨ (f = .readPastEnd ∧ u = s)) ∨ FetchFails s f w u)) := by
  refine ⟨_, rfl, (requireMode_post _ fun _ => .inl (.inl (.mk (by decide)))).bind ?_⟩
  rintro _ s ⟨rfl, -⟩
  simp only
  split
  · exact .inl (.inr ⟨rfl, rfl⟩)
  · refine ((readNat_post _ _ s).mono (fun _ _ => id) (fun _ _ => id) fun _ _ _ => .inr).bind fun v t ht => ?_
    exact ⟨t, _, ht, rfl⟩

theorem runs_rMagic (s : State) :
    Runs .rMagic s (fun u => ∃ v p, Fetched s v false ∧ u = { v with ch := { v.ch with rpad := p } }) (fun _ u => Fetched s u false)
      (fun f w u => CheckFails s f u ∨ FetchFails s f w u) := by
  refine ⟨_, rfl, (requireMode_post _ fun _ => .inl (.mk (by decide))).bind ?_⟩
  rintro _ s ⟨rfl, -⟩
  simp only
  split
  · exact Fetched.refl s
  · refine ((readNat_post _ _ s).mono (fun _ _ => id) (fun _ _ => False.elim) fun _ _ _ => .inr).bind fun m t ht => ?_
    split
    · exact ht
    · refine ((readNat_post _ _ t).mono (fun _ _ h => ht.trans h) (fun _ _ => False.elim) fun _ _ _ h => .inr (.trans ht h)).bind fun p u hu => ?_
      split
      · exact hu
      · exact ⟨u, _, hu, rfl⟩

theorem runs_rClose (s : State) :
    Runs .rClose s (fun u => s.ch.mode = .read ∧ u = { s with ch := { s.ch with mode := .idle } }) (fun _ _ => False)
      (fun f _ u => CheckFails s f u) := by
  refine ⟨_, rfl, (requireMode_post _ fun _ => .mk (by decide)).bind ?_⟩
  rintro _ u ⟨rfl, hm⟩
  exact ⟨hm, rfl⟩

theorem runs_tDeserialize (s : State) :
    Runs .tDeserialize s (fun u => ∃ v r a, ParseKeeps s.clearTree v ∧ u = v.setTree r a)
      (fun e u => e = .badTree ∧ ParseKeeps s.clearTree u) (fun f w u => CheckFails s f u ∨ ParseFails s.clearTree f w u) := by
  by_cases hm : s.ch.mode = .read
  · refine ⟨_, exec_tDeserialize_of_read hm, ?_⟩
    split
    · exact ⟨_, _, _, .refl _, rfl⟩
    split
    · exact ⟨rfl, .refl _⟩
    · exact (parseTree_post _).mono (fun _ _ => id) (fun _ _ => id) fun _ _ _ => .inr
  · exact ⟨.raise .wrongMode _ s, exec_of_wrong_mode rfl hm, .inl (.mk (by decide))⟩

theorem runs_sDecode (s : State) :
    Runs .sDecode s (fun u => Decoded (s.setOcnt 0) u false) (fun _ u => Decoded (s.setOcnt 0) u false)
      (fun f w u => CheckFails s f u ∨ DecodeFails (s.setOcnt 0) f w u) := by
  refine ⟨_, rfl, (requireMode_post _ fun _ => .inl (.mk (by decide))).bind ?_⟩
  rintro _ u ⟨rfl, -⟩
  refine (requireCodes_post (.inl (.mk (by decide)))).bind ?_
  rintro _ s ⟨rfl, -⟩
  refine (requireRegion_post _ _ _ (.inl (.mk (by decide)))).bind ?_
  rintro _ u ⟨rfl, -⟩
  refine (requireApart_post _ _ _ (.inl (.mk (by decide)))).bind ?_
  rintro _ s ⟨rfl, -⟩
  simp only
  split
  · exact Decoded.refl _
  · refine ((decodeBits_post _ _ _).mono (fun _ _ => id) (fun _ _ => id) fun _ _ _ => .inr).bind fun acc t ht => ?_
    split
    · exact ht
    · exact ht

end Sys2Proof.Machine
end

section
/-! PROOFS. The frame of every command (10_state.md R23 to R35), the handshake and the form of memory, and the checks before execution
(60_exceptions.md R120). -/

namespace Sys2Proof.Machine

/-! ### How a command ends (60_exceptions.md R116 to R118) -/

/-- One of the three endings, of the state `u` that the command's last piece left. -/
def Ended (u t : State) : Prop :=
  t = u.finish ∨ (∃ e, t = u.finishError e) ∨ ∃ f w, f ≠ .none ∧ t = u.enterFault f w

/-- The endings write nothing but the command registers. -/
theorem Ended.eq {u t : State} (h : Ended u t) : t = { u with cmd := t.cmd } := by
  rcases h with rfl | ⟨e, rfl⟩ | ⟨f, w, -, rfl⟩ <;> rfl

theorem Runs.ended {i : Instr} {s t : State} {ok : State → Prop} {err : ErrCode → State → Prop} {raise : FaultCode → Word → State → Prop}
    (h : Runs i s ok err raise) (ht : exec i s = .next t) {P : State → Prop} (hok : ∀ u, ok u → P u) (herr : ∀ e u, err e u → P u)
    (hraise : ∀ f w u, raise f w u → f ≠ .none ∧ P u) : ∃ u, P u ∧ Ended u t := by
  rcases h.next ht with ⟨u, hu, rfl⟩ | ⟨e, u, hu, rfl⟩ | ⟨f, w, u, hu, rfl⟩
  · exact ⟨u, hok u hu, .inl rfl⟩
  · exact ⟨u, herr e u hu, .inr (.inl ⟨e, rfl⟩)⟩
  · exact ⟨u, (hraise f w u hu).2, .inr (.inr ⟨f, w, (hraise f w u hu).1, rfl⟩)⟩

/-! ### The frame -/

/-- What no command touches before it ends: the host's registers, the command registers, the coming turns and the host's last read; and
memory stays in its canonical form. -/
structure HostKeeps (s u : State) : Prop where
  regs : u.regs = s.regs
  cmd : u.cmd = s.cmd
  turns : u.env.turns = s.env.turns
  lastRead : u.env.lastRead = s.env.lastRead
  wf : s.mem.wf = true → u.mem.wf = true

theorem HostKeeps.of_block {s u : State} (h : KeepsBlock s u) (hwf : s.mem.wf = true → u.mem.wf = true) : HostKeeps s u := by
  obtain ⟨hregs, hcmd, -, -, -, -, hturns, hlast⟩ := h
  exact ⟨hregs, hcmd, hturns, hlast, hwf⟩

/-- Counters, tree, codes and results as they were. -/
def DataKeeps (s u : State) : Prop := u.res = s.res ∧ u.cnt = s.cnt ∧ u.tree = s.tree ∧ u.codes = s.codes

theorem KeepsBlock.data {s u : State} (h : KeepsBlock s u) : DataKeeps s u := by
  obtain ⟨-, -, hres, hcnt, htree, hcodes, -⟩ := h
  exact ⟨hres, hcnt, htree, hcodes⟩

/-- Results, channel and memory as they were. -/
def StreamKeeps (s u : State) : Prop := u.res = s.res ∧ u.ch = s.ch ∧ u.mem = s.mem

/-- The codes as they were, but that they may have become invalid. -/
def CodesKeep (s u : State) : Prop := u.codes = s.codes ∨ u.codes = { s.codes with cvalid := false }

/-- The tree as it was, but for its validity. -/
def TreeKeeps (s u : State) : Prop := ∃ b, u.tree = { s.tree with tvalid := b }

/-- The channel's mode stays, or goes from `m` to `m'`. -/
def ModeGoes (s u : State) (m m' : ChMode) : Prop := u.ch.mode = s.ch.mode ∨ (s.ch.mode = m ∧ u.ch.mode = m')

/-- What each command leaves unchanged before it ends. -/
def Frame (i : Instr) (s u : State) : Prop :=
  HostKeeps s u ∧
    match i with
    | .freqClear => StreamKeeps s u ∧ TreeKeeps s u ∧ CodesKeep s u
    | .freqCount => StreamKeeps s u ∧ TreeKeeps s u ∧ CodesKeep s u ∧ u.cnt.total = s.cnt.total
    | .treeBuild => StreamKeeps s u ∧ u.cnt.freq = s.cnt.freq ∧ CodesKeep s u
    | .codesBuild => StreamKeeps s u ∧ u.cnt = s.cnt ∧ u.tree = s.tree ∧ (u.codes = s.codes ∨ u.codes.cvalid = true)
    | .wOpen => DataKeeps s u ∧ u.ch.rpad = s.ch.rpad ∧ ModeGoes s u .idle .write
    | .wBits _ | .wMagic | .tSerialize | .sEncode => WriterKeeps s u
    | .wClose =>
      DataKeeps s u ∧ u.ch.lbase = s.ch.lbase ∧ u.ch.llen = s.ch.llen ∧ u.ch.chC = s.ch.chC ∧ u.ch.rpad = s.ch.rpad ∧ ModeGoes s u .write .idle
    | .rOpen => DataKeeps s u ∧ u.ch.fileLen = s.ch.fileLen ∧ u.mem = s.mem ∧ ModeGoes s u .idle .read
    | .rBits _ =>
      u.res.ocnt = s.res.ocnt ∧ u.cnt = s.cnt ∧ u.tree = s.tree ∧ u.codes = s.codes ∧ u.ch.mode = s.ch.mode ∧ u.ch.lbase = s.ch.lbase ∧
        u.ch.llen = s.ch.llen ∧ u.ch.chT = s.ch.chT ∧ u.ch.rpad = s.ch.rpad ∧ u.ch.fileLen = s.ch.fileLen ∧ u.mem = s.mem
    | .rMagic =>
      DataKeeps s u ∧ u.ch.mode = s.ch.mode ∧ u.ch.lbase = s.ch.lbase ∧ u.ch.llen = s.ch.llen ∧ u.ch.chT = s.ch.chT ∧
        u.ch.fileLen = s.ch.fileLen ∧ u.mem = s.mem
    | .rClose => DataKeeps s u ∧ (∃ m, u.ch = { s.ch with mode := m }) ∧ u.mem = s.mem ∧ ModeGoes s u .read .idle
    | .tDeserialize =>
      u.res = s.res ∧ u.cnt = s.cnt ∧ CodesKeep s u ∧ u.ch.mode = s.ch.mode ∧ u.ch.lbase = s.ch.lbase ∧ u.ch.llen = s.ch.llen ∧
        u.ch.chT = s.ch.chT ∧ u.ch.rpad = s.ch.rpad ∧ u.ch.fileLen = s.ch.fileLen ∧ u.mem = s.mem
    | .sDecode =>
      u.res.result = s.res.result ∧ u.cnt = s.cnt ∧ u.tree = s.tree ∧ u.codes = s.codes ∧ u.ch.mode = s.ch.mode ∧ u.ch.lbase = s.ch.lbase ∧
        u.ch.llen = s.ch.llen ∧ u.ch.chT = s.ch.chT ∧ u.ch.rpad = s.ch.rpad ∧ u.ch.fileLen = s.ch.fileLen

theorem HostKeeps.refl (s : State) : HostKeeps s s := ⟨rfl, rfl, rfl, rfl, id⟩

theorem latch_hostKeeps (s : State) : HostKeeps s s.latch := ⟨rfl, rfl, rfl, rfl, id⟩

/-- Nothing done is in every command's frame. -/
theorem Frame.refl (i : Instr) (s : State) : Frame i s s := by
  refine ⟨.refl s, ?_⟩
  cases i
  case wBits => exact WriterKeeps.refl s
  case wMagic => exact WriterKeeps.refl s
  case tSerialize => exact WriterKeeps.refl s
  case sEncode => exact WriterKeeps.refl s
  case freqClear => exact ⟨⟨rfl, rfl, rfl⟩, ⟨_, rfl⟩, .inl rfl⟩
  case freqCount => exact ⟨⟨rfl, rfl, rfl⟩, ⟨_, rfl⟩, .inl rfl, rfl⟩
  case rClose => exact ⟨⟨rfl, rfl, rfl, rfl⟩, ⟨_, rfl⟩, rfl, .inl rfl⟩
  all_goals simp [StreamKeeps, DataKeeps, CodesKeep, ModeGoes]

/-- A failed check is in every command's frame. -/
theorem CheckFails.frame {i : Instr} {s u : State} {f : FaultCode} (h : CheckFails s f u) : f ≠ .none ∧ Frame i s u := by
  obtain ⟨hf, rfl⟩ := h
  exact ⟨fun e => by simp [e] at hf, .refl i u⟩

theorem Counts.frame {s u : State} {k : Nat} (h : Counts s.invalidate u k) : Frame .freqCount s u := by
  obtain ⟨f, rfl⟩ := h
  exact ⟨⟨rfl, rfl, rfl, rfl, id⟩, ⟨rfl, rfl, rfl⟩, ⟨_, rfl⟩, .inr rfl, rfl⟩

theorem Wrote.hostKeeps {s u : State} {n k : Nat} {b : Bool} (h : Wrote s u n k b) : HostKeeps s u := .of_block h.keeps.1 h.wf

theorem CommitFails.ne_none {s u : State} {n k : Nat} {f : FaultCode} {w : Word} (h : CommitFails s n k f w u) : f ≠ .none := by
  rcases h.2 with ⟨-, ⟨rfl, -⟩ | ⟨rfl, -⟩⟩ | ⟨-, rfl, -⟩ <;> decide

theorem CommitFails.wrote {s u : State} {n k : Nat} {f : FaultCode} {w : Word} (h : CommitFails s n k f w u) : ∃ b, Wrote s u n k b := by
  rcases h.2 with ⟨h, -⟩ | ⟨h, -⟩
  · exact ⟨_, h⟩
  · exact ⟨_, h⟩

theorem EncodeFails.ne_none {s u : State} {n a : Nat} {f : FaultCode} {w : Word} (h : EncodeFails s n a f w u) : f ≠ .none := by
  rcases h with ⟨k, rfl, -⟩ | ⟨k, h⟩ | ⟨k, j, -, -, rfl, -⟩
  · decide
  · exact h.ne_none
  · decide

theorem EncodeFails.wrote {s u : State} {n a : Nat} {f : FaultCode} {w : Word} (h : EncodeFails s n a f w u) :
    ∃ k b, Wrote s u (255 * n) k b := by
  rcases h with ⟨k, -, h⟩ | ⟨k, h⟩ | ⟨k, j, -, h, -⟩
  · exact ⟨k, _, h⟩
  · exact ⟨k, h.wrote⟩
  · exact ⟨k, _, h⟩

theorem Wrote.frame {s u : State} {n k : Nat} {b : Bool} (h : Wrote s u n k b) {i : Instr}
    (hi : (∃ n, i = .wBits n) ∨ i = .wMagic ∨ i = .tSerialize ∨ i = .sEncode) : Frame i s u := by
  rcases hi with ⟨n, rfl⟩ | rfl | rfl | rfl <;> exact ⟨h.hostKeeps, h.keeps⟩

theorem Fetched.hostKeeps {s u : State} {b : Bool} (h : Fetched s u b) : HostKeeps s u :=
  .of_block h.keeps.1 (by rw [h.keeps.2.2.2.2.2.2.2]; exact id)

theorem ReadBytes.hostKeeps {s u : State} {k : Nat} (h : ReadBytes s u k) : HostKeeps s u := .of_block h.keeps (by rw [h.mem]; exact id)

theorem WroteBytes.hostKeeps {s u : State} {a k : Nat} {b : Bool} (h : WroteBytes s u a k b) : HostKeeps s u := .of_block h.keeps h.wf

theorem HostKeeps.trans {s t u : State} (h : HostKeeps s t) (h' : HostKeeps t u) : HostKeeps s u :=
  ⟨h'.regs.trans h.regs, h'.cmd.trans h.cmd, h'.turns.trans h.turns, h'.lastRead.trans h.lastRead, h'.wf ∘ h.wf⟩

theorem Decoded.frame {s u : State} {b : Bool} (h : Decoded (s.setOcnt 0) u b) : Frame .sDecode s u :=
  ⟨⟨h.regs, h.cmd, h.turns, h.lastRead, h.wf⟩, h.result, h.cnt, h.tree, h.codes, h.mode, h.lbase, h.llen, h.chT, h.rpad, h.fileLen⟩

theorem DecodeFails.frame {s u : State} {f : FaultCode} {w : Word} (h : DecodeFails (s.setOcnt 0) f w u) : f ≠ .none ∧ Frame .sDecode s u := by
  rcases h with ⟨rfl, h⟩ | ⟨rfl, h, -⟩ | ⟨rfl, h, -⟩ <;> exact ⟨by decide, h.frame⟩

theorem ParseKeeps.frame {s u : State} (h : ParseKeeps s.clearTree u) : Frame .tDeserialize s u := by
  exact ⟨⟨h.regs, h.cmd, h.turns, h.lastRead, by rw [h.mem]; exact id⟩, h.res, h.cnt, .inr h.codes, h.mode, h.lbase, h.llen, h.chT, h.rpad,
    h.fileLen, h.mem⟩

/-- Every command keeps its frame, however it ends. -/
theorem exec_frame {i : Instr} {s t : State} (ht : exec i s = .next t) : ∃ u, Frame i s u ∧ Ended u t := by
  cases i with
  | freqClear =>
    cases (exec_freqClear s).symm.trans ht
    refine ⟨_, ?_, .inl rfl⟩
    exact ⟨⟨rfl, rfl, rfl, rfl, id⟩, ⟨rfl, rfl, rfl⟩, ⟨_, rfl⟩, .inr rfl⟩
  | freqCount =>
    refine (runs_freqCount s).ended ht (fun u h => h.frame) (fun e u ⟨_, k, h⟩ => h.frame) fun f w u h => ?_
    rcases h with h | ⟨rfl, k, -, h, -⟩
    · exact h.frame
    · exact ⟨by decide, h.frame⟩
  | treeBuild =>
    rcases le_or_gt (freqSum s.cnt.freq) 0xFFFFFFFF with h | h
    · cases (exec_treeBuild_of_fits h).symm.trans ht
      refine ⟨_, ?_, .inl rfl⟩
      exact ⟨⟨rfl, rfl, rfl, rfl, id⟩, ⟨rfl, rfl, rfl⟩, rfl, .inr rfl⟩
    · cases (exec_treeBuild_of_overflow h).symm.trans ht
      refine ⟨_, ?_, .inr (.inl ⟨_, rfl⟩)⟩
      exact ⟨⟨rfl, rfl, rfl, rfl, id⟩, ⟨rfl, rfl, rfl⟩, rfl, .inr rfl⟩
  | codesBuild =>
    refine (runs_codesBuild s).ended ht (fun u h => ?_) (fun _ _ => False.elim) fun f w u h => h.frame
    obtain ⟨-, e, tb, -, rfl⟩ := h
    exact ⟨⟨rfl, rfl, rfl, rfl, id⟩, ⟨rfl, rfl, rfl⟩, rfl, rfl, .inr rfl⟩
  | wOpen =>
    refine (runs_wOpen s).ended ht (fun u h => ?_) (fun _ _ => False.elim) fun f w u h => ?_
    · obtain ⟨hm, -, -, v, hv, rfl⟩ := h
      obtain ⟨hregs, hcmd, hres, hcnt, htree, hcodes, hturns, hlast⟩ := hv.keeps
      exact ⟨⟨by simpa using hregs, by simpa using hcmd, by simpa using hturns, by simpa using hlast, by simpa using hv.wf⟩,
        ⟨by simpa using hres, by simpa using hcnt, by simpa using htree, by simpa using hcodes⟩, by simp [hv.ch], .inr ⟨hm, by simp⟩⟩
    · rcases h with h | ⟨-, ⟨rfl, rfl⟩ | ⟨k, -, h, rfl, -⟩⟩
      · exact h.frame
      · exact ⟨by decide, ⟨rfl, rfl, rfl, rfl, id⟩, ⟨rfl, rfl, rfl, rfl⟩, rfl, .inl rfl⟩
      · have hch := h.ch
        exact ⟨by decide, (latch_hostKeeps s).trans h.hostKeeps, h.keeps.data, by rw [hch]; rfl, .inl (by rw [hch]; rfl)⟩
  | wBits n =>
    refine (runs_wBits n s).ended ht (fun u h => h.frame (.inl ⟨n, rfl⟩)) (fun _ _ => False.elim) fun f w u h => ?_
    rcases h with h | h
    · exact h.frame
    · obtain ⟨b, hw⟩ := h.wrote
      exact ⟨h.ne_none, hw.frame (.inl ⟨n, rfl⟩)⟩
  | wMagic =>
    refine (runs_wMagic s).ended ht (fun u h => h.frame (.inr (.inl rfl))) (fun _ _ => False.elim) fun f w u h => ?_
    rcases h with h | h
    · exact h.frame
    · obtain ⟨b, hw⟩ := h.wrote
      exact ⟨h.ne_none, hw.frame (.inr (.inl rfl))⟩
  | wClose =>
    have hpad {v : State} (hv : Padded s v) : Frame .wClose s v := by
      obtain ⟨hk, hmode, hlbase, hllen, hchC, hrpad, -⟩ := hv.keeps
      exact ⟨.of_block hk hv.wf, hk.data, hlbase, hllen, hchC, hrpad, .inl hmode⟩
    have hbytes {v x : State} {k : Nat} {b : Bool} (hv : Padded s v) (hx : WroteBytes v x s.ch.lbase.toNat k b) : Frame .wClose s x := by
      obtain ⟨hhost, ⟨hres, hcnt, htree, hcodes⟩, hch⟩ := hpad hv
      obtain ⟨hres', hcnt', htree', hcodes'⟩ := hx.keeps.data
      refine ⟨hhost.trans hx.hostKeeps, ⟨hres'.trans hres, hcnt'.trans hcnt, htree'.trans htree, hcodes'.trans hcodes⟩, ?_⟩
      unfold ModeGoes
      rw [hx.ch]
      exact hch
    refine (runs_wClose s).ended ht (fun u h => ?_) (fun _ _ => False.elim) fun f w u h => ?_
    · obtain ⟨hm, v, x, hv, hx, rfl⟩ := h
      obtain ⟨⟨hregs, hcmd, hturns, hlast, hwf⟩, hdata, hlbase, hllen, hchC, hrpad, -⟩ := hbytes hv hx
      exact ⟨⟨hregs, hcmd, hturns, hlast, hwf⟩, hdata, hlbase, hllen, hchC, hrpad, .inr ⟨hm, rfl⟩⟩
    · rcases h with h | ⟨-, ⟨rfl, rfl | rfl⟩ | ⟨-, hp, rfl, -, rfl⟩ | ⟨v, hv, k, -, h, rfl, -⟩⟩
      · exact h.frame
      · exact ⟨by decide, .refl _ _⟩
      · exact ⟨by decide, .refl _ _⟩
      · exact ⟨by decide, ⟨rfl, rfl, rfl, rfl, s.stored_wf _ hp⟩, ⟨rfl, rfl, rfl, rfl⟩, rfl, rfl, rfl, rfl, .inl rfl⟩
      · exact ⟨by decide, hbytes hv h⟩
  | rOpen =>
    have hread {u : State} {k : Nat} (h : ReadBytes s.latch u k) : Frame .rOpen s u := by
      have hch := h.ch
      exact ⟨(latch_hostKeeps s).trans h.hostKeeps, h.keeps.data, by rw [hch]; rfl, h.mem, .inl (by rw [hch]; rfl)⟩
    refine (runs_rOpen s).ended ht (fun u h => ?_) (fun e u ⟨_, _, k, h⟩ => hread h) fun f w u h => ?_
    · obtain ⟨hm, -, -, v, n, hv, -, rfl⟩ := h
      obtain ⟨⟨hregs, hcmd, hturns, hlast, hwf⟩, ⟨hres, hcnt, htree, hcodes⟩, hlen, hmem, -⟩ := hread hv
      exact ⟨⟨by simpa using hregs, by simpa using hcmd, by simpa using hturns, by simpa using hlast, by simpa using hwf⟩,
        ⟨by simpa using hres, by simpa using hcnt, by simpa using htree, by simpa using hcodes⟩, by simpa using hlen, by simpa using hmem,
        .inr ⟨hm, by simp⟩⟩
    · rcases h with h | ⟨-, k, -, h, rfl, -⟩
      · exact h.frame
      · exact ⟨by decide, hread h⟩
  | rBits n =>
    have hfetch {u : State} {b : Bool} (h : Fetched s u b) : Frame (.rBits n) s u := by
      obtain ⟨⟨-, -, hres, hcnt, htree, hcodes, -⟩, hmode, hlbase, hllen, hchT, hrpad, hlen, hmem⟩ := h.keeps
      exact ⟨h.hostKeeps, by rw [hres], hcnt, htree, hcodes, hmode, hlbase, hllen, hchT, hrpad, hlen, hmem⟩
    refine (runs_rBits n s).ended ht (fun u h => ?_) (fun _ _ => False.elim) fun f w u h => ?_
    · obtain ⟨v, r, hv, rfl⟩ := h
      obtain ⟨⟨hregs, hcmd, hturns, hlast, hwf⟩, hrest⟩ := hfetch hv
      exact ⟨⟨hregs, hcmd, hturns, hlast, hwf⟩, hrest⟩
    · rcases h with (h | ⟨rfl, rfl⟩) | ⟨rfl, h, -⟩
      · exact h.frame
      · exact ⟨by decide, .refl _ _⟩
      · exact ⟨by decide, hfetch h⟩
  | rMagic =>
    have hfetch {u : State} {b : Bool} (h : Fetched s u b) : Frame .rMagic s u := by
      obtain ⟨hk, hmode, hlbase, hllen, hchT, -, hlen, hmem⟩ := h.keeps
      exact ⟨h.hostKeeps, hk.data, hmode, hlbase, hllen, hchT, hlen, hmem⟩
    refine (runs_rMagic s).ended ht (fun u h => ?_) (fun _ _ h => hfetch h) fun f w u h => ?_
    · obtain ⟨v, p, hv, rfl⟩ := h
      obtain ⟨⟨hregs, hcmd, hturns, hlast, hwf⟩, hdata, hrest⟩ := hfetch hv
      exact ⟨⟨hregs, hcmd, hturns, hlast, hwf⟩, hdata, hrest⟩
    · rcases h with h | ⟨rfl, h, -⟩
      · exact h.frame
      · exact ⟨by decide, hfetch h⟩
  | rClose =>
    refine (runs_rClose s).ended ht (fun u h => ?_) (fun _ _ => False.elim) fun f w u h => h.frame
    obtain ⟨hm, rfl⟩ := h
    exact ⟨⟨rfl, rfl, rfl, rfl, id⟩, ⟨rfl, rfl, rfl, rfl⟩, ⟨_, rfl⟩, rfl, .inr ⟨hm, rfl⟩⟩
  | tSerialize =>
    refine (runs_tSerialize s).ended ht (fun u ⟨p, _, h⟩ => h.frame (.inr (.inr (.inl rfl)))) (fun _ _ => False.elim) fun f w u h => ?_
    rcases h with h | ⟨p, -, h⟩
    · exact h.frame
    · obtain ⟨b, hw⟩ := h.wrote
      exact ⟨h.ne_none, hw.frame (.inr (.inr (.inl rfl)))⟩
  | tDeserialize =>
    refine (runs_tDeserialize s).ended ht (fun u h => ?_) (fun _ _ ⟨_, h⟩ => h.frame) fun f w u h => ?_
    · obtain ⟨v, r, a, hv, rfl⟩ := h
      obtain ⟨⟨hregs, hcmd, hturns, hlast, hwf⟩, hrest⟩ := hv.frame
      exact ⟨⟨hregs, hcmd, hturns, hlast, hwf⟩, hrest⟩
    · rcases h with h | ⟨rfl, h, -⟩
      · exact h.frame
      · exact ⟨by decide, h.frame⟩
  | sEncode =>
    refine (runs_sEncode s).ended ht (fun u ⟨k, h⟩ => h.frame (.inr (.inr (.inr rfl)))) (fun _ _ => False.elim) fun f w u h => ?_
    rcases h with h | h
    · exact h.frame
    · obtain ⟨k, b, hw⟩ := h.wrote
      exact ⟨h.ne_none, hw.frame (.inr (.inr (.inr rfl)))⟩
  | sDecode =>
    refine (runs_sDecode s).ended ht (fun u h => h.frame) (fun _ _ h => h.frame) fun f w u h => ?_
    rcases h with h | h
    · exact h.frame
    · exact h.frame

end Sys2Proof.Machine
end

section
/-! PROOFS. The obligations about every command (60_exceptions.md), from the frames: what each may write and how it ends. -/

namespace Sys2Proof.Machine

/-- The command registers after each ending. -/
theorem Ended.cmd_cases {u t : State} (h : Ended u t) :
    t.cmd = { u.cmd with busy := false, done := true } ∨ (∃ e, t.cmd = { u.cmd with err := e, busy := false, done := true }) ∨
      ∃ f w, f ≠ .none ∧ t.cmd = { u.cmd with fault := true, fcode := f, fop := opField u.cmd.pcmd, finfo := w, busy := false } := by
  rcases h with rfl | ⟨e, rfl⟩ | ⟨f, w, hf, rfl⟩
  · exact .inl rfl
  · exact .inr (.inl ⟨e, rfl⟩)
  · exact .inr (.inr ⟨f, w, hf, rfl⟩)

/-- `ERR` changes only with `DONE` set, the fault registers only with `FAULT` set, and `PCMD` not at all (10_state.md R35). -/
theorem Ended.cmd_writes {u t : State} (h : Ended u t) :
    t.cmd.pcmd = u.cmd.pcmd ∧ t.cmd.busy = false ∧ (t.cmd.err ≠ u.cmd.err → t.cmd.done = true) ∧
      (t.cmd.fault ≠ u.cmd.fault ∨ t.cmd.fcode ≠ u.cmd.fcode ∨ t.cmd.fop ≠ u.cmd.fop ∨ t.cmd.finfo ≠ u.cmd.finfo → t.cmd.fault = true) := by
  rcases h.cmd_cases with h | ⟨e, h⟩ | ⟨f, w, -, h⟩ <;> simp [h]

/-- Settles O16: the three endings, from a handshake with a command issued. -/
theorem commandEndsOneWay : Obligations.CommandEndsOneWay := by
  intro i s t ⟨hfaulted, hclear, hbusy⟩ hb ht
  obtain ⟨u, ⟨⟨hregs, hcmd, -⟩, -⟩, he⟩ := exec_frame ht
  have hf : s.cmd.fault = false := by
    by_contra hf
    have := (hfaulted (by simpa using hf)).1
    simp [hb] at this
  obtain ⟨hfcode, hfop, hfinfo⟩ := hclear hf
  obtain ⟨hdone, herr⟩ := hbusy hb
  have hirq : s.irq = false := by simp [State.irq, hdone, hf]
  have hie : t.regs.ie = s.regs.ie := by rw [he.eq, ← hregs]
  obtain ⟨hpcmd, hbusy', -⟩ := he.cmd_writes
  rw [hcmd] at hpcmd
  have hirq' : t.irq = (s.regs.ie && (t.cmd.done || t.cmd.fault)) := by rw [State.irq, hie]
  rw [hirq']
  refine ⟨hbusy', hpcmd, hirq, ?_⟩
  rcases he.cmd_cases with h | ⟨e, h⟩ | ⟨f, w, hne, h⟩ <;> rw [h, hcmd]
  · exact ⟨by simp, .inl ⟨rfl, hf, hfcode, hfop, hfinfo⟩⟩
  · exact ⟨by simp, .inl ⟨rfl, hf, hfcode, hfop, hfinfo⟩⟩
  · exact ⟨by simp, .inr ⟨hdone, herr, rfl, hne, rfl⟩⟩

/-- Settles O17: each clause reads off the frame of every command it does not name. -/
theorem onlyNamedCommandsWrite : Obligations.OnlyNamedCommandsWrite := by
  intro i s t ht writesBits readsBits
  obtain ⟨u, ⟨⟨hregs, hcmd, hturns, hlast, -⟩, hframe⟩, he⟩ := exec_frame ht
  obtain ⟨hpcmd, -, herr, hfault⟩ := he.cmd_writes
  rw [hcmd] at hpcmd herr hfault
  rw [he.eq]
  refine ⟨hregs, hturns, hlast, hpcmd, herr, hfault, ?_⟩
  cases i with
  | freqClear =>
    obtain ⟨⟨hres, hch, hmem⟩, ⟨b, htree⟩, hcodes | hcodes⟩ := hframe <;> simp [hres, hch, hmem, htree, hcodes]
  | freqCount =>
    obtain ⟨⟨hres, hch, hmem⟩, ⟨b, htree⟩, hcodes | hcodes, htotal⟩ := hframe <;> simp [hres, hch, hmem, htree, hcodes, htotal]
  | treeBuild =>
    obtain ⟨⟨hres, hch, hmem⟩, hfreq, hcodes | hcodes⟩ := hframe <;> simp [hres, hch, hmem, hfreq, hcodes]
  | codesBuild =>
    obtain ⟨⟨hres, hch, hmem⟩, hcnt, htree, hcodes | hcodes⟩ := hframe <;> simp [hres, hch, hmem, hcnt, htree, hcodes]
  | wOpen =>
    obtain ⟨⟨hres, hcnt, htree, hcodes⟩, hrpad, hmode | hmode⟩ := hframe <;> simp [hres, hcnt, htree, hcodes, hrpad, hmode]
  | wBits n =>
    obtain ⟨⟨-, -, hres, hcnt, htree, hcodes, -⟩, hmode, hlbase, hllen, hchC, hrpad, hlen⟩ := hframe
    simp [hres, hcnt, htree, hcodes, hmode, hlbase, hllen, hchC, hrpad, hlen, writesBits]
  | wMagic =>
    obtain ⟨⟨-, -, hres, hcnt, htree, hcodes, -⟩, hmode, hlbase, hllen, hchC, hrpad, hlen⟩ := hframe
    simp [hres, hcnt, htree, hcodes, hmode, hlbase, hllen, hchC, hrpad, hlen, writesBits]
  | wClose =>
    obtain ⟨⟨hres, hcnt, htree, hcodes⟩, hlbase, hllen, hchC, hrpad, hmode | hmode⟩ := hframe <;>
      simp [hres, hcnt, htree, hcodes, hlbase, hllen, hchC, hrpad, hmode]
  | rOpen =>
    obtain ⟨⟨hres, hcnt, htree, hcodes⟩, hlen, hmem, hmode | hmode⟩ := hframe <;> simp [hres, hcnt, htree, hcodes, hlen, hmem, hmode]
  | rBits n =>
    obtain ⟨hocnt, hcnt, htree, hcodes, hmode, hlbase, hllen, hchT, hrpad, hlen, hmem⟩ := hframe
    simp [hocnt, hcnt, htree, hcodes, hmode, hlbase, hllen, hchT, hrpad, hlen, hmem, readsBits]
  | rMagic =>
    obtain ⟨⟨hres, hcnt, htree, hcodes⟩, hmode, hlbase, hllen, hchT, hlen, hmem⟩ := hframe
    simp [hres, hcnt, htree, hcodes, hmode, hlbase, hllen, hchT, hlen, hmem, readsBits]
  | rClose =>
    obtain ⟨⟨hres, hcnt, htree, hcodes⟩, ⟨m, hch⟩, hmem, hmode | hmode⟩ := hframe <;> rw [hch] at hmode <;>
      simp [hres, hcnt, htree, hcodes, hch, hmem, hmode]
  | tSerialize =>
    obtain ⟨⟨-, -, hres, hcnt, htree, hcodes, -⟩, hmode, hlbase, hllen, hchC, hrpad, hlen⟩ := hframe
    simp [hres, hcnt, htree, hcodes, hmode, hlbase, hllen, hchC, hrpad, hlen, writesBits]
  | tDeserialize =>
    obtain ⟨hres, hcnt, hcodes | hcodes, hmode, hlbase, hllen, hchT, hrpad, hlen, hmem⟩ := hframe <;>
      simp [hres, hcnt, hcodes, hmode, hlbase, hllen, hchT, hrpad, hlen, hmem, readsBits]
  | sEncode =>
    obtain ⟨⟨-, -, hres, hcnt, htree, hcodes, -⟩, hmode, hlbase, hllen, hchC, hrpad, hlen⟩ := hframe
    simp [hres, hcnt, htree, hcodes, hmode, hlbase, hllen, hchC, hrpad, hlen, writesBits]
  | sDecode =>
    obtain ⟨hresult, hcnt, htree, hcodes, hmode, hlbase, hllen, hchT, hrpad, hlen⟩ := hframe
    simp [hresult, hcnt, htree, hcodes, hmode, hlbase, hllen, hchT, hrpad, hlen, readsBits]

end Sys2Proof.Machine
end

section
/-! PROOFS. The frames as the obligations state them, where memory may change, and the invariants of memory and of the handshake. -/

namespace Sys2Proof.Machine

/-! ### The bytes a writer's command changes -/

/-- The most bits a command that writes bits gives its writer. -/
def maxBits (i : Instr) (s : State) : Nat :=
  match i with
  | .wBits n => n.toNat
  | .wMagic => 24
  | .tSerialize =>
    match serialTree s.tree with
    | .ok p => p.length
    | .error _ => 0
  | .sEncode => 255 * s.regs.ilen.toNat
  | _ => 0

/-- The commands that write bits (42_bitchannel.md R99, R100, 41_tree_codec.md R90, 43_stream_codec.md R106). -/
def WritesBits (i : Instr) : Prop := (∃ n, i = .wBits n) ∨ i = .wMagic ∨ i = .tSerialize ∨ i = .sEncode

theorem maxBits_tSerialize {s : State} {p : List Bool} (h : serialTree s.tree = .ok p) : maxBits .tSerialize s = p.length := by
  simp only [maxBits, h]

/-- The state a writing command's last piece leaves: only a failed bus access leaves the byte at the position open. -/
def WriterLeaves (i : Instr) (s u : State) (f : FaultCode) : Prop := ∃ k b, Wrote s u (maxBits i s) k b ∧ (b = true → f = .busError)

theorem Wrote.leaves {i : Instr} {s u : State} {n k : Nat} (h : Wrote s u n k false) (hn : n ≤ maxBits i s) (f : FaultCode) :
    WriterLeaves i s u f := ⟨k, _, h.mono hn, nofun⟩

theorem CheckFails.leaves {s u : State} {f : FaultCode} (h : CheckFails s f u) (i : Instr) : WriterLeaves i s u f := by
  rw [h.2]
  exact (Wrote.refl s).leaves (Nat.zero_le _) f

theorem CommitFails.leaves {i : Instr} {s u : State} {n k : Nat} {f : FaultCode} {w : Word} (h : CommitFails s n k f w u)
    (hn : n ≤ maxBits i s) : WriterLeaves i s u f := by
  rcases h.2 with ⟨hw, -⟩ | ⟨hw, hf, -⟩
  · exact hw.leaves hn f
  · exact ⟨k, _, hw.mono hn, fun _ => hf⟩

theorem EncodeFails.leaves {s u : State} {f : FaultCode} {w : Word} (h : EncodeFails s s.regs.ilen.toNat s.regs.ibase.toNat f w u) :
    WriterLeaves .sEncode s u f := by
  rcases h with ⟨k, -, hw⟩ | ⟨k, hw⟩ | ⟨k, j, -, hw, -⟩
  · exact hw.leaves le_rfl f
  · exact hw.leaves le_rfl
  · exact hw.leaves le_rfl f

theorem runs_writer {i : Instr} (hi : WritesBits i) (s : State) :
    Runs i s (fun u => ∀ f, WriterLeaves i s u f) (fun _ _ => False) (fun f _ u => WriterLeaves i s u f) := by
  rcases hi with ⟨n, rfl⟩ | rfl | rfl | rfl
  · exact (runs_wBits n s).mono (fun _ h => h.leaves le_rfl) (fun _ _ => id) fun f w u h => h.elim (·.leaves _) (·.leaves le_rfl)
  · exact (runs_wMagic s).mono (fun _ h => h.leaves le_rfl) (fun _ _ => id) fun f w u h => h.elim (·.leaves _) (·.leaves le_rfl)
  · refine (runs_tSerialize s).mono ?_ (fun _ _ => id) ?_
    · rintro u ⟨p, hp, h⟩
      exact h.leaves (maxBits_tSerialize hp).ge
    · rintro f w u (h | ⟨p, hp, h⟩)
      · exact h.leaves _
      · exact h.leaves (maxBits_tSerialize hp).ge
  · exact (runs_sEncode s).mono (fun _ ⟨_, h⟩ => h.leaves le_rfl) (fun _ _ => id) fun f w u h => h.elim (·.leaves _) (·.leaves)

theorem exec_writer {i : Instr} (hi : WritesBits i) {s t : State} (ht : exec i s = .next t) :
    ∃ u k b, Wrote s u (maxBits i s) k b ∧ t = { u with cmd := t.cmd } ∧ (b = true → t.cmd.fcode = .busError) := by
  rcases (runs_writer hi s).next ht with ⟨u, h, rfl⟩ | ⟨e, u, h, rfl⟩ | ⟨f, w, u, ⟨k, b, hw, hb⟩, rfl⟩
  · obtain ⟨k, b, hw, hb⟩ := h .none
    exact ⟨u, k, b, hw, rfl, fun h => absurd (hb h) (by decide)⟩
  · exact h.elim
  · exact ⟨u, k, b, hw, rfl, hb⟩

/-- Settles O29: the bytes committed lie between the positions, and at most the byte at the position reached was left by a failed access. -/
theorem frameBitWriters : Obligations.FrameBitWriters := by
  intro i s t hi ht
  obtain ⟨u, k, b, hw, heq, hb⟩ := exec_writer hi ht
  obtain ⟨⟨hregs, -, hres, hcnt, htree, hcodes, -⟩, hmode, hlbase, hllen, hchC, hrpad, hlen⟩ := hw.keeps
  have hpos : u.ch.pos ≤ s.ch.pos + s.ch.commits (maxBits i s) := by
    have := hw.bits_le
    unfold Channel.commits
    omega
  rw [heq]
  refine ⟨fun a ha => hw.read a ?_, hregs, hres, hcnt, htree, hcodes, hmode, hlbase, hllen, hchC, hrpad, hlen, ?_, ?_, ?_, ?_⟩
  · replace ha : a < s.ch.pos ∨ u.ch.pos < a ∨ (a = u.ch.pos ∧ t.cmd.fcode ≠ .busError) := ha
    rcases ha with ha | ha | ⟨rfl, hne⟩
    · exact .inl ha
    · have := Bool.toNat_le b
      omega
    · have : b = false := Bool.eq_false_iff.mpr fun h => hne (hb h)
      simp [this]
  · rintro n rfl
    exact hpos
  · rintro rfl
    exact hpos
  · rintro rfl p hp
    rw [maxBits_tSerialize hp] at hpos
    exact hpos
  · rintro rfl
    exact hpos

/-! ### The other frames -/

/-- Settles O20. -/
theorem frameFrequencyTreeCodes : Obligations.FrameFrequencyTreeCodes := by
  intro i s t hi ht
  obtain ⟨u, ⟨⟨hregs, -⟩, hframe⟩, he⟩ := exec_frame ht
  rw [he.eq]
  simp only [List.mem_cons, List.not_mem_nil, or_false] at hi
  rcases hi with rfl | rfl | rfl | rfl
  · obtain ⟨⟨hres, hch, hmem⟩, ⟨b, htree⟩, hcodes | hcodes⟩ := hframe <;> simp [hregs, hres, hch, hmem, htree, hcodes]
  · obtain ⟨⟨hres, hch, hmem⟩, ⟨b, htree⟩, hcodes | hcodes, htotal⟩ := hframe <;> simp [hregs, hres, hch, hmem, htree, hcodes, htotal]
  · obtain ⟨⟨hres, hch, hmem⟩, hfreq, hcodes | hcodes⟩ := hframe <;> simp [hregs, hres, hch, hmem, hfreq, hcodes]
  · obtain ⟨⟨hres, hch, hmem⟩, hcnt, htree, -⟩ := hframe
    simp [hregs, hres, hch, hmem, hcnt, htree]

/-- Settles O31. -/
theorem frameReaders : Obligations.FrameReaders := by
  intro i s t hi ht
  obtain ⟨u, ⟨⟨hregs, -⟩, hframe⟩, he⟩ := exec_frame ht
  rw [he.eq]
  rcases hi with rfl | ⟨n, rfl⟩ | rfl | rfl | rfl
  · obtain ⟨⟨hres, hcnt, htree, hcodes⟩, hlen, hmem, -⟩ := hframe
    simp [hregs, hres, hcnt, htree, hcodes, hlen, hmem]
  · obtain ⟨hocnt, hcnt, htree, hcodes, -, hlbase, hllen, hchT, hrpad, hlen, hmem⟩ := hframe
    simp [hregs, hocnt, hcnt, htree, hcodes, hlbase, hllen, hchT, hrpad, hlen, hmem]
  · obtain ⟨⟨hres, hcnt, htree, hcodes⟩, -, hlbase, hllen, hchT, hlen, hmem⟩ := hframe
    simp [hregs, hres, hcnt, htree, hcodes, hlbase, hllen, hchT, hlen, hmem]
  · obtain ⟨⟨hres, hcnt, htree, hcodes⟩, ⟨m, hch⟩, hmem, -⟩ := hframe
    simp [hregs, hres, hcnt, htree, hcodes, hch, hmem]
  · obtain ⟨hres, hcnt, hcodes | hcodes, -, hlbase, hllen, hchT, hrpad, hlen, hmem⟩ := hframe <;>
      simp [hregs, hres, hcnt, hcodes, hlbase, hllen, hchT, hrpad, hlen, hmem]

/-- Where `W_OPEN` may write. -/
theorem exec_wOpen_read {s t : State} (ht : exec .wOpen s = .next t) {a : Nat} (ha : a < s.regs.sbase.toNat ∨ s.regs.sbase.toNat + 4 ≤ a) :
    t.mem.read a = s.mem.read a := by
  rcases (runs_wOpen s).next ht with ⟨u, ⟨-, -, -, v, hv, rfl⟩, rfl⟩ | ⟨e, u, h, -⟩ | ⟨f, w, u, h, rfl⟩
  · simpa using hv.read a (by simpa using ha)
  · exact h.elim
  · rcases h with ⟨-, rfl⟩ | ⟨-, ⟨-, rfl⟩ | ⟨k, hk, h, -⟩⟩
    · rfl
    · rfl
    · exact h.read a (by simp; omega)

/-- Where `W_CLOSE` may write: the header, and with bits buffered the byte at the position. -/
theorem exec_wClose_read {s t : State} (ht : exec .wClose s = .next t) {a : Nat} (ha : a < s.ch.lbase.toNat ∨ s.ch.lbase.toNat + 4 ≤ a)
    (hpos : a = s.ch.pos → s.ch.bn = 0) : t.mem.read a = s.mem.read a := by
  rcases (runs_wClose s).next ht with ⟨u, ⟨-, v, x, hv, hx, rfl⟩, rfl⟩ | ⟨e, u, h, -⟩ | ⟨f, w, u, h, rfl⟩
  · exact (hx.read a (by simpa using ha)).trans (hv.read a hpos)
  · exact h.elim
  · rcases h with ⟨-, rfl⟩ | ⟨-, ⟨rfl, -⟩ | ⟨hbn, -, -, -, rfl⟩ | ⟨v, hv, k, hk, h, -⟩⟩
    · rfl
    · rfl
    · exact s.stored_read_other _ fun h => by simp [hpos h] at hbn
    · exact (h.read a (by simp; omega)).trans (hv.read a hpos)

/-- Settles O30. -/
theorem frameWriterOpenClose : Obligations.FrameWriterOpenClose := by
  intro i s t hi ht
  obtain ⟨u, ⟨⟨hregs, -⟩, hframe⟩, he⟩ := exec_frame ht
  have hmem (a : Nat) (hopen : i = .wOpen → a < s.regs.sbase.toNat ∨ s.regs.sbase.toNat + 4 ≤ a)
      (hclose : i = .wClose → (a < s.ch.lbase.toNat ∨ s.ch.lbase.toNat + 4 ≤ a) ∧ (a = s.ch.pos → s.ch.bn = 0)) :
      t.mem.read a = s.mem.read a := by
    rcases hi with rfl | rfl
    · exact exec_wOpen_read ht (hopen rfl)
    · exact exec_wClose_read ht (hclose rfl).1 (hclose rfl).2
  refine ⟨hmem, ?_⟩
  rw [he.eq]
  rcases hi with rfl | rfl
  · obtain ⟨⟨hres, hcnt, htree, hcodes⟩, hrpad, -⟩ := hframe
    exact ⟨hregs, hres, hcnt, htree, hcodes, hrpad, nofun⟩
  · obtain ⟨⟨hres, hcnt, htree, hcodes⟩, hlbase, hllen, hchC, hrpad, -⟩ := hframe
    exact ⟨hregs, hres, hcnt, htree, hcodes, hrpad, fun _ => ⟨hlbase, hllen, hchC⟩⟩

/-- The state `S_DECODE`'s last piece leaves: nothing done, or `OCNT` bytes of output. -/
def DecoderLeaves (s u : State) (f : FaultCode) : Prop := u = s ∨ ∃ b, Decoded (s.setOcnt 0) u b ∧ (b = true → f = .busError)

theorem exec_sDecode {s t : State} (ht : exec .sDecode s = .next t) : ∃ u, t = { u with cmd := t.cmd } ∧ DecoderLeaves s u t.cmd.fcode := by
  rcases (runs_sDecode s).next ht with ⟨u, h, rfl⟩ | ⟨e, u, h, rfl⟩ | ⟨f, w, u, h, rfl⟩
  · exact ⟨u, rfl, .inr ⟨_, h, nofun⟩⟩
  · exact ⟨u, rfl, .inr ⟨_, h, nofun⟩⟩
  · refine ⟨u, rfl, ?_⟩
    rcases h with ⟨-, rfl⟩ | ⟨-, h⟩ | ⟨-, h, -⟩ | ⟨hf, h, -⟩
    · exact .inl rfl
    · exact .inr ⟨_, h, nofun⟩
    · exact .inr ⟨_, h, nofun⟩
    · exact .inr ⟨_, h, fun _ => hf⟩

/-- Settles O50. -/
theorem frameSDecode : Obligations.FrameSDecode := by
  intro s t ht
  obtain ⟨u, heq, rfl | ⟨b, h, hb⟩⟩ := exec_sDecode ht
  · rw [heq]
    exact ⟨fun _ _ _ => rfl, .inr rfl, rfl, rfl, rfl, rfl, rfl, rfl, rfl, rfl, rfl, rfl, rfl⟩
  · rw [heq]
    refine ⟨fun a ha hbus => h.read a ?_, .inl (h.ocnt_le_olen (Nat.zero_le _)), h.result, h.regs, h.cnt, h.tree, h.codes, h.mode, h.lbase,
      h.llen, h.chT, h.rpad, h.fileLen⟩
    replace ha : a < s.regs.obase.toNat ∨ s.regs.obase.toNat + u.res.ocnt.toNat ≤ a := ha
    replace hbus : a = s.regs.obase.toNat + u.res.ocnt.toNat → t.cmd.fcode ≠ .busError := hbus
    have hne : b = true → a ≠ s.regs.obase.toNat + u.res.ocnt.toNat := fun h e => hbus e (hb h)
    show a < s.regs.obase.toNat + 0 ∨ s.regs.obase.toNat + u.res.ocnt.toNat + b.toNat ≤ a
    cases b with
    | false => simpa using ha
    | true =>
      have := hne rfl
      simp
      omega

/-! ### Invariants of every step -/

/-- Settles O56: a command keeps the form by its frame, a host store by the rule of `Memory.write`. -/
theorem stepKeepsMemoryForm : Obligations.StepKeepsMemoryForm := by
  intro s t hs ht
  replace hs : s.dropTurn.mem.wf = true := hs
  cases step_effect ht with
  | store a v => exact Memory.write_wf _ _ _ a.isLt hs
  | command i t _ _ _ h =>
    obtain ⟨u, ⟨⟨-, -, -, -, hwf⟩, -⟩, he⟩ := exec_frame h
    rw [he.eq]
    exact hwf hs
  | _ => exact hs

/-- What a command or a fault leaves of the handshake, from a command issued. -/
theorem HandshakeOk.ended {s u t : State} (h : HandshakeOk s) (hb : s.cmd.busy = true) (hf : s.cmd.fault = false) (hu : u.cmd = s.cmd)
    (he : Ended u t) : HandshakeOk t := by
  obtain ⟨-, hclear, hbusy⟩ := h
  obtain ⟨hfcode, hfop, hfinfo⟩ := hclear hf
  obtain ⟨hdone, herr⟩ := hbusy hb
  unfold HandshakeOk
  rcases he.cmd_cases with h | ⟨e, h⟩ | ⟨f, w, hne, h⟩ <;> rw [hu] at h <;> rw [h]
  · exact ⟨by simp [hf], fun _ => ⟨hfcode, hfop, hfinfo⟩, nofun⟩
  · exact ⟨by simp [hf], fun _ => ⟨hfcode, hfop, hfinfo⟩, nofun⟩
  · exact ⟨fun _ => ⟨rfl, hdone, herr, hne, rfl⟩, nofun, nofun⟩

/-- Settles O57: by what the turn does. -/
theorem stepKeepsHandshake : Obligations.StepKeepsHandshake := by
  intro s t hs ht
  replace hs : HandshakeOk s.dropTurn := hs
  cases step_effect ht with
  | env e => exact hs
  | reset => exact ⟨nofun, fun _ => ⟨rfl, rfl, rfl⟩, nofun⟩
  | regs r d hd =>
    obtain ⟨hfault, hclear, hbusy⟩ := hs
    have hdone (h : s.cmd.done = false) : d = false := Bool.eq_false_iff.mpr fun hd' => absurd (h.symm.trans (hd hd')) (by decide)
    refine ⟨fun hf => ?_, hclear, fun hb => ⟨hdone (hbusy hb).1, (hbusy hb).2⟩⟩
    obtain ⟨hb, hd', hrest⟩ := hfault hf
    exact ⟨hb, hdone hd', hrest⟩
  | fault f w hb hf hne => exact hs.ended hb hf rfl (.inr (.inr ⟨f, w, hne, rfl⟩))
  | issue w hb hf =>
    obtain ⟨-, hclear, -⟩ := hs
    exact ⟨fun h => absurd (hf.symm.trans h) (by decide), hclear, fun _ => ⟨rfl, rfl⟩⟩
  | freqData v => exact hs
  | store a v => exact hs
  | command i t _ hb hf h =>
    obtain ⟨u, ⟨⟨-, hcmd, -⟩, -⟩, he⟩ := exec_frame h
    exact hs.ended hb hf hcmd he

/-- Settles O55: reset leaves no command, no channel, no tree and no codes. -/
theorem resetIsGood : Obligations.ResetIsGood :=
  ⟨rfl, ⟨nofun, fun _ => ⟨rfl, rfl, rfl⟩, nofun⟩, trivial, nofun, nofun⟩

/-! ### The checks before execution -/

section
variable {s : State}

theorem overlaps_iff {b₁ l₁ b₂ l₂ : Word} :
    overlaps b₁ l₁ b₂ l₂ = true ↔
      ∃ a : Nat, (b₁.toNat ≤ a ∧ a < b₁.toNat + l₁.toNat) ∧ b₂.toNat ≤ a ∧ a < b₂.toNat + l₂.toNat := by
  simp only [overlaps, Bool.and_eq_true, decide_eq_true_eq]
  constructor
  · intro h
    exact ⟨max b₁.toNat b₂.toNat, by omega, by omega⟩
  · rintro ⟨a, h⟩
    omega

theorem requireRegion_wraps {base len : Word} (w : Word) (h : 2 ^ 32 < base.toNat + len.toNat) :
    requireRegion base len w s = .raise .regionFault w s := by
  exact if_neg (by simp only [regionOK, decide_eq_true_eq]; omega)

/-- Of the two region checks of the stream codec one fails, in the state that came to them. -/
theorem regionChecks_fail {base len : Word} (w : Word)
    (h : 2 ^ 32 < base.toNat + len.toNat ∨ overlaps base len s.ch.lbase s.ch.llen = true) :
    requireRegion base len w s = .raise .regionFault w s ∨
      (requireRegion base len w s = .ok () s ∧ requireApart base len w s = .raise .regionFault w s) := by
  by_cases hreg : 2 ^ 32 < base.toNat + len.toNat
  · exact .inl (requireRegion_wraps w hreg)
  · exact .inr ⟨requireRegion_ok (by simp only [regionOK, decide_eq_true_eq]; omega), if_pos (h.resolve_left hreg)⟩

theorem requireTree_fails (h : s.tree.tvalid = false) : requireTree s = .raise .noTree 0 s := by simp [requireTree, h]

theorem requireCodes_fails (h : s.codes.cvalid = false) : requireCodes s = .raise .noCodes 0 s := by simp [requireCodes, h]

end

/-- Settles O19: each check is the first that fails. -/
theorem checksBeforeExecution : Obligations.ChecksBeforeExecution := by
  intro s raises wraps meets
  have hraises {i : Instr} {f : FaultCode} {w : Word} (h : exec i s = (Flow.raise f w s : Flow Unit).complete) : raises i f w := h
  refine ⟨fun ht => hraises ?_, fun ht hm => hraises ?_, fun hc hm => ⟨hraises ?_, hraises ?_⟩, fun hc hm => hraises ?_, fun hw => hraises ?_,
    fun hw hm => ⟨hraises ?_, hraises ?_⟩, fun hw hm hc => hraises ?_, fun hw hm hc => hraises ?_⟩
  · rw [exec, execCodesBuild, requireTree_fails ht, Flow.bind_raise]
  · rw [exec, execTSerialize, requireMode_ok hm, Flow.bind_ok, requireTree_fails ht, Flow.bind_raise]
  · rw [exec, execWMagic, requireMode_ok hm, Flow.bind_ok, requireCodes_fails hc, Flow.bind_raise]
  · rw [exec, execSEncode, requireMode_ok hm, Flow.bind_ok, requireCodes_fails hc, Flow.bind_raise]
  · rw [exec, execSDecode, requireMode_ok hm, Flow.bind_ok, requireCodes_fails hc, Flow.bind_raise]
  · rw [exec, execFreqCount, requireRegion_wraps _ hw, Flow.bind_raise]
  · rw [exec, execWOpen, requireMode_ok hm, Flow.bind_ok, requireRegion_wraps _ hw, Flow.bind_raise]
  · rw [exec, execROpen, requireMode_ok hm, Flow.bind_ok, requireRegion_wraps _ hw, Flow.bind_raise]
  · rw [exec, execSEncode, requireMode_ok hm, Flow.bind_ok, requireCodes_ok hc, Flow.bind_ok]
    rcases regionChecks_fail 0x018 (hw.imp_right overlaps_iff.mpr) with h | ⟨h, h'⟩
    · rw [h, Flow.bind_raise]
    · rw [h, Flow.bind_ok, h', Flow.bind_raise]
  · rw [exec, execSDecode, requireMode_ok hm, Flow.bind_ok, requireCodes_ok hc, Flow.bind_ok]
    rcases regionChecks_fail 0x028 (hw.imp_right overlaps_iff.mpr) with h | ⟨h, h'⟩
    · rw [h, Flow.bind_raise]
    · rw [h, Flow.bind_ok, h', Flow.bind_raise]

/-- Settles O33: with room for no header, both opens end where they have latched the region. -/
theorem openShortRegion : Obligations.OpenShortRegion := by
  intro s hm hreg hlen latched
  have hok : regionOK s.regs.sbase s.regs.slen = true := by simpa [regionOK] using hreg
  have hshort : s.latch.ch.llen.toNat < 4 := hlen
  refine ⟨?_, ?_⟩
  · rw [exec, execWOpen, requireMode_ok hm, Flow.bind_ok, requireRegion_ok hok, Flow.bind_ok]
    simp only [hshort, if_true]
    rfl
  · rw [exec, execROpen, requireMode_ok hm, Flow.bind_ok, requireRegion_ok hok, Flow.bind_ok]
    simp only [hshort, if_true]
    rfl

end Sys2Proof.Machine
end

section
/-! PROOFS. The bit channel under its invariants (42_bitchannel.md R97): no access leaves memory, and every end of a primitive keeps the
writer a writer and the reader a reader. -/

namespace Sys2Proof.Machine

variable {α β : Type}

/-! ### Pieces that do not stop -/

/-- The piece does not stop the model, and each way it can end satisfies its postcondition. -/
def Flow.Ensures (ok : α → State → Prop) (err : ErrCode → State → Prop) (raise : FaultCode → Word → State → Prop) (x : Flow α) : Prop :=
  x.Post ok err raise ∧ x.Safe

section
variable {ok : α → State → Prop} {err err' : ErrCode → State → Prop} {raise raise' : FaultCode → Word → State → Prop} {s : State}

theorem Flow.Ensures.mono {ok' : α → State → Prop} {x : Flow α} (h : x.Ensures ok err raise) (hok : ∀ a s, ok a s → ok' a s)
    (herr : ∀ e s, err e s → err' e s) (hraise : ∀ f w s, raise f w s → raise' f w s) : x.Ensures ok' err' raise' :=
  ⟨h.1.mono hok herr hraise, h.2⟩

theorem Flow.Ensures.bind {ok' : β → State → Prop} {x : Flow α} {k : α → State → Flow β} (h : x.Ensures ok err raise)
    (hk : ∀ a s, ok a s → (k a s).Ensures ok' err raise) : (x.bind k).Ensures ok' err raise :=
  ⟨h.1.bind fun a s hs => (hk a s hs).1, h.2.bind fun a s hx => (hk a s (h.1.of_ok hx)).2⟩

theorem Flow.ensures_ok {a : α} (h : ok a s) : (Flow.ok a s).Ensures ok err raise := ⟨h, Flow.safe_ok a s⟩

theorem Flow.ensures_error {e : ErrCode} (h : err e s) : (Flow.error e s : Flow α).Ensures ok err raise := ⟨h, Flow.safe_error e s⟩

theorem Flow.ensures_raise {f : FaultCode} {w : Word} (h : raise f w s) : (Flow.raise f w s : Flow α).Ensures ok err raise :=
  ⟨h, Flow.safe_raise f w s⟩

theorem Flow.Ensures.and_post {ok' : α → State → Prop} {x : Flow α} (h : x.Ensures ok err raise) (h' : x.Post ok' err' raise') :
    x.Ensures (fun a s => ok a s ∧ ok' a s) (fun e s => err e s ∧ err' e s) (fun f w s => raise f w s ∧ raise' f w s) :=
  ⟨h.1.and h', h.2⟩

end

/-! ### The writer -/

/-- What a writer keeps whatever `BN` is: its region, `CH_T` a whole number of bytes, and the position behind them (R97). -/
def WriterAt (s : State) : Prop :=
  s.ch.lbase.toNat + s.ch.llen.toNat ≤ 2 ^ 32 ∧ s.ch.chT.toNat % 8 = 0 ∧ s.ch.pos = s.ch.lbase.toNat + 4 + s.ch.chT.toNat / 8 ∧
    4 + s.ch.chT.toNat / 8 ≤ s.ch.llen.toNat

theorem regionOK_iff {base len : Word} : regionOK base len = true ↔ base.toNat + len.toNat ≤ 2 ^ 32 := by simp [regionOK]

theorem writerOk_iff (s : State) : WriterOk s ↔ WriterAt s ∧ (s.ch.bn.toNat ≤ 7 ∨ (s.ch.bn = 8 ∧ s.cmd.fault = true)) := by
  unfold WriterOk WriterAt
  rw [regionOK_iff]
  constructor
  · rintro ⟨hreg, h8, hpos, hbn, hlen⟩
    exact ⟨⟨hreg, h8, hpos, hlen⟩, hbn⟩
  · rintro ⟨⟨hreg, h8, hpos, hlen⟩, hbn⟩
    exact ⟨hreg, h8, hpos, hbn, hlen⟩

/-- Outside a fault a writer's buffer is not full. -/
theorem WriterOk.bn_le {s : State} (h : WriterOk s) (hf : s.cmd.fault = false) : s.ch.bn.toNat ≤ 7 :=
  ((writerOk_iff s).mp h).2.resolve_right fun h => absurd (hf.symm.trans h.2) (by decide)

theorem WriterAt.of_ch {s t : State} (h : WriterAt s) (hch : t.ch = s.ch) : WriterAt t := by
  unfold WriterAt
  rw [hch]
  exact h

theorem WriterAt.stored {s : State} (h : WriterAt s) (a : Nat) (v : Byte) : WriterAt (s.stored a v) := h

/-- One byte more fits, and is counted without wrapping. -/
theorem WriterAt.committed {s t : State} {v : Byte} (h : WriterAt s) (hp : s.ch.pos < s.ch.lbase.toNat + s.ch.llen.toNat)
    (hT : s.ch.chT.toNat ≤ 0xFFFFFFF7)
    (ht : t = { (s.stored s.ch.pos v).setPos (s.ch.pos + 1) with
      ch := { ((s.stored s.ch.pos v).setPos (s.ch.pos + 1)).ch with chT := s.ch.chT + 8 } }) : WriterAt t := by
  obtain ⟨hreg, h8, hpos, hlen⟩ := h
  have hchT : t.ch.chT.toNat = s.ch.chT.toNat + 8 := by
    rw [ht]
    show (s.ch.chT.toNat + 8) % 2 ^ 32 = _
    omega
  have htpos : t.ch.pos = s.ch.pos + 1 := by rw [ht]; exact State.setPos_pos _ _ (by omega)
  have hlbase : t.ch.lbase = s.ch.lbase := by rw [ht]; simp
  have hllen : t.ch.llen = s.ch.llen := by rw [ht]; simp
  unfold WriterAt
  rw [hchT, htpos, hlbase, hllen]
  omega

theorem commit_ensures (v : Byte) {s : State} (h : WriterAt s) :
    (commit v s).Ensures (fun _ t => WriterAt t) (fun _ _ => False) (fun _ _ t => WriterAt t) := by
  refine ⟨(commit_post v s).mono (fun _ t ht => ?_) (fun _ _ => id) fun f w t ht => ?_, ?_⟩
  · obtain ⟨ht, -, hp, hT⟩ := ht
    exact h.committed hp hT ht
  · rcases ht with ⟨rfl, -⟩ | ⟨-, -, -, rfl⟩
    · exact h
    · exact h.stored _ _
  · unfold commit
    split
    · exact Flow.safe_raise _ _ _
    split
    · exact Flow.safe_raise _ _ _
    · next hp _ =>
      have := h.1
      exact (memWrite_safe (by omega) v s).bind fun _ t _ => Flow.safe_ok _ _

theorem WriterAt.pushBit {s : State} (h : WriterAt s) (b : Bool) : WriterAt (s.pushBit b) := h

theorem writeBit_ensures (b : Bool) {s : State} (h : WriterAt s) (hbn : s.ch.bn.toNat ≤ 7) :
    (writeBit b s).Ensures (fun _ t => WriterAt t ∧ t.ch.bn.toNat ≤ 7) (fun _ _ => False) (fun _ _ t => WriterAt t) := by
  unfold writeBit
  simp only
  split
  · refine (commit_ensures _ (h.pushBit b)).bind fun _ t ht => Flow.ensures_ok ⟨ht, ?_⟩
    simp
  · next h8 =>
    rw [pushBit_bn_eq_eight] at h8
    exact Flow.ensures_ok ⟨h.pushBit b, by rw [pushBit_bn s b hbn]; omega⟩

theorem writeString_ensures (p : List Bool) {s : State} (h : WriterAt s) (hbn : s.ch.bn.toNat ≤ 7) :
    (writeString p s).Ensures (fun _ t => WriterAt t ∧ t.ch.bn.toNat ≤ 7) (fun _ _ => False) (fun _ _ t => WriterAt t) := by
  induction p generalizing s with
  | nil => exact Flow.ensures_ok ⟨h, hbn⟩
  | cons b p ih => exact (writeBit_ensures b h hbn).bind fun _ t ht => ih ht.1 ht.2

/-- After a fault the buffer may be full, but then by a failed commit. -/
def WriterStops (t : State) : Prop := WriterAt t ∧ (t.ch.bn.toNat ≤ 7 ∨ t.ch.bn = 8)

theorem writeString_keepsWriter (p : List Bool) {s : State} (h : WriterAt s) (hbn : s.ch.bn.toNat ≤ 7) :
    (writeString p s).Ensures (fun _ t => WriterAt t ∧ t.ch.bn.toNat ≤ 7) (fun _ _ => False) (fun _ _ t => WriterStops t) :=
  ((writeString_ensures p h hbn).and_post (writeString_post p s)).mono (fun _ _ => And.left) (fun _ _ => And.left)
    fun _ _ _ h => ⟨h.1, .inr h.2.1⟩

theorem encodeBytes_ensures (n a : Nat) {s : State} (ha : a + n ≤ 2 ^ 32) (h : WriterAt s) (hbn : s.ch.bn.toNat ≤ 7) :
    (encodeBytes n a s).Ensures (fun _ t => WriterAt t ∧ t.ch.bn.toNat ≤ 7) (fun _ _ => False) (fun _ _ t => WriterStops t) := by
  induction n generalizing a s with
  | zero => exact Flow.ensures_ok ⟨h, hbn⟩
  | succ n ih =>
    have hread : (memRead a s).Ensures (fun _ t => WriterAt t ∧ t.ch.bn.toNat ≤ 7) (fun _ _ => False) (fun _ _ t => WriterStops t) := by
      refine ⟨(memRead_post a s).mono (fun _ t ht => ?_) (fun _ _ => id) fun f w t ht => ?_, memRead_safe (by omega) s⟩
      · rw [ht.2.2]; exact ⟨h, hbn⟩
      · rw [ht.2.2]; exact ⟨h, .inl hbn⟩
    refine hread.bind fun b t ⟨ht, htbn⟩ => ?_
    split
    · exact (writeString_keepsWriter _ ht htbn).bind fun _ u hu => ih (a + 1) (by omega) hu.1 hu.2
    · exact Flow.ensures_raise ⟨ht, .inl htbn⟩

theorem padCommit_ensures {s : State} (h : WriterAt s) (hbn : s.ch.bn.toNat ≤ 7) :
    (padCommit s).Ensures (fun _ t => WriterAt t ∧ t.ch.bn.toNat ≤ 7) (fun _ _ => False) (fun _ _ t => WriterAt t ∧ t.ch.bn.toNat ≤ 7) := by
  have hsafe : (padCommit s).Ensures (fun _ t => WriterAt t ∧ t.ch.bn.toNat ≤ 7) (fun _ _ => False) (fun _ _ t => WriterAt t) := by
    unfold padCommit
    split
    · exact (commit_ensures _ h).bind fun _ t ht => Flow.ensures_ok ⟨ht, by simp⟩
    · exact Flow.ensures_ok ⟨h, hbn⟩
  refine (hsafe.and_post (padCommit_post s)).mono (fun _ _ => And.left) (fun _ _ => And.left) fun f w t ht => ⟨ht.1, ?_⟩
  rcases ht.2 with ⟨rfl, -⟩ | ⟨-, -, -, -, rfl⟩ <;> exact hbn

/-- A run of writes that stays inside memory. -/
theorem writeBytes_safe {a : Nat} {l : List Byte} (ha : a + l.length ≤ 2 ^ 32) (s : State) : (writeBytes a l s).Safe := by
  induction l generalizing a s with
  | nil => exact Flow.safe_ok _ _
  | cons v l ih =>
    simp only [List.length_cons] at ha
    exact (memWrite_safe (by omega) v s).bind fun _ t _ => ih (by omega) t

theorem readBigEndian_safe {n a : Nat} (v : Nat) (ha : a + n ≤ 2 ^ 32) (s : State) : (readBigEndian n a v s).Safe := by
  induction n generalizing a v s with
  | zero => exact Flow.safe_ok _ _
  | succ n ih => exact (memRead_safe (by omega) s).bind fun _ t _ => ih _ (by omega) t

theorem peekZero_safe {n k : Nat} {s : State} (h : s.ch.lbase.toNat + 4 + (k + n + 7) / 8 ≤ 2 ^ 32) : (peekZero n k s).Safe := by
  induction n generalizing k s with
  | zero => exact Flow.safe_ok _ _
  | succ n ih =>
    refine ((memRead_safe (by omega) s).bind fun _ t _ => Flow.safe_ok _ _).bind fun b t ht => ?_
    have hch : t.ch = s.ch := by
      have := peekBit_ends k s
      rw [show peekBit k s = .ok b t from ht] at this
      exact this.2.1
    exact (ih (by rw [hch]; omega)).bind fun _ u _ => Flow.safe_ok _ _

theorem countBytes_safe {n a : Nat} (ha : a + n ≤ 2 ^ 32) (s : State) : (countBytes n a s).Safe := by
  induction n generalizing a s with
  | zero => exact Flow.safe_ok _ _
  | succ n ih =>
    refine (memRead_safe (by omega) s).bind fun b t _ => ?_
    split
    · exact Flow.safe_error _ _
    · exact ih (by omega) _

/-! ### The reader -/

/-- What reading the bits `p` leaves of a reader: it still is one, `p.length` bits further on, with one access a fetched byte and `others`
more; and if the buffer agreed with memory it still does, and `p` is what memory holds. -/
structure Reads (s t : State) (p : List Bool) (others : Nat) : Prop where
  keeps : ParseKeeps s t
  reader : ReaderOk t
  chC : t.ch.chC.toNat = s.ch.chC.toNat + p.length
  env : t.env = s.env.after (s.ch.fetches p.length + others)
  bits : BufferAgrees s → BufferAgrees t ∧ s.ahead p.length = p

theorem fetches_zero (c : Channel) : c.fetches 0 = 0 := by
  unfold Channel.fetches
  omega

theorem Reads.refl {s : State} (h : ReaderOk s) : Reads s s [] 0 :=
  ⟨.refl s, h, rfl, by simp [fetches_zero], fun hb => ⟨hb, rfl⟩⟩

/-- The bits in front of a reader depend on memory, the region and the position only. -/
theorem ahead_congr {s t : State} (hmem : t.mem = s.mem) (hlbase : t.ch.lbase = s.ch.lbase) (n : Nat) :
    t.ahead n = regionBits s.mem s.ch.lbase.toNat t.ch.chC.toNat n := by
  rw [State.ahead, hmem, hlbase]

theorem Reads.ahead {s t : State} {p : List Bool} {k : Nat} (h : Reads s t p k) (n : Nat) :
    s.ahead (p.length + n) = s.ahead p.length ++ t.ahead n := by
  rw [ahead_congr h.keeps.mem h.keeps.lbase, h.chC]
  exact regionBits_add ..

theorem Reads.trans {s t u : State} {p q : List Bool} {j k : Nat} (h : Reads s t p j) (h' : Reads t u q k) : Reads s u (p ++ q) (j + k) where
  keeps := h.keeps.trans h'.keeps
  reader := h'.reader
  chC := by rw [h'.chC, h.chC, List.length_append]; omega
  env := by
    rw [h'.env, h.env, Env.after_after, List.length_append, ← fetches_add s t _ _ h.chC]
    congr 1
    omega
  bits hb := by
    obtain ⟨hb', hp⟩ := h.bits hb
    obtain ⟨hb'', hq⟩ := h'.bits hb'
    exact ⟨hb'', by rw [List.length_append, h.ahead, hp, hq]⟩

/-- Changing the arena is not the reader's. -/
theorem Reads.of_arena {s t : State} (h : ReaderOk s) (hk : ParseKeeps s t) (hch : t.ch = s.ch) (henv : t.env = s.env) : Reads s t [] 0 where
  keeps := hk
  reader := by rw [ReaderOk, hch]; exact h
  chC := by rw [hch]; rfl
  env := by simp [henv, fetches_zero]
  bits hb := ⟨by unfold BufferAgrees; rw [hch, hk.mem]; exact hb, rfl⟩

/-- Accesses that move nothing. -/
theorem Reads.of_readBytes {s t : State} {k : Nat} (h : ReaderOk s) (hk : ReadBytes s t k) (henv : t.env = s.env.after k) : Reads s t [] k where
  keeps := hk.parseKeeps
  reader := by rw [ReaderOk, hk.ch]; exact h
  chC := by rw [hk.ch]; rfl
  env := by simp [henv, fetches_zero]
  bits hb := ⟨by unfold BufferAgrees; rw [hk.ch, hk.mem]; exact hb, rfl⟩

theorem ReaderOk.region {s : State} (h : ReaderOk s) : s.ch.lbase.toNat + s.ch.llen.toNat ≤ 2 ^ 32 := regionOK_iff.mp h.1

theorem chC_succ {s : State} (hlt : s.ch.chC.toNat < s.ch.chT.toNat) : (s.ch.chC + 1).toNat = s.ch.chC.toNat + 1 := by
  have := s.ch.chT.isLt
  show (_ + 1) % 2 ^ 32 = _
  omega

theorem afterFetch_reads {s : State} (h : ReaderOk s) (h0 : s.ch.bn = 0) (hlt : s.ch.chC.toNat < s.ch.chT.toNat) :
    Reads s s.afterFetch [(s.mem.read s.ch.pos).getLsbD 7] 0 := by
  obtain ⟨hreg, hle, hpos, hbn, hlen, hpad⟩ := h
  rw [regionOK_iff] at hreg
  have hbn0 : s.ch.bn.toNat = 0 := by rw [h0]; rfl
  have hp : (s.drawNext.setPos (s.ch.pos + 1)).ch.pos = s.ch.pos + 1 := State.setPos_pos _ _ (by omega)
  have hpos' : s.afterFetch.ch.pos = s.ch.pos + 1 := hp
  have hc : s.afterFetch.ch.chC.toNat = s.ch.chC.toNat + 1 := chC_succ hlt
  have hf : s.ch.fetches 1 = 1 := by unfold Channel.fetches; omega
  have hk : ReaderKeeps s s.afterFetch := by simp [ReaderKeeps, KeepsBlock, State.afterFetch]
  have hmem : s.afterFetch.mem = s.mem := by simp [State.afterFetch]
  refine ⟨hk.parseKeeps, ⟨?_, ?_, ?_, ?_, ?_, ?_⟩, hc, ?_, fun _ => ⟨fun i _ => ?_, ?_⟩⟩
  · simpa [State.afterFetch, regionOK_iff] using hreg
  · rw [hc]; simpa [State.afterFetch] using hlt
  · rw [hpos', hc, hk.2.2.1]; omega
  · rw [hc]; show 7 = _; omega
  · simpa [State.afterFetch] using hlen
  · simpa [State.afterFetch] using hpad
  · rw [List.length_singleton, hf]; simp [Env.after, State.afterFetch]
  · rw [hmem, hpos']; rfl
  · rw [State.ahead, List.length_singleton, regionBits_succ, regionBits_zero, regionBit, hpos]
    rw [show 7 - s.ch.chC.toNat % 8 = 7 by omega, show s.ch.chC.toNat / 8 = (s.ch.chC.toNat + 7) / 8 by omega]

theorem afterTake_reads {s : State} (h : ReaderOk s) (h0 : ¬s.ch.bn = 0) (hlt : s.ch.chC.toNat < s.ch.chT.toNat) :
    Reads s s.afterTake [s.ch.bacc.getLsbD (s.ch.bn.toNat - 1)] 0 := by
  obtain ⟨hreg, hle, hpos, hbn, hlen, hpad⟩ := h
  have hbn0 : ¬s.ch.bn.toNat = 0 := fun e => h0 (BitVec.eq_of_toNat_eq e)
  have hb1 : (s.ch.bn - 1).toNat = s.ch.bn.toNat - 1 := by
    have := s.ch.bn.isLt
    rw [BitVec.toNat_sub]
    show (2 ^ 4 - 1 + _) % 2 ^ 4 = _
    omega
  have hc : s.afterTake.ch.chC.toNat = s.ch.chC.toNat + 1 := chC_succ hlt
  have hf : s.ch.fetches 1 = 0 := by unfold Channel.fetches; omega
  have hk : ReaderKeeps s s.afterTake := by simp [ReaderKeeps, KeepsBlock, State.afterTake]
  refine ⟨hk.parseKeeps, ⟨hreg, ?_, ?_, ?_, hlen, hpad⟩, hc, ?_, fun hb => ⟨fun i hi => hb i ?_, ?_⟩⟩
  · rw [hc]; exact hlt
  · rw [hc]; show s.ch.pos = s.ch.lbase.toNat + 4 + _; omega
  · rw [hc]; show (s.ch.bn - 1).toNat = _; omega
  · rw [List.length_singleton, hf]; simp [State.afterTake]
  · have hi : i < (s.ch.bn - 1).toNat := hi
    omega
  · rw [State.ahead, List.length_singleton, regionBits_succ, regionBits_zero, regionBit, hb (s.ch.bn.toNat - 1) (by omega)]
    rw [show s.ch.bn.toNat - 1 = 7 - s.ch.chC.toNat % 8 by omega,
      show s.ch.pos - 1 = s.ch.lbase.toNat + 4 + s.ch.chC.toNat / 8 by omega]

/-- A failed access: one of the `m` that the piece may make. -/
def FailsWithin (s t : State) (m : Nat) : Prop := ∃ j < m, t.env = s.env.after (j + 1) ∧ s.env.drawAt j = false

theorem FailsWithin.mono {s t : State} {m m' : Nat} (h : FailsWithin s t m) (hm : m ≤ m') : FailsWithin s t m' := by
  obtain ⟨j, hj, h⟩ := h
  exact ⟨j, by omega, h⟩

theorem FailsWithin.not_completes {s t : State} {m : Nat} (h : FailsWithin s t m) : s.env.completes m ≠ true := by
  obtain ⟨j, hj, -, hd⟩ := h
  exact fun hc => by simp [(Env.completes_iff _ _).mp hc j hj] at hd

theorem Reads.failsWithin {s t u : State} {p : List Bool} {k m m' : Nat} (h : Reads s t p k) (h' : FailsWithin t u m)
    (hm : s.ch.fetches p.length + k + m ≤ m') : FailsWithin s u m' := by
  obtain ⟨j, hj, hu, hd⟩ := h'
  rw [h.env, Env.after_drawAt] at hd
  exact ⟨s.ch.fetches p.length + k + j, by omega, by rw [hu, h.env, Env.after_after]; congr 1, hd⟩

/-- `ReadBit` before its bound (R58). -/
theorem readBit_ensures {s : State} (h : ReaderOk s) (hlt : s.ch.chC.toNat < s.ch.chT.toNat) :
    (readBit s).Ensures (fun b t => Reads s t [b] 0) (fun _ _ => False)
      (fun f _ t => f = .busError ∧ ReaderOk t ∧ FailsWithin s t (s.ch.fetches 1)) := by
  obtain ⟨hreg, hle, hpos, hbn, hlen, hpad⟩ := id h
  rw [regionOK_iff] at hreg
  by_cases h0 : s.ch.bn = 0
  · have hbn0 : s.ch.bn.toNat = 0 := by rw [h0]; rfl
    have hp : s.ch.pos < 2 ^ 32 := by omega
    have hf : s.ch.fetches 1 = 1 := by unfold Channel.fetches; omega
    by_cases hd : s.drawOk = true
    · rw [readBit_fetch h0 hp (by simpa [Env.completes_iff, ← State.drawOk_eq] using hd)]
      exact Flow.ensures_ok (afterFetch_reads h h0 hlt)
    · have hfail : readBit s = .raise .busError (BitVec.ofNat 32 s.ch.pos) s.drawNext := by
        rw [readBit, refill, if_pos h0, memRead_fails hp (Bool.not_eq_true _ ▸ hd)]
        rfl
      rw [hfail]
      exact Flow.ensures_raise ⟨rfl, h, 0, by omega, s.drawNext_env_after, by rw [← State.drawOk_eq]; exact Bool.not_eq_true _ ▸ hd⟩
  · rw [readBit_take h0]
    exact Flow.ensures_ok (afterTake_reads h h0 hlt)

theorem readNat_ensures {n : Nat} (v : Nat) {s : State} (h : ReaderOk s) (hle : s.ch.chC.toNat + n ≤ s.ch.chT.toNat) :
    (readNat n v s).Ensures (fun _ t => ∃ p, p.length = n ∧ Reads s t p 0) (fun _ _ => False) (fun f _ t => f = .busError ∧ ReaderOk t) := by
  induction n generalizing v s with
  | zero => exact Flow.ensures_ok ⟨[], rfl, .refl h⟩
  | succ n ih =>
    refine ((readBit_ensures h (by omega)).mono (fun _ _ => id) (fun _ _ => id) fun _ _ _ ht => ⟨ht.1, ht.2.1⟩).bind fun b t ht => ?_
    have hc := ht.chC
    have hT := ht.keeps.chT
    rw [List.length_singleton] at hc
    refine (ih _ ht.reader (by rw [hc, hT]; omega)).mono (fun _ u hu => ?_) (fun _ _ => id) fun _ _ _ => id
    obtain ⟨p, hp, hu⟩ := hu
    exact ⟨b :: p, by simp [hp], ht.trans hu⟩

end Sys2Proof.Machine
end

section
/-! PROOFS. The deserializer's parse in any state (41_tree_codec.md R91): the tree it has built when it goes on, the bits it has read, and,
for a reader, where it stands when it ends. -/

namespace Sys2Proof.Machine

/-! ### Bits left, bits read -/

theorem Channel.bitsLeft_eq (c : Channel) : c.bitsLeft = c.chT.toNat - c.rpad.toNat - c.chC.toNat := by
  unfold Channel.bitsLeft Channel.payloadEnd
  omega

theorem fetches_mono (c : Channel) {m n : Nat} (h : m ≤ n) : c.fetches m ≤ c.fetches n := by
  unfold Channel.fetches
  omega

theorem Reads.bitsLeft {s t : State} {q : List Bool} {k : Nat} (h : Reads s t q k) : t.ch.bitsLeft = s.ch.bitsLeft - q.length := by
  rw [Channel.bitsLeft_eq, Channel.bitsLeft_eq, h.keeps.chT, h.keeps.rpad, h.chC]
  omega

/-- What a piece of the parse that has read the bits `q` leaves; with `peeks`, up to one access more for each bit that was left. -/
structure Took (s t : State) (q : List Bool) (peeks : Bool) : Prop where
  keeps : ParseKeeps s t
  reads : ReaderOk s → q.length ≤ s.ch.bitsLeft ∧ ∃ k ≤ peeks.toNat * s.ch.bitsLeft, Reads s t q k

theorem Took.refl (s : State) : Took s s [] false := ⟨.refl s, fun h => ⟨Nat.zero_le _, 0, Nat.zero_le _, .refl h⟩⟩

theorem Took.of_arena {s t : State} (hk : ParseKeeps s t) (hch : t.ch = s.ch) (henv : t.env = s.env) : Took s t [] false :=
  ⟨hk, fun h => ⟨Nat.zero_le _, 0, Nat.zero_le _, .of_arena h hk hch henv⟩⟩

theorem Took.trans {s t u : State} {q q' : List Bool} {b b' : Bool} (h : Took s t q b) (h' : Took t u q' b') (hb : (b && b') = false) :
    Took s u (q ++ q') (b || b') := by
  refine ⟨h.keeps.trans h'.keeps, fun hr => ?_⟩
  obtain ⟨hq, k, hk, hreads⟩ := h.reads hr
  obtain ⟨hq', k', hk', hreads'⟩ := h'.reads hreads.reader
  have hleft := hreads.bitsLeft
  refine ⟨by rw [List.length_append]; omega, k + k', ?_, hreads.trans hreads'⟩
  cases b <;> cases b' <;> simp_all
  omega

/-- How a piece of the parse ends: going on with `ok` of its answer, its state and the bits it read; at a tree no bits can be; or at a
failed access. -/
def Flow.Takes {α : Type} (s : State) (peeks : Bool) (ok : α → State → List Bool → Prop) (x : Flow α) : Prop :=
  x.Post (fun a t => ∃ q, Took s t q peeks ∧ ok a t q) (fun e t => e = .badTree ∧ ∃ q, Took s t q peeks)
    (fun f _ t => f = .busError ∧ (ReaderOk s → ReaderOk t ∧ FailsWithin s t (s.ch.fetches s.ch.bitsLeft + peeks.toNat * s.ch.bitsLeft)))

section
variable {α β : Type} {s t : State} {b b' : Bool} {ok : α → State → List Bool → Prop}

theorem Flow.takes_ok {a : α} (h : Took s t [] b) (ha : ok a t []) : (Flow.ok a t).Takes s b ok := ⟨[], h, ha⟩

theorem Took.peeks {q : List Bool} (h : Took s t q false) (b : Bool) : Took s t q b := by
  refine ⟨h.keeps, fun hr => ?_⟩
  obtain ⟨hq, k, hk, hreads⟩ := h.reads hr
  exact ⟨hq, k, by simp at hk; omega, hreads⟩

theorem Flow.takes_badTree (s : State) (b : Bool) : (Flow.error .badTree s : Flow α).Takes s b ok := ⟨rfl, [], (Took.refl s).peeks b⟩

theorem Flow.Takes.mono {ok' : α → State → List Bool → Prop} {x : Flow α} (h : x.Takes s b ok) (hok : ∀ a t q, ok a t q → ok' a t q) :
    x.Takes s b ok' :=
  Flow.Post.mono h (fun a t ⟨q, hq, ha⟩ => ⟨q, hq, hok a t q ha⟩) (fun _ _ => id) fun _ _ _ => id

/-- What follows a piece, of the state it has left. -/
theorem Flow.Takes.after {q : List Bool} {x : Flow α} (ht : Took s t q b) (hb : (b && b') = false)
    (h : x.Takes t b' fun a u q' => ok a u (q ++ q')) : x.Takes s (b || b') ok := by
  refine Flow.Post.mono h (fun a u ⟨q', hu, ha⟩ => ⟨q ++ q', ht.trans hu hb, ha⟩) (fun e u ⟨he, q', hu⟩ => ⟨he, q ++ q', ht.trans hu hb⟩) ?_
  rintro f w u ⟨hf, hfail⟩
  refine ⟨hf, fun hr => ?_⟩
  obtain ⟨hq, k, hk, hreads⟩ := ht.reads hr
  obtain ⟨hru, hu⟩ := hfail hreads.reader
  refine ⟨hru, hreads.failsWithin hu ?_⟩
  have hleft := hreads.bitsLeft
  have hadd := fetches_add s t q.length t.ch.bitsLeft hreads.chC
  rw [show q.length + t.ch.bitsLeft = s.ch.bitsLeft by omega] at hadd
  cases b <;> cases b' <;> simp_all <;> omega

/-- The rule for a sequence, of which at most one piece peeks. -/
theorem Flow.Takes.bind {ok' : β → State → List Bool → Prop} {x : Flow α} {k : α → State → Flow β} (h : x.Takes s b ok)
    (hb : (b && b') = false) (hk : ∀ a t q, ok a t q → (k a t).Takes t b' fun c u q' => ok' c u (q ++ q')) :
    (x.bind k).Takes s (b || b') ok' := by
  refine Flow.Post.bind (Flow.Post.mono h (fun _ _ => id) (fun e t h => ?_) fun f w t h => ?_) fun a t ht => ?_
  · obtain ⟨he, q, hq⟩ := h
    refine ⟨he, q, hq.keeps, fun hr => ?_⟩
    obtain ⟨hq, k, hk, hreads⟩ := hq.reads hr
    exact ⟨hq, k, by cases b <;> simp_all, hreads⟩
  · refine ⟨h.1, fun hr => ⟨(h.2 hr).1, (h.2 hr).2.mono ?_⟩⟩
    cases b <;> simp
  · obtain ⟨q, hq, ha⟩ := ht
    exact (hk a t q ha).after hq hb

/-- The rule for a sequence without peeks. -/
theorem Flow.Takes.then {ok' : β → State → List Bool → Prop} {x : Flow α} {k : α → State → Flow β} (h : x.Takes s false ok)
    (hk : ∀ a t q, ok a t q → (k a t).Takes t b fun c u q' => ok' c u (q ++ q')) : (x.bind k).Takes s b ok' := by
  have := h.bind (b' := b) rfl hk
  rwa [Bool.false_or] at this

end

theorem ReaderOk.chC_lt_of_left {s : State} (h : s.ch.chC.toNat < s.ch.payloadEnd) : s.ch.chC.toNat < s.ch.chT.toNat := by
  unfold Channel.payloadEnd at h
  omega

theorem treeBit_takes (s : State) : (treeBit s).Takes s false fun b t q => q = [b] ∧ t.tree = s.tree := by
  unfold treeBit
  split
  · exact Flow.takes_badTree s false
  · next hend =>
    have hlt := ReaderOk.chC_lt_of_left (not_le.mp hend)
    have hleft : 1 ≤ s.ch.bitsLeft := by unfold Channel.bitsLeft; omega
    have hp := readBit_post s
    cases hx : readBit s with
    | ok b t =>
      rw [hx] at hp
      refine ⟨[b], ⟨hp.1.keeps.parseKeeps, fun hr => ⟨hleft, 0, by simp, ?_⟩⟩, rfl, hp.1.keeps.1.2.2.2.2.1⟩
      exact (readBit_ensures hr hlt).1.of_ok hx
    | error e t => rw [hx] at hp; exact hp.elim
    | raise f w t =>
      rw [hx] at hp
      refine ⟨hp.1.1, fun hr => ?_⟩
      have h := (readBit_ensures hr hlt).1
      rw [hx] at h
      exact ⟨h.2.1, h.2.2.mono (by simpa using fetches_mono _ hleft)⟩
    | stop r => trivial

theorem treeBits_takes (n v : Nat) (s : State) :
    (treeBits n v s).Takes s false fun v' t q => q.length = n ∧ v' = v * 2 ^ n + bitsToNat q ∧ t.tree = s.tree := by
  induction n generalizing v s with
  | zero => exact Flow.takes_ok (.refl s) ⟨rfl, by simp, rfl⟩
  | succ n ih =>
    refine (treeBit_takes s).then ?_
    rintro b t q ⟨rfl, ht⟩
    refine (ih _ t).mono ?_
    rintro v' u q' ⟨hq', hv', hu⟩
    refine ⟨by simp [hq'], ?_, hu.trans ht⟩
    rw [hv', List.singleton_append, bitsToNat_cons, hq', pow_succ]
    ring

/-! ### Trees in the arena -/

/-- How many entries a tree takes. -/
def Shape.nodes : Shape → Nat
  | .leaf _ => 1
  | .placeholder => 1
  | .inner l r => 1 + l.nodes + r.nodes

/-- How many levels a tree has. -/
def Shape.levels : Shape → Nat
  | .leaf _ => 1
  | .placeholder => 1
  | .inner l r => 1 + max l.levels r.levels

/-- The tree stands at the handle, its entries between `lo` and `hi`. -/
def Shape.At (t : Arena) (lo hi : Nat) : Shape → Handle → Prop
  | .leaf y, h => lo ≤ h.toNat ∧ h.toNat < hi ∧ ∃ n, t.of h = some n ∧ n.kind = .leaf ∧ n.sym = y
  | .placeholder, h => lo ≤ h.toNat ∧ h.toNat < hi ∧ ∃ n, t.of h = some n ∧ n.kind = .placeholder
  | .inner l r, h => lo ≤ h.toNat ∧ h.toNat < hi ∧ ∃ n, t.of h = some n ∧ n.kind = .inner ∧ l.At t lo hi n.left ∧ r.At t lo hi n.right

/-- Only the entries in between matter. -/
theorem Shape.At.congr {t t' : Arena} {lo hi lo' hi' : Nat} (ht : ∀ z : Handle, lo ≤ z.toNat → z.toNat < hi → t'.of z = t.of z)
    (hlo : lo' ≤ lo) (hhi : hi ≤ hi') {sh : Shape} {h : Handle} (hat : sh.At t lo hi h) : sh.At t' lo' hi' h := by
  induction sh generalizing h with
  | leaf y =>
    obtain ⟨h₁, h₂, n, hn, hk⟩ := hat
    exact ⟨by omega, by omega, n, (ht h h₁ h₂).trans hn, hk⟩
  | placeholder =>
    obtain ⟨h₁, h₂, n, hn, hk⟩ := hat
    exact ⟨by omega, by omega, n, (ht h h₁ h₂).trans hn, hk⟩
  | inner l r ihl ihr =>
    obtain ⟨h₁, h₂, n, hn, hk, hl, hr⟩ := hat
    exact ⟨by omega, by omega, n, (ht h h₁ h₂).trans hn, hk, ihl hl, ihr hr⟩

theorem Shape.At.mono {t : Arena} {lo hi lo' hi' : Nat} (hlo : lo' ≤ lo) (hhi : hi ≤ hi') {sh : Shape} {h : Handle} (hat : sh.At t lo hi h) :
    sh.At t lo' hi' h := hat.congr (fun _ _ _ => rfl) hlo hhi

/-- A walk of enough levels finds the tree. -/
theorem Shape.At.shapeAt {t : Arena} {lo hi : Nat} {sh : Shape} {h : Handle} (hat : sh.At t lo hi h) {d : Nat} (hd : sh.levels ≤ d) :
    Sys2Proof.Machine.shapeAt t d h = some sh := by
  induction sh generalizing h d with
  | leaf y =>
    obtain ⟨-, -, n, hn, hk, rfl⟩ := hat
    obtain ⟨d, rfl⟩ : ∃ e, d = e + 1 := ⟨d - 1, by simp [Shape.levels] at hd; omega⟩
    exact shapeAt_leaf hn hk d
  | placeholder =>
    obtain ⟨-, -, n, hn, hk⟩ := hat
    obtain ⟨d, rfl⟩ : ∃ e, d = e + 1 := ⟨d - 1, by simp [Shape.levels] at hd; omega⟩
    exact shapeAt_placeholder hn hk d
  | inner l r ihl ihr =>
    obtain ⟨-, -, n, hn, hk, hl, hr⟩ := hat
    simp only [Shape.levels] at hd
    obtain ⟨d, rfl⟩ : ∃ e, d = e + 1 := ⟨d - 1, by omega⟩
    exact shapeAt_inner hn hk (ihl hl (by omega)) (ihr hr (by omega))

theorem Shape.nodes_of_full {sh : Shape} (h : sh.full = true) : sh.nodes + 1 = 2 * sh.leaves.length := by
  induction sh with
  | leaf y => rfl
  | placeholder => cases h
  | inner l r ihl ihr =>
    simp only [Shape.full, Bool.and_eq_true] at h
    have := ihl h.1
    have := ihr h.2
    simp only [Shape.nodes, Shape.leaves, List.length_append]
    omega

theorem Shape.levels_le_of_full {sh : Shape} (h : sh.full = true) : sh.levels ≤ sh.leaves.length := by
  induction sh with
  | leaf y => exact le_rfl
  | placeholder => cases h
  | inner l r ihl ihr =>
    simp only [Shape.full, Bool.and_eq_true] at h
    have := ihl h.1
    have := ihr h.2
    have := List.length_pos_of_mem (Shape.exists_leaf_of_full h.1).choose_spec
    have := List.length_pos_of_mem (Shape.exists_leaf_of_full h.2).choose_spec
    simp only [Shape.levels, Shape.leaves, List.length_append]
    omega

/-- There are 256 symbols. -/
theorem length_le_of_nodup {l : List Byte} (h : l.Nodup) : l.length ≤ 256 := by
  have := (h.subperm (l₂ := symbols) fun x _ => mem_symbols x).length_le
  simpa [symbols] using this

/-- A tree HUFFCORE holds fits the walks' levels. -/
theorem Shape.levels_le_of_legal {sh : Shape} (h : sh.legal = true) (hd : sh.leaves.Nodup) : sh.levels ≤ maxLevels := by
  obtain ⟨y, rfl⟩ | ⟨hf, -⟩ := Shape.legal_cases h
  · simp [Shape.levels, maxLevels]
  · exact (Shape.levels_le_of_full hf).trans (length_le_of_nodup hd)

end Sys2Proof.Machine
end

section
/-! PROOFS. The tree the deserializer's parse has built, in any state (41_tree_codec.md R91, R93, R95). -/

namespace Sys2Proof.Machine

theorem bitsToNat_inj {p q : List Bool} (hlen : p.length = q.length) (h : bitsToNat p = bitsToNat q) : p = q := by
  refine List.ext_getElem hlen fun i hi hi' => ?_
  rw [← bitsToNat_testBit p i hi, ← bitsToNat_testBit q i hi', h, hlen]

/-- A byte and the eight bits it was read from. -/
theorem bitsMsb_ofNat_bitsToNat {q : List Bool} (h : q.length = 8) : bitsMsb 8 (BitVec.ofNat 8 (bitsToNat q)) = q := by
  have hlt := bitsToNat_lt q
  rw [h] at hlt
  refine bitsToNat_inj (by simp [h]) ?_
  rw [bitsToNat_bitsMsb, BitVec.toNat_ofNat, Nat.mod_mod, Nat.mod_eq_of_lt hlt]

/-- No entry has a frequency. -/
def Arena.Unweighted (t : Arena) : Prop := ∀ h n, t.of h = some n → n.freq = 0

theorem Arena.Unweighted.put {t : Arena} (ht : t.Unweighted) {h : Handle} {n : Node} (hn : n.freq = 0) : (t.put h n).Unweighted := by
  intro k m hm
  rw [Arena.of_put] at hm
  split at hm
  · cases hm; exact hn
  · exact ht k m hm

/-- What the parse of subtrees with `nodes` entries and the leaves `leaves` leaves: its entries at the handles from `p.nalloc` on, its
symbols among those seen, all distinct. -/
structure Grew (s t : State) (p p' : Parse) (nodes : Nat) (leaves : List Byte) : Prop where
  nalloc : p'.nalloc = p.nalloc + nodes
  room : p'.nalloc ≤ 511
  seen : p'.seen = leaves.reverse ++ p.seen
  nodup : p.seen.Nodup → p'.seen.Nodup
  unweighted : s.tree.node.Unweighted → t.tree.node.Unweighted

/-- A node allocated at the next handle; every other entry as it was. -/
theorem allocNode_takes (k : Kind) (sym : Byte) {p : Parse} (hp : p.nalloc ≤ 511) (s : State) :
    (allocNode k sym p s).Takes s false fun hp t q => q = [] ∧ hp = (BitVec.ofNat 9 p.nalloc, { p with nalloc := p.nalloc + 1 }) ∧
      p.nalloc < 511 ∧ t = s.setNode (BitVec.ofNat 9 p.nalloc) { kind := k, sym := sym, left := nilHandle, right := nilHandle, freq := 0 } := by
  unfold allocNode
  split
  · exact Flow.takes_badTree s false
  · exact Flow.takes_ok (.of_arena (setNode_parseKeeps s _ _) rfl rfl) ⟨rfl, rfl, by omega, rfl⟩

/-- The tree `sh` was read from the bits `q` and stands at the handle answered, the next one. -/
def ParsedTree (s : State) (p : Parse) (sh : Shape) (hp : Handle × Parse) (t : State) : Prop :=
  Grew s t p hp.2 sh.nodes sh.leaves ∧ hp.1.toNat = p.nalloc ∧ sh.At t.tree.node p.nalloc hp.2.nalloc hp.1 ∧
    ∀ z : Handle, z.toNat < p.nalloc → t.tree.node.of z = s.tree.node.of z

theorem handle_ne_nil {k : Nat} (h : k < 511) : BitVec.ofNat 9 k ≠ nilHandle := by
  intro e
  have := congrArg BitVec.toNat e
  rw [handle_toNat (by omega)] at this
  simp [nilHandle] at this
  omega

theorem parseLeaf_takes {p : Parse} (hp : p.nalloc ≤ 511) (s : State) :
    (parseLeaf p s).Takes s false fun hp t q => ∃ y, q = bitsMsb 8 y ∧ ParsedTree s p (.leaf y) hp t := by
  refine (treeBits_takes 8 0 s).then ?_
  rintro v t q ⟨hq, rfl, ht⟩
  rw [Nat.zero_mul, Nat.zero_add]
  simp only
  split
  · exact Flow.takes_badTree t false
  · next hnew =>
    refine (allocNode_takes .leaf _ (p := { p with seen := BitVec.ofNat 8 (bitsToNat q) :: p.seen }) hp t).mono ?_
    rintro hp u q' ⟨rfl, rfl, hlt, rfl⟩
    have hh := handle_toNat (k := p.nalloc) (by omega)
    refine ⟨_, by rw [List.append_nil, bitsMsb_ofNat_bitsToNat hq], ⟨rfl, hlt, rfl, fun h => ?_, fun h => ?_⟩, hh, ?_, fun z hz => ?_⟩
    · exact List.nodup_cons.mpr ⟨hnew, h⟩
    · rw [State.setNode_tree, ht]; exact h.put rfl
    · refine ⟨by rw [hh], by rw [hh]; simp, ⟨.leaf, BitVec.ofNat 8 (bitsToNat q), nilHandle, nilHandle, 0⟩, ?_, rfl, rfl⟩
      exact (Arena.of_put _ _ _ _).trans (if_pos ⟨rfl, handle_ne_nil hlt⟩)
    · rw [State.setNode_tree, ht, Arena.of_put_of_lt (by omega) _ hz]

/-- The two subtrees of a node, read one after the other. -/
def parsePair (d : Nat) (h : Handle) (p : Parse) (s : State) : Flow (Handle × Parse) :=
  (parseNode d p s).bind fun l s => (parseNode d l.2 (s.setLeft h l.1)).bind fun r s => .ok (h, r.2) (s.setRight h r.1)

theorem parseNode_succ (d : Nat) (p : Parse) (s : State) :
    parseNode (d + 1) p s = (treeBit s).bind fun b s =>
      if b then (allocNode .inner 0 p s).bind fun hp s => parsePair d hp.1 hp.2 s else parseLeaf p s := rfl

/-- What a parse of one subtree answers. -/
def ParsesNode (d : Nat) : Prop :=
  ∀ (p : Parse) (s : State), p.nalloc ≤ 511 →
    (parseNode d p s).Takes s false fun hp t q => ∃ sh : Shape, sh.full = true ∧ q = sh.bits ∧ ParsedTree s p sh hp t

theorem Arena.of_put_of_ne {t : Arena} {h z : Handle} (n : Node) (hz : z ≠ h) : (t.put h n).of z = t.of z := by
  rw [Arena.of_put, if_neg fun e => hz e.1]

theorem Arena.of_put_of_some {t : Arena} {h : Handle} {m : Node} (hm : t.of h = some m) (n : Node) : (t.put h n).of h = some n := by
  rw [Arena.of_put, if_pos ⟨rfl, fun e => by rw [e, Arena.of_nil] at hm; cases hm⟩]

theorem setLeft_of {s : State} {h : Handle} {n : Node} (hn : s.tree.node.of h = some n) (c : Handle) :
    (s.setLeft h c).tree.node.of h = some { n with left := c } ∧ ∀ z, z ≠ h → (s.setLeft h c).tree.node.of z = s.tree.node.of z := by
  rw [State.setLeft_node s h c n hn]
  exact ⟨Arena.of_put_of_some hn _, fun z hz => Arena.of_put_of_ne _ hz⟩

theorem setRight_of {s : State} {h : Handle} {n : Node} (hn : s.tree.node.of h = some n) (c : Handle) :
    (s.setRight h c).tree.node.of h = some { n with right := c } ∧ ∀ z, z ≠ h → (s.setRight h c).tree.node.of z = s.tree.node.of z := by
  rw [State.setRight_node s h c n hn]
  exact ⟨Arena.of_put_of_some hn _, fun z hz => Arena.of_put_of_ne _ hz⟩

theorem setLeft_unweighted {s : State} {h : Handle} (c : Handle) (hs : s.tree.node.Unweighted) : (s.setLeft h c).tree.node.Unweighted := by
  unfold State.setLeft
  split
  · next n hn => exact hs.put (hs h n hn)
  · exact hs

theorem setRight_unweighted {s : State} {h : Handle} (c : Handle) (hs : s.tree.node.Unweighted) : (s.setRight h c).tree.node.Unweighted := by
  unfold State.setRight
  split
  · next n hn => exact hs.put (hs h n hn)
  · exact hs

theorem setLeft_took (s : State) (h c : Handle) : Took s (s.setLeft h c) [] false := .of_arena (setLeft_parseKeeps s h c) (by simp) (by simp)

theorem setRight_took (s : State) (h c : Handle) : Took s (s.setRight h c) [] false := .of_arena (setRight_parseKeeps s h c) (by simp) (by simp)

/-- The subtrees `l` and `r` were read one after the other and stand below the node `h`. -/
structure ParsedPair (s : State) (h : Handle) (p p' : Parse) (l r : Shape) (t : State) : Prop where
  grew : Grew s t p p' (l.nodes + r.nodes) (l.leaves ++ r.leaves)
  node : ∃ m, t.tree.node.of h = some m ∧ m.kind = .inner ∧ l.At t.tree.node p.nalloc p'.nalloc m.left ∧
    r.At t.tree.node p.nalloc p'.nalloc m.right
  below : ∀ z : Handle, z ≠ h → z.toNat < p.nalloc → t.tree.node.of z = s.tree.node.of z

/-- The first subtree, set as the left child, then the second, set as the right one. -/
theorem ParsedTree.pair {s t u : State} {h : Handle} {n : Node} {p : Parse} {l r : Shape} {hl hr : Handle × Parse}
    (hn : s.tree.node.of h = some n) (hk : n.kind = .inner) (hh : h.toNat < p.nalloc) (ht : ParsedTree s p l hl t)
    (hu : ParsedTree (t.setLeft h hl.1) hl.2 r hr u) : ParsedPair s h p hr.2 l r (u.setRight h hr.1) := by
  obtain ⟨hg, hle, hat, hbelow⟩ := ht
  obtain ⟨hg', hre, hat', hbelow'⟩ := hu
  have hnl := hg.nalloc
  have hnr := hg'.nalloc
  have htn : t.tree.node.of h = some n := (hbelow h hh).trans hn
  obtain ⟨hsl, hslo⟩ := setLeft_of htn hl.1
  have hun : u.tree.node.of h = some { n with left := hl.1 } := (hbelow' h (by omega)).trans hsl
  obtain ⟨hsr, hsro⟩ := setRight_of hun hr.1
  have hne {z : Handle} (hz : p.nalloc ≤ z.toNat) : z ≠ h := fun e => by rw [e] at hz; omega
  refine ⟨⟨by omega, hg'.room, ?_, fun hd => hg'.nodup (hg.nodup hd), fun hw => ?_⟩, ⟨_, hsr, hk, ?_, ?_⟩, fun z hz hzp => ?_⟩
  · rw [hg'.seen, hg.seen, List.reverse_append, List.append_assoc]
  · exact setRight_unweighted _ (hg'.unweighted (setLeft_unweighted _ (hg.unweighted hw)))
  · refine hat.congr (fun z hz hz' => ?_) le_rfl (by omega)
    rw [hsro z (hne hz), hbelow' z hz', hslo z (hne hz)]
  · exact hat'.congr (fun z hz _ => hsro z (hne (by omega))) (by omega) le_rfl
  · rw [hsro z hz, hbelow' z (by omega), hslo z hz, hbelow z hzp]

theorem parsePair_takes {d : Nat} (hd : ParsesNode d) {h : Handle} {p : Parse} {s : State} {n : Node} (hn : s.tree.node.of h = some n)
    (hk : n.kind = .inner) (hh : h.toNat < p.nalloc) (hp : p.nalloc ≤ 511) :
    (parsePair d h p s).Takes s false fun hp t q =>
      ∃ l r : Shape, l.full = true ∧ r.full = true ∧ q = l.bits ++ r.bits ∧ hp.1 = h ∧ ParsedPair s h p hp.2 l r t := by
  refine (hd p s hp).then ?_
  rintro hl t q ⟨l, hlf, rfl, ht⟩
  refine Flow.Takes.after (b := false) (b' := false) (setLeft_took t h hl.1) rfl ((hd hl.2 _ ht.1.room).then ?_)
  rintro hr u q ⟨r, hrf, rfl, hu⟩
  refine Flow.takes_ok (setRight_took u h hr.1) ⟨l, r, hlf, hrf, by simp, rfl, ht.pair hn hk hh hu⟩

/-- A node allocated and its two subtrees read. -/
theorem ParsedPair.tree {s t : State} {p p' : Parse} {l r : Shape} (hlt : p.nalloc < 511)
    (h : ParsedPair (s.setNode (BitVec.ofNat 9 p.nalloc) { kind := .inner, sym := 0, left := nilHandle, right := nilHandle, freq := 0 })
      (BitVec.ofNat 9 p.nalloc) { p with nalloc := p.nalloc + 1 } p' l r t) :
    ParsedTree s p (.inner l r) (BitVec.ofNat 9 p.nalloc, p') t := by
  have hh := handle_toNat (k := p.nalloc) (by omega)
  obtain ⟨⟨hnalloc, hroom, hseen, hnodup, hweight⟩, ⟨m, hm, hmk, hml, hmr⟩, hbelow⟩ := h
  simp only at hnalloc hseen hml hmr
  refine ⟨⟨by simp only [Shape.nodes]; omega, hroom, hseen, hnodup, fun hw => hweight ?_⟩, hh, ?_, fun z hz => ?_⟩
  · exact hw.put rfl
  · exact ⟨by rw [hh], by rw [hh]; simp only; omega, m, hm, hmk, hml.mono (by omega) le_rfl, hmr.mono (by omega) le_rfl⟩
  · rw [hbelow z (fun e => by rw [e, hh] at hz; omega) (by simp only; omega), State.setNode_tree, Arena.of_put_of_lt (by omega) _ hz]

theorem allocNode_bind_parsePair_takes {d : Nat} (hd : ParsesNode d) {p : Parse} (hp : p.nalloc ≤ 511) (s : State) :
    ((allocNode .inner 0 p s).bind fun hp s => parsePair d hp.1 hp.2 s).Takes s false fun hp t q =>
      ∃ l r : Shape, l.full = true ∧ r.full = true ∧ q = l.bits ++ r.bits ∧ ParsedTree s p (.inner l r) hp t := by
  refine (allocNode_takes .inner 0 hp s).then ?_
  rintro _ t q ⟨rfl, rfl, hlt, rfl⟩
  have hh := handle_toNat (k := p.nalloc) (by omega)
  refine (parsePair_takes hd (n := { kind := .inner, sym := 0, left := nilHandle, right := nilHandle, freq := 0 }) ?_ rfl
    (by rw [hh]; simp) (by simp only; omega)).mono ?_
  · rw [State.setNode_tree, Arena.of_put, if_pos ⟨rfl, handle_ne_nil hlt⟩]
  · rintro ⟨h, p'⟩ u q ⟨l, r, hl, hr, rfl, rfl, hu⟩
    exact ⟨l, r, hl, hr, rfl, hu.tree hlt⟩

theorem parseNode_takes (d : Nat) : ParsesNode d := by
  induction d with
  | zero => exact fun _ _ _ => trivial
  | succ d ih =>
    intro p s hp
    rw [parseNode_succ]
    refine (treeBit_takes s).then ?_
    rintro b t q ⟨rfl, ht⟩
    have hcongr {hp : Handle × Parse} {sh : Shape} {u : State} (h : ParsedTree t p sh hp u) : ParsedTree s p sh hp u := by
      unfold ParsedTree at h ⊢
      obtain ⟨⟨hnalloc, hroom, hseen, hnodup, hweight⟩, hrest⟩ := h
      rw [ht] at hweight hrest
      exact ⟨⟨hnalloc, hroom, hseen, hnodup, hweight⟩, hrest⟩
    cases b with
    | true =>
      refine (allocNode_bind_parsePair_takes ih hp t).mono ?_
      rintro hp u q ⟨l, r, hl, hr, rfl, hu⟩
      exact ⟨.inner l r, by simp [Shape.full, hl, hr], rfl, hcongr hu⟩
    | false =>
      refine (parseLeaf_takes hp t).mono ?_
      rintro hp u q ⟨y, rfl, hu⟩
      exact ⟨.leaf y, rfl, rfl, hcongr hu⟩

end Sys2Proof.Machine
end

section
/-! PROOFS. The whole parse of `T_DESERIALIZE` (41_tree_codec.md R91, R93 to R95): the placeholder test, the root, and why it never stops the
model. -/

namespace Sys2Proof.Machine

/-! ### The placeholder test -/

theorem peekBit_post (k : Nat) (s : State) :
    (peekBit k s).Post (fun b t => b = regionBit s.mem s.ch.lbase.toNat k ∧ t.mem = s.mem ∧ t.ch = s.ch) (fun _ _ => False)
      (fun _ _ _ => True) := by
  refine ((memRead_post _ s).mono (fun _ _ => id) (fun _ _ => id) fun _ _ _ _ => trivial).bind ?_
  rintro v t ⟨-, rfl, rfl⟩
  exact ⟨rfl, rfl, rfl⟩

/-- The test answers whether every bit it peeks at is 0. -/
theorem peekZero_answer (n k : Nat) (s : State) :
    (peekZero n k s).Post (fun z _ => z = true ↔ ∀ b ∈ regionBits s.mem s.ch.lbase.toNat k n, b = false) (fun _ _ => False)
      (fun _ _ _ => True) := by
  induction n generalizing k s with
  | zero => simp [peekZero, Flow.Post]
  | succ n ih =>
    refine (peekBit_post k s).bind ?_
    rintro b t ⟨rfl, hmem, hch⟩
    refine (ih (k + 1) t).bind fun z u hz => ?_
    rw [hmem, hch] at hz
    show _ ↔ _
    rw [regionBits_succ, List.forall_mem_cons, Bool.and_eq_true, hz, Bool.not_eq_true']

/-- The peeks of a reader are `n` accesses, or they end at the first of them that fails. -/
theorem peekZero_reads (n k : Nat) {s : State} (h : ReaderOk s) :
    (peekZero n k s).Post (fun _ t => Reads s t [] n) (fun _ _ => False)
      (fun f _ t => f = .busError ∧ ReaderOk t ∧ FailsWithin s t n) := by
  have hp := peekZero_post n k s
  have hd := peekZero_draws n k s
  cases hx : peekZero n k s with
  | ok z t =>
    rw [hx] at hp hd
    obtain ⟨d, he, -⟩ := hd
    have hdn : d = n := by
      have h₁ := hp.drawn
      rw [he] at h₁
      exact Nat.add_left_cancel h₁
    exact .of_readBytes h hp (hdn ▸ he)
  | error e t => rw [hx] at hp; exact hp
  | raise f w t =>
    rw [hx] at hp hd
    obtain ⟨rfl, j, hj, ht, -⟩ := hp
    obtain ⟨d, -, hd⟩ := hd
    rw [if_pos rfl] at hd
    have hdj : d = j := by
      have h₁ := ht.drawn
      rw [hd.1] at h₁
      exact Nat.add_right_cancel (Nat.add_left_cancel h₁)
    subst hdj
    exact ⟨rfl, by unfold ReaderOk; rw [ht.ch]; exact h, d, hj, hd⟩
  | stop r => trivial

theorem placeholderAhead_takes (r : Handle) (s : State) :
    (placeholderAhead r s).Takes s true fun z t q => q = [] ∧ t.tree = s.tree ∧
      (z = true ↔ s.tree.node.leftIsLeaf r = true ∧ ∀ b ∈ t.ahead t.ch.bitsLeft, b = false) := by
  unfold placeholderAhead
  split
  · next hleaf =>
    have hp := peekZero_post s.ch.bitsLeft s.ch.chC.toNat s
    have ha := peekZero_answer s.ch.bitsLeft s.ch.chC.toNat s
    have hr := peekZero_reads s.ch.bitsLeft s.ch.chC.toNat (s := s)
    cases hx : peekZero s.ch.bitsLeft s.ch.chC.toNat s with
    | ok z t =>
      rw [hx] at hp ha hr
      refine ⟨[], ⟨hp.parseKeeps, fun h => ⟨Nat.zero_le _, _, by simp, hr h⟩⟩, rfl, hp.keeps.2.2.2.2.1, ?_⟩
      rw [and_iff_right hleaf, State.ahead, hp.mem, hp.ch]
      exact ha
    | error e t => rw [hx] at hp; exact hp.elim
    | raise f w t =>
      rw [hx] at hp hr
      exact ⟨hp.1, fun h => ⟨(hr h).2.1, (hr h).2.2.mono (by simp)⟩⟩
    | stop r => trivial
  · next hleaf => exact Flow.takes_ok ((Took.refl s).peeks true) ⟨rfl, rfl, by simp [hleaf]⟩

/-! ### The right subtree of the root -/

theorem ParsedTree.start {s t u : State} {p : Parse} {sh : Shape} {hp : Handle × Parse} (ht : t.tree = s.tree) (h : ParsedTree t p sh hp u) :
    ParsedTree s p sh hp u := by
  obtain ⟨⟨hnalloc, hroom, hseen, hnodup, hweight⟩, hrest⟩ := h
  rw [ht] at hweight hrest
  exact ⟨⟨hnalloc, hroom, hseen, hnodup, hweight⟩, hrest⟩

theorem allocNode_placeholder_takes {p : Parse} (hp : p.nalloc ≤ 511) (s : State) :
    (allocNode .placeholder 0 p s).Takes s false fun hp t q => q = [] ∧ t.ch = s.ch ∧ ParsedTree s p .placeholder hp t := by
  refine (allocNode_takes .placeholder 0 hp s).mono ?_
  rintro _ t q ⟨rfl, rfl, hlt, rfl⟩
  have hh := handle_toNat (k := p.nalloc) (by omega)
  refine ⟨rfl, rfl, ⟨rfl, hlt, rfl, id, fun h => h.put rfl⟩, hh, ?_, fun z hz => ?_⟩
  · refine ⟨by rw [hh], by rw [hh]; simp, ⟨.placeholder, 0, nilHandle, nilHandle, 0⟩, ?_, rfl⟩
    exact (Arena.of_put _ _ _ _).trans (if_pos ⟨rfl, handle_ne_nil hlt⟩)
  · rw [State.setNode_tree, Arena.of_put_of_lt (by omega) _ hz]

/-- What the right subtree of the root `r` may be: a full one, or the placeholder behind a leaf when every bit left is 0. -/
def RootRight (s : State) (r : Handle) (sh : Shape) (t : State) : Prop :=
  sh.full = true ∨ (sh = .placeholder ∧ s.tree.node.leftIsLeaf r = true ∧ ∀ b ∈ t.ahead t.ch.bitsLeft, b = false)

theorem parseRootRight_takes (r : Handle) {p : Parse} (hp : p.nalloc ≤ 511) (s : State) :
    (parseRootRight r p s).Takes s true fun hp t q => ∃ sh : Shape, RootRight s r sh t ∧ q = sh.bits ∧ ParsedTree s p sh hp t := by
  refine (treeBit_takes s).then ?_
  rintro b t q ⟨rfl, ht⟩
  cases b with
  | false =>
    refine Flow.Takes.after (b := true) (b' := false) ((Took.refl t).peeks true) rfl ((parseLeaf_takes hp t).mono ?_)
    rintro hp u q ⟨y, rfl, hu⟩
    exact ⟨.leaf y, .inl rfl, rfl, hu.start ht⟩
  | true =>
    refine (placeholderAhead_takes r t).bind (b' := false) rfl ?_
    rintro z u q ⟨rfl, hu, hz⟩
    rw [ht] at hz
    split
    · next hzt =>
      refine Flow.Post.mono (allocNode_placeholder_takes hp u) ?_ (fun _ _ => id) fun _ _ _ => id
      rintro hp v ⟨q, hv, rfl, hvch, hvt⟩
      refine ⟨[], hv, .placeholder, .inr ⟨rfl, (hz.mp hzt).1, ?_⟩, rfl, hvt.start (hu.trans ht)⟩
      rw [State.ahead, hv.keeps.mem, hvch]
      exact (hz.mp hzt).2
    · refine (allocNode_bind_parsePair_takes (parseNode_takes parseLevels) hp u).mono ?_
      rintro hp v q ⟨l, r, hl, hr, rfl, hv⟩
      exact ⟨.inner l r, .inl (by simp [Shape.full, hl, hr]), rfl, hv.start (hu.trans ht)⟩

/-! ### The root (41_tree_codec.md R95) -/

/-- The parse up to the registers it sets at its end. -/
def parseRoot (s : State) : Flow (Handle × Parse) :=
  (treeBit s).bind fun b s =>
    if b then
      (allocNode .inner 0 { nalloc := 0, seen := [] } s).bind fun hp s =>
        (parseNode parseLevels hp.2 s).bind fun l s =>
          (parseRootRight hp.1 l.2 (s.setLeft hp.1 l.1)).bind fun r s => .ok (hp.1, r.2) (s.setRight hp.1 r.1)
    else .error .badTree s

theorem parseTree_eq (s : State) : parseTree s = (parseRoot s).bind fun r s => .ok () (s.setTree r.1 r.2.seen.length) := by
  unfold parseTree parseRoot
  rw [Flow.bind_assoc]
  congr 1
  funext b t
  cases b
  · rfl
  · simp only [if_true, Flow.bind_assoc, Flow.bind_ok]

theorem Shape.At.isLeaf {t : Arena} {lo hi : Nat} {sh : Shape} {h : Handle} (hat : sh.At t lo hi h) (hl : t.isLeaf h = true) :
    ∃ y, sh = .leaf y := by
  unfold Arena.isLeaf at hl
  cases sh with
  | leaf y => exact ⟨y, rfl⟩
  | placeholder =>
    obtain ⟨-, -, n, hn, hk⟩ := hat
    simp [hn, hk] at hl
  | inner l r =>
    obtain ⟨-, -, n, hn, hk, -⟩ := hat
    simp [hn, hk] at hl

theorem Arena.leftIsLeaf_of {t : Arena} {h : Handle} {n : Node} (hn : t.of h = some n) : t.leftIsLeaf h = t.isLeaf n.left := by
  simp [Arena.leftIsLeaf, hn]

/-- The tree the parse has built at the root 0, one HUFFCORE can hold. -/
structure ParsedRoot (s : State) (sh : Shape) (hp : Handle × Parse) (t : State) : Prop where
  root : hp.1 = 0
  legal : sh.legal = true
  nodup : sh.leaves.Nodup
  seen : hp.2.seen.length = sh.leaves.length
  at_root : sh.At t.tree.node 0 511 0
  unweighted : s.tree.node.Unweighted → t.tree.node.Unweighted
  tail : sh.full = false → ∀ b ∈ t.ahead t.ch.bitsLeft, b = false

theorem parseRoot_takes (s : State) : (parseRoot s).Takes s true fun hp t q => ∃ sh : Shape, q = sh.bits ∧ ParsedRoot s sh hp t := by
  refine (treeBit_takes s).then ?_
  rintro b t q ⟨rfl, ht⟩
  cases b with
  | false => exact Flow.takes_badTree t true
  | true =>
    rw [if_pos rfl]
    refine (allocNode_takes .inner 0 (p := { nalloc := 0, seen := [] }) (by simp) t).then ?_
    rintro _ u q ⟨rfl, rfl, -, rfl⟩
    refine (parseNode_takes parseLevels _ _ (by simp)).then ?_
    rintro hl v q ⟨l, hlf, rfl, hl'⟩
    refine Flow.Takes.after (b := false) (b' := true) (setLeft_took v _ hl.1) rfl ((parseRootRight_takes _ hl'.1.room _).bind (b' := false) rfl ?_)
    rintro hr w q ⟨r, hright, rfl, hr'⟩
    have hroot : (t.setNode 0 { kind := .inner, sym := 0, left := nilHandle, right := nilHandle, freq := 0 }).tree.node.of 0 =
        some { kind := .inner, sym := 0, left := nilHandle, right := nilHandle, freq := 0 } :=
      (Arena.of_put _ _ _ _).trans (if_pos ⟨rfl, by decide⟩)
    obtain ⟨⟨hnalloc, hroom, hseen, hnodup, hweight⟩, ⟨m, hm, hmk, hml, hmr⟩, -⟩ := hl'.pair hroot rfl (by simp) hr'
    have hleft : (v.setLeft 0 hl.1).tree.node.leftIsLeaf 0 = true → ∃ y, l = .leaf y := by
      intro h
      obtain ⟨hn, hother⟩ := setLeft_of ((hl'.2.2.2 0 (by simp)).trans hroot) hl.1
      rw [Arena.leftIsLeaf_of hn] at h
      refine (hl'.2.2.1.congr (fun z hz _ => hother z ?_) le_rfl le_rfl).isLeaf h
      rintro rfl
      simp at hz
    simp only at hnalloc hseen hml hmr
    refine Flow.takes_ok (setRight_took w _ hr.1) ⟨.inner l r, by simp [Shape.bits], rfl, ?_, ?_, ?_, ?_,
      fun hw => hweight (Arena.Unweighted.put (ht ▸ hw) rfl), ?_⟩
    · rcases hright with hrf | ⟨rfl, hlf', -⟩
      · cases l <;> cases r <;> simp_all [Shape.legal, Shape.full]
      · obtain ⟨y, rfl⟩ := hleft hlf'
        rfl
    · have := hnodup List.nodup_nil
      rw [hseen, List.append_nil, List.nodup_reverse] at this
      exact this
    · rw [hseen, List.append_nil, List.length_reverse]
      rfl
    · exact ⟨Nat.zero_le _, by decide, m, hm, hmk, hml.mono (Nat.zero_le _) hroom, hmr.mono (Nat.zero_le _) hroom⟩
    · intro hnf
      rcases hright with hrf | ⟨-, -, htail⟩
      · simp [Shape.full, hlf, hrf] at hnf
      · have hch : (w.setRight 0 hr.1).ch = w.ch := by simp
        have hmem : (w.setRight 0 hr.1).mem = w.mem := by simp
        rw [State.ahead] at htail
        rw [State.ahead]
        simpa [hch, hmem] using htail

/-! ### The parse does not stop the model (entry 11) -/

section
variable {α : Type} {s t : State} {b : Bool} {ok : α → State → List Bool → Prop}

theorem Flow.Takes.of_eq_ok {x : Flow α} {a : α} (h : x.Takes s b ok) (hr : ReaderOk s) (hx : x = .ok a t) : ReaderOk t ∧ ∃ q, ok a t q := by
  obtain ⟨q, hq, ha⟩ := Flow.Post.of_ok h hx
  obtain ⟨-, k, -, hreads⟩ := hq.reads hr
  exact ⟨hreads.reader, q, ha⟩

end

section
variable {s : State}

theorem treeBit_safe (h : ReaderOk s) : (treeBit s).Safe := by
  unfold treeBit
  split
  · exact Flow.safe_error _ _
  · next hend => exact (readBit_ensures h (ReaderOk.chC_lt_of_left (not_le.mp hend))).2

theorem treeBits_safe (n v : Nat) (h : ReaderOk s) : (treeBits n v s).Safe := by
  induction n generalizing v s with
  | zero => exact Flow.safe_ok _ _
  | succ n ih => exact (treeBit_safe h).bind fun b t ht => ih _ ((treeBit_takes s).of_eq_ok h ht).1

theorem allocNode_safe (k : Kind) (sym : Byte) (p : Parse) (s : State) : (allocNode k sym p s).Safe := by
  unfold allocNode
  split
  · exact Flow.safe_error _ _
  · exact Flow.safe_ok _ _

theorem parseLeaf_safe (p : Parse) (h : ReaderOk s) : (parseLeaf p s).Safe := by
  refine (treeBits_safe 8 0 h).bind fun v t _ => ?_
  simp only
  split
  · exact Flow.safe_error _ _
  · exact allocNode_safe _ _ _ _

theorem setLeft_readerOk (h : ReaderOk s) (k c : Handle) : ReaderOk (s.setLeft k c) := by
  unfold ReaderOk
  rw [State.setLeft_ch]
  exact h

/-- The arena runs out of entries before the walk runs out of levels. -/
theorem parseNode_safe {d : Nat} {p : Parse} (hr : ReaderOk s) (hp : p.nalloc ≤ 511) (hd : 512 ≤ p.nalloc + d) : (parseNode d p s).Safe := by
  induction d generalizing p s with
  | zero => omega
  | succ d ih =>
    rw [parseNode_succ]
    refine (treeBit_safe hr).bind fun b t ht => ?_
    replace ht := ((treeBit_takes s).of_eq_ok hr ht).1
    cases b with
    | false => exact parseLeaf_safe p ht
    | true =>
      refine (allocNode_safe _ _ _ _).bind fun a u hu => ?_
      obtain ⟨hru, q, -, rfl, hlt, -⟩ := (allocNode_takes .inner 0 hp t).of_eq_ok ht hu
      refine (ih hru (by simp only; omega) (by simp only; omega)).bind fun l v hv => ?_
      obtain ⟨hrv, q', sh, -, -, hl⟩ := (parseNode_takes d _ u (by simp only; omega)).of_eq_ok hru hv
      have hn := hl.1.nalloc
      simp only at hn
      exact (ih (setLeft_readerOk hrv _ _) hl.1.room (by omega)).bind fun _ _ _ => Flow.safe_ok _ _

theorem parsePair_safe (h : Handle) {p : Parse} (hr : ReaderOk s) (hp : p.nalloc ≤ 511) : (parsePair parseLevels h p s).Safe := by
  have hd (n : Nat) : 512 ≤ n + parseLevels := by unfold parseLevels; omega
  refine (parseNode_safe hr hp (hd _)).bind fun l v hv => ?_
  obtain ⟨hrv, q', sh, -, -, hl⟩ := (parseNode_takes parseLevels _ s hp).of_eq_ok hr hv
  exact (parseNode_safe (setLeft_readerOk hrv _ _) hl.1.room (hd _)).bind fun _ _ _ => Flow.safe_ok _ _

theorem placeholderAhead_safe (r : Handle) (h : ReaderOk s) : (placeholderAhead r s).Safe := by
  obtain ⟨hreg, hle, -, -, hlen, -⟩ := id h
  rw [regionOK_iff] at hreg
  unfold placeholderAhead
  split
  · exact peekZero_safe (by rw [Channel.bitsLeft_eq]; omega)
  · exact Flow.safe_ok _ _

theorem parseRootRight_safe (r : Handle) {p : Parse} (hr : ReaderOk s) (hp : p.nalloc ≤ 511) : (parseRootRight r p s).Safe := by
  refine (treeBit_safe hr).bind fun b t ht => ?_
  replace ht := ((treeBit_takes s).of_eq_ok hr ht).1
  cases b with
  | false => exact parseLeaf_safe p ht
  | true =>
    refine (placeholderAhead_safe r ht).bind fun z u hu => ?_
    replace hu := ((placeholderAhead_takes r t).of_eq_ok ht hu).1
    split
    · exact allocNode_safe _ _ _ _
    · refine (allocNode_safe _ _ _ _).bind fun a v hv => ?_
      obtain ⟨hrv, q, -, rfl, hlt, -⟩ := (allocNode_takes .inner 0 hp u).of_eq_ok hu hv
      exact parsePair_safe _ hrv (by simp only; omega)

theorem parseRoot_safe (hr : ReaderOk s) : (parseRoot s).Safe := by
  refine (treeBit_safe hr).bind fun b t ht => ?_
  replace ht := ((treeBit_takes s).of_eq_ok hr ht).1
  cases b with
  | false => exact Flow.safe_error _ _
  | true =>
    rw [if_pos rfl]
    refine (allocNode_safe _ _ _ _).bind fun a u hu => ?_
    obtain ⟨hru, q, -, rfl, -⟩ := (allocNode_takes .inner 0 (p := { nalloc := 0, seen := [] }) (by simp) t).of_eq_ok ht hu
    refine (parseNode_safe hru (by simp) (by simp [parseLevels])).bind fun l v hv => ?_
    obtain ⟨hrv, q', sh, -, -, hl⟩ := (parseNode_takes parseLevels _ u (by simp)).of_eq_ok hru hv
    exact (parseRootRight_safe _ (setLeft_readerOk hrv _ _) hl.1.room).bind fun _ _ _ => Flow.safe_ok _ _

theorem parseTree_safe (hr : ReaderOk s) : (parseTree s).Safe := by
  rw [parseTree_eq]
  exact (parseRoot_safe hr).bind fun _ _ _ => Flow.safe_ok _ _

end

end Sys2Proof.Machine
end

section
/-! PROOFS. The channel's invariants and the absence of stops of the model, over every command and every step (42_bitchannel.md R97,
entry 11). -/

namespace Sys2Proof.Machine

variable {α : Type}

/-! ### The channel while a command runs -/

/-- The channel where a command goes on or completes. -/
def ChannelGoes (s : State) : Prop :=
  match s.ch.mode with
  | .idle => True
  | .write => WriterAt s ∧ s.ch.bn.toNat ≤ 7
  | .read => ReaderOk s

/-- The channel where a fault is raised. -/
def ChannelStops (s : State) : Prop :=
  match s.ch.mode with
  | .idle => True
  | .write => WriterStops s
  | .read => ReaderOk s

section
variable {s t : State}

theorem ReaderOk.of_ch (h : ReaderOk s) (hch : t.ch = s.ch) : ReaderOk t := by
  unfold ReaderOk
  rw [hch]
  exact h

theorem ChannelGoes.of_ch (h : ChannelGoes s) (hch : t.ch = s.ch) : ChannelGoes t := by
  unfold ChannelGoes WriterAt ReaderOk at h ⊢
  rw [hch]
  exact h

theorem ChannelGoes.stops (h : ChannelGoes s) : ChannelStops s := by
  unfold ChannelGoes at h
  unfold ChannelStops
  cases hm : s.ch.mode <;> rw [hm] at h
  · trivial
  · exact ⟨h.1, .inl h.2⟩
  · exact h

theorem ChannelGoes.of_idle (hm : s.ch.mode = .idle) : ChannelGoes s := by
  unfold ChannelGoes
  rw [hm]
  trivial

theorem ChannelGoes.of_writer (hm : s.ch.mode = .write) (h : WriterAt s) (hbn : s.ch.bn.toNat ≤ 7) : ChannelGoes s := by
  unfold ChannelGoes
  rw [hm]
  exact ⟨h, hbn⟩

theorem ChannelGoes.of_reader (hm : s.ch.mode = .read) (h : ReaderOk s) : ChannelGoes s := by
  unfold ChannelGoes
  rw [hm]
  exact h

theorem ChannelGoes.writer (h : ChannelGoes s) (hm : s.ch.mode = .write) : WriterAt s ∧ s.ch.bn.toNat ≤ 7 := by
  unfold ChannelGoes at h
  rwa [hm] at h

theorem ChannelGoes.reader (h : ChannelGoes s) (hm : s.ch.mode = .read) : ReaderOk s := by
  unfold ChannelGoes at h
  rwa [hm] at h

theorem ChannelStops.of_writer (hm : s.ch.mode = .write) (h : WriterStops s) : ChannelStops s := by
  unfold ChannelStops
  rw [hm]
  exact h

theorem ChannelOk.goes (h : ChannelOk s) (hf : s.cmd.fault = false) : ChannelGoes s := by
  unfold ChannelOk at h
  unfold ChannelGoes
  cases hm : s.ch.mode <;> simp only [hm] at h ⊢
  · exact ⟨((writerOk_iff s).mp h).1, h.bn_le hf⟩
  · exact h

theorem ChannelGoes.ok (h : ChannelGoes s) (hch : t.ch = s.ch) : ChannelOk t := by
  replace h := h.of_ch hch
  unfold ChannelGoes at h
  unfold ChannelOk
  cases hm : t.ch.mode <;> simp only [hm] at h ⊢
  · exact (writerOk_iff t).mpr ⟨h.1, .inl h.2⟩
  · exact h

theorem ChannelStops.ok (h : ChannelStops s) (hch : t.ch = s.ch) (hf : t.cmd.fault = true) : ChannelOk t := by
  unfold ChannelStops at h
  unfold ChannelOk
  rw [hch]
  cases hm : s.ch.mode <;> simp only [hm] at h ⊢
  · exact (writerOk_iff t).mpr ⟨h.1.of_ch hch, by rw [hch, hf, and_iff_left rfl]; exact h.2⟩
  · exact h.of_ch hch

/-- The channel's invariant depends on the channel, and on a fault only in a writer's favour. -/
theorem ChannelOk.of_ch (h : ChannelOk s) (hch : t.ch = s.ch) (hf : s.cmd.fault = true → t.cmd.fault = true) : ChannelOk t := by
  by_cases hs : s.cmd.fault = true
  · refine ChannelStops.ok (s := s) ?_ hch (hf hs)
    unfold ChannelOk at h
    unfold ChannelStops
    cases hm : s.ch.mode <;> simp only [hm] at h ⊢
    · obtain ⟨hw, hbn⟩ := (writerOk_iff s).mp h
      exact ⟨hw, hbn.imp_right And.left⟩
    · exact h
  · exact (h.goes (by simpa using hs)).ok hch

end

/-- The piece keeps the channel, whichever way it ends, and does not stop the model. -/
def Flow.KeepsChannel (x : Flow α) : Prop := x.Ensures (fun _ => ChannelGoes) (fun _ => ChannelGoes) (fun _ _ => ChannelStops)

section
variable {s : State}

theorem requireMode_ensures {m : ChMode} (h : ChannelGoes s) :
    (requireMode m s).Ensures (fun _ t => t = s ∧ s.ch.mode = m) (fun _ => ChannelGoes) (fun _ _ => ChannelStops) :=
  ⟨requireMode_post m fun _ => h.stops, requireMode_safe m s⟩

theorem requireTree_ensures (h : ChannelGoes s) :
    (requireTree s).Ensures (fun _ t => t = s ∧ s.tree.tvalid = true) (fun _ => ChannelGoes) (fun _ _ => ChannelStops) :=
  ⟨requireTree_post h.stops, requireTree_safe s⟩

theorem requireCodes_ensures (h : ChannelGoes s) :
    (requireCodes s).Ensures (fun _ t => t = s) (fun _ => ChannelGoes) (fun _ _ => ChannelStops) :=
  ⟨(requireCodes_post h.stops).mono (fun _ _ => And.left) (fun _ _ => id) fun _ _ _ => id, requireCodes_safe s⟩

theorem requireRegion_ensures {base len : Word} (w : Word) (h : ChannelGoes s) :
    (requireRegion base len w s).Ensures (fun _ t => t = s ∧ base.toNat + len.toNat ≤ 2 ^ 32) (fun _ => ChannelGoes)
      (fun _ _ => ChannelStops) :=
  ⟨(requireRegion_post base len w h.stops).mono (fun _ _ ht => ⟨ht.1, regionOK_iff.mp ht.2⟩) (fun _ _ => id) fun _ _ _ => id,
    requireRegion_safe base len w s⟩

theorem requireApart_ensures {base len : Word} (w : Word) (h : ChannelGoes s) :
    (requireApart base len w s).Ensures (fun _ t => t = s) (fun _ => ChannelGoes) (fun _ _ => ChannelStops) :=
  ⟨(requireApart_post base len w h.stops).mono (fun _ _ => And.left) (fun _ _ => id) fun _ _ _ => id, requireApart_safe base len w s⟩

theorem Counts.ch {s t : State} {k : Nat} (h : Counts s t k) : t.ch = s.ch := by
  obtain ⟨f, rfl⟩ := h
  rfl

theorem countBytes_keepsChannel {n a : Nat} (ha : a + n ≤ 2 ^ 32) (h : ChannelGoes s) : (countBytes n a s).KeepsChannel :=
  ⟨(countBytes_post n a s).mono (fun _ _ ht => h.of_ch ht.ch) (fun _ _ ⟨_, _, ht⟩ => h.of_ch ht.ch)
    fun _ _ _ ⟨_, _, _, ht, _⟩ => (h.of_ch ht.ch).stops, countBytes_safe ha s⟩

theorem writeString_keepsChannel (p : List Bool) (hm : s.ch.mode = .write) (h : ChannelGoes s) : (writeString p s).KeepsChannel := by
  obtain ⟨hw, hbn⟩ := h.writer hm
  refine ⟨((writeString_keepsWriter p hw hbn).and_post (writeString_post p s)).1.mono (fun _ t ht => ?_) (fun _ _ => fun ht => ht.2.elim)
    (fun _ _ t ht => ?_), (writeString_keepsWriter p hw hbn).2⟩
  · obtain ⟨⟨hw', hbn'⟩, hk⟩ := ht
    exact .of_writer (hk.keeps.2.1.trans hm) hw' hbn'
  · obtain ⟨hw', hk⟩ := ht
    obtain ⟨b, hk⟩ := hk.wrote
    exact .of_writer (hk.keeps.2.1.trans hm) hw'

theorem encodeBytes_keepsChannel {n a : Nat} (ha : a + n ≤ 2 ^ 32) (hm : s.ch.mode = .write) (h : ChannelGoes s) :
    (encodeBytes n a s).KeepsChannel := by
  obtain ⟨hw, hbn⟩ := h.writer hm
  have he := encodeBytes_ensures n a ha hw hbn
  refine ⟨(he.and_post (encodeBytes_post n a s)).1.mono (fun _ t ht => ?_) (fun _ _ => fun ht => ht.2.elim) (fun _ _ t ht => ?_), he.2⟩
  · obtain ⟨⟨hw', hbn'⟩, k, hk⟩ := ht
    exact .of_writer (hk.keeps.2.1.trans hm) hw' hbn'
  · obtain ⟨hw', hk⟩ := ht
    obtain ⟨k, b, hk⟩ := hk.wrote
    exact .of_writer (hk.keeps.2.1.trans hm) hw'

/-! ### Opening and closing -/

theorem openWriter_writerAt {v : State} (hreg : v.ch.lbase.toNat + v.ch.llen.toNat ≤ 2 ^ 32) (hlen : 4 ≤ v.ch.llen.toNat) :
    WriterAt v.openWriter := by
  have hpos := State.openWriter_pos v (by omega)
  unfold WriterAt
  rw [hpos]
  simp
  omega

theorem openReader_readerOk {v : State} {n : Nat} (hreg : v.ch.lbase.toNat + v.ch.llen.toNat ≤ 2 ^ 32) (hlen : 4 ≤ v.ch.llen.toNat)
    (hn : 4 + (n + 7) / 8 ≤ v.ch.llen.toNat) : ReaderOk (v.openReader n) := by
  have hpos := State.openReader_pos v n (by omega)
  have hT : (v.openReader n).ch.chT.toNat ≤ n := by
    rw [State.openReader_chT, BitVec.toNat_ofNat]
    exact Nat.mod_le ..
  unfold ReaderOk
  rw [hpos, regionOK_iff]
  simp only [State.openReader_lbase, State.openReader_llen, State.openReader_chC, State.openReader_bn, State.openReader_rpad]
  refine ⟨hreg, Nat.zero_le _, rfl, rfl, by omega, Nat.zero_le _⟩

theorem wOpen_keepsChannel (hm : s.ch.mode = .idle) (hreg : s.regs.sbase.toNat + s.regs.slen.toNat ≤ 2 ^ 32) :
    (if s.latch.ch.llen.toNat < 4 then .raise .streamOverflow s.latch.ch.lbase s.latch
      else (writeBytes s.latch.ch.lbase.toNat (List.replicate 4 0) s.latch).bind fun _ s => .ok () s.openWriter : Flow Unit).KeepsChannel := by
  have hlatch : ChannelGoes s.latch := .of_idle hm
  split
  · exact Flow.ensures_raise hlatch.stops
  · next hlen =>
    have hl4 : 4 ≤ s.regs.slen.toNat := not_lt.mp hlen
    have hw : (writeBytes s.latch.ch.lbase.toNat (List.replicate 4 0) s.latch).Ensures (fun _ t => t.ch = s.latch.ch) (fun _ => ChannelGoes)
        (fun _ _ => ChannelStops) := by
      refine ⟨(writeBytes_post _ _ _).mono (fun _ _ h => h.ch) (fun _ _ => False.elim) fun f w t h => ?_, writeBytes_safe ?_ _⟩
      · obtain ⟨k, -, h, -⟩ := h
        exact (hlatch.of_ch h.ch).stops
      · simp
        omega
    refine hw.bind fun _ v hv => Flow.ensures_ok (.of_writer (by simp) (openWriter_writerAt ?_ ?_) (by simp))
    · rw [hv]; exact hreg
    · rw [hv]; exact hl4

theorem rOpen_keepsChannel (hm : s.ch.mode = .idle) (hreg : s.regs.sbase.toNat + s.regs.slen.toNat ≤ 2 ^ 32) :
    (if s.latch.ch.llen.toNat < 4 then .error .badLength s.latch
      else (readBigEndian 4 s.latch.ch.lbase.toNat 0 s.latch).bind fun t s =>
        if s.ch.llen.toNat < 4 + (t + 7) / 8 then .error .badLength s else .ok () (s.openReader t) : Flow Unit).KeepsChannel := by
  have hlatch : ChannelGoes s.latch := .of_idle hm
  split
  · exact Flow.ensures_error hlatch
  · next hlen =>
    have hl4 : 4 ≤ s.regs.slen.toNat := not_lt.mp hlen
    have hr : (readBigEndian 4 s.latch.ch.lbase.toNat 0 s.latch).Ensures (fun _ t => t.ch = s.latch.ch) (fun _ => ChannelGoes)
        (fun _ _ => ChannelStops) := by
      refine ⟨(readBigEndian_post _ _ _ _).mono (fun _ _ h => h.ch) (fun _ _ => False.elim) fun f w t h => ?_, readBigEndian_safe _ ?_ _⟩
      · obtain ⟨k, -, h, -⟩ := h
        exact (hlatch.of_ch h.ch).stops
      · simp
        omega
    refine hr.bind fun n v hv => ?_
    split
    · exact Flow.ensures_error (hlatch.of_ch hv)
    · next hn =>
      refine Flow.ensures_ok (.of_reader (by simp) (openReader_readerOk ?_ ?_ (by omega)))
      · rw [hv]; exact hreg
      · rw [hv]; exact hl4

theorem wClose_keepsChannel (hm : s.ch.mode = .write) (h : ChannelGoes s) :
    ((padCommit s).bind fun _ s =>
      (writeBytes s.ch.lbase.toNat (headerBytes s.ch.chT) s).bind fun _ s => .ok () s.closeWriter : Flow Unit).KeepsChannel := by
  obtain ⟨hw, hbn⟩ := h.writer hm
  have hpad : (padCommit s).Ensures (fun _ t => t.ch.mode = .write ∧ WriterAt t ∧ t.ch.bn.toNat ≤ 7) (fun _ => ChannelGoes)
      (fun _ _ => ChannelStops) := by
    refine ((padCommit_ensures hw hbn).and_post (padCommit_post s)).mono (fun _ t ht => ?_) (fun _ _ ht => ht.1.elim) fun f w t ht => ?_
    · exact ⟨ht.2.keeps.2.1.trans hm, ht.1⟩
    · refine .of_writer ?_ ⟨ht.1.1, .inl ht.1.2⟩
      rcases ht.2 with ⟨rfl, -⟩ | ⟨-, -, -, -, rfl⟩ <;> exact hm
  refine hpad.bind fun _ v ⟨hvm, hv, hvbn⟩ => ?_
  have hvc : ChannelGoes v := .of_writer hvm hv hvbn
  have hlen : (headerBytes v.ch.chT).length = 4 := by simp [headerBytes]
  have hbytes : (writeBytes v.ch.lbase.toNat (headerBytes v.ch.chT) v).Ensures (fun _ _ => True) (fun _ => ChannelGoes)
      (fun _ _ => ChannelStops) := by
    refine ⟨(writeBytes_post _ _ _).mono (fun _ _ _ => trivial) (fun _ _ => False.elim) fun f w t h => ?_, writeBytes_safe ?_ _⟩
    · obtain ⟨k, -, h, -⟩ := h
      exact (hvc.of_ch h.ch).stops
    · obtain ⟨hreg, -, -, hl⟩ := hv
      omega
  exact hbytes.bind fun _ _ _ => Flow.ensures_ok (.of_idle rfl)

/-! ### The reader's commands -/

/-- A reader's piece that keeps the reader and the mode keeps the channel. -/
theorem Reads.goes {s t : State} {p : List Bool} {k : Nat} (hm : s.ch.mode = .read) (h : Reads s t p k) : ChannelGoes t :=
  .of_reader (h.keeps.mode.trans hm) h.reader

theorem readNat_keepsChannel {n : Nat} (v : Nat) (hm : s.ch.mode = .read) (h : ReaderOk s) (hle : s.ch.chC.toNat + n ≤ s.ch.chT.toNat) :
    (readNat n v s).Ensures (fun _ t => ∃ p, p.length = n ∧ Reads s t p 0) (fun _ => ChannelGoes) (fun _ _ => ChannelStops) := by
  refine ((readNat_ensures v h hle).and_post (readNat_post n v s)).mono (fun _ _ => And.left) (fun _ _ ht => ht.1.elim) fun f w t ht => ?_
  exact (ChannelGoes.of_reader (ht.2.2.1.keeps.2.1.trans hm) ht.1.2).stops

theorem rBits_keepsChannel (n : Nat) (hm : s.ch.mode = .read) (h : ChannelGoes s) :
    (if s.ch.chT.toNat < s.ch.chC.toNat + n then .raise .readPastEnd s.ch.chC s
      else (readNat n 0 s).bind fun v s => .ok () { s with res := { s.res with result := BitVec.ofNat 32 v } } : Flow Unit).KeepsChannel := by
  split
  · exact Flow.ensures_raise h.stops
  · next hle =>
    refine (readNat_keepsChannel 0 hm (h.reader hm) (not_lt.mp hle)).bind fun v t ⟨p, _, ht⟩ => Flow.ensures_ok ?_
    exact (ht.goes hm).of_ch rfl

theorem rMagic_keepsChannel (hm : s.ch.mode = .read) (h : ChannelGoes s) :
    (if s.ch.chT.toNat < s.ch.chC.toNat + 24 then .error .badLength s
      else (readNat 16 0 s).bind fun m s =>
        if m ≠ 0x4846 then .error .badMagic s
        else (readNat 8 0 s).bind fun p s =>
          if 7 < p ∨ s.ch.chT.toNat < s.ch.chC.toNat + p then .error .badPad s
          else .ok () { s with ch := { s.ch with rpad := BitVec.ofNat 3 p } } : Flow Unit).KeepsChannel := by
  split
  · exact Flow.ensures_error h
  · next hle =>
    refine (readNat_keepsChannel 0 hm (h.reader hm) (by omega)).bind fun m t ⟨p, hp, ht⟩ => ?_
    have hc := ht.chC
    have hT := ht.keeps.chT
    have hmt := ht.keeps.mode.trans hm
    split
    · exact Flow.ensures_error (ht.goes hm)
    · refine (readNat_keepsChannel 0 hmt ht.reader (by rw [hc, hT]; omega)).bind fun p u ⟨q, _, hu⟩ => ?_
      split
      · exact Flow.ensures_error (hu.goes hmt)
      · next hpad =>
        obtain ⟨hreg, hle, hpos, hbn, hlen, -⟩ := hu.reader
        refine Flow.ensures_ok (.of_reader (hu.keeps.mode.trans hmt) ⟨hreg, hle, hpos, hbn, hlen, ?_⟩)
        show p % 2 ^ 3 ≤ u.ch.chT.toNat
        omega

theorem emitSymbol_ensures (y : Byte) (h : s.regs.obase.toNat + s.regs.olen.toNat ≤ 2 ^ 32) :
    (emitSymbol y s).Ensures (fun _ t => t.ch = s.ch ∧ t.regs = s.regs) (fun _ _ => False) (fun _ _ t => t.ch = s.ch) := by
  refine ⟨(emitSymbol_post y s).mono (fun _ t ht => ?_) (fun _ _ => id) fun f w t ht => ?_, ?_⟩
  · obtain ⟨rfl, -⟩ := ht
    exact ⟨rfl, rfl⟩
  · rcases ht with ⟨-, rfl⟩ | ⟨-, -, -, rfl⟩ <;> rfl
  · unfold emitSymbol
    split
    · obtain ⟨w, hw, -⟩ := raiseAt_eq (α := Unit) .sinkOverflow (s.regs.obase.toNat + s.res.ocnt.toNat) s
      rw [hw]
      exact Flow.safe_raise _ _ _
    · exact (memWrite_safe (by omega) _ _).bind fun _ _ _ => Flow.safe_ok _ _

theorem decodeBits_keepsReader {n : Nat} (acc : List Bool) (h : ReaderOk s) (hn : s.ch.chC.toNat + n ≤ s.ch.chT.toNat)
    (ho : s.regs.obase.toNat + s.regs.olen.toNat ≤ 2 ^ 32) :
    (decodeBits n acc s).Ensures (fun _ => ReaderOk) (fun _ => ReaderOk) (fun _ _ => ReaderOk) := by
  induction n generalizing acc s with
  | zero => exact Flow.ensures_ok h
  | succ n ih =>
    refine ((readBit_ensures h (by omega)).mono (fun _ _ => id) (fun _ _ => False.elim) fun _ _ _ ht => ht.2.1).bind fun b t ht => ?_
    have hc := ht.chC
    have hT := ht.keeps.chT
    rw [List.length_singleton] at hc
    split
    · refine ((emitSymbol_ensures _ (by rw [ht.keeps.regs]; exact ho)).mono (fun _ _ => id) (fun _ _ => False.elim) fun _ _ _ hu =>
        ht.reader.of_ch hu).bind fun _ u ⟨hu, hregs⟩ => ?_
      exact ih [] (ht.reader.of_ch hu) (by rw [hu, hc, hT]; omega) (by rw [hregs, ht.keeps.regs]; exact ho)
    · split
      · exact ih _ ht.reader (by rw [hc, hT]; omega) (by rw [ht.keeps.regs]; exact ho)
      · exact Flow.ensures_error ht.reader

theorem sDecode_keepsChannel (hm : s.ch.mode = .read) (h : ChannelGoes s) (ho : s.regs.obase.toNat + s.regs.olen.toNat ≤ 2 ^ 32) :
    (if (s.setOcnt 0).ch.payloadEnd < ((s.setOcnt 0).ch.chC.toNat : Int) then .error .badLength (s.setOcnt 0)
      else (decodeBits (s.setOcnt 0).ch.bitsLeft [] (s.setOcnt 0)).bind fun acc s => if acc = [] then .ok () s else .error .residue s :
        Flow Unit).KeepsChannel := by
  have h0 : ReaderOk (s.setOcnt 0) := (h.reader hm).of_ch rfl
  have hleft : (s.setOcnt 0).ch.chC.toNat + (s.setOcnt 0).ch.bitsLeft ≤ (s.setOcnt 0).ch.chT.toNat := by
    have := h0.2.1
    rw [Channel.bitsLeft_eq]
    omega
  split
  · exact Flow.ensures_error (h.of_ch rfl)
  · have hd := (decodeBits_keepsReader [] h0 hleft ho).and_post (decodeBits_post _ [] (s.setOcnt 0))
    refine (hd.mono (fun _ t ht => ChannelGoes.of_reader (ht.2.mode.trans hm) ht.1) (fun _ t ht => ChannelGoes.of_reader (ht.2.mode.trans hm) ht.1)
      fun f w t ht => ?_).bind fun acc t ht => ?_
    · refine (ChannelGoes.of_reader (?_ : t.ch.mode = .read) ht.1).stops
      rcases ht.2 with ⟨-, h⟩ | ⟨-, h, -⟩ | ⟨-, h, -⟩ <;> exact h.mode.trans hm
    · split
      · exact Flow.ensures_ok ht
      · exact Flow.ensures_error ht

theorem parseTree_keepsChannel (hm : s.ch.mode = .read) (h : ReaderOk s) : (parseTree s).KeepsChannel := by
  refine ⟨?_, parseTree_safe h⟩
  have hgo {t : State} {q : List Bool} (ht : Took s t q true) : ChannelGoes t := by
    obtain ⟨-, k, -, hreads⟩ := ht.reads h
    exact hreads.goes hm
  have hp : (parseRoot s).Post (fun _ => ChannelGoes) (fun _ => ChannelGoes) (fun _ _ t => ReaderOk t) :=
    Flow.Post.mono (parseRoot_takes s) (fun _ _ ⟨_, ht, _⟩ => hgo ht) (fun _ _ ⟨_, _, ht⟩ => hgo ht) fun _ _ _ ht => (ht.2 h).1
  have hall : (parseTree s).Post (fun _ => ChannelGoes) (fun _ => ChannelGoes) (fun _ _ t => ReaderOk t) := by
    rw [parseTree_eq]
    exact hp.bind fun r t ht => ht.of_ch rfl
  refine (hall.and (parseTree_post s)).mono (fun _ _ => And.left) (fun _ _ => And.left) fun f w t ht => ?_
  exact (ChannelGoes.of_reader (ht.2.2.1.mode.trans hm) ht.1).stops

end

/-! ### Every command -/

/-- A valid tree has its serialized form (41_tree_codec.md R88). -/
theorem serialTree_of_treeOk {s : State} (h : TreeOk s) (hv : s.tree.tvalid = true) : serialTree s.tree = .ok s.tree.form := by
  unfold serialTree Tree.form
  rcases h hv with ⟨hroot, -⟩ | ⟨hroot, sh, hsh, -⟩
  · rw [if_pos hroot, if_pos hroot]
  · rw [if_neg hroot, if_neg hroot, serialForm_of_shape hsh]
    simp only [hsh]

theorem codesOfTree_of_treeOk {s : State} (h : TreeOk s) (hv : s.tree.tvalid = true) :
    ∃ r, codesOfTree s.tree.node s.tree.root = .ok r := by
  rcases h hv with ⟨hroot, -⟩ | ⟨hroot, sh, hsh, -⟩
  · exact ⟨_, if_pos hroot⟩
  · exact ⟨_, codesOfTree_of_shape hroot hsh⟩

/-- How a command treats the channel: it keeps it however it ends, and from a valid tree it does not stop the model. -/
def ExecKeepsChannel (i : Instr) (s : State) : Prop :=
  ∃ x : Flow Unit, exec i s = x.complete ∧ x.Post (fun _ => ChannelGoes) (fun _ => ChannelGoes) (fun _ _ => ChannelStops) ∧
    (TreeOk s → x.Safe)

theorem Flow.KeepsChannel.exec {i : Instr} {s : State} {x : Flow Unit} (h : x.KeepsChannel) (hx : Machine.exec i s = x.complete) :
    ExecKeepsChannel i s := ⟨x, hx, h.1, fun _ => h.2⟩

theorem exec_keepsChannel (i : Instr) {s : State} (h : ChannelGoes s) : ExecKeepsChannel i s := by
  cases i with
  | freqClear =>
    obtain ⟨u, hu, hch⟩ : ∃ u : State, exec .freqClear s = .next u.finish ∧ u.ch = s.ch := ⟨_, exec_freqClear s, State.invalidate_ch _⟩
    exact Flow.KeepsChannel.exec (Flow.ensures_ok (h.of_ch hch)) (hu.trans (Flow.complete_ok () u).symm)
  | freqCount =>
    refine Flow.KeepsChannel.exec (Flow.Ensures.bind (requireRegion_ensures _ h) ?_) rfl
    rintro _ t ⟨rfl, hreg⟩
    exact countBytes_keepsChannel (by omega) (h.of_ch rfl)
  | treeBuild =>
    rcases le_or_gt (freqSum s.cnt.freq) 0xFFFFFFFF with hfits | hover
    · obtain ⟨u, hu, hch⟩ : ∃ u : State, exec .treeBuild s = .next u.finish ∧ u.ch = s.ch := ⟨_, exec_treeBuild_of_fits hfits, rfl⟩
      exact Flow.KeepsChannel.exec (Flow.ensures_ok (h.of_ch hch)) (hu.trans (Flow.complete_ok () u).symm)
    · exact Flow.KeepsChannel.exec (Flow.ensures_error (h.of_ch (State.invalidate_ch s))) (exec_treeBuild_of_overflow hover)
  | codesBuild =>
    refine ⟨_, rfl, (requireTree_ensures h).1.bind ?_, fun htree => (requireTree_safe s).bind ?_⟩
    · rintro _ t ⟨rfl, -⟩
      refine Flow.Post.bind (Flow.lift_post (ok := fun _ u => u = t) fun _ _ => rfl) ?_
      rintro r u rfl
      exact h.of_ch rfl
    · rintro _ t ht
      obtain ⟨rfl, hv⟩ := requireTree_eq_ok ht
      obtain ⟨r, hr⟩ := codesOfTree_of_treeOk htree hv
      rw [hr]
      exact Flow.safe_ok _ _
  | wOpen =>
    refine Flow.KeepsChannel.exec (Flow.Ensures.bind (requireMode_ensures h) ?_) rfl
    rintro _ t ⟨rfl, hm⟩
    refine (requireRegion_ensures _ h).bind ?_
    rintro _ s ⟨rfl, hreg⟩
    exact wOpen_keepsChannel hm hreg
  | wBits n =>
    refine Flow.KeepsChannel.exec (Flow.Ensures.bind (requireMode_ensures h) ?_) rfl
    rintro _ t ⟨rfl, hm⟩
    exact writeString_keepsChannel _ hm h
  | wMagic =>
    refine Flow.KeepsChannel.exec (Flow.Ensures.bind (requireMode_ensures h) ?_) rfl
    rintro _ t ⟨rfl, hm⟩
    refine (requireCodes_ensures h).bind ?_
    rintro _ t rfl
    have hwrites {t : State} (p : List Bool) (hg : ChannelGoes t) (hm : t.ch.mode = .write) :
        (writeString p t).Ensures (fun _ u => ChannelGoes u ∧ u.ch.mode = .write) (fun _ => ChannelGoes) (fun _ _ => ChannelStops) := by
      refine ((writeString_keepsChannel p hm hg).and_post (writeString_post p t)).mono (fun _ u hu => ?_) (fun _ _ hu => hu.2.elim) fun _ _ _ =>
        And.left
      exact ⟨hu.1, hu.2.keeps.2.1.trans hm⟩
    refine (hwrites _ h hm).bind fun _ u ⟨hu, hum⟩ => (hwrites _ hu hum).bind fun _ v ⟨hv, hvm⟩ => ?_
    exact writeString_keepsChannel _ hvm hv
  | wClose =>
    refine Flow.KeepsChannel.exec (Flow.Ensures.bind (requireMode_ensures h) ?_) rfl
    rintro _ t ⟨rfl, hm⟩
    exact wClose_keepsChannel hm h
  | rOpen =>
    refine Flow.KeepsChannel.exec (Flow.Ensures.bind (requireMode_ensures h) ?_) rfl
    rintro _ t ⟨rfl, hm⟩
    refine (requireRegion_ensures _ h).bind ?_
    rintro _ s ⟨rfl, hreg⟩
    exact rOpen_keepsChannel hm hreg
  | rBits n =>
    refine Flow.KeepsChannel.exec (Flow.Ensures.bind (requireMode_ensures h) ?_) rfl
    rintro _ t ⟨rfl, hm⟩
    exact rBits_keepsChannel n.toNat hm h
  | rMagic =>
    refine Flow.KeepsChannel.exec (Flow.Ensures.bind (requireMode_ensures h) ?_) rfl
    rintro _ t ⟨rfl, hm⟩
    exact rMagic_keepsChannel hm h
  | rClose =>
    refine Flow.KeepsChannel.exec (Flow.Ensures.bind (requireMode_ensures h) ?_) rfl
    rintro _ t ⟨rfl, hm⟩
    exact Flow.ensures_ok (.of_idle rfl)
  | tSerialize =>
    refine ⟨_, rfl, (requireMode_ensures h).1.bind ?_, fun htree => (requireMode_safe _ s).bind ?_⟩
    · rintro _ t ⟨rfl, hm⟩
      refine (requireTree_ensures h).1.bind ?_
      rintro _ s ⟨rfl, -⟩
      refine Flow.Post.bind (Flow.lift_post (ok := fun _ u => u = s) fun _ _ => rfl) ?_
      rintro p u rfl
      exact (writeString_keepsChannel p hm h).1
    · rintro _ t ht
      obtain ⟨rfl, hm⟩ := requireMode_eq_ok ht
      refine (requireTree_safe t).bind ?_
      rintro _ u hu
      obtain ⟨rfl, hv⟩ := requireTree_eq_ok hu
      rw [serialTree_of_treeOk htree hv]
      exact (writeString_keepsChannel _ hm h).2
  | tDeserialize =>
    by_cases hm : s.ch.mode = .read
    · refine Flow.KeepsChannel.exec ?_ (exec_tDeserialize_of_read hm)
      split
      · exact Flow.ensures_ok (h.of_ch rfl)
      split
      · exact Flow.ensures_error (h.of_ch rfl)
      · exact parseTree_keepsChannel hm ((h.reader hm).of_ch rfl)
    · exact Flow.KeepsChannel.exec (Flow.ensures_raise h.stops) (exec_of_wrong_mode rfl hm)
  | sEncode =>
    refine Flow.KeepsChannel.exec (Flow.Ensures.bind (requireMode_ensures h) ?_) rfl
    rintro _ t ⟨rfl, hm⟩
    refine (requireCodes_ensures h).bind ?_
    rintro _ s rfl
    refine (requireRegion_ensures _ h).bind ?_
    rintro _ t ⟨rfl, hreg⟩
    refine (requireApart_ensures _ h).bind ?_
    rintro _ s rfl
    exact encodeBytes_keepsChannel (by omega) hm h
  | sDecode =>
    refine Flow.KeepsChannel.exec (Flow.Ensures.bind (requireMode_ensures h) ?_) rfl
    rintro _ t ⟨rfl, hm⟩
    refine (requireCodes_ensures h).bind ?_
    rintro _ s rfl
    refine (requireRegion_ensures _ h).bind ?_
    rintro _ t ⟨rfl, hreg⟩
    refine (requireApart_ensures _ h).bind ?_
    rintro _ s rfl
    exact sDecode_keepsChannel hm h hreg

end Sys2Proof.Machine
end

section
/-! PROOFS. The obligations about every step: the channel's invariants (42_bitchannel.md R97) and no stop of the model (entry 11). -/

namespace Sys2Proof.Machine

/-- Settles O58: a command keeps the channel by the rule of its pieces; every other turn leaves the channel, or resets it. -/
theorem stepKeepsChannel : Obligations.StepKeepsChannel := by
  intro s t hs ht
  replace hs : ChannelOk s.dropTurn := hs.of_ch rfl id
  cases step_effect ht with
  | reset => exact trivial
  | fault f w _ hf => exact (hs.goes hf).stops.ok rfl rfl
  | command i t _ _ hf h =>
    obtain ⟨x, hx, hp, -⟩ := exec_keepsChannel i (hs.goes hf)
    rcases hp.complete (hx.symm.trans h) with ⟨u, hu, rfl⟩ | ⟨e, u, hu, rfl⟩ | ⟨f, w, u, hu, rfl⟩
    · exact hu.ok rfl
    · exact hu.ok rfl
    · exact ChannelStops.ok hu rfl rfl
  | env e => exact hs.of_ch rfl id
  | regs r d => exact hs.of_ch rfl id
  | issue w => exact hs.of_ch rfl id
  | freqData v => exact hs.of_ch rfl id
  | store a v => exact hs.of_ch rfl id

/-- Only a command can stop the model. -/
theorem takeTurn_fault {turn : Turn} {s : State} {r : Fault} (h : takeTurn turn s = .fault r) :
    s.cmd.fault = false ∧ ∃ i, exec i s = .fault r := by
  cases turn with
  | core =>
    replace h : coreTurn s = .fault r := h
    rcases coreTurn_cases s with ⟨-, hc⟩ | ⟨-, hf, hc | ⟨i, -, hc⟩⟩
    · cases hc.symm.trans h
    · cases hc.symm.trans h
    · exact ⟨hf, i, hc.symm.trans h⟩
  | memWrite a v =>
    simp only [takeTurn, hostStore] at h
    split at h <;> cases h
  | memRead a =>
    simp only [takeTurn, hostLoad] at h
    split at h <;> cases h
  | _ => cases h

/-- Settles O60: a command's pieces do not stop the model while the channel is kept and a valid tree is a tree. -/
theorem goodStatesDoNotStop : Obligations.GoodStatesDoNotStop := by
  rintro s r ⟨-, -, hch, htree, -⟩ h
  replace hch : ChannelOk s.dropTurn := hch.of_ch rfl id
  rw [step_eq_takeTurn] at h
  obtain ⟨hf, i, hi⟩ := takeTurn_fault h
  obtain ⟨x, hx, -, hsafe⟩ := exec_keepsChannel i (hch.goes hf)
  exact (hsafe htree).complete r (hx.symm.trans hi)

end Sys2Proof.Machine
end

section
/-! PROOFS. The tree `TREE_BUILD` makes (40_frequency_tree.md R79): at every merge the collection holds full trees that share out the
symbols of the map. -/

namespace Sys2Proof.Machine

/-- The builder's arena with the collection `q`, entries from `k` on unused: at every handle of `q` a full tree, their leaves together the
symbols of the map. -/
structure Forest (order : List Byte) (trees : Handle → Shape) (t : Arena) (k : Nat) (q : List Handle) : Prop where
  tree : ∀ h ∈ q, (trees h).full = true ∧ (trees h).At t 0 k h
  leaves : (q.flatMap fun h => (trees h).leaves).Perm order
  free : ∀ h : Handle, h ≠ nilHandle → k ≤ h.toNat → t.of h = some Node.blank

theorem blankArena_of {h : Handle} (hn : h ≠ nilHandle) : Arena.of (Vector.replicate 511 Node.blank) h = some Node.blank := by
  have hlt : h.toNat < 511 := by
    have := h.isLt
    have : h.toNat ≠ 511 := fun e => hn (BitVec.eq_of_toNat_eq e)
    omega
  simp [Arena.of, hlt]

theorem handlesBelow_flatMap_leaf {order : List Byte} (hlen : order.length ≤ 512) :
    ((handlesBelow order.length).flatMap fun h => (Shape.leaf (order.getD h.toNat 0)).leaves) = order := by
  have hmap : ((handlesBelow order.length).flatMap fun h => [order.getD h.toNat 0]) = (handlesBelow order.length).map fun h => order.getD h.toNat 0 :=
    List.map_eq_flatMap.symm
  refine hmap.trans (List.ext_getElem (by simp [handlesBelow]) fun i hi hi' => ?_)
  simp only [handlesBelow, List.getElem_map, List.getElem_range]
  rw [handle_toNat (by omega), List.getD_eq_getElem _ _ hi']

/-- The leaves alone. -/
theorem Forest.leafArena (f : FreqTable) :
    Forest (leafOrder f) (fun h => .leaf ((leafOrder f).getD h.toNat 0)) (leafArena f) (leafOrder f).length
      (handlesBelow (leafOrder f).length) := by
  have hle := leafOrder_length_le f
  refine ⟨fun h hh => ?_, ?_, fun h hn hk => ?_⟩
  · rw [mem_handlesBelow (by omega)] at hh
    refine ⟨rfl, Nat.zero_le _, hh, _, leafArena_of (List.getElem?_eq_getElem hh), rfl, ?_⟩
    exact (List.getD_eq_getElem _ _ hh).symm
  · rw [handlesBelow_flatMap_leaf (by omega)]
  · rw [Machine.leafArena, placeFrom_of (by simp; omega), if_pos (Nat.zero_le _), List.getElem?_eq_none (by simpa using hk), Option.none_or,
      blankArena_of hn]

/-- One merge joins two of the trees. -/
theorem Forest.merge {order : List Byte} {trees : Handle → Shape} {t : Arena} {k : Nat} {q q₁ q₂ : List Handle} {x y : Handle}
    (h : Forest order trees t k q) (hk : k < 511) (hx : extractMin t q = some (x, q₁)) (hy : extractMin t q₁ = some (y, q₂)) (w : Word) :
    Forest order (Function.update trees (BitVec.ofNat 9 k) (.inner (trees x) (trees y))) (t.put (BitVec.ofNat 9 k) (innerNode x y w)) (k + 1)
      (q₂ ++ [BitVec.ofNat 9 k]) := by
  have hk9 := handle_toNat (k := k) (by omega)
  have hperm : q.Perm (x :: y :: q₂) := (extractMin_perm hx).trans ((extractMin_perm hy).cons x)
  have hmem {z : Handle} (hz : z ∈ x :: y :: q₂) : (trees z).full = true ∧ (trees z).At t 0 k z := h.tree z (hperm.mem_iff.mpr hz)
  have hkept {z : Handle} {sh : Shape} (hat : sh.At t 0 k z) : sh.At (t.put (BitVec.ofNat 9 k) (innerNode x y w)) 0 (k + 1) z :=
    hat.congr (fun z _ hz => Arena.of_put_of_lt (by omega) _ hz) le_rfl (by omega)
  have hother {z : Handle} (hz : z ∈ q₂) : Function.update trees (BitVec.ofNat 9 k) (.inner (trees x) (trees y)) z = trees z := by
    refine Function.update_of_ne ?_ _ _
    rintro rfl
    have hat := (hmem (List.mem_cons_of_mem _ (List.mem_cons_of_mem _ hz))).2
    have : (BitVec.ofNat 9 k).toNat < k := by
      cases htree : trees (BitVec.ofNat 9 k) <;> rw [htree] at hat <;> exact hat.2.1
    omega
  obtain ⟨hxf, hxat⟩ := hmem (List.mem_cons_self ..)
  obtain ⟨hyf, hyat⟩ := hmem (List.mem_cons_of_mem _ (List.mem_cons_self ..))
  refine ⟨fun z hz => ?_, ?_, fun z hn hz => ?_⟩
  · rcases List.mem_append.mp hz with hz | hz
    · rw [hother hz]
      obtain ⟨hzf, hzat⟩ := hmem (List.mem_cons_of_mem _ (List.mem_cons_of_mem _ hz))
      exact ⟨hzf, hkept hzat⟩
    · obtain rfl := List.mem_singleton.mp hz
      rw [Function.update_self]
      refine ⟨by simp [Shape.full, hxf, hyf], Nat.zero_le _, by omega, innerNode x y w, Arena.of_put_handle hk _, rfl, hkept hxat, hkept hyat⟩
  · rw [List.flatMap_append, List.flatMap_singleton, Function.update_self]
    have hrest : (q₂.flatMap fun z => (Function.update trees (BitVec.ofNat 9 k) (.inner (trees x) (trees y)) z).leaves) =
        q₂.flatMap fun z => (trees z).leaves := List.flatMap_congr fun z hz => by rw [hother hz]
    rw [hrest]
    have hold : (q.flatMap fun z => (trees z).leaves).Perm (((trees x).leaves ++ (trees y).leaves) ++ q₂.flatMap fun z => (trees z).leaves) := by
      refine (hperm.flatMap_right _).trans ?_
      simp
    exact (List.perm_append_comm.trans hold.symm).trans h.leaves
  · rw [Arena.of_put_of_ne _ (fun e => by rw [e, hk9] at hz; omega)]
    exact h.free z hn (by omega)

/-- The merges keep a forest, each taking one entry from the collection. -/
theorem Forest.mergeLoop {order : List Byte} {trees : Handle → Shape} {t : Arena} {n k : Nat} {q : List Handle}
    (h : Forest order trees t k q) (hfit : q.length + k ≤ 512) :
    ∃ trees' k', (Machine.mergeLoop n q k t).1.length + k' = q.length + k ∧
      Forest order trees' (Machine.mergeLoop n q k t).2 k' (Machine.mergeLoop n q k t).1 := by
  induction n generalizing trees t k q with
  | zero => exact ⟨trees, k, rfl, h⟩
  | succ n ih =>
    unfold Machine.mergeLoop
    split
    · exact ⟨trees, k, rfl, h⟩
    · next x q₁ hx =>
      have hq := (extractMin_perm hx).length_eq
      split
      · exact ⟨trees, k, rfl, h⟩
      · next y q₂ hy =>
        have hq₁ := (extractMin_perm hy).length_eq
        simp only [List.length_cons] at hq hq₁
        obtain ⟨trees', k', hlen, hf⟩ := ih (h.merge (by omega) hx hy _) (by simp; omega)
        exact ⟨trees', k', by rw [hlen]; simp; omega, hf⟩

/-- What the builder makes of two or more symbols. -/
theorem buildTree_full {f : FreqTable} (hfits : freqSum f ≤ 0xFFFFFFFF) (h2 : 2 ≤ (leafOrder f).length) :
    ∃ sh : Shape, sh.full = true ∧ sh.leaves.Perm (leafOrder f) ∧
      sh.At (buildTree f).node 0 (2 * (leafOrder f).length - 1) (buildTree f).root ∧
        ∀ h : Handle, h ≠ nilHandle → 2 * (leafOrder f).length - 1 ≤ h.toNat → (buildTree f).node.of h = some Node.blank := by
  have hle := leafOrder_length_le f
  have hbelow : (handlesBelow (leafOrder f).length).length = (leafOrder f).length := by simp [handlesBelow]
  obtain ⟨trees, k, hlen, htree, hleaves, hfree⟩ := (Forest.leafArena f).mergeLoop (n := (leafOrder f).length) (by omega)
  have hone := (buildTree_merging hfits h2).length
  obtain ⟨r, hr⟩ := List.length_eq_one_iff.mp (show (mergedLeaves f).1.length = 1 by omega)
  rw [buildTree_of_two_le h2]
  rw [mergedLeaves] at hr ⊢
  rw [hr] at hlen htree hleaves ⊢
  obtain rfl : k = 2 * (leafOrder f).length - 1 := by simp at hlen; omega
  obtain ⟨hfull, hat⟩ := htree r (List.mem_singleton_self r)
  exact ⟨trees r, hfull, by simpa using hleaves, hat, hfree⟩

/-- The one symbol's tree: its leaf, the placeholder and the root that joins them. -/
theorem buildTree_of_one {f : FreqTable} {x : Byte} (h : leafOrder f = [x]) :
    (buildTree f).node.of 0 = some (leafNode f x) ∧ (buildTree f).node.of 1 = some placeholderNode ∧
      (buildTree f).node.of 2 = some (innerNode 0 1 (f.of x)) ∧
        ∀ z : Handle, z ≠ nilHandle → 2 < z.toNat → (buildTree f).node.of z = some Node.blank := by
  have h0 : (leafArena f).of 0 = some (leafNode f x) := leafArena_of (by simp [h])
  rw [buildTree_of_singleton h]
  refine ⟨?_, ?_, ?_, fun z hn hz => ?_⟩
  · rw [Arena.of_put_of_ne _ (by decide), Arena.of_put_of_ne _ (by decide), h0]
  · rw [Arena.of_put_of_ne _ (by decide), Arena.of_put, if_pos ⟨rfl, by decide⟩]
  · rw [Arena.of_put, if_pos ⟨rfl, by decide⟩]
  · rw [Arena.of_put_of_ne _ (fun e => by simp [e] at hz), Arena.of_put_of_ne _ (fun e => by simp [e] at hz)]
    exact (Forest.leafArena f).free z hn (by simp [h]; omega)

/-- The builder's tree is one HUFFCORE can hold (R28, R86). -/
theorem buildTree_treeOk {f : FreqTable} (hfits : freqSum f ≤ 0xFFFFFFFF) {s : State} (hs : s.tree = buildTree f) : TreeOk s := by
  intro _
  rw [hs]
  have halpha := buildTree_alpha f
  have hnodup := leafOrder_nodup f
  match h : leafOrder f with
  | [] => exact .inl (by rw [buildTree_of_nil h]; exact ⟨rfl, rfl⟩)
  | [x] =>
    obtain ⟨h0, h1, h2, -⟩ := buildTree_of_one h
    have hroot : (buildTree f).root = 2 := by rw [buildTree_of_singleton h]
    have hat : (Shape.inner (.leaf x) .placeholder).At (buildTree f).node 0 3 2 :=
      ⟨Nat.zero_le _, Nat.lt_succ_self 2, _, h2, rfl, ⟨Nat.zero_le _, Nat.zero_lt_succ 2, _, h0, rfl, rfl⟩, Nat.zero_le _,
        Nat.lt_add_of_pos_right (Nat.zero_lt_succ 1), _, h1, rfl⟩
    refine .inr ⟨by rw [hroot]; decide, .inner (.leaf x) .placeholder, ?_, rfl, List.nodup_singleton x, by rw [halpha, h]; rfl⟩
    rw [Tree.shape, hroot]
    exact hat.shapeAt (by simp [Shape.levels, maxLevels])
  | x :: y :: l =>
    have h2 : 2 ≤ (leafOrder f).length := by simp [h]
    have hle := leafOrder_length_le f
    obtain ⟨sh, hfull, hperm, hat, -⟩ := buildTree_full hfits h2
    have hroot := buildTree_root hfits h2
    have hlen := hperm.length_eq
    refine .inr ⟨fun e => ?_, sh, ?_, ?_, hperm.nodup_iff.mpr hnodup, by rw [halpha, hlen]⟩
    · rw [e] at hroot
      simp [nilHandle] at hroot
      omega
    · exact hat.shapeAt ((Shape.levels_le_of_full hfull).trans (by rw [hlen]; exact hle))
    · cases sh with
      | leaf z => simp [Shape.leaves] at hlen; omega
      | placeholder => cases hfull
      | inner l r => cases l <;> cases r <;> simp_all [Shape.legal, Shape.full]

end Sys2Proof.Machine
end

section
/-! PROOFS. The tree and its codes over every step (10_state.md R28 to R30, 40_frequency_tree.md R86, R87), and the result of `TREE_BUILD`
(40_frequency_tree.md R79). -/

namespace Sys2Proof.Machine

/-- Settles O26: A = 0 and A = 1 by the builder's own cases, A ≥ 2 by the forest of the merge loop. -/
theorem treeBuildTree : Obligations.TreeBuildTree := by
  refine ⟨fun s hover => exec_treeBuild_of_overflow hover, fun s hfits => ?_⟩
  intro present
  replace hfits : freqSum s.cnt.freq ≤ 0xFFFFFFFF := hfits
  have hperm : (leafOrder s.cnt.freq).Perm present := leafOrder_perm _
  have hlen := hperm.length_eq
  refine ⟨_, exec_treeBuild_of_fits hfits, rfl, ?_, rfl, ?_, ?_, fun hnil => ?_, fun x hx => ?_, fun h2 => ?_, fun h hn hone hz => ?_⟩
  · show (buildTree s.cnt.freq).tvalid = true
    simp only [buildTree]
    split <;> rfl
  · exact Nat.mod_eq_of_lt (by omega)
  · exact (buildTree_alpha _).trans hlen
  · rw [hnil, List.perm_nil] at hperm
    show (buildTree s.cnt.freq).root = 511
    rw [buildTree_of_nil hperm]
  · rw [hx, List.perm_singleton] at hperm
    obtain ⟨h0, h1, h2, -⟩ := buildTree_of_one hperm
    exact ⟨by show (buildTree s.cnt.freq).root = 2; rw [buildTree_of_singleton hperm], h0, h1, h2⟩
  · rw [← hlen] at h2 ⊢
    obtain ⟨sh, hfull, hleaves, hat, -⟩ := buildTree_full hfits h2
    refine ⟨buildTree_root hfits h2, sh, hat.shapeAt ?_, hfull, hleaves.trans hperm⟩
    exact (Shape.levels_le_of_full hfull).trans (hleaves.length_eq ▸ leafOrder_length_le _)
  · rw [← hlen] at hone hz
    show (buildTree s.cnt.freq).node.of h = some Node.blank
    match horder : leafOrder s.cnt.freq with
    | [] =>
      rw [buildTree_of_nil horder]
      exact (Forest.leafArena _).free h hn (by simp [horder])
    | [x] => exact (buildTree_of_one horder).2.2.2 h hn (hone (by simp [horder]))
    | x :: y :: l =>
      obtain ⟨-, -, -, -, hfree⟩ := buildTree_full hfits (by simp [horder])
      exact hfree h hn hz

/-! ### Every step -/

/-- Both invariants. -/
def TreeAndCodesOk (s : State) : Prop := TreeOk s ∧ CodesOk s

theorem TreeAndCodesOk.of_eq {s t : State} (h : TreeAndCodesOk s) (htree : t.tree = s.tree) (hcodes : t.codes = s.codes) :
    TreeAndCodesOk t := by
  unfold TreeAndCodesOk TreeOk CodesOk
  rw [htree, hcodes]
  exact h

theorem TreeAndCodesOk.of_data {s t : State} (h : TreeAndCodesOk s) (hk : DataKeeps s t) : TreeAndCodesOk t :=
  h.of_eq hk.2.2.1 hk.2.2.2

/-- With neither valid there is nothing to hold. -/
theorem TreeAndCodesOk.of_invalid {t : State} (htree : t.tree.tvalid = false) (hcodes : t.codes.cvalid = false) : TreeAndCodesOk t :=
  ⟨fun h => absurd (htree.symm.trans h) (by decide), fun h => absurd (hcodes.symm.trans h) (by decide)⟩

theorem TreeAndCodesOk.of_tree {t : State} (htree : TreeOk t) (hcodes : t.codes.cvalid = false) : TreeAndCodesOk t :=
  ⟨htree, fun h => absurd (hcodes.symm.trans h) (by decide)⟩

theorem Counts.invalid {s t : State} {k : Nat} (h : Counts s.invalidate t k) : TreeAndCodesOk t := by
  obtain ⟨f, rfl⟩ := h
  exact .of_invalid rfl rfl

/-- The tree that the parse has built is one HUFFCORE can hold. -/
theorem ParsedRoot.treeOk {s t : State} {sh : Shape} {hp : Handle × Parse} (h : ParsedRoot s sh hp t) :
    TreeOk (t.setTree hp.1 hp.2.seen.length) := by
  have hlen := length_le_of_nodup h.nodup
  refine fun _ => .inr ⟨fun e => absurd (h.root.symm.trans e) (by decide), sh, ?_, h.legal, h.nodup, ?_⟩
  · rw [State.setTree_tree, h.root]
    exact h.at_root.shapeAt (Shape.levels_le_of_legal h.legal h.nodup)
  · show (BitVec.ofNat 9 hp.2.seen.length).toNat = _
    rw [h.seen, handle_toNat (by omega)]

/-- The parse keeps the code table invalid, and when it goes on it has set a legal tree. -/
theorem parseTree_treeOk {s : State} (hv : s.tree.tvalid = false) (hc : s.codes.cvalid = false) :
    (parseTree s).Post (fun _ => TreeAndCodesOk) (fun _ => TreeAndCodesOk) (fun _ _ => TreeAndCodesOk) := by
  have hkept {t : State} (ht : ParseKeeps s t) : t.tree.tvalid = false ∧ t.codes.cvalid = false := by
    rw [ht.tree, ht.codes]
    exact ⟨hv, hc⟩
  have hroot : (parseRoot s).Post (fun hp t => ∃ sh, ParsedRoot s sh hp t) (fun _ _ => True) (fun _ _ _ => True) :=
    Flow.Post.mono (parseRoot_takes s) (fun _ _ ⟨_, _, sh, _, h⟩ => ⟨sh, h⟩) (fun _ _ _ => trivial) fun _ _ _ _ => trivial
  have htree : (parseTree s).Post (fun _ => TreeOk) (fun _ _ => True) (fun _ _ _ => True) := by
    rw [parseTree_eq]
    exact hroot.bind fun hp t ⟨sh, h⟩ => h.treeOk
  refine ((parseTree_post s).and htree).mono (fun _ t ht => ?_) (fun e t ht => ?_) fun f w t ht => ?_
  · obtain ⟨⟨u, r, a, hu, rfl⟩, ht⟩ := ht
    exact .of_tree ht (hkept hu).2
  · obtain ⟨⟨-, ht⟩, -⟩ := ht
    exact .of_invalid (hkept ht).1 (hkept ht).2
  · obtain ⟨⟨-, ht, -⟩, -⟩ := ht
    exact .of_invalid (hkept ht).1 (hkept ht).2

theorem exec_tDeserialize_treeOk {s t : State} (h : TreeAndCodesOk s) (ht : exec .tDeserialize s = .next t) : TreeAndCodesOk t := by
  by_cases hm : s.ch.mode = .read
  · rw [exec_tDeserialize_of_read hm] at ht
    split at ht
    · cases ht
      exact .of_tree (fun _ => .inl ⟨rfl, rfl⟩) rfl
    split at ht
    · cases ht
      exact .of_invalid rfl rfl
    · rcases (parseTree_treeOk (s := s.clearTree) rfl rfl).complete ht with ⟨u, hu, rfl⟩ | ⟨e, u, hu, rfl⟩ | ⟨f, w, u, hu, rfl⟩
      · exact TreeAndCodesOk.of_eq hu rfl rfl
      · exact TreeAndCodesOk.of_eq hu rfl rfl
      · exact TreeAndCodesOk.of_eq hu rfl rfl
  · cases (exec_of_wrong_mode rfl hm).symm.trans ht
    exact h.of_eq rfl rfl

theorem exec_freqCount_treeOk {s t : State} (h : TreeAndCodesOk s) (ht : exec .freqCount s = .next t) : TreeAndCodesOk t := by
  obtain ⟨u, hu, he⟩ := (runs_freqCount s).ended ht (P := TreeAndCodesOk) (fun u hu => hu.invalid) (fun e u ⟨_, k, hu⟩ => hu.invalid)
    fun f w u hu => by
      rcases hu with hu | ⟨rfl, k, -, hu, -⟩
      · exact ⟨(hu.frame (i := .freqCount)).1, hu.2 ▸ h⟩
      · exact ⟨by decide, hu.invalid⟩
  rw [he.eq]
  exact hu.of_eq rfl rfl

theorem exec_treeBuild_treeOk {s t : State} (ht : exec .treeBuild s = .next t) : TreeAndCodesOk t := by
  rcases le_or_gt (freqSum s.cnt.freq) 0xFFFFFFFF with hfits | hover
  · cases (exec_treeBuild_of_fits hfits).symm.trans ht
    exact .of_tree (buildTree_treeOk hfits rfl) rfl
  · cases (exec_treeBuild_of_overflow hover).symm.trans ht
    exact .of_invalid rfl rfl

theorem exec_codesBuild_treeOk {s t : State} (h : TreeAndCodesOk s) (ht : exec .codesBuild s = .next t) : TreeAndCodesOk t := by
  obtain ⟨u, hu, he⟩ := (runs_codesBuild s).ended ht (P := TreeAndCodesOk)
    (fun u ⟨hv, e, tb, hcodes, hu⟩ => by rw [hu]; exact ⟨h.1, fun _ => ⟨hv, tb, hcodes, rfl⟩⟩) (fun _ _ => False.elim)
    fun f w u hu => ⟨(hu.frame (i := .codesBuild)).1, hu.2 ▸ h⟩
  rw [he.eq]
  exact hu.of_eq rfl rfl

/-- Every command keeps the tree and its codes. -/
theorem exec_treeAndCodesOk {i : Instr} {s t : State} (h : TreeAndCodesOk s) (ht : exec i s = .next t) : TreeAndCodesOk t := by
  obtain ⟨u, ⟨-, hframe⟩, he⟩ := exec_frame ht
  have hend (hu : TreeAndCodesOk u) : TreeAndCodesOk t := by
    rw [he.eq]
    exact hu.of_eq rfl rfl
  cases i with
  | freqClear =>
    cases (exec_freqClear s).symm.trans ht
    exact .of_invalid rfl rfl
  | freqCount => exact exec_freqCount_treeOk h ht
  | treeBuild => exact exec_treeBuild_treeOk ht
  | codesBuild => exact exec_codesBuild_treeOk h ht
  | tDeserialize => exact exec_tDeserialize_treeOk h ht
  | wOpen => exact hend (h.of_data hframe.1)
  | wBits n => exact hend (h.of_data hframe.1.data)
  | wMagic => exact hend (h.of_data hframe.1.data)
  | wClose => exact hend (h.of_data hframe.1)
  | rOpen => exact hend (h.of_data hframe.1)
  | rBits n =>
    obtain ⟨-, -, htree, hcodes, -⟩ := hframe
    exact hend (h.of_eq htree hcodes)
  | rMagic => exact hend (h.of_data hframe.1)
  | rClose => exact hend (h.of_data hframe.1)
  | tSerialize => exact hend (h.of_data hframe.1.data)
  | sEncode => exact hend (h.of_data hframe.1.data)
  | sDecode =>
    obtain ⟨-, -, htree, hcodes, -⟩ := hframe
    exact hend (h.of_eq htree hcodes)

/-- Settles O59: a command by what it builds or by its frame, a write to `FREQ_DATA` and a reset by leaving neither valid. -/
theorem stepKeepsTreeAndCodes : Obligations.StepKeepsTreeAndCodes := by
  intro s t htree hcodes ht
  have hs : TreeAndCodesOk s.dropTurn := TreeAndCodesOk.of_eq ⟨htree, hcodes⟩ rfl rfl
  cases step_effect ht with
  | reset => exact TreeAndCodesOk.of_invalid rfl rfl
  | freqData v => exact TreeAndCodesOk.of_invalid rfl rfl
  | command i t _ _ _ h => exact exec_treeAndCodesOk hs h
  | env e => exact hs.of_eq rfl rfl
  | regs r d => exact hs.of_eq rfl rfl
  | fault f w => exact hs.of_eq rfl rfl
  | issue w => exact hs.of_eq rfl rfl
  | store a v => exact hs.of_eq rfl rfl

end Sys2Proof.Machine
end

section
/-! PROOFS. The codes of a valid tree (40_frequency_tree.md R82 to R86): the table `CODES_BUILD` makes, its costs, and the decoder's. -/

namespace Sys2Proof.Machine

/-! ### The table of a tree -/

/-- The entry of a symbol whose path is `p`. -/
def Code.ofPath : Option (List Bool) → Code
  | some p => .ofString p
  | none => .blank

theorem codesOfTree_pathOf {s : State} (h : TreeOk s) (hv : s.tree.tvalid = true) :
    ∃ e, codesOfTree s.tree.node s.tree.root = .ok (e, s.tree.cost) ∧ ∀ x, e.of x = Code.ofPath (s.tree.pathOf x) := by
  rcases h hv with ⟨hroot, -⟩ | ⟨hroot, sh, hsh, -, hd, -⟩
  · exact ⟨_, by rw [codesOfTree, if_pos hroot, Tree.cost, if_pos hroot], fun x => by
      rw [CodeTable.of_blank, Tree.pathOf, if_pos hroot]; rfl⟩
  · have hcost : s.tree.cost = sh.cost := by simp only [Tree.cost, if_neg hroot, hsh]
    refine ⟨_, by rw [codesOfTree_of_shape hroot hsh, hcost], fun x => ?_⟩
    rw [Shape.of_writeCodes sh hd, Tree.pathOf_of_shape hroot hsh, CodeTable.of_blank]
    cases sh.path x <;> rfl

theorem Tree.pathOf_length_le {s : State} (h : TreeOk s) (hv : s.tree.tvalid = true) {x : Byte} {p : List Bool}
    (hp : s.tree.pathOf x = some p) : p.length ≤ 255 := by
  rcases h hv with ⟨hroot, -⟩ | ⟨hroot, sh, hsh, -⟩
  · simp [Tree.pathOf, hroot] at hp
  · rw [Tree.pathOf_of_shape hroot hsh] at hp
    exact Nat.le_of_lt_succ (shapeAt_path_lt hsh hp)

theorem Tree.pathOf_ne_nil {s : State} (h : TreeOk s) (hv : s.tree.tvalid = true) (x : Byte) : s.tree.pathOf x ≠ some [] := by
  rcases h hv with ⟨hroot, -⟩ | ⟨hroot, sh, hsh, hlegal, -⟩
  · simp [Tree.pathOf, hroot]
  · rw [Tree.pathOf_of_shape hroot hsh]
    obtain ⟨y, rfl⟩ | ⟨-, l, r, rfl⟩ := Shape.legal_cases hlegal <;> exact Shape.path_inner_ne_nil _ _ x

theorem Tree.pathOf_prefix_free {s : State} (h : TreeOk s) (hv : s.tree.tvalid = true) {x y : Byte} {p q : List Bool}
    (hx : s.tree.pathOf x = some p) (hy : s.tree.pathOf y = some q) (hpq : p <+: q) : x = y := by
  rcases h hv with ⟨hroot, -⟩ | ⟨hroot, sh, hsh, -⟩
  · simp [Tree.pathOf, hroot] at hx
  · rw [Tree.pathOf_of_shape hroot hsh] at hx hy
    exact sh.path_prefix_free hx hy hpq

/-! ### Costs (R82, R83) -/

theorem Shape.cost_of_full {sh : Shape} (h : sh.full = true) : sh.cost + 1 = 10 * sh.leaves.length := by
  induction sh with
  | leaf y => rfl
  | placeholder => cases h
  | inner l r ihl ihr =>
    simp only [Shape.full, Bool.and_eq_true] at h
    have := ihl h.1
    have := ihr h.2
    simp only [Shape.cost, Shape.leaves, List.length_append]
    omega

theorem Shape.cost_le_of_legal {sh : Shape} (h : sh.legal = true) (hd : sh.leaves.Nodup) : sh.cost ≤ 2560 := by
  have hlen := length_le_of_nodup hd
  obtain ⟨y, rfl⟩ | ⟨hf, -⟩ := Shape.legal_cases h
  · simp [Shape.cost]
  · have := Shape.cost_of_full hf
    omega

theorem Tree.cost_le {s : State} (h : TreeOk s) (hv : s.tree.tvalid = true) : s.tree.cost ≤ 2560 := by
  unfold Tree.cost
  rcases h hv with ⟨hroot, -⟩ | ⟨hroot, sh, hsh, hlegal, hd, -⟩
  · simp [hroot]
  · simp only [if_neg hroot, hsh]
    exact Shape.cost_le_of_legal hlegal hd

theorem Tree.form_length {s : State} (h : TreeOk s) (hv : s.tree.tvalid = true) : s.tree.form.length = s.tree.cost := by
  unfold Tree.form Tree.cost
  rcases h hv with ⟨hroot, -⟩ | ⟨hroot, sh, hsh, -⟩
  · simp [hroot]
  · simp only [if_neg hroot, hsh, Shape.bits_length]

theorem dataCost_eq {s : State} (h : TreeOk s) (hv : s.tree.tvalid = true) (f : FreqTable) {e : CodeTable}
    (he : ∀ x, e.of x = Code.ofPath (s.tree.pathOf x)) : dataCost f e = s.tree.dataBits f := by
  unfold dataCost Tree.dataBits
  refine congrArg List.sum (List.map_congr_left fun x _ => ?_)
  rw [he]
  cases hp : s.tree.pathOf x with
  | none => rfl
  | some p =>
    show (if (Code.ofString p).valid then (f.of x).toNat * (Code.ofString p).len.toNat else 0) = _
    rw [Code.ofString_len p (Tree.pathOf_length_le h hv hp), Code.ofString_valid, if_pos rfl]

/-- 256 counters of 32 bits, codes of at most 255 bits. -/
theorem Tree.dataBits_le {s : State} (h : TreeOk s) (hv : s.tree.tvalid = true) (f : FreqTable) :
    s.tree.dataBits f ≤ 256 * (2 ^ 32 * 255) := by
  have hsum := List.sum_le_card_nsmul (symbols.map fun x => match s.tree.pathOf x with
    | some p => (f.of x).toNat * p.length
    | none => 0) (2 ^ 32 * 255) fun n hn => by
      obtain ⟨x, -, rfl⟩ := List.mem_map.mp hn
      cases hp : s.tree.pathOf x with
      | none => exact Nat.zero_le _
      | some p => exact Nat.mul_le_mul (f.of x).isLt.le (Tree.pathOf_length_le h hv hp)
  have hlen : symbols.length = 256 := by simp [symbols]
  rw [List.length_map, hlen, smul_eq_mul] at hsum
  exact hsum

/-- The bits behind a code in its entry are 0 (10_state.md R30). -/
theorem Code.ofString_getMsbD {p : List Bool} {k : Nat} (hp : p.length ≤ 255) (hk : p.length ≤ k) :
    (Code.ofString p).bits.getMsbD k = false := by
  rw [Code.ofString, BitVec.getMsbD_eq_getLsbD, BitVec.getLsbD_ofNat, Nat.mul_comm, Nat.testBit_two_pow_mul]
  by_cases h : k < 256
  · simp [show ¬256 - p.length ≤ 256 - 1 - k by omega]
  · simp [h]

theorem exec_codesBuild {s : State} (hv : s.tree.tvalid = true) {e : CodeTable} {tb : Nat}
    (he : codesOfTree s.tree.node s.tree.root = .ok (e, tb)) :
    exec .codesBuild s = .next ({ s with codes := codeRegs s.cnt.freq s.cnt.total e tb } : State).finish := by
  show execCodesBuild s = _
  rw [execCodesBuild, requireTree_ok hv, Flow.bind_ok, he]
  rfl

/-- Settles O27: the table is the tree's paths, and no register of the costs is too narrow for them. -/
theorem codesBuildResult : Obligations.CodesBuildResult := by
  intro s hv htree tb db
  obtain ⟨e, he, hof⟩ := codesOfTree_pathOf htree hv
  have htb : tb ≤ 2560 := Tree.cost_le htree hv
  have hdb : db ≤ 256 * (2 ^ 32 * 255) := Tree.dataBits_le htree hv _
  have hcost : dataCost s.cnt.freq e = db := dataCost_eq htree hv _ hof
  have hpad : padOf (tb + db) < 8 := Nat.mod_lt _ (by decide)
  have hproj : (BitVec.ofNat 64 (24 + tb + db + padOf (tb + db))).toNat = 24 + tb + db + padOf (tb + db) :=
    Nat.mod_eq_of_lt (by omega)
  have hwpad : (BitVec.ofNat 3 (padOf (tb + db))).toNat = padOf (tb + db) := Nat.mod_eq_of_lt hpad
  refine ⟨_, exec_codesBuild hv he, rfl, rfl, fun x => ?_, ?_, Tree.form_length htree hv, ?_, ?_, ?_, ?_⟩
  · show match s.tree.pathOf x with
      | some p => (e.of x).valid = true ∧ (e.of x).len.toNat = p.length ∧ (e.of x).string = p ∧
          ∀ k, p.length ≤ k → (e.of x).bits.getMsbD k = false
      | none => e.of x = ⟨false, 0, 0⟩
    rw [hof]
    cases hp : s.tree.pathOf x with
    | none => rfl
    | some p =>
      have hle := Tree.pathOf_length_le htree hv hp
      exact ⟨rfl, Code.ofString_len p hle, Code.string_ofString p hle, fun k hk => Code.ofString_getMsbD hle hk⟩
  · exact Nat.mod_eq_of_lt (by omega)
  · show (BitVec.ofNat 64 (dataCost s.cnt.freq e)).toNat = db
    rw [hcost]
    exact Nat.mod_eq_of_lt (by omega)
  · show (BitVec.ofNat 3 (padOf (tb + dataCost s.cnt.freq e))).toNat = _
    rw [hcost, hwpad]
    rfl
  · show (BitVec.ofNat 64 (24 + tb + dataCost s.cnt.freq e + padOf (tb + dataCost s.cnt.freq e))).toNat =
      24 + tb + db + (BitVec.ofNat 3 (padOf (tb + dataCost s.cnt.freq e))).toNat
    rw [hcost, hwpad, hproj]
  · show decide (24 + tb + dataCost s.cnt.freq e + padOf (tb + dataCost s.cnt.freq e) < 8 * s.cnt.total.toNat) = true ↔
      (BitVec.ofNat 64 (24 + tb + dataCost s.cnt.freq e + padOf (tb + dataCost s.cnt.freq e))).toNat < 8 * s.cnt.total.toNat
    rw [hcost, hproj, decide_eq_true_iff]

/-! ### Codes while `CVALID = 1` -/

section
variable {s : State}

/-- The paths of the current tree are the codes. -/
theorem CodesOk.pathOf (hc : CodesOk s) (ht : TreeOk s) (hv : s.codes.cvalid = true) {x : Byte} (hx : (s.codes.enc.of x).valid = true) :
    s.tree.pathOf x = some (s.codes.enc.of x).string := (hc.code_iff_pathOf ht hv x _).mp ⟨hx, rfl⟩

theorem CodesOk.string_ne_nil (hc : CodesOk s) (ht : TreeOk s) (hv : s.codes.cvalid = true) {x : Byte}
    (hx : (s.codes.enc.of x).valid = true) : (s.codes.enc.of x).string ≠ [] :=
  fun e => Tree.pathOf_ne_nil ht (hc hv).1 x (e ▸ hc.pathOf ht hv hx)

theorem CodesOk.prefix_free (hc : CodesOk s) (ht : TreeOk s) (hv : s.codes.cvalid = true) {x y : Byte}
    (hx : (s.codes.enc.of x).valid = true) (hy : (s.codes.enc.of y).valid = true)
    (h : (s.codes.enc.of x).string <+: (s.codes.enc.of y).string) : x = y :=
  Tree.pathOf_prefix_free ht (hc hv).1 (hc.pathOf ht hv hx) (hc.pathOf ht hv hy) h

/-- The decoder's table inverts the codes (10_state.md R31). -/
theorem CodesOk.decodeTable_eq_some_iff (hc : CodesOk s) (ht : TreeOk s) (hv : s.codes.cvalid = true) {w : List Bool} {x : Byte} :
    decodeTable s.codes.enc w = some x ↔ (s.codes.enc.of x).valid = true ∧ (s.codes.enc.of x).string = w := by
  refine ⟨code_of_decodeTable, fun ⟨hx, hw⟩ => ?_⟩
  cases hy : decodeTable s.codes.enc w with
  | none => exact absurd ⟨hx, hw⟩ (decodeTable_eq_none_iff.mp hy x)
  | some y =>
    obtain ⟨hyv, hyw⟩ := code_of_decodeTable hy
    rw [hc.prefix_free ht hv hyv hx (by rw [hyw, hw])]

end

/-- Settles O28: the codes are the paths of a tree's leaves. -/
theorem codesArePrefixFree : Obligations.CodesArePrefixFree := by
  intro s ht hc hv
  refine ⟨fun x y hx hy => ⟨?_, fun hne h => hne (hc.prefix_free ht hv hx hy h)⟩, fun w x => hc.decodeTable_eq_some_iff ht hv⟩
  rw [← Code.string_length]
  exact List.length_pos_of_ne_nil (hc.string_ne_nil ht hv hx)

end Sys2Proof.Machine
end

section
/-! PROOFS. `FREQ_COUNT` byte by byte (40_frequency_tree.md R76). -/

namespace Sys2Proof.Machine

/-! ### Bytes of memory -/

theorem bytesAt_succ (m : Memory) (a n : Nat) : bytesAt m a (n + 1) = m.read a :: bytesAt m (a + 1) n := by
  simp only [bytesAt, List.range_succ_eq_map, List.map_cons, List.map_map]
  refine congrArg₂ _ rfl (List.map_congr_left fun i _ => ?_)
  simp [Nat.add_comm, Nat.add_left_comm]

@[simp] theorem bytesAt_zero (m : Memory) (a : Nat) : bytesAt m a 0 = [] := rfl

@[simp] theorem bytesAt_length (m : Memory) (a n : Nat) : (bytesAt m a n).length = n := by simp [bytesAt]

theorem bytesAt_congr {m m' : Memory} {a n : Nat} (h : ∀ i < n, m'.read (a + i) = m.read (a + i)) : bytesAt m' a n = bytesAt m a n :=
  List.map_congr_left fun i hi => h i (List.mem_range.mp hi)

/-! ### The counting loop -/

/-- The loop over the first `k` bytes, then over the rest. -/
theorem countBytes_add (k n a : Nat) (s : State) :
    countBytes (k + n) a s = (countBytes k a s).bind fun _ t => countBytes n (a + k) t := by
  induction k generalizing a s with
  | zero => simp [countBytes]
  | succ k ih =>
    rw [show k + 1 + n = k + n + 1 by omega, countBytes, countBytes, Flow.bind_assoc]
    congr 1
    funext b t
    split
    · rfl
    · rw [ih, show a + 1 + k = a + (k + 1) by omega]

theorem State.after_drawNext {s : State} {k : Nat} (h : s.env.completes (k + 1) = true) : s.drawNext.env.completes k = true := by
  rw [State.drawNext_env_after]
  rw [Nat.add_comm, Env.completes_add] at h
  exact h.2

theorem FreqTable.toNat_put_succ {f : FreqTable} {b : Byte} (h : (f.of b).toNat + 1 ≤ 0xFFFFFFFF) (x : Byte) :
    ((f.put b (f.of b + 1)).of x).toNat = (f.of x).toNat + if x = b then 1 else 0 := by
  rw [FreqTable.of_put]
  split
  · next hx =>
    subst hx
    show ((f.of x).toNat + 1) % 2 ^ 32 = _
    omega
  · rfl

/-- With a bus that completes and counters that do not overflow, each counter gains its symbol's occurrences. -/
theorem countBytes_counts {n a : Nat} {s : State} (ha : a + n ≤ 2 ^ 32) (hd : s.env.completes n = true)
    (hfit : ∀ x, (s.cnt.freq.of x).toNat + (bytesAt s.mem a n).count x ≤ 0xFFFFFFFF) :
    ∃ t, countBytes n a s = .ok () t ∧ Counts s t n ∧
      ∀ x, (t.cnt.freq.of x).toNat = (s.cnt.freq.of x).toNat + (bytesAt s.mem a n).count x := by
  induction n generalizing a s with
  | zero => exact ⟨s, rfl, ⟨s.cnt.freq, by simp⟩, fun x => by simp⟩
  | succ n ih =>
    have hcount (x : Byte) : (bytesAt s.mem a (n + 1)).count x = (bytesAt s.mem (a + 1) n).count x + if x = s.mem.read a then 1 else 0 := by
      rw [bytesAt_succ, List.count_cons]
      congr 2
      rw [beq_iff_eq, eq_comm (a := x)]
    simp only [hcount] at hfit ⊢
    have hb := hfit (s.mem.read a)
    rw [if_pos rfl] at hb
    have hput := FreqTable.toNat_put_succ (f := s.cnt.freq) (b := s.mem.read a) (by omega)
    have hne : ¬s.drawNext.cnt.freq.of (s.mem.read a) = 0xFFFFFFFF := fun e => by
      rw [State.drawNext_cnt] at e
      rw [e] at hb
      simp at hb
    obtain ⟨t, ht, hc, hf⟩ := ih (a := a + 1) (s := s.drawNext.setFreq (s.mem.read a) (s.cnt.freq.of (s.mem.read a) + 1)) (by omega)
      (State.after_drawNext hd) fun x => by
        have := hfit x
        have := hput x
        simp only [State.setFreq_cnt, State.drawNext_cnt, State.setFreq_mem, State.drawNext_mem]
        omega
    refine ⟨t, ?_, ?_, fun x => ?_⟩
    · rw [countBytes, memRead_ok (by omega) (Env.completes_mono hd (by omega)), Flow.bind_ok, if_neg hne]
      exact ht
    · have h1 : Counts s (s.drawNext.setFreq (s.mem.read a) (s.cnt.freq.of (s.mem.read a) + 1)) 1 :=
        ⟨_, by rw [← State.drawNext_env_after]; rfl⟩
      rw [Nat.add_comm]
      exact h1.trans hc
    · have := hput x
      rw [hf x]
      simp only [State.setFreq_cnt, State.drawNext_cnt, State.setFreq_mem, State.drawNext_mem]
      omega

theorem exec_freqCount {s : State} (h : s.regs.ibase.toNat + s.regs.ilen.toNat ≤ 2 ^ 32) :
    exec .freqCount s = (countBytes s.regs.ilen.toNat s.regs.ibase.toNat s.invalidate).complete := by
  show execFreqCount s = _
  rw [execFreqCount, requireRegion_ok (regionOK_iff.mpr h)]
  rfl

theorem Counts.keeps {s t : State} {k : Nat} (h : Counts s.invalidate t k) :
    t.cmd = s.cmd ∧ t.tree.tvalid = false ∧ t.codes.cvalid = false ∧ t.env = s.env.after k ∧ t.mem = s.mem := by
  obtain ⟨f, rfl⟩ := h
  exact ⟨rfl, rfl, rfl, rfl, rfl⟩

/-- Settles O22. -/
theorem freqCountResult : Obligations.FreqCountResult := by
  intro s hreg hd msg hfit
  obtain ⟨t, ht, hc, hf⟩ := countBytes_counts (s := s.invalidate) hreg hd hfit
  obtain ⟨hcmd, htree, hcodes, henv, -⟩ := hc.keeps
  refine ⟨t.finish, by rw [exec_freqCount hreg, ht]; rfl, hf, htree, hcodes, ?_, ?_⟩
  · rw [State.finish_cmd, hcmd]
  · rw [State.finish_env, henv]
    rfl

/-- Settles O23: the loop over the bytes before the `k`-th, then its first step behind them. -/
theorem freqCountStops : Obligations.FreqCountStops := by
  intro s k hreg hk hd msg b hfit
  obtain ⟨t, ht, hc, hf⟩ := countBytes_counts (n := k) (s := s.invalidate) (by omega) hd hfit
  obtain ⟨hcmd, htree, hcodes, henv, hmem⟩ := hc.keeps
  obtain ⟨m, hm⟩ : ∃ m, s.regs.ilen.toNat = k + (m + 1) := ⟨s.regs.ilen.toNat - k - 1, by omega⟩
  have hexec : exec .freqCount s = (countBytes (m + 1) (s.regs.ibase.toNat + k) t).complete := by
    rw [exec_freqCount hreg, hm, countBytes_add, ht]
    rfl
  have ha : s.regs.ibase.toNat + k < 2 ^ 32 := by omega
  have hdraw : t.drawOk = s.env.drawAt k := by rw [State.drawOk_eq, henv, Env.after_drawAt, Nat.add_zero]
  refine ⟨fun hfails => ?_, fun hok hfull => ?_⟩
  · rw [countBytes, memRead_fails ha (hdraw.trans hfails)] at hexec
    exact ⟨_, hexec, rfl, rfl, Nat.mod_eq_of_lt ha, htree, hcodes, hf⟩
  · have hread : memRead (s.regs.ibase.toNat + k) t = .ok b t.drawNext := by
      rw [memRead_ok ha (by simpa [Env.completes_iff, ← State.drawOk_eq, hdraw] using hok), hmem]
    have hmax : t.drawNext.cnt.freq.of b = 0xFFFFFFFF := BitVec.eq_of_toNat_eq ((hf b).trans hfull)
    rw [countBytes, hread, Flow.bind_ok, if_pos hmax] at hexec
    refine ⟨_, hexec, rfl, rfl, ?_, htree, hcodes, hf⟩
    show t.cmd.fault = s.cmd.fault
    rw [hcmd]

end Sys2Proof.Machine
end

section
/-! PROOFS. Runs of the writer's pieces when the bus completes and there is room (20_memory.md R54, R55, 42_bitchannel.md R97): the input loop
of `S_ENCODE`, the pad commit and the header writes. -/

namespace Sys2Proof.Machine

/-! ### Runs between reads -/

/-- The state `k` completed accesses later, nothing else changed. -/
def State.advance (s : State) (k : Nat) : State := { s with env := s.env.after k }

theorem State.drawNext_eq_advance (s : State) : s.drawNext = s.advance 1 := by
  unfold State.advance
  rw [← State.drawNext_env_after]
  rfl

@[simp] theorem State.advance_zero (s : State) : s.advance 0 = s := by simp [State.advance]

theorem State.advance_advance (s : State) (j k : Nat) : (s.advance j).advance k = s.advance (j + k) := by simp [State.advance]

section
variable {s t u : State} {p q : List Bool}

/-- Reads made before a run of `WriteBit`s or after it come to the same. -/
theorem Appends.advance (h : Appends s t p) (k : Nat) : Appends (s.advance k) (t.advance k) p := by
  obtain ⟨hk, hw, hbn, hT, he, hwf, hwritten, hread⟩ := h
  refine ⟨hk, hw, hbn, hT, ?_, hwf, hwritten, hread⟩
  show t.env.after k = (s.env.after k).after (s.ch.commits p.length)
  rw [he, Env.after_after, Env.after_after, Nat.add_comm]

theorem Appends.commits_add (h : Appends s t p) (n : Nat) : s.ch.commits p.length + t.ch.commits n = s.ch.commits (p.length + n) := by
  obtain ⟨-, -, hbn, -⟩ := h
  simp only [Channel.commits, hbn]
  omega

theorem Appends.room (h : Appends s t p) (hs : WriterOk s) {n : Nat} (hr : s.ch.room (p.length + n)) : t.ch.room n := by
  have hadd := h.commits_add n
  obtain ⟨hk, -, hbn, hT, -⟩ := h
  obtain ⟨-, h8, -⟩ := hs
  have hllen : t.ch.llen = s.ch.llen := hk.2.2.2.1
  unfold Channel.room at hr ⊢
  rw [hllen, hT]
  omega

theorem Appends.bn_le (h : Appends s t p) : t.ch.bn.toNat ≤ 7 := by
  have := h.2.2.1
  omega

theorem Appends.refl_of {s : State} (hw : WriterOk s) (hf : s.cmd.fault = false) (hm : s.mem.wf = true) : Appends s s [] :=
  .refl hw (hw.bn_le hf) hm

theorem room_mono {c : Channel} {m n : Nat} (h : c.room n) (hmn : m ≤ n) : c.room m := by
  unfold Channel.room Channel.commits at *
  omega

/-- A run of `WriteBit`s, in the terms of the command's own state. -/
theorem writeString_appends_of (hw : WriterOk s) (hf : s.cmd.fault = false) (hm : s.mem.wf = true) (hr : s.ch.room p.length)
    (hd : s.env.completes (s.ch.commits p.length) = true) : ∃ t, writeString p s = .ok () t ∧ Appends s t p :=
  writeString_appends p s hw (hw.bn_le hf) hm hr hd

end

/-! ### The input loop of `S_ENCODE` (43_stream_codec.md R106) -/

theorem encodeBytes_add (k n a : Nat) (s : State) :
    encodeBytes (k + n) a s = (encodeBytes k a s).bind fun _ t => encodeBytes n (a + k) t := by
  induction k generalizing a s with
  | zero => simp [encodeBytes]
  | succ k ih =>
    rw [show k + 1 + n = k + n + 1 by omega, encodeBytes, encodeBytes, Flow.bind_assoc]
    congr 1
    funext b t
    split
    · rw [Flow.bind_assoc]
      congr 1
      funext _ u
      rw [ih, show a + 1 + k = a + (k + 1) by omega]
    · rfl

theorem codeString_cons (e : CodeTable) (b : Byte) (msg : List Byte) : codeString e (b :: msg) = (e.of b).string ++ codeString e msg := rfl

/-- The bytes from `a` to `a + n` lie outside the stream region. -/
def ApartFrom (s : State) (a n : Nat) : Prop := a + n ≤ s.ch.lbase.toNat ∨ s.ch.lbase.toNat + s.ch.llen.toNat ≤ a

theorem apartFrom_of_overlaps {s : State} {base len : Word} (h : overlaps base len s.ch.lbase s.ch.llen = false) (hl : 0 < s.ch.llen.toNat) :
    ApartFrom s base.toNat len.toNat ∨ len.toNat = 0 := by
  simp only [overlaps, Bool.and_eq_false_iff, decide_eq_false_iff_not] at h
  unfold ApartFrom
  omega

/-- A run of the writer leaves the bytes outside its region. -/
theorem Appends.read_apart {s t : State} {p : List Bool} (h : Appends s t p) (hs : WriterOk s) {a n i : Nat} (ha : ApartFrom s a n)
    (hi : i < n) : t.mem.read (a + i) = s.mem.read (a + i) := by
  obtain ⟨hk, hw, -, -, -, -, -, hread⟩ := h
  have hle := hw.pos_lt
  rw [hk.2.2.1, hk.2.2.2.1] at hle
  obtain ⟨-, -, hpos, -⟩ := hs
  unfold ApartFrom at ha
  exact hread _ (by omega)

/-- With a code for every byte, the loop appends them all. -/
theorem encodeBytes_appends {n a : Nat} {s : State} (ha : a + n ≤ 2 ^ 32) (hw : WriterOk s) (hbn : s.ch.bn.toNat ≤ 7) (hm : s.mem.wf = true)
    (hapart : ApartFrom s a n) (hcodes : ∀ y ∈ bytesAt s.mem a n, (s.codes.enc.of y).valid = true)
    (hr : s.ch.room (codeString s.codes.enc (bytesAt s.mem a n)).length)
    (hd : s.env.completes (n + s.ch.commits (codeString s.codes.enc (bytesAt s.mem a n)).length) = true) :
    ∃ t, encodeBytes n a s = .ok () t ∧ Appends (s.advance n) t (codeString s.codes.enc (bytesAt s.mem a n)) := by
  induction n generalizing a s with
  | zero => exact ⟨s, rfl, by rw [State.advance_zero]; exact .refl hw hbn hm⟩
  | succ n ih =>
    rw [bytesAt_succ, codeString_cons] at hr hd ⊢
    rw [bytesAt_succ, List.forall_mem_cons] at hcodes
    rw [List.length_append] at hr hd
    obtain ⟨hcode, hcodes⟩ := hcodes
    have hd1 : (s.advance 1).env.completes
        (n + s.ch.commits ((s.codes.enc.of (s.mem.read a)).string.length + (codeString s.codes.enc (bytesAt s.mem (a + 1) n)).length)) = true := by
      have hsum (c : Nat) : n + 1 + c = 1 + (n + c) := by omega
      rw [hsum, Env.completes_add] at hd
      exact hd.2
    obtain ⟨t, ht, hat⟩ := writeString_appends (s.codes.enc.of (s.mem.read a)).string (s.advance 1) hw hbn hm (room_mono hr (by omega))
      (Env.completes_mono hd1 (by show (s.ch.bn.toNat + _) / 8 ≤ n + (s.ch.bn.toNat + _) / 8; omega))
    have hcenc : t.codes.enc = s.codes.enc := by rw [hat.1.1.2.2.2.2.2.1]; rfl
    have hbytes : bytesAt t.mem (a + 1) n = bytesAt s.mem (a + 1) n := bytesAt_congr fun i hi => by
      have := hat.read_apart (s := s.advance 1) hw (a := a) (n := n + 1) hapart (i := 1 + i) (by omega)
      rw [← Nat.add_assoc] at this
      exact this
    have hadd := hat.commits_add (codeString s.codes.enc (bytesAt s.mem (a + 1) n)).length
    have hapart' : ApartFrom t (a + 1) n := by
      unfold ApartFrom at hapart ⊢
      rw [hat.1.2.2.1, hat.1.2.2.2.1]
      show a + 1 + n ≤ s.ch.lbase.toNat ∨ s.ch.lbase.toNat + s.ch.llen.toNat ≤ a + 1
      omega
    obtain ⟨u, hu, hau⟩ := ih (a := a + 1) (s := t) (by omega) hat.2.1 hat.bn_le hat.2.2.2.2.2.1 hapart' (by rw [hcenc, hbytes]; exact hcodes)
      (by rw [hcenc, hbytes]; exact hat.room (s := s.advance 1) hw hr) (by
        rw [hcenc, hbytes, hat.2.2.2.2.1]
        have hsum (c d : Nat) : n + (c + d) = c + (n + d) := by omega
        have h := hd1
        rw [show s.ch.commits _ = (s.advance 1).ch.commits _ from rfl, ← hadd, hsum, Env.completes_add] at h
        exact h.2)
    rw [hcenc, hbytes] at hau
    refine ⟨u, ?_, ?_⟩
    · rw [encodeBytes, memRead_ok (by omega) (Env.completes_mono hd (by omega)), Flow.bind_ok, State.drawNext_eq_advance]
      show (if (s.codes.enc.of (s.mem.read a)).valid then _ else _) = _
      rw [if_pos hcode]
      show (writeString (s.codes.enc.of (s.mem.read a)).string (s.advance 1)).bind _ = _
      rw [ht]
      exact hu
    · have hfirst := hat.advance n
      rw [State.advance_advance, Nat.add_comm] at hfirst
      exact hfirst.trans hau hw

/-! ### The pad commit (42_bitchannel.md R101) -/

/-- A commit with room and a bus that completes. -/
theorem commit_stores {s : State} (v : Byte) (hw : WriterAt s) (hr : 4 + s.ch.chT.toNat / 8 + 1 ≤ s.ch.llen.toNat)
    (hT : s.ch.chT.toNat + 8 ≤ 0xFFFFFFF8) (hd : s.env.completes 1 = true) :
    ∃ t, commit v s = .ok () t ∧ WriterKeeps s t ∧ WriterAt t ∧ t.ch.chT.toNat = s.ch.chT.toNat + 8 ∧ t.env = s.env.after 1 ∧
      t.mem = s.mem.write s.ch.pos v := by
  have hstored : memWrite s.ch.pos v s = .ok () (s.stored s.ch.pos v) := by
    obtain ⟨hreg, -, hpos, -⟩ := hw
    exact memWrite_ok (by omega) hd
  have hp : s.ch.pos < s.ch.lbase.toNat + s.ch.llen.toNat := by
    obtain ⟨hreg, -, hpos, -⟩ := hw
    omega
  refine ⟨_, ?_, ?_, hw.committed (v := v) hp (by omega) rfl, ?_, ?_, ?_⟩
  · rw [commit, if_neg (by omega), if_neg (by omega), hstored]
    simp
  · simp [WriterKeeps, KeepsBlock, State.stored]
  · show (s.ch.chT.toNat + 8) % 2 ^ 32 = _
    omega
  · simp [State.stored, Env.after]
  · simp

/-- The pad byte: the buffered bits, then zeros. -/
theorem bitsMsb_padded {bn : Nat} (h : bn ≤ 7) (v : Byte) :
    bitsMsb 8 (v <<< (8 - bn)) = bitsMsb bn v ++ List.replicate (8 - bn) false := by
  have hadd := bitsMsb_add bn (8 - bn) (v <<< (8 - bn))
  rw [show bn + (8 - bn) = 8 by omega] at hadd
  rw [hadd]
  congr 1
  · refine bitsMsb_congr _ _ _ fun i hi => ?_
    rw [BitVec.getLsbD_ushiftRight, BitVec.getLsbD_shiftLeft]
    simp [show 8 - bn + i < 8 by omega]
  · refine List.ext_getElem (by simp) fun i hi _ => ?_
    rw [bitsMsb_length] at hi
    simp only [bitsMsb, List.getElem_map, List.getElem_range, List.getElem_replicate, BitVec.getLsbD_shiftLeft]
    simp
    omega

/-- With bits buffered the pad commit appends the zeros that fill their byte; with none it does nothing. -/
theorem padCommit_appends {s : State} (hw : WriterOk s) (hbn : s.ch.bn.toNat ≤ 7) (hm : s.mem.wf = true)
    (hr : 0 < s.ch.bn.toNat → s.ch.room (8 - s.ch.bn.toNat)) (hd : s.env.completes ((s.ch.bn.toNat + 7) / 8) = true) :
    ∃ t, padCommit s = .ok () t ∧ Appends s t (List.replicate ((8 - s.ch.bn.toNat) % 8) false) ∧ (0 < s.ch.bn.toNat → t.ch.bacc = 0) := by
  by_cases h0 : 0 < s.ch.bn.toNat
  · have hc : s.ch.commits (8 - s.ch.bn.toNat) = 1 := by unfold Channel.commits; omega
    obtain ⟨hr₁, hr₂⟩ := hr h0
    rw [hc] at hr₁ hr₂
    rw [show (s.ch.bn.toNat + 7) / 8 = 1 by omega] at hd
    rw [show (8 - s.ch.bn.toNat) % 8 = 8 - s.ch.bn.toNat by omega]
    have hwa := ((writerOk_iff s).mp hw).1
    obtain ⟨t, ht, hk, hwt, hT, he, hmem⟩ := commit_stores (s.ch.bacc <<< (8 - s.ch.bn.toNat)) hwa hr₁ (by omega) hd
    obtain ⟨hreg, h8, hpos, hlen⟩ := hwa
    have hlb : t.ch.lbase = s.ch.lbase := hk.2.2.1
    refine ⟨t.clearAcc, by rw [padCommit, if_pos h0, ht]; rfl, ⟨?_, ?_, ?_, ?_, ?_, ?_, ?_, fun a ha => ?_⟩, fun _ => rfl⟩
    · exact hk.trans (by simp [WriterKeeps, KeepsBlock])
    · exact (writerOk_iff _).mpr ⟨hwt, .inl (by simp)⟩
    · rw [List.length_replicate]
      show 0 = _
      omega
    · rw [List.length_replicate, hc]
      exact hT
    · rw [List.length_replicate, hc]
      exact he
    · show t.mem.wf = true
      rw [hmem]
      exact Memory.write_wf _ _ _ (by omega) hm
    · show regionBits t.mem t.ch.lbase.toNat 0 t.ch.chT.toNat ++ bitsMsb 0 _ = _
      rw [hmem, hlb, hT, regionBits_add, regionBits_byte _ _ _ (by omega), bitsMsb_zero, List.append_nil,
        show s.ch.lbase.toNat + 4 + (0 + s.ch.chT.toNat) / 8 = s.ch.pos by rw [hpos]; omega, Memory.read_write_same _ _ _ hm,
        regionBits_congr s.mem _ _ 0 _ fun i hi => Memory.read_write_other _ _ _ _ (by rw [hpos]; omega), bitsMsb_padded hbn]
      simp [State.written]
    · show t.mem.read a = _
      rw [hmem]
      refine Memory.read_write_other _ _ _ _ ?_
      have htpos : t.clearAcc.ch.pos = s.ch.pos + 1 := by
        obtain ⟨-, -, hpos', -⟩ := hwt
        show t.ch.pos = _
        rw [hpos', hpos, hlb, hT]
        omega
      omega
  · rw [show (8 - s.ch.bn.toNat) % 8 = 0 by omega]
    exact ⟨s, by rw [padCommit, if_neg h0], .refl hw hbn hm, fun h => absurd h h0⟩

/-! ### Header writes -/

/-- A run of writes that complete stores its bytes. -/
structure Stored (s t : State) (a : Nat) (l : List Byte) : Prop where
  keeps : KeepsBlock s t
  ch : t.ch = s.ch
  env : t.env = s.env.after l.length
  wf : t.mem.wf = true
  bytes : bytesAt t.mem a l.length = l
  read : ∀ b, b < a ∨ a + l.length ≤ b → t.mem.read b = s.mem.read b

theorem writeBytes_append (a : Nat) (l l' : List Byte) (s : State) :
    writeBytes a (l ++ l') s = (writeBytes a l s).bind fun _ t => writeBytes (a + l.length) l' t := by
  induction l generalizing a s with
  | nil => simp [writeBytes]
  | cons v l ih =>
    rw [List.cons_append, writeBytes, writeBytes, Flow.bind_assoc]
    congr 1
    funext _ t
    rw [ih, List.length_cons, show a + 1 + l.length = a + (l.length + 1) by omega]

theorem writeBytes_stores {a : Nat} {l : List Byte} {s : State} (hm : s.mem.wf = true) (ha : a + l.length ≤ 2 ^ 32)
    (hd : s.env.completes l.length = true) : ∃ t, writeBytes a l s = .ok () t ∧ Stored s t a l := by
  induction l generalizing a s with
  | nil => exact ⟨s, rfl, KeepsBlock.refl s, rfl, by simp, hm, rfl, fun _ _ => rfl⟩
  | cons v l ih =>
    rw [List.length_cons] at ha hd
    obtain ⟨t, ht, hk, hch, henv, hwf, hbytes, hread⟩ := ih (a := a + 1) (s := s.stored a v) (s.stored_wf v (by omega) hm) (by omega)
      (State.after_drawNext hd)
    refine ⟨t, ?_, (s.stored_keepsBlock a v).trans hk, hch, ?_, hwf, ?_, fun b hb => ?_⟩
    · rw [writeBytes, memWrite_ok (by omega) (Env.completes_mono hd (by omega))]
      exact ht
    · rw [henv, State.stored_env, State.drawNext_env_after, Env.after_after, List.length_cons, Nat.add_comm]
    · rw [List.length_cons, bytesAt_succ, hbytes, hread a (by omega), State.stored_mem, Memory.read_write_same _ _ _ hm]
    · rw [List.length_cons] at hb
      rw [hread b (by omega), s.stored_read_other v (by omega)]

/-- The header is the big-endian number of its bytes (20_memory.md R51). -/
theorem headerAt_of_bytes {m : Memory} {a : Nat} {T : Word} (h : bytesAt m a 4 = headerBytes T) : headerAt m a = T.toNat := by
  have hT := T.isLt
  simp only [bytesAt, headerBytes, List.range_succ, List.range_zero, List.nil_append, List.cons_append, List.map_cons, List.map_nil,
    List.cons.injEq, and_true, headerByte, Nat.add_zero] at h
  obtain ⟨h0, h1, h2, h3⟩ := h
  unfold headerAt
  rw [h0, h1, h2, h3]
  simp only [BitVec.extractLsb'_toNat, Nat.shiftRight_eq_div_pow]
  omega

end Sys2Proof.Machine
end

section
/-! PROOFS. The results of the writer's commands (42_bitchannel.md R98 to R101, 41_tree_codec.md R90, 43_stream_codec.md R106). -/

namespace Sys2Proof.Machine

/-! ### Commands that write bits -/

/-- A command completed with the bits `p` appended. -/
structure Completed (s t : State) (p : List Bool) : Prop where
  cmd : t.cmd = { s.cmd with busy := false, done := true }
  written : t.written = s.written ++ p
  mode : t.ch.mode = .write
  writer : WriterOk t
  count : t.ch.chT.toNat + t.ch.bn.toNat = s.ch.chT.toNat + s.ch.bn.toNat + p.length

theorem Appends.completed {s u : State} {p : List Bool} {k : Nat} (h : Appends (s.advance k) u p) (hm : s.ch.mode = .write) :
    Completed s u.finish p := by
  obtain ⟨hk, hw, hbn, hT, -, -, hwritten, -⟩ := h
  refine ⟨?_, hwritten, hk.2.1.trans hm, hw, ?_⟩
  · rw [State.finish_cmd, hk.1.2.1]
    rfl
  · show u.ch.chT.toNat + u.ch.bn.toNat = _
    rw [hT, hbn]
    show s.ch.chT.toNat + 8 * ((s.ch.bn.toNat + p.length) / 8) + (s.ch.bn.toNat + p.length) % 8 = _
    omega

theorem exec_writeString_completed {i : Instr} {s : State} {p : List Bool} (hx : exec i s = (writeString p s).complete) (hm : s.mem.wf = true)
    (hmode : s.ch.mode = .write) (hw : WriterOk s) (hf : s.cmd.fault = false) (hr : s.ch.room p.length)
    (hd : s.env.completes (s.ch.commits p.length) = true) : ∃ t, exec i s = .next t ∧ Completed s t p := by
  obtain ⟨u, hu, ha⟩ := writeString_appends_of hw hf hm hr hd
  exact ⟨u.finish, by rw [hx, hu]; rfl, Appends.completed (k := 0) (by rw [State.advance_zero]; exact ha) hmode⟩

theorem exec_wBits {n : BitVec 6} {s : State} (hm : s.ch.mode = .write) :
    exec (.wBits n) s = (writeString (bitsMsb n.toNat s.regs.arg) s).complete := by
  show execWBits n s = _
  rw [execWBits, requireMode_ok hm]
  rfl

theorem exec_tSerialize {s : State} (hm : s.ch.mode = .write) (hv : s.tree.tvalid = true) (ht : TreeOk s) :
    exec .tSerialize s = (writeString s.tree.form s).complete := by
  show execTSerialize s = _
  rw [execTSerialize, requireMode_ok hm, Flow.bind_ok, requireTree_ok hv, Flow.bind_ok, serialTree_of_treeOk ht hv]
  rfl

theorem exec_sEncode {s : State} (hm : s.ch.mode = .write) (hc : s.codes.cvalid = true) (hreg : regionOK s.regs.ibase s.regs.ilen = true)
    (hapart : overlaps s.regs.ibase s.regs.ilen s.ch.lbase s.ch.llen = false) :
    exec .sEncode s = (encodeBytes s.regs.ilen.toNat s.regs.ibase.toNat s).complete := by
  show execSEncode s = _
  rw [execSEncode, requireMode_ok hm, Flow.bind_ok, requireCodes_ok hc, Flow.bind_ok, requireRegion_ok hreg, Flow.bind_ok,
    requireApart_ok hapart]
  rfl

/-- Settles O34. -/
theorem wBitsResult : Obligations.WBitsResult := by
  intro s n _ hm hmode hw hf hr hd
  obtain ⟨t, ht, hcmd, hwritten, hmode', hw', hcount⟩ := exec_writeString_completed (exec_wBits (n := n) hmode) hm hmode hw hf
    (by rw [bitsMsb_length]; exact hr) (by rw [bitsMsb_length]; exact hd)
  rw [bitsMsb_length] at hcount
  exact ⟨t, ht, hcmd, hwritten, hmode', hw', hcount⟩

/-- The bits of `W_MAGIC`: 'H', 'F' and the three bits of `WPAD`. -/
theorem magicBits_eq (s : State) :
    magicBits s =
      [false, true, false, false, true, false, false, false, false, true, false, false, false, true, true, false,
        false, false, false, false, false, s.codes.wpad.getLsbD 2, s.codes.wpad.getLsbD 1, s.codes.wpad.getLsbD 0] := by
  have hpad : bitsMsb 8 (s.codes.wpad.setWidth 8 : Byte) =
      [false, false, false, false, false, s.codes.wpad.getLsbD 2, s.codes.wpad.getLsbD 1, s.codes.wpad.getLsbD 0] := by
    simp [bitsMsb_succ]
  rw [magicBits, hpad]
  rfl

/-- Settles O35. -/
theorem wMagicResult : Obligations.WMagicResult := by
  intro s hm hmode hw hf hc hr hd
  obtain ⟨t, ht, hcmd, hwritten, hmode', hw', -⟩ := exec_writeString_completed (exec_wMagic_of_write hmode hc) hm hmode hw hf
    (by rw [magicBits_length]; exact hr) (by rw [magicBits_length]; exact hd)
  rw [magicBits_eq] at hwritten
  exact ⟨t, ht, hcmd, hwritten, hmode', hw'⟩

/-- Settles O43. -/
theorem tSerializeResult : Obligations.TSerializeResult := by
  intro s hm hmode hw hf hv htree hr hd
  obtain ⟨t, ht, hcmd, hwritten, hmode', hw', -⟩ := exec_writeString_completed (exec_tSerialize hmode hv htree) hm hmode hw hf hr hd
  exact ⟨t, ht, hcmd, hwritten, hmode', hw'⟩

/-! ### S_ENCODE -/

/-- The bytes of the input before the `k`-th lie outside the stream region, or there are none. -/
theorem inputApart {s : State} (hw : WriterOk s) (h : overlaps s.regs.ibase s.regs.ilen s.ch.lbase s.ch.llen = false) {k : Nat}
    (hk : k ≤ s.regs.ilen.toNat) : ApartFrom s s.regs.ibase.toNat k ∨ k = 0 := by
  have hlen : 4 ≤ s.ch.llen.toNat := by
    obtain ⟨-, -, -, -, hlen⟩ := hw
    omega
  rcases apartFrom_of_overlaps h (by omega) with h | h
  · unfold ApartFrom at h ⊢
    omega
  · exact .inr (by omega)

/-- The codes of the first `k` input bytes appended, each after its read. -/
theorem encodeBytes_prefix {s : State} (hw : WriterOk s) (hf : s.cmd.fault = false) (hm : s.mem.wf = true)
    (hreg : regionOK s.regs.ibase s.regs.ilen = true) (hapart : overlaps s.regs.ibase s.regs.ilen s.ch.lbase s.ch.llen = false) {k : Nat}
    (hk : k ≤ s.regs.ilen.toNat) (hcodes : ∀ y ∈ bytesAt s.mem s.regs.ibase.toNat k, (s.codes.enc.of y).valid = true)
    (hr : s.ch.room (codeString s.codes.enc (bytesAt s.mem s.regs.ibase.toNat k)).length)
    (hd : s.env.completes (k + s.ch.commits (codeString s.codes.enc (bytesAt s.mem s.regs.ibase.toNat k)).length) = true) :
    ∃ t, encodeBytes k s.regs.ibase.toNat s = .ok () t ∧
      Appends (s.advance k) t (codeString s.codes.enc (bytesAt s.mem s.regs.ibase.toNat k)) := by
  rw [regionOK_iff] at hreg
  rcases inputApart hw hapart hk with h | rfl
  · exact encodeBytes_appends (by omega) hw (hw.bn_le hf) hm h hcodes hr hd
  · exact ⟨s, rfl, by rw [State.advance_zero]; exact Appends.refl_of hw hf hm⟩

/-- Settles O48. -/
theorem sEncodeResult : Obligations.SEncodeResult := by
  intro s hm hmode hw hf hc hreg hapart msg bits hcodes hr hd
  obtain ⟨t, ht, ha⟩ := encodeBytes_prefix hw hf hm hreg hapart le_rfl hcodes hr hd
  obtain ⟨hcmd, hwritten, hmode', hw', -⟩ := ha.completed hmode
  exact ⟨t.finish, by rw [exec_sEncode hmode hc hreg hapart, ht]; rfl, hcmd, hwritten, hmode', hw'⟩

/-- The loop from the `k`-th byte on, the bytes before it encoded. -/
theorem exec_sEncode_prefix {s t : State} (hm : s.ch.mode = .write) (hc : s.codes.cvalid = true)
    (hreg : regionOK s.regs.ibase s.regs.ilen = true) (hapart : overlaps s.regs.ibase s.regs.ilen s.ch.lbase s.ch.llen = false) {k : Nat}
    (hk : k < s.regs.ilen.toNat) (ht : encodeBytes k s.regs.ibase.toNat s = .ok () t) :
    ∃ n, exec .sEncode s = (encodeBytes (n + 1) (s.regs.ibase.toNat + k) t).complete := by
  obtain ⟨n, hn⟩ : ∃ n, s.regs.ilen.toNat = k + (n + 1) := ⟨s.regs.ilen.toNat - k - 1, by omega⟩
  exact ⟨n, by rw [exec_sEncode hm hc hreg hapart, hn, encodeBytes_add, ht]; rfl⟩

/-- Settles O49: the loop over the bytes before the `k`-th, then the read of a byte without a code. -/
theorem sEncodeUnknownSymbol : Obligations.SEncodeUnknownSymbol := by
  intro s k hm hmode hw hf hc hreg hapart hk msg bits hcodes hbad hr hd
  obtain ⟨t, ht, ha⟩ := encodeBytes_prefix hw hf hm hreg hapart hk.le hcodes hr
    (Env.completes_mono hd (by show k + s.ch.commits bits.length ≤ _; omega))
  obtain ⟨n, hexec⟩ := exec_sEncode_prefix hmode hc hreg hapart hk ht
  have hbase := regionOK_iff.mp hreg
  have hread : t.mem.read (s.regs.ibase.toNat + k) = s.mem.read (s.regs.ibase.toNat + k) :=
    ha.read_apart (s := s.advance k) hw ((inputApart hw hapart (Nat.succ_le_of_lt hk)).resolve_right (by omega)) (Nat.lt_succ_self k)
  obtain ⟨hkeeps, -, -, -, henv, -, hwritten, -⟩ := ha
  have hcmd : t.cmd = s.cmd := hkeeps.1.2.1
  have hcodes' : t.codes = s.codes := hkeeps.1.2.2.2.2.2.1
  have hdraw : t.env.completes 1 = true := by
    rw [henv]
    show ((s.env.after k).after (s.ch.commits bits.length)).completes 1 = true
    rw [show k + 1 + s.ch.commits bits.length = k + s.ch.commits bits.length + 1 by omega, Env.completes_add] at hd
    rw [Env.after_after]
    exact hd.2
  rw [encodeBytes, memRead_ok (by omega) hdraw, Flow.bind_ok, hread] at hexec
  have hbad' : ¬(t.drawNext.codes.enc.of (s.mem.read (s.regs.ibase.toNat + k))).valid = true := by
    rw [State.drawNext_codes, hcodes', hbad]
    decide
  rw [if_neg hbad'] at hexec
  refine ⟨_, hexec, ?_, hwritten⟩
  rw [State.enterFault_cmd, State.drawNext_cmd, hcmd]
  rfl

/-! ### W_OPEN -/

theorem exec_wOpen {s : State} (hm : s.ch.mode = .idle) (hreg : s.regs.sbase.toNat + s.regs.slen.toNat ≤ 2 ^ 32) (hlen : 4 ≤ s.regs.slen.toNat) :
    exec .wOpen s = ((writeBytes s.regs.sbase.toNat (List.replicate 4 0) s.latch).bind fun _ t => .ok () t.openWriter).complete := by
  have hlen' : ¬s.latch.ch.llen.toNat < 4 := hlen.not_gt
  show execWOpen s = _
  rw [execWOpen, requireMode_ok hm, Flow.bind_ok, requireRegion_ok (regionOK_iff.mpr hreg), Flow.bind_ok]
  simp only
  rw [if_neg hlen']
  rfl

theorem State.setPos_bpos {s : State} {n : Nat} (h : n < 2 ^ 32) : (s.setPos n).ch.bpos = BitVec.ofNat 32 n := by
  rw [State.setPos, if_pos h]

/-- Settles O32. -/
theorem wOpenResult : Obligations.WOpenResult := by
  intro s hwf hm hreg hlen hd
  obtain ⟨t, ht, hs⟩ := writeBytes_stores (a := s.regs.sbase.toNat) (l := List.replicate 4 0) (s := s.latch) hwf
    (by simp; omega) (by simpa using hd)
  have hpos := State.openWriter_pos t (by rw [hs.ch]; show s.regs.sbase.toNat + 4 ≤ _; omega)
  refine ⟨t.openWriter.finish, by rw [exec_wOpen hm hreg hlen, ht]; rfl, ?_, ?_, by simp, ?_, ?_, ?_, fun h => ?_, by simp, by simp, by simp, by simp,
    by simp, ?_⟩
  · rw [State.finish_cmd, State.openWriter_cmd, hs.keeps.2.1]
    rfl
  · rw [State.finish_mem, State.openWriter_mem]
    exact hs.bytes
  · rw [State.finish_ch, State.openWriter_lbase, hs.ch]
    rfl
  · rw [State.finish_ch, State.openWriter_llen, hs.ch]
    rfl
  · rw [State.finish_ch, hpos, hs.ch]
    rfl
  · show (t.setPos (t.ch.lbase.toNat + 4)).ch.bpos = _
    rw [hs.ch]
    show (t.setPos (s.regs.sbase.toNat + 4)).ch.bpos = _
    rw [State.setPos_bpos h]
    exact BitVec.eq_of_toNat_eq (by simp)
  · simp [State.written]

/-! ### W_CLOSE -/

theorem exec_wClose {s : State} (hm : s.ch.mode = .write) :
    exec .wClose s = ((padCommit s).bind fun _ s =>
      (writeBytes s.ch.lbase.toNat (headerBytes s.ch.chT) s).bind fun _ s => .ok () s.closeWriter).complete := by
  show execWClose s = _
  rw [execWClose, requireMode_ok hm]
  rfl

theorem headerBytes_length (T : Word) : (headerBytes T).length = 4 := by simp [headerBytes]

/-- The bit region does not meet the header. -/
theorem Stored.regionBits {s t : State} {l : List Byte} (h : Stored s t s.ch.lbase.toNat l) (hl : l.length ≤ 4) (n : Nat) :
    Machine.regionBits t.mem s.ch.lbase.toNat 0 n = Machine.regionBits s.mem s.ch.lbase.toNat 0 n :=
  regionBits_congr _ _ _ _ _ fun i _ => h.read _ (by omega)

/-- The padded bit count. -/
theorem Appends.padded_chT {s t : State} (h : Appends s t (List.replicate ((8 - s.ch.bn.toNat) % 8) false)) (hw : WriterOk s)
    (hbn : s.ch.bn.toNat ≤ 7) :
    t.ch.chT.toNat = 8 * ((s.ch.chT.toNat + s.ch.bn.toNat + 7) / 8) ∧ t.ch.bn = 0 ∧
      Machine.regionBits t.mem s.ch.lbase.toNat 0 t.ch.chT.toNat = s.written ++ List.replicate ((8 - s.ch.bn.toNat) % 8) false := by
  obtain ⟨hk, -, hbn', hT, -, -, hwritten, -⟩ := h
  obtain ⟨-, h8, -⟩ := hw
  rw [List.length_replicate] at hbn' hT
  have hzero : t.ch.bn = 0 := BitVec.eq_of_toNat_eq (by rw [hbn']; show _ = 0; omega)
  refine ⟨by rw [hT]; unfold Channel.commits; omega, hzero, ?_⟩
  rw [← hwritten, State.written, hzero, hk.2.2.1]
  simp

/-- Settles O36: the pad commit is a run of zero bits, and the header writes lie below the bit region. -/
theorem wCloseResult : Obligations.WCloseResult := by
  intro s hwf hm hw hf hr hd
  have hbn := hw.bn_le hf
  rw [Nat.add_comm, Env.completes_add] at hd
  obtain ⟨u, hu, ha, hacc⟩ := padCommit_appends hw hbn hwf hr hd.1
  obtain ⟨hT, hzero, hbits⟩ := ha.padded_chT hw hbn
  obtain ⟨hk, hwu, -, -, henv, hwfu, -, -⟩ := ha
  have hcommits : s.ch.commits (List.replicate ((8 - s.ch.bn.toNat) % 8) false).length = (s.ch.bn.toNat + 7) / 8 := by
    rw [List.length_replicate]
    unfold Channel.commits
    omega
  rw [hcommits] at henv
  obtain ⟨hreg, -, -, hlen⟩ := ((writerOk_iff u).mp hwu).1
  obtain ⟨t, ht, hs⟩ := writeBytes_stores (a := u.ch.lbase.toNat) (l := headerBytes u.ch.chT) (s := u) hwfu
    (by rw [headerBytes_length]; omega) (by rw [headerBytes_length, henv]; exact hd.2)
  have hlb : u.ch.lbase = s.ch.lbase := hk.2.2.1
  have hch : t.ch.chT = u.ch.chT := by rw [hs.ch]
  refine ⟨t.closeWriter.finish, by rw [exec_wClose hm, hu, Flow.bind_ok, ht]; rfl, ?_, rfl, ?_, ?_, ?_, ?_, ?_, ?_⟩
  · rw [State.finish_cmd, State.closeWriter_cmd, hs.keeps.2.1, hk.1.2.1]
  · show t.ch.chT.toNat = _
    rw [hch, hT]
  · show headerAt t.mem s.ch.lbase.toNat = t.ch.chT.toNat
    rw [hch, ← hlb]
    exact headerAt_of_bytes (by have := hs.bytes; rwa [headerBytes_length] at this)
  · show (4 + t.ch.chT.toNat / 8) % 2 ^ 32 = 4 + t.ch.chT.toNat / 8
    have := t.ch.chT.isLt
    omega
  · show Machine.regionBits t.mem s.ch.lbase.toNat 0 t.ch.chT.toNat = _
    rw [← hbits, hch, ← hlb]
    exact hs.regionBits (headerBytes_length _).le _
  · show t.ch.bn = 0
    rw [hs.ch, hzero]
  · intro h0
    show t.ch.bacc = 0
    rw [hs.ch, hacc h0]

end Sys2Proof.Machine
end

section
/-! PROOFS. Any one commit of the commands that write bits (20_memory.md R54, R55): the state in which it is tried, and what its failure
leaves (60_exceptions.md R119). -/

namespace Sys2Proof.Machine

/-! ### `BPOS` moves with the position -/

/-- The position does not fall, and while it has not risen `BPOS` is as it was. -/
def MovesOn (s t : State) : Prop := s.ch.pos ≤ t.ch.pos ∧ (t.ch.pos = s.ch.pos → t.ch.bpos = s.ch.bpos)

theorem MovesOn.of_bpos {s t : State} (hpos : t.ch.pos = s.ch.pos) (hbpos : t.ch.bpos = s.ch.bpos) : MovesOn s t := ⟨hpos.ge, fun _ => hbpos⟩

theorem MovesOn.trans {s t u : State} (h : MovesOn s t) (h' : MovesOn t u) : MovesOn s u := by
  refine ⟨h.1.trans h'.1, fun hu => ?_⟩
  have h₁ := h.1
  have h₂ := h'.1
  rw [h'.2 (by omega), h.2 (by omega)]

theorem commit_movesOn (v : Byte) (s : State) : (commit v s).Ends (MovesOn s) := by
  have hp := commit_post v s
  cases hx : commit v s with
  | ok a t =>
    rw [hx] at hp
    obtain ⟨rfl, hlt, -⟩ := hp
    have hpos : ((s.stored s.ch.pos v).setPos (s.ch.pos + 1)).ch.pos = s.ch.pos + 1 := State.setPos_pos _ _ hlt
    exact ⟨by show _ ≤ ((s.stored s.ch.pos v).setPos (s.ch.pos + 1)).ch.pos; omega,
      fun h => by replace h : ((s.stored s.ch.pos v).setPos (s.ch.pos + 1)).ch.pos = s.ch.pos := h; omega⟩
  | error e t => rw [hx] at hp; exact hp.elim
  | raise f w t =>
    rw [hx] at hp
    rcases hp with ⟨rfl, -⟩ | ⟨-, -, -, rfl⟩ <;> exact .of_bpos rfl rfl
  | stop r => trivial

theorem writeBit_movesOn (b : Bool) (s : State) : (writeBit b s).Ends (MovesOn s) := by
  unfold writeBit
  simp only
  split
  · exact ((commit_movesOn _ (s.pushBit b)).mono fun t ht => MovesOn.trans (.of_bpos rfl rfl) ht).bind fun _ t _ ht => ht.trans (.of_bpos rfl rfl)
  · exact MovesOn.of_bpos rfl rfl

theorem writeString_movesOn (p : List Bool) (s : State) : (writeString p s).Ends (MovesOn s) := by
  induction p generalizing s with
  | nil => exact MovesOn.of_bpos rfl rfl
  | cons b p ih => exact (writeBit_movesOn b s).bind fun _ t _ ht => (ih t).mono fun u hu => ht.trans hu

theorem encodeBytes_movesOn (n a : Nat) (s : State) : (encodeBytes n a s).Ends (MovesOn s) := by
  induction n generalizing a s with
  | zero => exact MovesOn.of_bpos rfl rfl
  | succ n ih =>
    have hread : (memRead a s).Ends (MovesOn s) := (memRead_ends a s).mono fun t ht => .of_bpos (by rw [ht.2.1]) (by rw [ht.2.1])
    refine hread.bind fun b t _ ht => ?_
    split
    · exact ((writeString_movesOn _ t).mono fun u hu => ht.trans hu).bind fun _ u _ hu => (ih (a + 1) u).mono fun v hv => hu.trans hv
    · exact ht

/-! ### The state in which a commit is tried -/

theorem WriterAt.pos_add {s t : State} {j : Nat} (hs : WriterAt s) (ht : WriterAt t) (hlbase : t.ch.lbase = s.ch.lbase)
    (hT : t.ch.chT.toNat = s.ch.chT.toNat + 8 * j) : t.ch.pos = s.ch.pos + j := by
  obtain ⟨-, h8, hpos, -⟩ := hs
  obtain ⟨-, -, hpos', -⟩ := ht
  rw [hpos', hpos, hlbase, hT]
  omega

/-- A commit reached in a later run of bits is the command's own commit so many places further on. -/
theorem Uncommitted.after {s t u : State} {p q : List Bool} {j : Nat} (h : Appends s t p) (hs : WriterOk s) (hu : Uncommitted t u q j) :
    Uncommitted s u (p ++ q) (s.ch.commits p.length + j) := by
  obtain ⟨hk, hw, hbn, hT, -, -, hwritten, -⟩ := h
  obtain ⟨hmode, hpos, hT', hbn', hacc, hbits⟩ := hu
  have hlb : t.ch.lbase = s.ch.lbase := hk.2.2.1
  have htpos := ((writerOk_iff s).mp hs).1.pos_add ((writerOk_iff t).mp hw).1 hlb hT
  have hle : 8 * s.ch.commits p.length ≤ (bitsMsb s.ch.bn.toNat s.ch.bacc ++ p).length := by
    rw [List.length_append, bitsMsb_length]
    unfold Channel.commits
    omega
  have hbuffer : bitsMsb t.ch.bn.toNat t.ch.bacc = (bitsMsb s.ch.bn.toNat s.ch.bacc ++ p).drop (8 * s.ch.commits p.length) := by
    have h := congrArg (List.drop (s.ch.chT.toNat + 8 * s.ch.commits p.length)) hwritten
    rw [State.written, List.drop_left' (by rw [regionBits_length, hT]), State.written, List.append_assoc, ← List.drop_drop,
      List.drop_left' (by simp)] at h
    exact h
  refine ⟨hmode, by rw [hpos, htpos, Nat.add_assoc], by rw [hT', hT]; omega, hbn', ?_, ?_⟩
  · rw [hacc, hbuffer, Nat.mul_add, ← List.drop_drop, ← List.append_assoc, List.drop_append_of_le_length hle]
  · rw [hlb, hT, hwritten, List.append_assoc] at hbits
    rw [Nat.mul_add, ← Nat.add_assoc]
    exact hbits

/-- Commit `j` of the command `i` is tried in `u`, and what it does the command does. -/
structure Reaches (i : Instr) (s : State) (p : List Bool) (reads j : Nat) (x : Flow Unit) (u : State) (k : Unit → State → Flow Unit) :
    Prop where
  exec : Machine.exec i s = x.complete
  moves : x.Ends (MovesOn s)
  eq : x = (commit u.ch.bacc u).bind k
  uncommitted : Uncommitted s u p j
  keeps : WriterKeeps s u
  wf : u.mem.wf = true
  env : u.env = s.env.after (reads + j)
  read : ∀ a, a < s.ch.pos ∨ s.ch.pos + j ≤ a → u.mem.read a = s.mem.read a

section
variable {s : State} {p : List Bool} {j : Nat}

/-- What the commit needs to be reached. -/
structure CanReach (s : State) (j : Nat) : Prop where
  wf : s.mem.wf = true
  mode : s.ch.mode = .write
  writer : WriterOk s
  bn_le : s.ch.bn.toNat ≤ 7
  room : 4 + s.ch.chT.toNat / 8 + j ≤ s.ch.llen.toNat
  header : s.ch.chT.toNat + 8 * j ≤ 0xFFFFFFF8

theorem reaches_of_writeString {i : Instr} (hx : exec i s = (writeString p s).complete) (h : CanReach s j) (hj : j < s.ch.commits p.length)
    (hd : s.env.completes j = true) : ∃ x u k, Reaches i s p 0 j x u k := by
  obtain ⟨u, rest, -, hu, hunc, hk, hwf, henv, hread⟩ := writeString_reaches p s j h.mode h.writer h.bn_le h.wf hj ⟨h.room, h.header⟩ hd
  rw [Flow.bind_assoc] at hu
  exact ⟨_, u, _, hx, writeString_movesOn p s, hu, hunc, hk, hwf, by rw [Nat.zero_add]; exact henv, hread⟩

theorem bytesAt_succ_last (m : Memory) (a n : Nat) : bytesAt m a (n + 1) = bytesAt m a n ++ [m.read (a + n)] := by
  simp [bytesAt, List.range_succ]

theorem codeString_append (e : CodeTable) (l l' : List Byte) : codeString e (l ++ l') = codeString e l ++ codeString e l' :=
  List.flatMap_append

theorem codeString_singleton (e : CodeTable) (y : Byte) : codeString e [y] = (e.of y).string := by simp [codeString]

/-- A commit of the code of input byte `r`, the bytes before it encoded. -/
theorem reaches_of_encodeBytes {r : Nat} (h : CanReach s j) (hf : s.cmd.fault = false) (hc : s.codes.cvalid = true)
    (hreg : regionOK s.regs.ibase s.regs.ilen = true) (hapart : overlaps s.regs.ibase s.regs.ilen s.ch.lbase s.ch.llen = false)
    (hr : r < s.regs.ilen.toNat) (hcodes : ∀ y ∈ bytesAt s.mem s.regs.ibase.toNat (r + 1), (s.codes.enc.of y).valid = true)
    (hfirst : s.ch.commits (codeString s.codes.enc (bytesAt s.mem s.regs.ibase.toNat r)).length ≤ j)
    (hj : j < s.ch.commits (codeString s.codes.enc (bytesAt s.mem s.regs.ibase.toNat (r + 1))).length)
    (hd : s.env.completes (r + 1 + j) = true) :
    ∃ x u k, Reaches .sEncode s (codeString s.codes.enc (bytesAt s.mem s.regs.ibase.toNat (r + 1))) (r + 1) j x u k := by
  rw [bytesAt_succ_last, codeString_append, codeString_singleton] at hj ⊢
  rw [List.length_append] at hj
  rw [bytesAt_succ_last, List.forall_mem_append, List.forall_mem_singleton] at hcodes
  obtain ⟨hcodes, hcode⟩ := hcodes
  have hroom := h.room
  have hheader := h.header
  obtain ⟨t, ht, ha⟩ := encodeBytes_prefix h.writer hf h.wf hreg hapart hr.le hcodes ⟨by omega, by omega⟩ (Env.completes_mono hd (by omega))
  generalize codeString s.codes.enc (bytesAt s.mem s.regs.ibase.toNat r) = bits at *
  obtain ⟨j', rfl⟩ : ∃ j', j = s.ch.commits bits.length + j' := ⟨j - s.ch.commits bits.length, by omega⟩
  have hbase := regionOK_iff.mp hreg
  have hread : t.mem.read (s.regs.ibase.toNat + r) = s.mem.read (s.regs.ibase.toNat + r) :=
    ha.read_apart (s := s.advance r) h.writer ((inputApart h.writer hapart (Nat.succ_le_of_lt hr)).resolve_right (by omega))
      (Nat.lt_succ_self r)
  have hdraw : t.env.completes 1 = true := by
    obtain ⟨-, -, -, -, henv, -⟩ := ha
    have hd' := Env.completes_mono (k := r + 1 + (s.ch.commits bits.length + j')) (j := r + s.ch.commits bits.length + 1) hd (by omega)
    rw [Env.completes_add] at hd'
    rw [henv]
    show ((s.env.after r).after (s.ch.commits bits.length)).completes 1 = true
    rw [Env.after_after]
    exact hd'.2
  replace ha : Appends (s.advance (r + 1)) (t.advance 1) bits := by
    have := ha.advance 1
    rwa [State.advance_advance] at this
  have ha' := ha
  obtain ⟨hk, hwt, hbnt, hTt, henvt, hwft, -, hreadt⟩ := ha'
  have henc : t.codes.enc = s.codes.enc := by
    have : (t.advance 1).codes = s.codes := hk.1.2.2.2.2.2.1
    exact congrArg Codes.enc this
  have hll : (t.advance 1).ch.llen = s.ch.llen := hk.2.2.2.1
  have hT' : (t.advance 1).ch.chT.toNat = s.ch.chT.toNat + 8 * s.ch.commits bits.length := hTt
  have hadd : s.ch.commits bits.length + (t.advance 1).ch.commits _ = s.ch.commits (bits.length + _) :=
    ha.commits_add (s.codes.enc.of (s.mem.read (s.regs.ibase.toNat + r))).string.length
  have henv' : (t.advance 1).env = s.env.after (r + 1 + s.ch.commits bits.length) := by
    rw [henvt]
    exact Env.after_after ..
  have h8 : s.ch.chT.toNat % 8 = 0 := h.writer.2.1
  obtain ⟨u, rest, -, hu, hunc, hku, hwfu, henvu, hreadu⟩ :=
    writeString_reaches (s.codes.enc.of (s.mem.read (s.regs.ibase.toNat + r))).string (t.advance 1) j' (hk.2.1.trans h.mode) hwt ha.bn_le hwft
      (by omega) ⟨by rw [hll, hT']; omega, by rw [hT']; omega⟩ (by
        rw [henv']
        rw [← Nat.add_assoc, Env.completes_add] at hd
        exact hd.2)
  obtain ⟨n, hn⟩ : ∃ n, s.regs.ilen.toNat = r + (n + 1) := ⟨s.regs.ilen.toNat - r - 1, by omega⟩
  have hx : encodeBytes s.regs.ilen.toNat s.regs.ibase.toNat s =
      (commit u.ch.bacc u).bind fun a v => ((Flow.ok () v.clearAcc).bind fun _ v => writeString rest v).bind fun _ v =>
        encodeBytes n (s.regs.ibase.toNat + r + 1) v := by
    rw [hn, encodeBytes_add, ht, Flow.bind_ok, encodeBytes, memRead_ok (by omega) hdraw, Flow.bind_ok, hread, State.drawNext_eq_advance]
    show (if (t.codes.enc.of (s.mem.read (s.regs.ibase.toNat + r))).valid then
      (writeString (t.codes.enc.of (s.mem.read (s.regs.ibase.toNat + r))).string (t.advance 1)).bind _ else _) = _
    rw [henc, if_pos hcode, hu, Flow.bind_assoc, Flow.bind_assoc]
    rfl
  refine ⟨_, u, _, exec_sEncode h.mode hc hreg hapart, encodeBytes_movesOn _ _ s, hx, ?_, hk.trans hku, hwfu, ?_, fun a hra => ?_⟩
  · show Uncommitted (s.advance (r + 1)) u _ _
    exact hunc.after ha (s := s.advance (r + 1)) h.writer
  · rw [henvu, henv', Env.after_after]
    congr 1
    omega
  · have hpos := ((writerOk_iff _).mp h.writer).1.pos_add ((writerOk_iff _).mp hwt).1 hk.2.2.1 hT'
    have hreadt' := hreadt a
    rw [hreadu a (by omega)]
    exact hreadt' (by show a < s.ch.pos ∨ _; omega)

end

/-- What a command that writes bits is to write, its commits reach. -/
theorem reaches_of_gives {s : State} {i : Instr} {p : List Bool} {reads first j : Nat} (h : CanReach s j) (hf : s.cmd.fault = false)
    (hg : s.gives i p reads first) (hfirst : first ≤ j) (hj : j < s.ch.commits p.length) (hd : s.env.completes (reads + j) = true) :
    ∃ x u k, Reaches i s p reads j x u k := by
  cases i with
  | wBits n =>
    obtain ⟨-, rfl, rfl, rfl⟩ := hg
    exact reaches_of_writeString (exec_wBits h.mode) h hj (by rwa [Nat.zero_add] at hd)
  | wMagic =>
    obtain ⟨hc, rfl, rfl, rfl⟩ := hg
    exact reaches_of_writeString (exec_wMagic_of_write h.mode hc) h hj (by rwa [Nat.zero_add] at hd)
  | tSerialize =>
    obtain ⟨hv, hok, rfl, rfl, rfl⟩ := hg
    exact reaches_of_writeString (exec_tSerialize h.mode hv hok) h hj (by rwa [Nat.zero_add] at hd)
  | sEncode =>
    obtain ⟨hc, hreg, hapart, h1, hle, hcodes, rfl, rfl⟩ := hg
    obtain ⟨r, rfl⟩ : ∃ r, reads = r + 1 := ⟨reads - 1, by omega⟩
    exact reaches_of_encodeBytes h hf hc hreg hapart hle hcodes hfirst hj hd
  | freqClear | freqCount | treeBuild | codesBuild | wOpen | wClose | rOpen | rBits | rMagic | rClose | tDeserialize | sDecode =>
    exact hg.elim

/-! ### A commit that fails -/

/-- A fault of the commit is the command's. -/
theorem Reaches.exec_of_raise {i : Instr} {s u t : State} {p : List Bool} {reads j : Nat} {x : Flow Unit} {k : Unit → State → Flow Unit}
    {f : FaultCode} {w : Word} (h : Reaches i s p reads j x u k) (hr : commit u.ch.bacc u = .raise f w t) :
    Machine.exec i s = .next (t.enterFault f w) := by
  rw [h.exec, h.eq, hr]
  rfl

/-- Where the commit is tried, counted from the command's start. -/
theorem Reaches.place {i : Instr} {s u : State} {p : List Bool} {reads j : Nat} {x : Flow Unit} {k : Unit → State → Flow Unit}
    (h : Reaches i s p reads j x u k) (hw : WriterOk s) :
    u.ch.pos = s.ch.pos + j ∧ s.ch.pos = s.ch.lbase.toNat + 4 + s.ch.chT.toNat / 8 ∧ u.ch.lbase = s.ch.lbase ∧ u.ch.llen = s.ch.llen ∧
      u.ch.chT.toNat = s.ch.chT.toNat + 8 * j := by
  obtain ⟨-, hpos, hT, -⟩ := h.uncommitted
  obtain ⟨-, -, hspos, -⟩ := ((writerOk_iff s).mp hw).1
  obtain ⟨-, -, hlb, hll, -⟩ := h.keeps
  exact ⟨hpos, hspos, hlb, hll, hT⟩

/-- What a commit that finds the region full or T at its bound leaves. -/
theorem Reaches.stops {i : Instr} {s u : State} {p : List Bool} {reads j : Nat} {x : Flow Unit} {k : Unit → State → Flow Unit}
    {f : FaultCode} (info : Channel → Word) (h : Reaches i s p reads j x u k) (hwf : s.mem.wf = true)
    (hr : commit u.ch.bacc u = .raise f (info u.ch) u) :
    ∃ t, Machine.exec i s = .next t ∧
      t.cmd = { s.cmd with fault := true, fcode := f, fop := s.cmd.pcmd.extractLsb' 0 8, finfo := info t.ch, busy := false } ∧
        Uncommitted s t p j ∧ (∀ a, a < s.ch.pos ∨ s.ch.pos + j ≤ a → t.mem.read a = s.mem.read a) ∧
          t.env.drawn = s.env.drawn + reads + j ∧ (s.ch.pos + j < 2 ^ 32 → t.ch.bpos.toNat = s.ch.pos + j) ∧
            (j = 0 → t.mem = s.mem ∧ t.ch.bpos = s.ch.bpos ∧ t.ch.chT = s.ch.chT) := by
  obtain ⟨-, hpos, hT, -⟩ := h.uncommitted
  refine ⟨u.enterFault f (info u.ch), h.exec_of_raise hr, ?_, h.uncommitted, h.read, ?_, fun hlt => ?_, ?_⟩
  · rw [State.enterFault_cmd, h.keeps.1.2.1]
    rfl
  · show u.env.drawn = _
    rw [h.env, Nat.add_assoc]
    rfl
  · rw [← hpos] at hlt ⊢
    show u.ch.bpos.toNat = u.ch.pos
    unfold Channel.pos at hlt ⊢
    split at hlt
    · omega
    · rw [if_neg ‹_›]
  · rintro rfl
    have hm := h.moves
    rw [h.eq, hr] at hm
    exact ⟨Memory.ext_read _ _ h.wf hwf fun a => h.read a (by omega), hm.2 hpos, BitVec.eq_of_toNat_eq hT⟩

/-- Settles O37: the commit is reached with the commits before it made, and there its own check stops it. -/
theorem commitOverflows : Obligations.CommitOverflows := by
  refine ⟨fun s i p reads first j hwf hm hw hf hg hfirst hj hroom hheader hd => ?_, fun s hm hw hf hbn => ?_⟩
  · obtain ⟨x, u, k, h⟩ := reaches_of_gives ⟨hwf, hm, hw, hw.bn_le hf, hroom, hheader⟩ hf hg hfirst hj hd
    obtain ⟨hpos, hspos, hlb, hll, hT⟩ := h.place hw
    refine ⟨fun hfull => ?_, fun hfull hpast => ?_⟩
    · exact h.stops (·.bpos) hwf (commit_full (by rw [hlb, hll]; omega))
    · exact h.stops (·.chT) hwf (commit_pastHeader (by rw [hlb, hll]; omega) (by rw [hT]; exact hpast))
  · obtain ⟨-, -, hspos, hle⟩ := ((writerOk_iff s).mp hw).1
    have hx : ∀ f w, (∀ v, commit v s = .raise f w s) → exec .wClose s = .next (s.enterFault f w) := by
      intro f w hc
      rw [exec_wClose hm, padCommit, if_pos hbn, hc]
      rfl
    exact ⟨fun hfull => hx _ _ fun v => commit_full (by omega), fun hfull hpast => hx _ _ fun v => commit_pastHeader (by omega) hpast⟩

end Sys2Proof.Machine
end

section
/-! PROOFS. The commands that read the header and plain bits (42_bitchannel.md R102 to R104). -/

namespace Sys2Proof.Machine

/-! ### R_OPEN -/

theorem readBigEndian_add (n m a v : Nat) (s : State) :
    readBigEndian (n + m) a v s = (readBigEndian n a v s).bind fun v s => readBigEndian m (a + n) v s := by
  induction n generalizing a v s with
  | zero => rw [Nat.zero_add]; rfl
  | succ n ih =>
    rw [Nat.succ_add, readBigEndian, readBigEndian, Flow.bind_assoc]
    congr 1
    funext b s
    rw [ih, Nat.add_right_comm a 1 n]
    rfl

/-- The number that bytes read big-endian make of the number before them. -/
def bigEndian (v : Nat) (l : List Byte) : Nat := l.foldl (fun v b => 256 * v + b.toNat) v

theorem readBigEndian_completes {n a v : Nat} {s : State} (ha : a + n ≤ 2 ^ 32) (hd : s.env.completes n = true) :
    readBigEndian n a v s = .ok (bigEndian v (bytesAt s.mem a n)) (s.advance n) := by
  induction n generalizing a v s with
  | zero => rfl
  | succ n ih =>
    rw [Nat.add_comm, Env.completes_add] at hd
    rw [readBigEndian, memRead_ok (by omega) hd.1, Flow.bind_ok, State.drawNext_eq_advance, ih (by omega) hd.2, bytesAt_succ,
      State.advance_advance, Nat.add_comm 1 n]
    rfl

theorem bigEndian_four (m : Memory) (a : Nat) : bigEndian 0 (bytesAt m a 4) = headerAt m a := by
  simp only [bigEndian, bytesAt, headerAt, List.range_succ, List.range_zero, List.nil_append, List.cons_append, List.map_cons, List.map_nil,
    List.foldl_cons, List.foldl_nil, Nat.add_zero]
  omega

theorem headerAt_lt (m : Memory) (a : Nat) : headerAt m a < 2 ^ 32 := by
  have h0 := (m.read a).isLt
  have h1 := (m.read (a + 1)).isLt
  have h2 := (m.read (a + 2)).isLt
  have h3 := (m.read (a + 3)).isLt
  unfold headerAt
  omega

theorem exec_rOpen {s : State} (hm : s.ch.mode = .idle) (hreg : s.regs.sbase.toNat + s.regs.slen.toNat ≤ 2 ^ 32) (hlen : 4 ≤ s.regs.slen.toNat) :
    exec .rOpen s = ((readBigEndian 4 s.regs.sbase.toNat 0 s.latch).bind fun n t =>
      if t.ch.llen.toNat < 4 + (n + 7) / 8 then .error .badLength t else .ok () (t.openReader n)).complete := by
  have hlen' : ¬s.latch.ch.llen.toNat < 4 := hlen.not_gt
  show execROpen s = _
  rw [execROpen, requireMode_ok hm, Flow.bind_ok, requireRegion_ok (regionOK_iff.mpr hreg), Flow.bind_ok]
  simp only
  rw [if_neg hlen']
  rfl

/-- Settles O39. -/
theorem rOpenResult : Obligations.ROpenResult := by
  intro s hm hreg hlen hd total
  have hlt : total < 2 ^ 32 := headerAt_lt _ _
  have hread : readBigEndian 4 s.regs.sbase.toNat 0 s.latch = .ok total (s.latch.advance 4) := by
    rw [readBigEndian_completes (s := s.latch) (a := s.regs.sbase.toNat) (n := 4) (by omega) hd, bigEndian_four]
    rfl
  rw [exec_rOpen hm hreg hlen, hread, Flow.bind_ok]
  have hll : (s.latch.advance 4).ch.llen = s.regs.slen := rfl
  rw [hll]
  by_cases hfit : s.regs.slen.toNat < 4 + (total + 7) / 8
  · rw [if_pos hfit]
    exact ⟨_, rfl, rfl, rfl, fun h => absurd hfit h.not_gt, fun _ => ⟨rfl, rfl⟩⟩
  · rw [if_neg hfit]
    have hpos : ((s.latch.advance 4).openReader total).ch.pos = s.regs.sbase.toNat + 4 :=
      State.openReader_pos _ _ (by show s.regs.sbase.toNat + 4 ≤ _; omega)
    refine ⟨((s.latch.advance 4).openReader total).finish, rfl, State.openReader_lbase .., State.openReader_llen .., fun _ => ?_,
      fun h => absurd h hfit⟩
    refine ⟨?_, State.openReader_mode .., ?_, State.openReader_chC .., State.openReader_rpad .., hpos, fun h => ?_, State.openReader_bacc ..,
      State.openReader_bn ..⟩
    · rw [State.finish_cmd, State.openReader_cmd]
      rfl
    · show ((s.latch.advance 4).openReader total).ch.chT.toNat = total
      rw [State.openReader_chT, BitVec.toNat_ofNat, Nat.mod_eq_of_lt hlt]
    · refine BitVec.eq_of_toNat_eq ?_
      show (((s.latch.advance 4).setPos (s.regs.sbase.toNat + 4)).ch.bpos).toNat = (s.regs.sbase.toNat + 4) % 2 ^ 32
      rw [State.setPos_bpos h, BitVec.toNat_ofNat]

/-! ### R_BITS -/

theorem exec_rBits {n : BitVec 6} {s : State} (hm : s.ch.mode = .read) (h : s.ch.chC.toNat + n.toNat ≤ s.ch.chT.toNat) :
    exec (.rBits n) s = ((readNat n.toNat 0 s).bind fun v t =>
      .ok () { t with res := { t.res with result := BitVec.ofNat 32 v } }).complete := by
  show execRBits n s = _
  rw [execRBits, requireMode_ok hm, Flow.bind_ok]
  simp only
  rw [if_neg (by omega)]

/-- Settles O40: the bits read are the number, which has at most 32 of them. -/
theorem rBitsResult : Obligations.RBitsResult := by
  intro s n hn hm hr
  refine ⟨fun hle ha hd => ?_, fun hlt => ?_⟩
  · obtain ⟨t, ht, hk, hrt, hat, hc, -⟩ := readNat_consumes n.toNat 0 s hr ha hle hd
    have hn32 : n.toNat ≤ 32 := by
      simp only [countOk, Bool.and_eq_true, decide_eq_true_eq] at hn
      exact hn.2
    have hlt : bitsToNat (s.ahead n.toNat) < 2 ^ 32 := by
      have := bitsToNat_lt (s.ahead n.toNat)
      rw [State.ahead, regionBits_length] at this
      exact this.trans_le (Nat.pow_le_pow_right (by decide) hn32)
    refine ⟨({ t with res := { t.res with result := BitVec.ofNat 32 (bitsToNat (s.ahead n.toNat)) } } : State).finish, ?_, ?_, ?_, hc,
      hk.2.1.trans hm, hrt, hat⟩
    · rw [exec_rBits hm hle, ht, Nat.zero_mul, Nat.zero_add]
      rfl
    · rw [State.finish_cmd]
      show { t.cmd with busy := false, done := true } = _
      rw [hk.1.2.1]
    · show (BitVec.ofNat 32 _).toNat = _
      rw [BitVec.toNat_ofNat, Nat.mod_eq_of_lt hlt]
  · show execRBits n s = _
    rw [execRBits, requireMode_ok hm, Flow.bind_ok]
    simp only
    rw [if_pos hlt]
    rfl

/-! ### R_MAGIC -/

/-- What `R_MAGIC` does with the bits it has read after the first 16 (R104). -/
def checkPad (p : Nat) (s : State) : Flow Unit :=
  if 7 < p ∨ s.ch.chT.toNat < s.ch.chC.toNat + p then .error .badPad s
  else .ok () { s with ch := { s.ch with rpad := BitVec.ofNat 3 p } }

theorem exec_rMagic {s : State} (hm : s.ch.mode = .read) (h : s.ch.chC.toNat + 24 ≤ s.ch.chT.toNat) :
    exec .rMagic s = ((readNat 16 0 s).bind fun m t =>
      if m ≠ 0x4846 then .error .badMagic t else (readNat 8 0 t).bind checkPad).complete := by
  show execRMagic s = _
  rw [execRMagic, requireMode_ok hm, Flow.bind_ok]
  simp only
  rw [if_neg (by omega)]
  rfl

/-- Settles O41: the 16 bits of the magic are read, then the 8 of the padding count. -/
theorem rMagicResult : Obligations.RMagicResult := by
  intro s hm hr ha left hd magic p
  by_cases hleft : left < 24
  · refine ⟨s.finishError .badLength, ?_, by rw [if_pos hleft]; exact ⟨rfl, rfl⟩⟩
    obtain ⟨-, hle, -⟩ := hr
    show execRMagic s = _
    rw [execRMagic, requireMode_ok hm, Flow.bind_ok]
    simp only
    rw [if_pos (by omega)]
    rfl
  rw [exec_rMagic hm (by omega)]
  simp only [if_neg hleft]
  replace hd := hd (by omega)
  obtain ⟨t, ht, hct⟩ := readNat_consumes 16 0 s hr ha (by omega) (Env.completes_mono hd (fetches_mono s.ch (by omega)))
  have hct' := hct
  obtain ⟨hk, hrt, hat, hc, henv⟩ := hct'
  obtain ⟨-, hmt, hlb, -, hT, hrpad, -, hmem⟩ := hk
  have hmagic : 0 * 2 ^ 16 + bitsToNat (s.ahead 16) = magic := by rw [Nat.zero_mul, Nat.zero_add]
  rw [ht, Flow.bind_ok, hmagic]
  by_cases hbad : magic ≠ 0x4846
  · simp only [if_pos hbad]
    exact ⟨_, rfl, by rw [State.finishError_cmd, hct.1.1.2.1], hc, hrpad⟩
  simp only [if_neg hbad]
  have hp : bitsToNat (t.ahead 8) = p := by
    show _ = bitsToNat ((s.ahead (16 + 8)).drop 16)
    rw [State.ahead, State.ahead, regionBits_add, List.drop_left' (regionBits_length ..), hmem, hlb, hc]
  have hd' : t.env.completes (t.ch.fetches 8) = true := by
    rw [← fetches_add s t 16 8 hc, Env.completes_add] at hd
    rw [henv]
    exact hd.2
  obtain ⟨u, hu, hku, -, -, hcu, -⟩ := readNat_consumes 8 0 t hrt hat (by rw [hc, hT]; omega) hd'
  obtain ⟨hku, -, -, -, hTu, hrpadu, -⟩ := hku
  have hcmd : u.cmd = s.cmd := hku.2.1.trans hct.1.1.2.1
  have hleft' : u.ch.chT.toNat < u.ch.chC.toNat + p ↔ left - 24 < p := by
    rw [hTu, hT, hcu, hc]
    omega
  rw [hu, hp, Nat.zero_mul, Nat.zero_add, Flow.bind_ok, checkPad]
  simp only [hleft']
  by_cases hpad : 7 < p ∨ left - 24 < p
  · simp only [if_pos hpad]
    exact ⟨_, rfl, by rw [State.finishError_cmd, hcmd], by show u.ch.chC.toNat = _; omega, hrpadu.trans hrpad⟩
  · simp only [if_neg hpad]
    refine ⟨_, rfl, ?_, by show u.ch.chC.toNat = _; omega, ?_⟩
    · rw [State.finish_cmd]
      show { u.cmd with busy := false, done := true } = _
      rw [hcmd]
    · show p % 8 = p
      omega

end Sys2Proof.Machine
end

section
/-! PROOFS. What `T_DESERIALIZE` accepts (41_tree_codec.md R91, R94): the serialized form of the tree it built. -/

namespace Sys2Proof.Machine

/-! ### The bits in front of the reader -/

/-- The bits in front of the reader up to the payload end. -/
def State.payload (s : State) : List Bool := s.ahead s.ch.bitsLeft

theorem State.payload_length (s : State) : s.payload.length = s.ch.bitsLeft := regionBits_length ..

/-- Bits read are the first of those in front of the reader. -/
theorem Reads.payload {s t : State} {q : List Bool} {k : Nat} (h : Reads s t q k) (ha : BufferAgrees s) (hq : q.length ≤ s.ch.bitsLeft) :
    s.payload = q ++ t.payload := by
  rw [State.payload, State.payload, h.bitsLeft, ← (h.bits ha).2, ← h.ahead]
  simp only [(h.bits ha).2]
  rw [Nat.add_sub_of_le hq]

theorem State.ahead_of_le {s : State} {n : Nat} (h : n ≤ s.ch.bitsLeft) : s.ahead n = s.payload.take n := by
  obtain ⟨m, hm⟩ := Nat.exists_eq_add_of_le h
  rw [State.payload, hm, State.ahead, State.ahead, regionBits_add, List.take_left' (regionBits_length ..)]

theorem State.treeAhead_iff {s : State} {sh : Shape} :
    s.treeAhead sh ↔ sh.legal = true ∧ sh.leaves.Nodup ∧ ∃ rest, s.payload = sh.bits ++ rest ∧ (sh.full = false → ∀ b ∈ rest, b = false) := by
  unfold State.treeAhead
  refine and_congr_right fun _ => and_congr_right fun _ => ⟨fun ⟨hle, hbits, htail⟩ => ?_, fun ⟨rest, hrest, htail⟩ => ?_⟩
  · refine ⟨s.payload.drop sh.cost, ?_, htail⟩
    rw [← hbits, State.ahead_of_le hle, List.take_append_drop]
  · have hlen := congrArg List.length hrest
    rw [State.payload_length, List.length_append, Shape.bits_length] at hlen
    refine ⟨by omega, ?_, fun hf => ?_⟩
    · rw [State.ahead_of_le (by omega), hrest, List.take_left' (Shape.bits_length sh)]
    · show ∀ b ∈ s.payload.drop sh.cost, b = false
      rw [hrest, List.drop_left' (Shape.bits_length sh)]
      exact htail hf

/-! ### What an accepted tree leaves -/

/-- `T_DESERIALIZE` has built the tree `sh` from the bits in front of the reader. -/
structure Deserialized (s : State) (sh : Shape) (t : State) : Prop where
  ahead : s.treeAhead sh
  keeps : ParseKeeps s.clearTree { t with tree := { t.tree with root := 511, alpha := 0, tvalid := false } }
  tvalid : t.tree.tvalid = true
  tree : TreeOk t
  shape : t.tree.shape = some sh
  root : t.tree.root = 0
  alpha : t.tree.alpha.toNat = sh.leaves.length
  unweighted : t.tree.node.Unweighted
  chC : t.ch.chC.toNat = s.ch.chC.toNat + sh.cost
  reader : ReaderOk t
  agrees : BufferAgrees t

theorem clearTree_unweighted (s : State) : s.clearTree.tree.node.Unweighted := by
  intro h n hn
  rw [State.clearTree_tree] at hn
  by_cases hnil : h = nilHandle
  · rw [hnil, Arena.of_nil] at hn
    cases hn
  · cases (blankArena_of hnil).symm.trans hn
    rfl

theorem ParsedRoot.deserialized {s t : State} {sh : Shape} {hp : Handle × Parse} (hr : ReaderOk s) (ha : BufferAgrees s)
    (ht : Took s.clearTree t sh.bits true) (h : ParsedRoot s.clearTree sh hp t) :
    Deserialized s sh (t.setTree hp.1 hp.2.seen.length) := by
  obtain ⟨hle, k, -, hreads⟩ := ht.reads hr
  have hpay : s.payload = sh.bits ++ t.payload := hreads.payload ha hle
  have hlen := length_le_of_nodup h.nodup
  refine ⟨State.treeAhead_iff.mpr ⟨h.legal, h.nodup, _, hpay, h.tail⟩, ?_, rfl, h.treeOk, ?_, h.root, ?_, h.unweighted (clearTree_unweighted s),
    ?_, hreads.reader, (hreads.bits ha).1⟩
  · obtain ⟨hregs, hcmd, hres, hcnt, hcodes, hturns, hlast, hmode, hlbase, hllen, hchT, hrpad, hfile, hmem, -⟩ := ht.keeps
    exact ⟨hregs, hcmd, hres, hcnt, hcodes, hturns, hlast, hmode, hlbase, hllen, hchT, hrpad, hfile, hmem, rfl⟩
  · rw [State.setTree_tree, h.root]
    exact h.at_root.shapeAt (Shape.levels_le_of_legal h.legal h.nodup)
  · show (BitVec.ofNat 9 hp.2.seen.length).toNat = _
    rw [h.seen, handle_toNat (by omega)]
  · rw [← Shape.bits_length]
    exact hreads.chC

/-- The parse of `T_DESERIALIZE` goes on with the tree it has read; whatever else it does, there is none. -/
theorem parseTree_deserialized {s : State} (hr : ReaderOk s) (ha : BufferAgrees s) :
    (parseTree s.clearTree).Post (fun _ t => ∃ sh, Deserialized s sh t)
      (fun e t => e = .badTree ∧ ParseKeeps s.clearTree t ∧ t.ch.chC.toNat ≤ s.ch.chC.toNat + s.ch.bitsLeft)
      (fun f _ t => f = .busError ∧ ParseKeeps s.clearTree t ∧ FailsWithin s t (s.ch.fetches s.ch.bitsLeft + s.ch.bitsLeft)) := by
  have hp := parseTree_post s.clearTree
  rw [parseTree_eq] at hp ⊢
  have ht := parseRoot_takes s.clearTree
  cases hx : parseRoot s.clearTree with
  | ok a t =>
    rw [hx] at ht
    obtain ⟨q, hq, sh, rfl, h⟩ := ht
    exact ⟨sh, h.deserialized hr ha hq⟩
  | error e t =>
    rw [hx] at ht hp
    obtain ⟨rfl, q, hq⟩ := ht
    obtain ⟨hle, k, -, hreads⟩ := hq.reads hr
    exact ⟨rfl, hq.keeps, by rw [hreads.chC]; exact Nat.add_le_add_left hle _⟩
  | raise f w t =>
    rw [hx] at ht hp
    obtain ⟨rfl, h⟩ := ht
    have hfail := (h hr).2
    rw [Bool.toNat_true, Nat.one_mul] at hfail
    exact ⟨rfl, hp.2.1, hfail⟩
  | stop r => trivial

/-- Settles O46: the bits of the tree that was built are those read. -/
theorem deserializeAcceptsOnlyForms : Obligations.DeserializeAcceptsOnlyForms := by
  intro s t hm hr ha ht hv
  rw [exec_tDeserialize_of_read hm] at ht
  split at ht
  · next hend =>
    cases ht
    exact ⟨fun _ => .inl ⟨rfl, rfl⟩, by rw [show (s.clearTree.setTree nilHandle 0).finish.ch.chC = s.ch.chC from rfl, Nat.sub_self]; rfl, hend.le⟩
  split at ht
  · cases ht
    cases hv
  rcases (parseTree_deserialized hr ha).complete ht with ⟨u, ⟨sh, hu⟩, rfl⟩ | ⟨e, u, ⟨-, hu, -⟩, rfl⟩ | ⟨f, w, u, ⟨-, hu, -⟩, rfl⟩
  · obtain ⟨-, -, hle, hbits, -⟩ := hu.ahead
    have hc : u.finish.ch.chC.toNat = s.ch.chC.toNat + sh.cost := hu.chC
    have hform : u.finish.tree.form = sh.bits := by
      show u.tree.form = _
      rw [Tree.form, if_neg (by rw [hu.root]; decide), hu.shape]
    refine ⟨hu.tree, ?_, ?_⟩
    · rw [hform, hc, Nat.add_sub_cancel_left]
      exact hbits
    · rw [Channel.bitsLeft_eq] at hle
      omega
  · have hv' : u.tree.tvalid = true := hv
    rw [hu.tree] at hv'
    cases hv'
  · have hv' : u.tree.tvalid = true := hv
    rw [hu.tree] at hv'
    cases hv'

end Sys2Proof.Machine
end

section
/-! PROOFS. The serialized form determines its tree, and no form continues another (41_tree_codec.md R88), and the parse
follows it: where it ends when the bits in front of the reader go on as a given form (R91, R94). -/

namespace Sys2Proof.Machine

/-! ### The form tells the tree -/

theorem bitsMsb_inj {n : Nat} {v v' : BitVec n} (h : bitsMsb n v = bitsMsb n v') : v = v' := by
  have hv := bitsToNat_bitsMsb n v
  rw [h, bitsToNat_bitsMsb, Nat.mod_eq_of_lt v.isLt, Nat.mod_eq_of_lt v'.isLt] at hv
  exact BitVec.eq_of_toNat_eq hv.symm

theorem Shape.bits_append_inj {l l' : Shape} (hl : l.full = true) (hl' : l'.full = true) {m m' : List Bool}
    (h : l.bits ++ m = l'.bits ++ m') : l = l' ∧ m = m' := by
  induction l generalizing l' m m' with
  | placeholder => cases hl
  | leaf y =>
    cases l' with
    | placeholder => cases hl'
    | inner a b => cases h
    | leaf y' =>
      obtain ⟨hy, hm⟩ := List.append_inj (List.cons_injective.eq_iff.mp h) (by simp)
      exact ⟨by rw [bitsMsb_inj hy], hm⟩
  | inner a b iha ihb =>
    cases l' with
    | placeholder => cases hl'
    | leaf y' => cases h
    | inner a' b' =>
      simp only [Shape.full, Bool.and_eq_true] at hl hl'
      simp only [Shape.bits, List.cons_append, List.append_assoc, List.cons.injEq, true_and] at h
      obtain ⟨rfl, hb⟩ := iha hl.1 hl'.1 h
      obtain ⟨rfl, hm⟩ := ihb hl.2 hl'.2 hb
      exact ⟨rfl, hm⟩

/-- Only the leaf of symbol 0 is all zeros. -/
theorem Shape.eq_of_zeros {l : Shape} (hl : l.full = true) (h : ∀ b ∈ l.bits, b = false) : l = .leaf 0 := by
  cases l with
  | placeholder => cases hl
  | inner a b => cases h true (by simp [Shape.bits])
  | leaf y =>
    have hz : bitsMsb 8 y = bitsMsb 8 (0 : Byte) := by
      rw [show bitsMsb 8 (0 : Byte) = List.replicate 8 false by decide, List.eq_replicate_iff]
      exact ⟨bitsMsb_length .., fun b hb => h b (List.mem_cons_of_mem _ hb)⟩
    rw [bitsMsb_inj hz]

/-- Behind the form of the A = 1 tree with zeros after it lies no other tree's. -/
theorem Shape.not_full_of_zeros {y : Byte} {sh : Shape} (hf : sh.full = true) (hd : sh.leaves.Nodup) {m m' : List Bool}
    (hz : ∀ b ∈ m', b = false) : sh.bits ++ m ≠ (Shape.inner (.leaf y) .placeholder).bits ++ m' := by
  intro h
  cases sh with
  | placeholder => cases hf
  | leaf y' => cases h
  | inner l r =>
    simp only [Shape.full, Bool.and_eq_true] at hf
    replace h : l.bits ++ (r.bits ++ m) = (Shape.leaf y).bits ++ (true :: m') := by
      simpa [Shape.bits] using h
    obtain ⟨rfl, hr⟩ := Shape.bits_append_inj hf.1 rfl h
    clear h
    cases r with
    | placeholder => exact absurd hf.2 (by decide)
    | leaf y' => cases hr
    | inner a b =>
      simp only [Shape.full, Bool.and_eq_true] at hf
      simp only [Shape.bits, List.cons_append, List.append_assoc, List.cons.injEq, true_and] at hr
      rw [← hr] at hz
      have ha := Shape.eq_of_zeros hf.2.1 fun c hc => hz c (List.mem_append_left _ hc)
      have hb := Shape.eq_of_zeros hf.2.2 fun c hc => hz c (List.mem_append_right _ (List.mem_append_left _ hc))
      subst ha hb
      simp [Shape.leaves] at hd

theorem State.treeAhead_unique {s : State} {sh sh' : Shape} (h : s.treeAhead sh) (h' : s.treeAhead sh') : sh = sh' := by
  obtain ⟨hl, hd, m, hm, hz⟩ := State.treeAhead_iff.mp h
  obtain ⟨hl', hd', m', hm', hz'⟩ := State.treeAhead_iff.mp h'
  have hmm := hm.symm.trans hm'
  obtain ⟨y, rfl⟩ | ⟨hf, -⟩ := Shape.legal_cases hl <;> obtain ⟨y', rfl⟩ | ⟨hf', -⟩ := Shape.legal_cases hl'
  · simp only [Shape.bits, List.cons_append, List.append_assoc, List.cons.injEq, true_and] at hmm
    rw [bitsMsb_inj (List.append_inj_left hmm (by simp))]
  · exact absurd hmm.symm (Shape.not_full_of_zeros hf' hd' (hz rfl))
  · exact absurd hmm (Shape.not_full_of_zeros hf hd (hz' rfl))
  · exact (Shape.bits_append_inj hf hf' hmm).1

/-! ### Bits that go on as given ones, as far as they go -/

/-- The two strings begin alike: one is the start of the other. -/
def Meets (L p : List Bool) : Prop := ∃ m, L <+: m ∧ p <+: m

section
variable {L p q r : List Bool}

theorem Meets.left (h : Meets L (p ++ r)) : Meets L p := by
  obtain ⟨m, hL, hp⟩ := h
  exact ⟨m, hL, (List.prefix_append p r).trans hp⟩

theorem Meets.drop (h : Meets (q ++ L) (q ++ p)) : Meets L p := by
  obtain ⟨m, ⟨a, rfl⟩, b, hb⟩ := h
  simp only [List.append_assoc, List.append_cancel_left_eq] at hb
  exact ⟨L ++ a, List.prefix_append .., b, hb⟩

theorem Meets.eq_of_length (h : Meets (q ++ L) (p ++ r)) (hlen : q.length = p.length) : q = p := by
  obtain ⟨m, ⟨a, rfl⟩, b, hb⟩ := h
  simp only [List.append_assoc] at hb
  exact (List.append_inj_left hb hlen.symm).symm

theorem Meets.eq_of_full {sh sh' : Shape} (h : Meets (sh'.bits ++ L) (sh.bits ++ r)) (hf : sh.full = true) (hf' : sh'.full = true) :
    sh' = sh := by
  obtain ⟨m, ⟨a, rfl⟩, b, hb⟩ := h
  simp only [List.append_assoc] at hb
  exact (Shape.bits_append_inj hf hf' hb).1.symm

theorem Meets.of_prefix (h : p <+: L) : Meets L p := ⟨L, List.prefix_rfl, h⟩

theorem Meets.of_prefix' (h : L <+: p) : Meets L p := ⟨p, h, List.prefix_rfl⟩

end

/-! ### A piece of the parse along given bits -/

/-- How a piece that would read `n` bits and makes up to `m` accesses more can end early: with an error after `k` bits, at the payload end
or for the reason `early k`; or at an access that fails. -/
def Flow.Follows {α : Type} (s : State) (n m : Nat) (early : Nat → Prop) (x : Flow α) : Prop :=
  x.Post (fun _ _ => True) (fun _ t => ∃ k, t.ch.chC.toNat = s.ch.chC.toNat + k ∧ (k = s.ch.bitsLeft ∧ k < n ∨ early k))
    (fun _ _ t => FailsWithin s t (s.ch.fetches n + m))

section
variable {α β : Type} {s t : State} {n n' m m' : Nat} {early early' : Nat → Prop}

theorem Flow.follows_ok (a : α) : (Flow.ok a t).Follows s n m early := trivial

theorem Flow.follows_error {e : ErrCode} (h : early 0) : (Flow.error e s : Flow α).Follows s n m early := ⟨0, rfl, .inr h⟩

theorem Flow.Follows.mono {x : Flow α} (h : x.Follows s n m early) (hn : n ≤ n') (hm : m ≤ m') (he : ∀ k, early k → early' k) :
    x.Follows s n' m' early' :=
  Flow.Post.mono h (fun _ _ => id) (fun _ _ ⟨k, hk, hor⟩ => ⟨k, hk, hor.imp (fun ⟨h, h'⟩ => ⟨h, h'.trans_le hn⟩) (he k)⟩)
    fun _ _ _ hf => hf.mono (Nat.add_le_add (fetches_mono _ hn) hm)

/-- The bits `q` are read and `j` accesses more made. -/
structure Advanced (s t : State) (q : List Bool) (j : Nat) : Prop where
  reads : Reads s t q j
  le : q.length ≤ s.ch.bitsLeft

theorem Advanced.left {q : List Bool} {j : Nat} (h : Advanced s t q j) : t.ch.bitsLeft = s.ch.bitsLeft - q.length := h.reads.bitsLeft

/-- What follows a piece. -/
theorem Flow.Follows.after {x : Flow α} {q : List Bool} {j : Nat} (ht : Advanced s t q j)
    (h : x.Follows t n m fun k => early (q.length + k)) : x.Follows s (q.length + n) (j + m) early := by
  have hleft := ht.left
  have hle := ht.le
  refine Flow.Post.mono h (fun _ _ => id) (fun e u ⟨k, hk, hor⟩ => ⟨q.length + k, ?_, ?_⟩) fun f w u hu => ?_
  · rw [hk, ht.reads.chC, Nat.add_assoc]
  · exact hor.imp_left fun ⟨h₁, h₂⟩ => ⟨by omega, by omega⟩
  · refine ht.reads.failsWithin hu ?_
    have hadd := fetches_add s t q.length n ht.reads.chC
    omega

theorem Flow.Follows.bind {x : Flow α} {k : α → State → Flow β} (h : x.Follows s n m early)
    (hk : ∀ a t, x = .ok a t → (k a t).Follows s n m early) : (x.bind k).Follows s n m early := by
  cases x with
  | ok a t => exact hk a t rfl
  | error e t => exact h
  | raise f w t => exact h
  | stop r => exact h

theorem Flow.Takes.advanced {x : Flow α} {a : α} {b : Bool} {ok : α → State → List Bool → Prop} (h : x.Takes s b ok) (hr : ReaderOk s)
    (hx : x = .ok a t) : ∃ q j, Advanced s t q j ∧ j ≤ b.toNat * s.ch.bitsLeft ∧ ok a t q := by
  obtain ⟨q, hq, ha⟩ := Flow.Post.of_ok h hx
  obtain ⟨hle, j, hj, hreads⟩ := hq.reads hr
  exact ⟨q, j, ⟨hreads, hle⟩, hj, ha⟩

/-- A piece that makes no accesses more. -/
theorem Flow.Takes.advanced₀ {x : Flow α} {a : α} {ok : α → State → List Bool → Prop} (h : x.Takes s false ok) (hr : ReaderOk s)
    (hx : x = .ok a t) : ∃ q, Advanced s t q 0 ∧ ok a t q := by
  obtain ⟨q, j, hq, hj, ha⟩ := h.advanced hr hx
  rw [Bool.toNat_false, Nat.zero_mul, Nat.le_zero] at hj
  exact ⟨q, hj ▸ hq, ha⟩

end

section
variable {s : State}

theorem treeBit_follows (hr : ReaderOk s) (early : Nat → Prop) : (treeBit s).Follows s 1 0 early := by
  have ht := treeBit_takes s
  unfold treeBit at ht ⊢
  split at ht
  · next hend =>
    rw [if_pos hend]
    refine ⟨0, rfl, .inl ⟨?_, by decide⟩⟩
    unfold Channel.bitsLeft
    omega
  · next hend =>
    rw [if_neg hend]
    exact (readBit_ensures hr (ReaderOk.chC_lt_of_left (not_le.mp hend))).1.mono (fun _ _ _ => trivial) (fun _ _ => False.elim)
      fun f w t h => h.2.2

/-- The first bit is the one that is there. -/
theorem treeBit_advanced {b c : Bool} {t : State} {r : List Bool} (hr : ReaderOk s) (ha : BufferAgrees s) (hm : Meets s.payload (c :: r))
    (hx : treeBit s = .ok b t) : b = c ∧ Advanced s t [b] 0 ∧ t.tree = s.tree ∧ Meets t.payload r := by
  obtain ⟨q, hadv, rfl, ht⟩ := (treeBit_takes s).advanced₀ hr hx
  rw [hadv.reads.payload ha hadv.le] at hm
  have hb : [b] = [c] := hm.eq_of_length (p := [c]) (r := r) rfl
  cases hb
  exact ⟨rfl, hadv, ht, hm.drop⟩

theorem treeBits_follows (n v : Nat) (hr : ReaderOk s) (early : Nat → Prop) : (treeBits n v s).Follows s n 0 early := by
  induction n generalizing v s early with
  | zero => exact Flow.follows_ok _
  | succ n ih =>
    refine ((treeBit_follows hr early).mono (by omega) le_rfl fun _ => id).bind fun b t hx => ?_
    obtain ⟨q, hadv, rfl, -⟩ := (treeBit_takes s).advanced₀ hr hx
    exact ((ih _ hadv.reads.reader _).after hadv).mono (by simp; omega) le_rfl fun _ => id

theorem allocNode_follows {k : Kind} {sym : Byte} {p : Parse} {n m : Nat} {early : Nat → Prop} (h : p.nalloc = 511 → early 0) :
    (allocNode k sym p s).Follows s n m early := by
  unfold allocNode
  split
  · next hfull => exact Flow.follows_error (h hfull)
  · exact Flow.follows_ok _

end

end Sys2Proof.Machine
end

section
/-! PROOFS. The parse along the form of a tree (41_tree_codec.md R91, R93 to R95). -/

namespace Sys2Proof.Machine

/-! ### Reading until a symbol repeats -/

theorem Shape.readUntilRepeat_of_nodup {sh : Shape} {seen : List Byte} (h : (sh.leaves.reverse ++ seen).Nodup) :
    sh.readUntilRepeat seen = (sh.cost, some (sh.leaves.reverse ++ seen)) := by
  induction sh generalizing seen with
  | placeholder => rfl
  | leaf y =>
    have hy : y ∉ seen := (List.nodup_cons.mp h).1
    simp [Shape.readUntilRepeat, Shape.cost, Shape.leaves, hy]
  | inner l r ihl ihr =>
    simp only [Shape.leaves, List.reverse_append, List.append_assoc] at h
    simp only [Shape.readUntilRepeat, ihl h.of_append_right, ihr h, Shape.cost, Shape.leaves, List.reverse_append, List.append_assoc]

/-- Why the parse of `sh` ends after `k` bits before the payload end: a symbol repeats, or the arena is full. -/
def Shape.Early (sh : Shape) (p : Parse) (k : Nat) : Prop := sh.readUntilRepeat p.seen = (k, none) ∨ 511 < p.nalloc + sh.nodes

/-- The same of two subtrees read one after the other. -/
def PairEarly (l r : Shape) (p : Parse) (k : Nat) : Prop :=
  (Shape.inner l r).readUntilRepeat p.seen = (1 + k, none) ∨ 511 < p.nalloc + l.nodes + r.nodes

theorem Shape.Early.left {l : Shape} {p : Parse} {k : Nat} (h : l.Early p k) (r : Shape) : PairEarly l r p k := by
  rcases h with h | h
  · exact .inl (by rw [Shape.readUntilRepeat, h])
  · exact .inr (by omega)

theorem Shape.Early.right {l r : Shape} {p p' : Parse} {k : Nat} (h : r.Early p' k) (hn : p'.nalloc = p.nalloc + l.nodes)
    (hseen : p'.seen = l.leaves.reverse ++ p.seen) (hd : p'.seen.Nodup) : PairEarly l r p (l.cost + k) := by
  rcases h with h | h
  · rw [hseen] at h hd
    refine .inl ?_
    rw [Shape.readUntilRepeat, Shape.readUntilRepeat_of_nodup hd]
    simp only
    rw [h, Nat.add_assoc]
  · exact .inr (by omega)

theorem PairEarly.inner {l r : Shape} {p : Parse} {k : Nat} (h : PairEarly l r { p with nalloc := p.nalloc + 1 } k) :
    (Shape.inner l r).Early p (1 + k) := by
  rcases h with h | h
  · exact .inl h
  · exact .inr (by simp only [Shape.nodes] at h ⊢; omega)

theorem Shape.nodes_pos (sh : Shape) : 1 ≤ sh.nodes := by cases sh <;> simp [Shape.nodes]; omega

/-! ### Leaves and nodes -/

section
variable {s t : State} {p : Parse}

theorem parseLeaf_follows {y : Byte} (hr : ReaderOk s) (ha : BufferAgrees s) (hm : Meets s.payload (bitsMsb 8 y)) :
    (parseLeaf p s).Follows s 8 0 fun k => (k = 8 ∧ y ∈ p.seen) ∨ p.nalloc = 511 := by
  refine (treeBits_follows 8 0 hr _).bind fun v t hx => ?_
  obtain ⟨q, hadv, hq, rfl, -⟩ := (treeBits_takes 8 0 s).advanced₀ hr hx
  rw [hadv.reads.payload ha hadv.le] at hm
  obtain rfl : q = bitsMsb 8 y := Meets.eq_of_length (L := t.payload) (r := []) (by rwa [List.append_nil]) (by rw [hq, bitsMsb_length])
  have hy : BitVec.ofNat 8 (0 * 2 ^ 8 + bitsToNat (bitsMsb 8 y)) = y := by
    rw [bitsToNat_bitsMsb, Nat.mod_eq_of_lt y.isLt]
    simp
  simp only [hy]
  refine (Flow.Follows.after (n := 0) (m := 0) hadv ?_).mono (by simp) le_rfl fun _ => id
  split
  · next hmem => exact Flow.follows_error (.inl ⟨by simp, hmem⟩)
  · exact allocNode_follows .inr

theorem Advanced.payload {q : List Bool} {j : Nat} (h : Advanced s t q j) (ha : BufferAgrees s) : s.payload = q ++ t.payload :=
  h.reads.payload ha h.le

theorem setLeft_payload (s : State) (h c : Handle) : (s.setLeft h c).payload = s.payload := by
  simp [State.payload, State.ahead]

/-- A piece that touches the arena only, then more. -/
theorem Advanced.then_arena {u : State} {q : List Bool} {j : Nat} (h : Advanced s t q j) (hu : Took t u [] false) : Advanced s u q j := by
  obtain ⟨-, i, hi, hreads⟩ := hu.reads h.reads.reader
  simp only [Bool.toNat_false, Nat.zero_mul, Nat.le_zero] at hi
  subst hi
  have := h.reads.trans hreads
  rw [List.append_nil] at this
  exact ⟨this, h.le⟩

/-- What a subtree read along the form of `l` leaves. -/
theorem parseNode_advanced {d : Nat} {l : Shape} {hl : Handle × Parse} {r : List Bool} (hf : l.full = true) (hr : ReaderOk s)
    (ha : BufferAgrees s) (hp : p.nalloc ≤ 511) (hm : Meets s.payload (l.bits ++ r)) (hx : parseNode d p s = .ok hl t) :
    Advanced s t l.bits 0 ∧ ParsedTree s p l hl t ∧ Meets t.payload r := by
  obtain ⟨q, hadv, sh, hsh, rfl, ht⟩ := (parseNode_takes d p s hp).advanced₀ hr hx
  rw [hadv.payload ha] at hm
  obtain rfl := hm.eq_of_full hf hsh
  exact ⟨hadv, ht, hm.drop⟩

/-- What the parse of a subtree does along a form. -/
def FollowsNode (d : Nat) : Prop :=
  ∀ (sh : Shape) (p : Parse) (s : State), sh.full = true → ReaderOk s → BufferAgrees s → p.nalloc ≤ 511 → p.seen.Nodup →
    Meets s.payload sh.bits → (parseNode d p s).Follows s sh.cost 0 (sh.Early p)

/-- The first subtree, then whatever reads the second. -/
theorem pair_follows {d : Nat} (hd : FollowsNode d) {l r : Shape} {h : Handle} {right : Parse → State → Flow (Handle × Parse)} {m : Nat}
    {g : Handle × Parse → State → Flow (Handle × Parse)} (hg : ∀ a t, ∃ b u, g a t = .ok b u)
    (hl : l.full = true) (hr : ReaderOk s) (ha : BufferAgrees s) (hp : p.nalloc ≤ 511) (hn : p.seen.Nodup)
    (hm : Meets s.payload (l.bits ++ r.bits))
    (hright : ∀ (hl : Handle × Parse) (t : State), Advanced s t l.bits 0 → ParsedTree s p l hl t → Meets t.payload r.bits → hl.2.seen.Nodup →
      (right hl.2 (t.setLeft h hl.1)).Follows (t.setLeft h hl.1) r.cost m (r.Early hl.2)) :
    ((parseNode d p s).bind fun a t => (right a.2 (t.setLeft h a.1)).bind g).Follows s (l.cost + r.cost) m (PairEarly l r p) := by
  refine ((hd l p s hl hr ha hp hn hm.left).mono (by omega) (Nat.zero_le _) fun k hk => hk.left r).bind fun a t hx => ?_
  obtain ⟨hadv, ht, hmt⟩ := parseNode_advanced hl hr ha hp hm hx
  have hnt := ht.1.nodup hn
  have hboth := Flow.Follows.after (early := PairEarly l r p) (hadv.then_arena (setLeft_took t h a.1))
    ((hright a t hadv ht hmt hnt).mono le_rfl le_rfl fun k hk => by
      rw [Shape.bits_length]
      exact hk.right ht.1.nalloc ht.1.seen hnt)
  rw [Shape.bits_length, Nat.zero_add] at hboth
  refine hboth.bind fun b u _ => ?_
  obtain ⟨c, v, hgc⟩ := hg b u
  rw [hgc]
  exact Flow.follows_ok _

theorem parsePair_follows {d : Nat} (hd : FollowsNode d) {l r : Shape} (h : Handle) (hl : l.full = true) (hrf : r.full = true)
    (hr : ReaderOk s) (ha : BufferAgrees s) (hp : p.nalloc ≤ 511) (hn : p.seen.Nodup) (hm : Meets s.payload (l.bits ++ r.bits)) :
    (parsePair d h p s).Follows s (l.cost + r.cost) 0 (PairEarly l r p) := by
  refine pair_follows hd (right := parseNode d) (fun _ _ => ⟨_, _, rfl⟩) hl hr ha hp hn hm fun a t hadv ht hmt hnt => ?_
  exact hd r a.2 _ hrf (setLeft_readerOk hadv.reads.reader _ _) (by simpa [BufferAgrees] using (hadv.reads.bits ha).1) ht.1.room hnt
    (by rwa [setLeft_payload])

/-- A node allocated, then its two subtrees. -/
theorem allocNode_bind_follows {l r : Shape} {m : Nat} {k : Handle × Parse → State → Flow (Handle × Parse)} (hr : ReaderOk s)
    (hp : p.nalloc ≤ 511)
    (hk : ∀ (a : Handle × Parse) (t : State), a = (BitVec.ofNat 9 p.nalloc, { p with nalloc := p.nalloc + 1 }) → p.nalloc < 511 →
      t = s.setNode (BitVec.ofNat 9 p.nalloc) { kind := .inner, sym := 0, left := nilHandle, right := nilHandle, freq := 0 } →
        (k a t).Follows t (l.cost + r.cost) m (PairEarly l r { p with nalloc := p.nalloc + 1 })) :
    ((allocNode .inner 0 p s).bind k).Follows s (l.cost + r.cost) m fun k => (Shape.inner l r).Early p (1 + k) := by
  have hpos := Shape.nodes_pos (.inner l r)
  refine (allocNode_follows fun hfull => .inr (by omega)).bind fun a t hx => ?_
  obtain ⟨q, hadv, rfl, ha, hlt, ht⟩ := (allocNode_takes .inner 0 hp s).advanced₀ hr hx
  refine (Flow.Follows.after hadv ((hk a t ha hlt ht).mono le_rfl le_rfl fun i hi => ?_)).mono (by simp) (by omega) fun _ => id
  rw [List.length_nil, Nat.zero_add]
  exact hi.inner

theorem allocNode_bind_parsePair_follows {d : Nat} (hd : FollowsNode d) {l r : Shape} (hl : l.full = true) (hrf : r.full = true)
    (hr : ReaderOk s) (ha : BufferAgrees s) (hp : p.nalloc ≤ 511) (hn : p.seen.Nodup) (hm : Meets s.payload (l.bits ++ r.bits)) :
    ((allocNode .inner 0 p s).bind fun a t => parsePair d a.1 a.2 t).Follows s (l.cost + r.cost) 0
      fun k => (Shape.inner l r).Early p (1 + k) := by
  refine allocNode_bind_follows hr hp ?_
  rintro _ _ rfl hlt rfl
  exact parsePair_follows hd _ hl hrf hr ha hlt hn hm

theorem parseNode_follows (d : Nat) : FollowsNode d := by
  induction d with
  | zero => exact fun _ _ _ _ _ _ _ _ _ => trivial
  | succ d ih =>
    intro sh p s hf hr ha hp hn hm
    rw [parseNode_succ]
    cases sh with
    | placeholder => cases hf
    | leaf y =>
      refine ((treeBit_follows hr _).mono (by simp [Shape.cost]) le_rfl fun _ => id).bind fun b t hx => ?_
      obtain ⟨rfl, hadv, -, hmt⟩ := treeBit_advanced hr ha hm hx
      refine (Flow.Follows.after hadv ((parseLeaf_follows hadv.reads.reader (hadv.reads.bits ha).1 hmt).mono le_rfl le_rfl ?_)).mono le_rfl
        le_rfl fun _ => id
      rintro k (⟨rfl, hmem⟩ | hfull)
      · exact .inl (by simp [Shape.readUntilRepeat, hmem])
      · exact .inr (by simp [Shape.nodes, hfull])
    | inner l r =>
      simp only [Shape.full, Bool.and_eq_true] at hf
      refine ((treeBit_follows hr _).mono (by simp only [Shape.cost]; omega) le_rfl fun _ => id).bind fun b t hx => ?_
      obtain ⟨rfl, hadv, -, hmt⟩ := treeBit_advanced hr ha hm hx
      exact (Flow.Follows.after hadv
        (allocNode_bind_parsePair_follows ih hf.1 hf.2 hadv.reads.reader (hadv.reads.bits ha).1 hp hn hmt)).mono
          (by simp only [Shape.cost, List.length_singleton]; omega) le_rfl fun _ => id

/-! ### The root -/

theorem placeholderAhead_follows (r : Handle) (hr : ReaderOk s) (n : Nat) (early : Nat → Prop) :
    (placeholderAhead r s).Follows s n s.ch.bitsLeft early := by
  unfold placeholderAhead
  split
  · exact (peekZero_reads s.ch.bitsLeft s.ch.chC.toNat hr).mono (fun _ _ _ => trivial) (fun _ _ => False.elim)
      fun f w t h => h.2.2.mono (by omega)
  · exact Flow.follows_ok _

/-- What lies in front of the right subtree of the root: the form of a full tree, or the placeholder's bit behind a leaf and zeros. -/
def RightAhead (s : State) (h : Handle) (r : Shape) : Prop :=
  (r.full = true ∧ Meets s.payload r.bits) ∨
    (r = .placeholder ∧ s.tree.node.leftIsLeaf h = true ∧ ∃ rest, s.payload = true :: rest ∧ ∀ b ∈ rest, b = false)

theorem parseRootRight_follows {r : Shape} {h : Handle} (hr : ReaderOk s) (ha : BufferAgrees s) (hp : p.nalloc ≤ 511) (hn : p.seen.Nodup)
    (hright : RightAhead s h r) : (parseRootRight h p s).Follows s r.cost s.ch.bitsLeft (r.Early p) := by
  have hcost : 1 ≤ r.cost := by cases r <;> simp [Shape.cost]; omega
  refine ((treeBit_follows hr _).mono hcost (Nat.zero_le _) fun _ => id).bind fun b t hx => ?_
  have hafter {x : Flow (Handle × Parse)} {n : Nat} (hadv : Advanced s t [b] 0) (hn : 1 + n ≤ r.cost)
      (hf : x.Follows t n t.ch.bitsLeft fun k => r.Early p (1 + k)) : x.Follows s r.cost s.ch.bitsLeft (r.Early p) := by
    have hleft := hadv.left
    exact (Flow.Follows.after hadv hf).mono hn (by omega) fun _ => id
  rcases hright with ⟨hrf, hm⟩ | ⟨rfl, hleaf, rest, hpay, hzero⟩
  · cases r with
    | placeholder => cases hrf
    | leaf y =>
      obtain ⟨rfl, hadv, -, hmt⟩ := treeBit_advanced hr ha hm hx
      refine hafter hadv (n := 8) le_rfl ((parseLeaf_follows hadv.reads.reader (hadv.reads.bits ha).1 hmt).mono le_rfl (Nat.zero_le _) ?_)
      rintro k (⟨rfl, hmem⟩ | hfull)
      · exact .inl (by simp [Shape.readUntilRepeat, hmem])
      · exact .inr (by simp [Shape.nodes, hfull])
    | inner l r =>
      simp only [Shape.full, Bool.and_eq_true] at hrf
      obtain ⟨rfl, hadv, -, hmt⟩ := treeBit_advanced hr ha hm hx
      have hrt := hadv.reads.reader
      have hat := (hadv.reads.bits ha).1
      refine hafter hadv (n := l.cost + r.cost) (by simp only [Shape.cost]; omega) ?_
      refine (placeholderAhead_follows h hrt _ _).bind fun z u hz => ?_
      obtain ⟨q, j, hu, hj, rfl, -⟩ := (placeholderAhead_takes h t).advanced hrt hz
      rw [hu.payload hat, List.nil_append] at hmt
      have hm' : j + 0 ≤ t.ch.bitsLeft := by rw [Bool.toNat_true, Nat.one_mul] at hj; exact hj
      refine (Flow.Follows.after hu (m := 0) (n := l.cost + r.cost) ?_).mono (by simp) hm' fun _ => id
      simp only [List.length_nil, Nat.zero_add]
      split
      · refine allocNode_follows fun hfull => .inr ?_
        have := Shape.nodes_pos (.inner l r)
        omega
      · exact allocNode_bind_parsePair_follows (parseNode_follows parseLevels) hrf.1 hrf.2 hu.reads.reader (hu.reads.bits hat).1 hp hn hmt
  · obtain ⟨rfl, hadv, htree, -⟩ := treeBit_advanced hr ha (c := true) (r := rest) ⟨_, List.prefix_rfl, hpay ▸ List.prefix_rfl⟩ hx
    have hrt := hadv.reads.reader
    have hat := (hadv.reads.bits ha).1
    have hpt : t.payload = rest := by
      have := hadv.payload ha
      rw [hpay] at this
      exact (List.cons_injective.eq_iff.mp this).symm
    refine hafter hadv (n := 0) le_rfl ((placeholderAhead_follows h hrt _ _).bind fun z u hz => ?_)
    obtain ⟨q, j, hu, hj, rfl, -, hiff⟩ := (placeholderAhead_takes h t).advanced hrt hz
    have hpu := hu.payload hat
    rw [List.nil_append, hpt] at hpu
    have hz' : z = true := hiff.mpr ⟨by rw [htree]; exact hleaf, fun b hb => hzero b (by rw [hpu]; exact hb)⟩
    have hm' : j + 0 ≤ t.ch.bitsLeft := by rw [Bool.toNat_true, Nat.one_mul] at hj; exact hj
    refine (Flow.Follows.after hu (m := 0) (n := 0) ?_).mono le_rfl hm' fun _ => id
    rw [if_pos hz']
    exact allocNode_follows fun hfull => .inr (by simp [Shape.nodes, hfull])

end

end Sys2Proof.Machine
end

section
/-! PROOFS. `T_DESERIALIZE` on the form of a tree, and on bits that no tree HUFFCORE holds starts (41_tree_codec.md R93 to R95). -/

namespace Sys2Proof.Machine

section
variable {s : State}

/-- The bits in front of the reader go on as the form of `inner l r`, as far as they go; behind the placeholder they are zeros. -/
def RootAhead (s : State) (l r : Shape) : Prop :=
  l.full = true ∧ Meets s.payload (Shape.inner l r).bits ∧
    (r.full = true ∨
      (r = .placeholder ∧ (∃ y, l = .leaf y) ∧ ∃ rest, s.payload = (Shape.inner l r).bits ++ rest ∧ ∀ b ∈ rest, b = false))

theorem Shape.At.isLeaf_of_leaf {t : Arena} {lo hi : Nat} {y : Byte} {h : Handle} (hat : (Shape.leaf y).At t lo hi h) : t.isLeaf h = true := by
  obtain ⟨-, -, n, hn, hk, -⟩ := hat
  simp [Arena.isLeaf, hn, hk]

/-- The left child of the root, once set, is the leaf read. -/
theorem ParsedTree.leftIsLeaf {s t : State} {h : Handle} {n : Node} {p : Parse} {y : Byte} {hl : Handle × Parse}
    (hn : s.tree.node.of h = some n) (hh : h.toNat < p.nalloc) (ht : ParsedTree s p (.leaf y) hl t) :
    (t.setLeft h hl.1).tree.node.leftIsLeaf h = true := by
  obtain ⟨-, hle, hat, hbelow⟩ := ht
  obtain ⟨hset, hother⟩ := setLeft_of ((hbelow h hh).trans hn) hl.1
  rw [Arena.leftIsLeaf_of hset]
  refine (hat.congr (lo' := 0) (fun z hz _ => hother z ?_) (Nat.zero_le _) le_rfl).isLeaf_of_leaf
  rintro rfl
  omega

theorem parseRoot_follows {l r : Shape} (hr : ReaderOk s) (ha : BufferAgrees s) (h : RootAhead s l r) :
    (parseRoot s).Follows s (Shape.inner l r).cost s.ch.bitsLeft ((Shape.inner l r).Early { nalloc := 0, seen := [] }) := by
  obtain ⟨hl, hm, hright⟩ := h
  refine ((treeBit_follows hr _).mono (by simp only [Shape.cost]; omega) (Nat.zero_le _) fun _ => id).bind fun b t hx => ?_
  obtain ⟨rfl, hadv, htree, hmt⟩ := treeBit_advanced hr ha hm hx
  have hrt := hadv.reads.reader
  have hat := (hadv.reads.bits ha).1
  have hleft := hadv.left
  rw [if_pos rfl]
  refine (Flow.Follows.after hadv (m := t.ch.bitsLeft) (allocNode_bind_follows (p := { nalloc := 0, seen := [] }) hrt (Nat.zero_le _) ?_)).mono
    (by simp only [Shape.cost, List.length_singleton]; omega) (by omega) fun _ => id
  rintro _ u rfl - hu
  have hroot : u.tree.node.of 0 = some { kind := .inner, sym := 0, left := nilHandle, right := nilHandle, freq := 0 } := by
    rw [hu]
    exact (Arena.of_put _ _ _ _).trans (if_pos ⟨rfl, by decide⟩)
  have hch : u.ch = t.ch := by rw [hu]; rfl
  have hmem : u.mem = t.mem := by rw [hu]; rfl
  have hpay : u.payload = t.payload := by rw [State.payload, State.payload, State.ahead, State.ahead, hch, hmem]
  have hru : ReaderOk u := by unfold ReaderOk; rw [hch]; exact hrt
  have hau : BufferAgrees u := by unfold BufferAgrees; rw [hch, hmem]; exact hat
  refine pair_follows (parseNode_follows parseLevels) (right := parseRootRight 0) (fun _ _ => ⟨_, _, rfl⟩) hl hru hau (by decide)
    List.nodup_nil (hpay ▸ hmt) fun a v hv htv hmv hnv => ?_
  have hvu : v.ch.bitsLeft ≤ t.ch.bitsLeft := by
    rw [hv.left, hch]
    exact Nat.sub_le ..
  refine (parseRootRight_follows (setLeft_readerOk hv.reads.reader _ _) (by simpa [BufferAgrees] using (hv.reads.bits hau).1) htv.1.room hnv
    ?_).mono le_rfl (by rwa [State.setLeft_ch]) fun _ => id
  rcases hright with hrf | ⟨rfl, ⟨y, rfl⟩, rest, hrest, hzero⟩
  · exact .inl ⟨hrf, by rwa [setLeft_payload]⟩
  · refine .inr ⟨rfl, htv.leftIsLeaf hroot (by decide), rest, ?_, hzero⟩
    rw [setLeft_payload]
    have h₁ : s.payload = [true] ++ t.payload := hadv.payload ha
    rw [hrest, ← hpay, hv.payload hau] at h₁
    simpa [Shape.bits] using h₁.symm

/-! ### The form of a tree in front of the reader -/

theorem Shape.nodes_le_of_legal {sh : Shape} (h : sh.legal = true) (hd : sh.leaves.length ≤ 256) : sh.nodes ≤ 511 := by
  obtain ⟨y, rfl⟩ | ⟨hf, -⟩ := Shape.legal_cases h
  · simp [Shape.nodes]
  · have := Shape.nodes_of_full hf
    omega

/-- Nothing but the payload end or a failed access stops the parse of a tree HUFFCORE holds. -/
theorem Shape.not_early {sh : Shape} (h : sh.legal = true) (hd : sh.leaves.Nodup) (k : Nat) : ¬sh.Early { nalloc := 0, seen := [] } k := by
  rintro (hk | hk)
  · rw [Shape.readUntilRepeat_of_nodup (by rwa [List.append_nil, List.nodup_reverse])] at hk
    cases hk
  · have := Shape.nodes_le_of_legal h (length_le_of_nodup hd)
    simp only at hk
    omega

theorem State.treeAhead.rootAhead {l r : Shape} (h : s.treeAhead (.inner l r)) : RootAhead s l r := by
  obtain ⟨hlegal, -, rest, hrest, hzero⟩ := State.treeAhead_iff.mp h
  have hm : Meets s.payload (Shape.inner l r).bits := .of_prefix (hrest ▸ List.prefix_append ..)
  obtain ⟨y, hy⟩ | ⟨hf, -⟩ := Shape.legal_cases hlegal
  · cases hy
    exact ⟨rfl, hm, .inr ⟨rfl, ⟨y, rfl⟩, rest, hrest, hzero rfl⟩⟩
  · simp only [Shape.full, Bool.and_eq_true] at hf
    exact ⟨hf.1, hm, .inl hf.2⟩

theorem Shape.inner_of_legal {sh : Shape} (h : sh.legal = true) : ∃ l r, sh = .inner l r := by
  obtain ⟨y, rfl⟩ | ⟨-, hi⟩ := Shape.legal_cases h
  · exact ⟨_, _, rfl⟩
  · exact hi

/-- With the form of a tree in front of it the parse goes on. -/
theorem parseRoot_goes {sh : Shape} (hr : ReaderOk s) (ha : BufferAgrees s) (h : s.treeAhead sh)
    (hd : s.env.completes (s.ch.fetches sh.cost + s.ch.bitsLeft) = true) : ∃ a t, parseRoot s.clearTree = .ok a t := by
  obtain ⟨hlegal, hnodup, hle, -⟩ := id h
  obtain ⟨l, r, rfl⟩ := Shape.inner_of_legal hlegal
  have hf := parseRoot_follows (s := s.clearTree) hr ha h.rootAhead
  have hsafe := parseRoot_safe (s := s.clearTree) hr
  cases hx : parseRoot s.clearTree with
  | ok a t => exact ⟨a, t, rfl⟩
  | error e t =>
    rw [hx] at hf
    obtain ⟨k, -, ⟨rfl, hk⟩ | hk⟩ := hf
    · exact absurd hk hle.not_gt
    · exact absurd hk (Shape.not_early hlegal hnodup k)
  | raise f w t =>
    rw [hx] at hf
    exact absurd hd hf.not_completes
  | stop e =>
    rw [hx] at hsafe
    exact absurd rfl (hsafe e)

theorem exec_tDeserialize_inside (hm : s.ch.mode = .read) (hlt : s.ch.chC.toNat + s.ch.rpad.toNat < s.ch.chT.toNat) :
    exec .tDeserialize s = (parseTree s.clearTree).complete := by
  rw [exec_tDeserialize_of_read hm, if_neg hlt.ne, if_neg hlt.not_gt]

theorem Deserialized.finish_cmd {t : State} {sh : Shape} (h : Deserialized s sh t) :
    t.finish.cmd = { s.cmd with busy := false, done := true } := by
  have : t.cmd = s.cmd := h.keeps.cmd
  rw [State.finish_cmd, this]

/-- Settles O45: the parse goes on, and the tree it has then built is the only one whose form lies there. -/
theorem deserializeRebuilds : Obligations.DeserializeRebuilds := by
  intro s sh hm hr ha hlegal hnodup hle hbits htail hd
  have hpos : 1 ≤ sh.cost := by obtain ⟨l, r, rfl⟩ := Shape.inner_of_legal hlegal; simp only [Shape.cost]; omega
  have hahead : s.treeAhead sh := ⟨hlegal, hnodup, by rw [Channel.bitsLeft_eq]; omega, hbits, htail⟩
  obtain ⟨a, t, hx⟩ := parseRoot_goes hr ha hahead hd
  have hgo := parseTree_deserialized hr ha
  rw [parseTree_eq, hx, Flow.bind_ok] at hgo
  obtain ⟨sh', h⟩ := hgo
  obtain rfl := State.treeAhead_unique h.ahead hahead
  refine ⟨(t.setTree a.1 a.2.seen.length).finish, ?_, h.finish_cmd, h.tvalid, ?_, h.shape, h.root, h.alpha, h.unweighted, h.chC, ?_, h.reader,
    h.agrees⟩
  · rw [exec_tDeserialize_inside hm (by omega), parseTree_eq, hx]
    rfl
  · exact congrArg Codes.cvalid h.keeps.codes
  · exact h.keeps.mode.trans hm

/-! ### Bits that start no tree -/

/-- With no tree in front of the reader the parse ends with `BAD_TREE`, where and how the parse of the root ends. -/
theorem exec_badTree {Q : State → Prop} (hm : s.ch.mode = .read) (hr : ReaderOk s) (ha : BufferAgrees s)
    (hlt : s.ch.chC.toNat + s.ch.rpad.toNat < s.ch.chT.toNat)
    (hd : s.env.completes (s.ch.fetches s.ch.bitsLeft + s.ch.bitsLeft) = true) (hno : ∀ sh, ¬s.treeAhead sh)
    (hQ : (parseRoot s.clearTree).Post (fun _ _ => True) (fun _ => Q) (fun _ _ _ => True)) :
    ∃ u, exec .tDeserialize s = .next (u.finishError .badTree) ∧ u.cmd = s.cmd ∧ u.ch.chC.toNat + s.ch.rpad.toNat ≤ s.ch.chT.toNat ∧ Q u := by
  have hgo := parseTree_deserialized hr ha
  have hsafe := parseTree_safe (s := s.clearTree) hr
  rw [exec_tDeserialize_inside hm hlt]
  rw [parseTree_eq] at hgo hsafe ⊢
  cases hx : parseRoot s.clearTree with
  | ok a t =>
    rw [hx] at hgo
    obtain ⟨sh, h⟩ := hgo
    exact absurd h.ahead (hno sh)
  | error e t =>
    rw [hx] at hgo hQ
    obtain ⟨rfl, hk, hle⟩ := hgo
    rw [Channel.bitsLeft_eq] at hle
    exact ⟨t, rfl, hk.cmd, by omega, hQ⟩
  | raise f w t =>
    rw [hx] at hgo
    exact absurd hd hgo.2.2.not_completes
  | stop e =>
    rw [hx] at hsafe
    exact absurd rfl (hsafe e)

/-- The only tree that can lie there is the one whose form the bits go on as. -/
theorem State.treeAhead.eq_of_meets {sh sh' : Shape} (h : s.treeAhead sh') (hno : ∀ y, ¬s.treeAhead (.inner (.leaf y) .placeholder))
    (hf : sh.full = true) (hm : Meets s.payload sh.bits) : sh' = sh := by
  obtain ⟨hlegal, -, rest, hrest, -⟩ := State.treeAhead_iff.mp h
  obtain ⟨y, rfl⟩ | ⟨hf', -⟩ := Shape.legal_cases hlegal
  · exact absurd h (hno y)
  · rw [hrest] at hm
    exact Meets.eq_of_full (L := rest) (r := []) (by rwa [List.append_nil]) hf hf'

/-- A full tree's form, cut off or with a repeated symbol: the parse ends where `Early` says, or at the payload end. -/
theorem exec_badTree_of_form {sh : Shape} (hm : s.ch.mode = .read) (hr : ReaderOk s) (ha : BufferAgrees s)
    (hlt : s.ch.chC.toNat + s.ch.rpad.toNat < s.ch.chT.toNat)
    (hd : s.env.completes (s.ch.fetches s.ch.bitsLeft + s.ch.bitsLeft) = true) (hlegal : sh.legal = true) (hf : sh.full = true)
    (hmeets : Meets s.payload sh.bits) (hno : ∀ sh, ¬s.treeAhead sh) :
    ∃ (u : State) (k : Nat), exec .tDeserialize s = .next (u.finishError .badTree) ∧ u.cmd = s.cmd ∧ u.ch.chC.toNat = s.ch.chC.toNat + k ∧
      (k = s.ch.bitsLeft ∧ k < sh.cost ∨ sh.Early { nalloc := 0, seen := [] } k) := by
  obtain ⟨l, r, rfl⟩ := Shape.inner_of_legal hlegal
  have hlr := hf
  simp only [Shape.full, Bool.and_eq_true] at hlr
  obtain ⟨u, hu, hcmd, -, k, hk⟩ := exec_badTree hm hr ha hlt hd hno
    (Flow.Post.mono (parseRoot_follows (s := s.clearTree) hr ha ⟨hlr.1, hmeets, .inl hlr.2⟩) (fun _ _ => id) (fun _ _ => id)
      fun _ _ _ _ => trivial)
  exact ⟨u, k, hu, hcmd, hk⟩

/-! ### 512 ones -/

/-- The entries below handle `n` are internal nodes. -/
def Arena.InnerBelow (t : Arena) (n : Nat) : Prop := ∀ h : Handle, h.toNat < n → ∃ m, t.of h = some m ∧ m.kind = .inner

theorem Arena.InnerBelow.put {t : Arena} {n : Nat} (h : t.InnerBelow n) (hn : n < 511) {m : Node} (hm : m.kind = .inner) :
    (t.put (BitVec.ofNat 9 n) m).InnerBelow (n + 1) := by
  intro z hz
  have hh := handle_toNat (k := n) (by omega)
  by_cases hzn : z = BitVec.ofNat 9 n
  · subst hzn
    exact ⟨m, (Arena.of_put _ _ _ _).trans (if_pos ⟨rfl, handle_ne_nil hn⟩), hm⟩
  · rw [Arena.of_put_of_ne _ hzn]
    refine h z (lt_of_le_of_ne (Nat.lt_succ_iff.mp hz) fun e => hzn (BitVec.eq_of_toNat_eq ?_))
    rw [e, hh]

/-- A piece of the parse in front of `n` ones and more, the arena full up to its last `n - 1` entries. -/
def InFrontOfOnes (s : State) (nalloc n : Nat) : Prop :=
  ReaderOk s ∧ BufferAgrees s ∧ (∃ rest, s.payload = List.replicate n true ++ rest) ∧ nalloc + n = 512 ∧ s.tree.node.InnerBelow nalloc

/-- It ends with `BAD_TREE` behind them, every entry taken. -/
def Flow.EndsFull {α : Type} (s : State) (n : Nat) (x : Flow α) : Prop :=
  x.Post (fun _ _ => False) (fun _ t => t.ch.chC.toNat = s.ch.chC.toNat + n ∧ t.tree.node.InnerBelow 511) (fun _ _ _ => True)

/-- One more flag read and, unless the arena is full, one more entry taken. -/
theorem nextNode_endsFull {p : Parse} {n : Nat} {c : State → Flow (Handle × Parse)} {g : Handle × Parse → State → Flow (Handle × Parse)}
    (h : InFrontOfOnes s p.nalloc (n + 1))
    (hg : ∀ (a : Handle × Parse) (t : State), a.2.nalloc ≤ 511 → InFrontOfOnes t a.2.nalloc n → (g a t).EndsFull t n) :
    ((treeBit s).bind fun b s => if b then (allocNode .inner 0 p s).bind g else c s).EndsFull s (n + 1) := by
  obtain ⟨hr, ha, ⟨rest, hpay⟩, hn, hin⟩ := h
  cases hx : treeBit s with
  | error e t =>
    have hf := treeBit_follows hr fun _ => False
    rw [hx] at hf
    obtain ⟨k, -, ⟨hk, hk1⟩ | hk⟩ := hf
    · have hlen := congrArg List.length hpay
      rw [State.payload_length, List.length_append, List.length_replicate] at hlen
      omega
    · exact hk.elim
  | raise f w t => trivial
  | stop e => trivial
  | ok b t =>
    obtain ⟨rfl, hadv, htree, hmt⟩ := treeBit_advanced (c := true) (r := List.replicate n true ++ rest) hr ha
      ⟨_, List.prefix_rfl, by rw [hpay]; exact List.prefix_rfl⟩ hx
    have hpt : t.payload = List.replicate n true ++ rest := by
      have := hadv.payload ha
      rw [hpay] at this
      exact (List.cons_injective.eq_iff.mp this).symm
    have hc := hadv.reads.chC
    rw [List.length_singleton] at hc
    rw [Flow.bind_ok, if_pos rfl]
    unfold allocNode
    split
    · next hfull =>
      refine ⟨by rw [hc]; omega, ?_⟩
      rw [htree, ← hfull]
      exact hin
    · next hfull =>
      rw [Flow.bind_ok]
      refine Flow.Post.mono (hg _ _ (by simp only; omega)
        ⟨hadv.reads.reader, (hadv.reads.bits ha).1, ⟨rest, hpt⟩, by simp only; omega, ?_⟩) (fun _ _ => id)
        (fun e u hu => ⟨?_, hu.2⟩) fun _ _ _ _ => trivial
      · rw [State.setNode_tree, htree]
        exact hin.put (by omega) rfl
      · have hu := hu.1
        rw [hu]
        show t.ch.chC.toNat + n = _
        omega

theorem Flow.EndsFull.bind {α β : Type} {n : Nat} {x : Flow α} {k : α → State → Flow β} (h : x.EndsFull s n) : (x.bind k).EndsFull s n := by
  cases x with
  | ok a t => exact h.elim
  | error e t => exact h
  | raise f w t => trivial
  | stop e => trivial

theorem parseNode_endsFull {d n : Nat} {p : Parse} (h : InFrontOfOnes s p.nalloc n) (hp : p.nalloc ≤ 511) :
    (parseNode d p s).EndsFull s n := by
  induction d generalizing n p s with
  | zero => trivial
  | succ d ih =>
    obtain ⟨n, rfl⟩ : ∃ n', n = n' + 1 := ⟨n - 1, by have := h.2.2.2.1; omega⟩
    rw [parseNode_succ]
    exact nextNode_endsFull (c := parseLeaf p) h fun a t ha ht => (ih ht ha).bind

theorem parseRoot_endsFull (h : InFrontOfOnes s 0 512) : (parseRoot s).EndsFull s 512 :=
  nextNode_endsFull (p := { nalloc := 0, seen := [] }) (c := fun s => .error .badTree s) h fun _ _ ha ht => (parseNode_endsFull ht ha).bind

/-- No tree's form begins with 512 ones. -/
theorem not_treeAhead_of_ones (hr : ReaderOk s) (ha : BufferAgrees s) (h : InFrontOfOnes s.clearTree 0 512)
    (hd : s.env.completes (s.ch.fetches s.ch.bitsLeft + s.ch.bitsLeft) = true) (sh : Shape) : ¬s.treeAhead sh := by
  intro hsh
  have hle : sh.cost ≤ s.ch.bitsLeft := hsh.2.2.1
  obtain ⟨a, t, hx⟩ := parseRoot_goes hr ha hsh (Env.completes_mono hd (Nat.add_le_add_right (fetches_mono _ hle) _))
  have hend := parseRoot_endsFull h
  rw [hx] at hend
  exact hend

/-- A root that is no internal node. -/
theorem exec_leafRoot (hm : s.ch.mode = .read) (hr : ReaderOk s) (ha : BufferAgrees s)
    (hlt : s.ch.chC.toNat + s.ch.rpad.toNat < s.ch.chT.toNat) (hbit : s.ahead 1 = [false]) (hd : s.env.completes (s.ch.fetches 1) = true) :
    ∃ u : State, exec .tDeserialize s = .next (u.finishError .badTree) ∧ u.cmd = s.cmd ∧ u.ch.chC.toNat = s.ch.chC.toNat + 1 := by
  obtain ⟨u, hu, hk, -, -, hc, -⟩ := readBit_consumes s.clearTree hr ha (by show s.ch.chC.toNat < s.ch.chT.toNat; omega) hd
  have hfalse : regionBit s.mem s.ch.lbase.toNat s.ch.chC.toNat = false := by
    rw [State.ahead, regionBits_succ, regionBits_zero] at hbit
    exact List.head_eq_of_cons_eq hbit
  have hbitu : treeBit s.clearTree = .ok false u := by
    rw [treeBit, if_neg (by show ¬s.ch.payloadEnd ≤ _; rw [Channel.payloadEnd]; show ¬(_ ≤ (s.ch.chC.toNat : Int)); omega), hu]
    exact congrArg (Flow.ok · u) hfalse
  refine ⟨u, ?_, hk.1.2.1, hc⟩
  rw [exec_tDeserialize_inside hm hlt, parseTree_eq, parseRoot, hbitu]
  rfl

/-- Every end of `T_DESERIALIZE` that is not a tree leaves none. -/
theorem exec_tDeserialize_noTree {t : State} (hm : s.ch.mode = .read) (ht : exec .tDeserialize s = .next t) (hv : t.tree.tvalid = false) :
    t.tree.root = 511 ∧ t.tree.alpha = 0 ∧ t.codes.cvalid = false := by
  have hkept {u : State} (hu : ParseKeeps s.clearTree u) : u.tree.root = 511 ∧ u.tree.alpha = 0 ∧ u.codes.cvalid = false := by
    rw [hu.tree, hu.codes]
    exact ⟨rfl, rfl, rfl⟩
  rw [exec_tDeserialize_of_read hm] at ht
  split at ht
  · cases ht
    cases hv
  split at ht
  · cases ht
    exact ⟨rfl, rfl, rfl⟩
  rcases (parseTree_post s.clearTree).complete ht with ⟨u, ⟨v, r, a, hv', rfl⟩, rfl⟩ | ⟨e, u, ⟨-, hu⟩, rfl⟩ | ⟨f, w, u, ⟨-, hu, -⟩, rfl⟩
  · cases hv
  · exact hkept (u := u) hu
  · exact hkept (u := u) hu

/-- Settles O47: bits that start no tree end the parse with `BAD_TREE`, and the parse along a form, or along ones, says where. -/
theorem malformedTree : Obligations.MalformedTree := by
  refine ⟨?_, fun s t hm => exec_tDeserialize_noTree hm⟩
  intro s hm hr hlt ha ends stands
  have hends {u : State} {Q : State → Prop} (hx : exec .tDeserialize s = .next (u.finishError .badTree)) (hcmd : u.cmd = s.cmd)
      (hQ : Q (u.finishError .badTree)) : ends Q := ⟨_, hx, by rw [State.finishError_cmd, hcmd], hQ⟩
  have hleft := s.ch.bitsLeft_eq
  refine ⟨fun hbit hd => ?_, fun hd => ⟨fun hno => ?_, fun sh hlegal hf hno => ⟨fun hcut hbits => ?_, fun hrep hle hbits => ?_⟩,
    fun h512 hones => ?_⟩⟩
  · obtain ⟨u, hu, hcmd, hc⟩ := exec_leafRoot hm hr ha hlt hbit hd
    exact hends hu hcmd hc
  · obtain ⟨u, hu, hcmd, hle, -⟩ := exec_badTree (Q := fun _ => True) hm hr ha hlt hd hno
      (Flow.Post.mono (parseRoot_takes s.clearTree) (fun _ _ _ => trivial) (fun _ _ _ => trivial) fun _ _ _ _ => trivial)
    exact hends hu hcmd hle
  · have hmeets : Meets s.payload sh.bits := .of_prefix' (by rw [State.payload, hbits]; exact List.take_prefix ..)
    obtain ⟨u, k, hu, hcmd, hc, hk⟩ := exec_badTree_of_form hm hr ha hlt hd hlegal hf hmeets fun sh' h => by
      obtain rfl := h.eq_of_meets hno hf hmeets
      exact absurd h.2.2.1 hcut.not_ge
    refine hends hu hcmd fun hnodup => ?_
    rcases hk with ⟨rfl, -⟩ | hk
    · show u.ch.chC.toNat + _ = _
      omega
    · exact absurd hk (Shape.not_early hlegal hnodup k)
  · have hmeets : Meets s.payload sh.bits := .of_prefix (by
      rw [State.ahead_of_le hle] at hbits
      exact hbits ▸ List.take_prefix ..)
    obtain ⟨u, k, hu, hcmd, hc, hk⟩ := exec_badTree_of_form hm hr ha hlt hd hlegal hf hmeets fun sh' h => by
      obtain rfl := h.eq_of_meets hno hf hmeets
      exact hrep h.2.1
    refine hends hu hcmd fun hsmall => ?_
    rcases hk with ⟨rfl, hk⟩ | hk | hk
    · omega
    · show u.ch.chC.toNat = s.ch.chC.toNat + (sh.readUntilRepeat []).1
      rw [hk, hc]
    · have := Shape.nodes_le_of_legal hlegal hsmall
      simp only at hk
      omega
  · have hfront : InFrontOfOnes s.clearTree 0 512 := by
      refine ⟨hr, ha, ⟨s.payload.drop 512, ?_⟩, rfl, fun h hlt => absurd hlt (Nat.not_lt_zero _)⟩
      rw [← hones, State.ahead_of_le h512]
      exact (List.take_append_drop ..).symm
    obtain ⟨u, hu, hcmd, -, hc, hin⟩ := exec_badTree hm hr ha hlt hd (not_treeAhead_of_ones hr ha hfront hd)
      (Flow.Post.mono (parseRoot_endsFull hfront) (fun _ _ => False.elim) (fun _ _ => id) fun _ _ _ _ => trivial)
    refine hends hu hcmd ⟨hc, fun h hn => hin h ?_⟩
    have := h.isLt
    refine lt_of_le_of_ne (by omega) fun e => hn (BitVec.eq_of_toNat_eq e)

end

end Sys2Proof.Machine
end

section
/-! PROOFS. `S_DECODE` over whole codes (43_stream_codec.md R107): the bits read, the bytes written, the accesses made. -/

namespace Sys2Proof.Machine

/-! ### What a run of the decoder leaves -/

/-- The decoder has read `n` bits and written the bytes `msg` behind those it had written; the stream region is as it was. -/
structure Outputs (s t : State) (n : Nat) (msg : List Byte) : Prop where
  decoded : Decoded s t false
  reader : ReaderOk t
  agrees : BufferAgrees t
  chC : t.ch.chC.toNat = s.ch.chC.toNat + n
  env : t.env = s.env.after (s.ch.fetches n + msg.length)
  ocnt : t.res.ocnt.toNat = s.res.ocnt.toNat + msg.length
  bytes : bytesAt t.mem (s.regs.obase.toNat + s.res.ocnt.toNat) msg.length = msg
  stream : ∀ a, s.ch.lbase.toNat ≤ a → a < s.ch.lbase.toNat + s.ch.llen.toNat → t.mem.read a = s.mem.read a

theorem bytesAt_add (m : Memory) (a n k : Nat) : bytesAt m a (n + k) = bytesAt m a n ++ bytesAt m (a + n) k := by
  simp only [bytesAt, List.range_add, List.map_append, List.map_map]
  congr 1
  refine List.map_congr_left fun i _ => ?_
  simp [Nat.add_assoc]

theorem Outputs.refl {s : State} (hr : ReaderOk s) (ha : BufferAgrees s) : Outputs s s 0 [] :=
  ⟨.refl s, hr, ha, rfl, by simp [fetches_zero], rfl, rfl, fun _ _ _ => rfl⟩

theorem Outputs.trans {s t u : State} {n n' : Nat} {msg msg' : List Byte} (h : Outputs s t n msg) (h' : Outputs t u n' msg') :
    Outputs s u (n + n') (msg ++ msg') := by
  have hd := h.decoded
  have hd' := h'.decoded
  have ho := h.ocnt
  refine ⟨hd.trans hd', h'.reader, h'.agrees, by rw [h'.chC, h.chC, Nat.add_assoc], ?_, by rw [h'.ocnt, ho, List.length_append, Nat.add_assoc], ?_,
    fun a ha hb => ?_⟩
  · rw [h'.env, h.env, Env.after_after, List.length_append, ← fetches_add s t n n' h.chC]
    congr 1
    omega
  · have hfirst : bytesAt u.mem (s.regs.obase.toNat + s.res.ocnt.toNat) msg.length = msg := by
      rw [bytesAt_congr (m := t.mem) fun i hi => hd'.read _ (.inl (by rw [hd.regs]; omega))]
      exact h.bytes
    have hlast := h'.bytes
    rw [hd.regs, ho, ← Nat.add_assoc] at hlast
    rw [List.length_append, bytesAt_add, hfirst, hlast]
  · rw [h'.stream a (by rw [hd.lbase]; exact ha) (by rw [hd.lbase, hd.llen]; exact hb), h.stream a ha hb]

/-- The bits further on are still there. -/
theorem Outputs.ahead {s t : State} {n m : Nat} {msg : List Byte} (h : Outputs s t n msg) (hr : ReaderOk s)
    (hm : s.ch.chC.toNat + n + m ≤ s.ch.chT.toNat) : s.ahead (n + m) = s.ahead n ++ t.ahead m := by
  obtain ⟨-, -, -, -, hlen, -⟩ := hr
  rw [State.ahead, State.ahead, State.ahead, regionBits_add, h.chC, h.decoded.lbase]
  refine congrArg _ (regionBits_congr _ _ _ _ _ fun i hi => ?_).symm
  exact h.stream _ (by omega) (by omega)

/-- What the decoder works on. -/
structure Decoder (s : State) : Prop where
  wf : s.mem.wf = true
  tree : TreeOk s
  codes : CodesOk s
  cvalid : s.codes.cvalid = true
  reader : ReaderOk s
  agrees : BufferAgrees s
  output : s.regs.obase.toNat + s.regs.olen.toNat ≤ 2 ^ 32
  apart : overlaps s.regs.obase s.regs.olen s.ch.lbase s.ch.llen = false

theorem Outputs.decoder {s t : State} {n : Nat} {msg : List Byte} (h : Outputs s t n msg) (hs : Decoder s) : Decoder t := by
  have hd := h.decoded
  refine ⟨hd.wf hs.wf, ?_, ?_, ?_, h.reader, h.agrees, ?_, ?_⟩
  · unfold TreeOk; rw [hd.tree]; exact hs.tree
  · unfold CodesOk; rw [hd.tree, hd.codes]; exact hs.codes
  · rw [hd.codes]; exact hs.cvalid
  · rw [hd.regs]; exact hs.output
  · rw [hd.regs, hd.lbase, hd.llen]; exact hs.apart

/-! ### One bit, one byte -/

theorem Consumes.outputs {s t : State} {n : Nat} (h : Consumes s t n) : Outputs s t n [] := by
  obtain ⟨⟨⟨hregs, hcmd, hres, hcnt, htree, hcodes, hturns, hlast⟩, hmode, hlbase, hllen, hchT, hrpad, hlen, hmem⟩, hr, ha, hc, he⟩ := h
  refine ⟨⟨hregs, hcmd, hcnt, htree, hcodes, hturns, hlast, by rw [hres], hmode, hlbase, hllen, hchT, hrpad, hlen, by rw [hmem]; exact id,
    by rw [hres], by rw [hres]; exact id, fun _ _ => by rw [hmem]⟩, hr, ha, hc, he, by rw [hres]; rfl, rfl, fun _ _ _ => by rw [hmem]⟩

/-- The next bit. -/
theorem readBit_outputs {s : State} {b : Bool} (hs : Decoder s) (hlt : s.ch.chC.toNat < s.ch.chT.toNat) (hb : s.ahead 1 = [b])
    (hd : s.env.completes (s.ch.fetches 1) = true) : ∃ t, readBit s = .ok b t ∧ Outputs s t 1 [] := by
  obtain ⟨t, ht, hc⟩ := readBit_consumes s hs.reader hs.agrees hlt hd
  rw [State.ahead, regionBits_succ, regionBits_zero] at hb
  rw [List.head_eq_of_cons_eq hb] at ht
  exact ⟨t, ht, hc.outputs⟩

theorem emitSymbol_outputs {s : State} (y : Byte) (hs : Decoder s) (hroom : s.res.ocnt.toNat < s.regs.olen.toNat)
    (hd : s.env.completes 1 = true) : ∃ t, emitSymbol y s = .ok () t ∧ Outputs s t 0 [y] := by
  have hout := hs.output
  have hoc : (s.res.ocnt + 1).toNat = s.res.ocnt.toNat + 1 := by
    have := s.regs.olen.isLt
    show (_ + 1) % 2 ^ 32 = _
    omega
  have hx : emitSymbol y s = .ok () ((s.stored (s.regs.obase.toNat + s.res.ocnt.toNat) y).setOcnt (s.res.ocnt + 1)) := by
    rw [emitSymbol, if_neg hroom.not_ge, memWrite_ok (by omega) hd]
    rfl
  have hp := (emitSymbol_decoded y s).of_ok hx
  have hstream : ∀ a, s.ch.lbase.toNat ≤ a → a < s.ch.lbase.toNat + s.ch.llen.toNat →
      (s.mem.write (s.regs.obase.toNat + s.res.ocnt.toNat) y).read a = s.mem.read a := by
    intro a ha hb
    refine Memory.read_write_other _ _ _ _ ?_
    rintro rfl
    have hmeet : overlaps s.regs.obase s.regs.olen s.ch.lbase s.ch.llen = true :=
      overlaps_iff.mpr ⟨s.regs.obase.toNat + s.res.ocnt.toNat, ⟨by omega, by omega⟩, ha, hb⟩
    exact absurd (hs.apart.symm.trans hmeet) (by decide)
  have hr := hs.reader
  obtain ⟨-, hle, hpos, hbn, hlen, -⟩ := id hr
  refine ⟨_, hx, hp, hr, fun i hi => ?_, rfl, ?_, hoc, ?_, hstream⟩
  · have hi' : i < s.ch.bn.toNat := hi
    show s.ch.bacc.getLsbD i = ((s.mem.write _ y).read (s.ch.pos - 1)).getLsbD i
    rw [hstream _ (by omega) (by omega)]
    exact hs.agrees i hi'
  · rw [fetches_zero, Nat.zero_add]
    exact s.drawNext_env_after
  · show bytesAt (s.mem.write _ y) _ 1 = [y]
    rw [bytesAt_succ, Memory.read_write_same _ _ _ hs.wf]
    rfl

end Sys2Proof.Machine
end

section
/-! PROOFS. `S_DECODE` (43_stream_codec.md R107): what it makes of a stream of codes, and where a malformed one ends it. -/

namespace Sys2Proof.Machine

section
variable {s t : State} {msg : List Byte} {q r : List Bool} {n m k : Nat}

/-- Accesses that complete still do behind a run. -/
theorem Outputs.completes (h : Outputs s t n msg) (hd : s.env.completes (s.ch.fetches (n + m) + (msg.length + k)) = true) :
    t.env.completes (t.ch.fetches m + k) = true := by
  rw [← fetches_add s t n m h.chC, show s.ch.fetches n + t.ch.fetches m + (msg.length + k) =
    s.ch.fetches n + msg.length + (t.ch.fetches m + k) by omega, Env.completes_add] at hd
  rw [h.env]
  exact hd.2

/-- The bits behind a run. -/
theorem Outputs.next (h : Outputs s t q.length msg) (hr : ReaderOk s) (hbits : s.ahead (q ++ r).length = q ++ r)
    (hle : s.ch.chC.toNat + (q ++ r).length ≤ s.ch.chT.toNat) :
    t.ahead r.length = r ∧ t.ch.chC.toNat + r.length ≤ t.ch.chT.toNat := by
  rw [List.length_append] at hbits hle
  rw [h.ahead hr (by omega)] at hbits
  refine ⟨List.append_inj_right hbits (by rw [State.ahead, regionBits_length]), ?_⟩
  rw [h.chC, h.decoded.chT]
  omega

theorem State.ahead_left (hbits : s.ahead (q ++ r).length = q ++ r) : s.ahead q.length = q := by
  rw [List.length_append, State.ahead, regionBits_add] at hbits
  exact List.append_inj_left hbits (regionBits_length ..)

/-! ### The table lookups -/

/-- `q` begins a code and is not all of it. -/
def State.StartsCode (s : State) (q : List Bool) : Prop := ∃ y r, (s.codes.enc.of y).valid = true ∧ (s.codes.enc.of y).string = q ++ r ∧ r ≠ []

theorem Decoder.lookup_of_starts (hs : Decoder s) (h : s.StartsCode q) :
    decodeTable s.codes.enc q = none ∧ startsCode s.codes.enc q = true := by
  obtain ⟨y, r, hy, hyq, hr⟩ := h
  refine ⟨decodeTable_eq_none_iff.mpr ?_, startsCode_iff.mpr ⟨y, r, hy, hyq, hr⟩⟩
  rintro x ⟨hx, hxq⟩
  obtain rfl := hs.codes.prefix_free hs.tree hs.cvalid hx hy (by rw [hxq, hyq]; exact List.prefix_append ..)
  rw [hxq] at hyq
  exact hr (List.self_eq_append_right.mp hyq)

theorem State.StartsCode.left (h : s.StartsCode (q ++ r)) : s.StartsCode q := by
  obtain ⟨y, r', hy, hyq, hr⟩ := h
  exact ⟨y, r ++ r', hy, by rw [hyq, List.append_assoc], by simp [hr]⟩

theorem Outputs.startsCode (h : Outputs s t n msg) : t.StartsCode q ↔ s.StartsCode q := by
  unfold State.StartsCode
  rw [h.decoded.codes]

/-! ### The loop -/

/-- The start of a code is read into the accumulator. -/
theorem decodeBits_start {acc : List Bool} (hs : Decoder s) (hstart : q ≠ [] → s.StartsCode (acc ++ q)) (hbits : s.ahead q.length = q)
    (hle : s.ch.chC.toNat + q.length ≤ s.ch.chT.toNat) (hd : s.env.completes (s.ch.fetches q.length) = true) :
    ∃ t, decodeBits (q.length + n) acc s = decodeBits n (acc ++ q) t ∧ Outputs s t q.length [] := by
  induction q generalizing acc s with
  | nil => exact ⟨s, by simp, .refl hs.reader hs.agrees⟩
  | cons b q ih =>
    have hone : (b :: q).length = 1 + q.length := Nat.add_comm ..
    replace hstart : s.StartsCode (acc ++ [b] ++ q) := by
      rw [List.append_assoc]
      exact hstart (by simp)
    obtain ⟨t, ht, hot⟩ := readBit_outputs hs (by simp only [hone] at hle; omega) (State.ahead_left (q := [b]) (r := q) hbits)
      (Env.completes_mono hd (fetches_mono _ (by omega)))
    obtain ⟨hbits', hle'⟩ := hot.next (q := [b]) (r := q) hs.reader hbits hle
    obtain ⟨u, hu, hou⟩ := ih (acc := acc ++ [b]) (hot.decoder hs) (fun _ => hot.startsCode.mpr hstart) hbits' hle'
      (hot.completes (k := 0) (m := q.length) (by rw [← hone]; exact hd))
    obtain ⟨hnone, hstarts⟩ := hs.lookup_of_starts hstart.left
    refine ⟨u, ?_, by rw [hone]; exact hot.trans hou⟩
    rw [show (b :: q).length + n = q.length + n + 1 by rw [hone]; omega, decodeBits, ht, Flow.bind_ok, hot.decoded.codes, hnone]
    simp only
    rw [if_pos hstarts, hu, List.append_assoc]
    rfl

/-- A whole code is read, and then its symbol written. -/
theorem decodeBits_code {y : Byte} (hs : Decoder s) (hy : (s.codes.enc.of y).valid = true) (hyq : (s.codes.enc.of y).string = q)
    (hbits : s.ahead q.length = q) (hle : s.ch.chC.toNat + q.length ≤ s.ch.chT.toNat) (hd : s.env.completes (s.ch.fetches q.length) = true) :
    ∃ t, decodeBits (q.length + n) [] s = ((emitSymbol y t).bind fun _ u => decodeBits n [] u) ∧ Outputs s t q.length [] := by
  have hne : q ≠ [] := hyq ▸ hs.codes.string_ne_nil hs.tree hs.cvalid hy
  obtain ⟨p, b, rfl⟩ : ∃ p b, q = p ++ [b] := ⟨q.dropLast, q.getLast hne, (List.dropLast_append_getLast hne).symm⟩
  obtain ⟨t, ht, hot⟩ := decodeBits_start (n := n + 1) (acc := []) hs (fun _ => ⟨y, [b], hy, hyq, by simp⟩) (State.ahead_left hbits)
    (by rw [List.length_append] at hle; omega) (Env.completes_mono hd (fetches_mono _ (by simp)))
  obtain ⟨hbits', hle'⟩ := hot.next hs.reader hbits hle
  obtain ⟨u, hu, hou⟩ := readBit_outputs (hot.decoder hs) (by simpa using hle') hbits' (hot.completes (k := 0) (m := 1) (by simpa using hd))
  have hout := hot.trans hou
  refine ⟨u, ?_, by simpa using hout⟩
  have hsome : decodeTable u.codes.enc (p ++ [b]) = some y := by
    rw [hout.decoded.codes]
    exact (hs.codes.decodeTable_eq_some_iff hs.tree hs.cvalid).mpr ⟨hy, hyq⟩
  rw [show (p ++ [b]).length + n = p.length + (n + 1) by simp; omega, ht, List.nil_append, decodeBits, hu, Flow.bind_ok, hsome]

/-- Whole codes are read and their symbols written. -/
theorem decodeBits_message (hs : Decoder s) (hmsg : ∀ y ∈ msg, (s.codes.enc.of y).valid = true)
    (hroom : s.res.ocnt.toNat + msg.length ≤ s.regs.olen.toNat)
    (hbits : s.ahead (codeString s.codes.enc msg).length = codeString s.codes.enc msg)
    (hle : s.ch.chC.toNat + (codeString s.codes.enc msg).length ≤ s.ch.chT.toNat)
    (hd : s.env.completes (s.ch.fetches (codeString s.codes.enc msg).length + msg.length) = true) :
    ∃ t, decodeBits ((codeString s.codes.enc msg).length + n) [] s = decodeBits n [] t ∧ Outputs s t (codeString s.codes.enc msg).length msg := by
  induction msg generalizing s with
  | nil => exact ⟨s, by simp [codeString], .refl hs.reader hs.agrees⟩
  | cons y msg ih =>
    rw [codeString_cons] at hbits hle hd ⊢
    rw [List.forall_mem_cons] at hmsg
    rw [List.length_cons] at hroom hd
    have hlen := List.length_append (as := (s.codes.enc.of y).string) (bs := codeString s.codes.enc msg)
    obtain ⟨t, ht, hot⟩ := decodeBits_code (n := (codeString s.codes.enc msg).length + n) hs hmsg.1 rfl (State.ahead_left hbits) (by omega)
      (Env.completes_mono hd ((fetches_mono _ (by omega)).trans (Nat.le_add_right ..)))
    obtain ⟨hbits', hle'⟩ := hot.next hs.reader hbits hle
    rw [hlen] at hd
    have hdt := hot.completes (m := (codeString s.codes.enc msg).length) (k := msg.length + 1) (by simpa using hd)
    have hot0 : t.res.ocnt.toNat = s.res.ocnt.toNat := hot.ocnt
    obtain ⟨u, hu, hou⟩ := emitSymbol_outputs y (hot.decoder hs) (by rw [hot0, hot.decoded.regs]; omega) (Env.completes_mono hdt (by omega))
    have hsu := hot.trans hou
    have henc : u.codes.enc = s.codes.enc := congrArg Codes.enc hsu.decoded.codes
    have hocnt : u.res.ocnt.toNat = s.res.ocnt.toNat + 1 := hsu.ocnt
    obtain ⟨hbits'', hle''⟩ := hou.next (q := []) (r := codeString s.codes.enc msg) (hot.decoder hs).reader hbits' hle'
    obtain ⟨v, hv, hov⟩ := ih (s := u) (hsu.decoder hs) (by rw [henc]; exact hmsg.2) (by rw [hocnt, hsu.decoded.regs]; omega)
      (by rw [henc]; exact hbits'') (by rw [henc]; exact hle'') (by
        rw [henc]
        exact hou.completes (by rw [List.length_singleton, Nat.zero_add, Nat.add_comm 1]; exact hdt))
    rw [henc] at hv hov
    refine ⟨v, by rw [hlen, Nat.add_assoc, ht, hu, Flow.bind_ok, hv], ?_⟩
    rw [hlen]
    exact hsu.trans hov

/-- Whole codes, then the start of one. -/
theorem decodeBits_upto (hs : Decoder s) (hmsg : ∀ y ∈ msg, (s.codes.enc.of y).valid = true)
    (hroom : s.res.ocnt.toNat + msg.length ≤ s.regs.olen.toNat) (hstart : q ≠ [] → s.StartsCode q)
    (hbits : s.ahead (codeString s.codes.enc msg ++ q).length = codeString s.codes.enc msg ++ q)
    (hle : s.ch.chC.toNat + (codeString s.codes.enc msg ++ q).length ≤ s.ch.chT.toNat)
    (hd : s.env.completes (s.ch.fetches (codeString s.codes.enc msg ++ q).length + msg.length) = true) :
    ∃ t, decodeBits ((codeString s.codes.enc msg ++ q).length + n) [] s = decodeBits n q t ∧
      Outputs s t (codeString s.codes.enc msg ++ q).length msg := by
  have hlen := List.length_append (as := codeString s.codes.enc msg) (bs := q)
  obtain ⟨t, ht, hot⟩ := decodeBits_message (n := q.length + n) hs hmsg hroom (State.ahead_left hbits) (by omega)
    (Env.completes_mono hd (Nat.add_le_add_right (fetches_mono _ (by omega)) _))
  obtain ⟨hbits', hle'⟩ := hot.next hs.reader hbits hle
  rw [hlen] at hd
  obtain ⟨u, hu, hou⟩ := decodeBits_start (n := n) (acc := []) (hot.decoder hs) (fun h => hot.startsCode.mpr (hstart h)) hbits' hle'
    (hot.completes (k := 0) hd)
  have := hot.trans hou
  rw [List.append_nil] at this
  exact ⟨u, by rw [hlen, Nat.add_assoc, ht, hu]; rfl, by rw [hlen]; exact this⟩

/-- Whole codes, then one more, of which the symbol is not yet written. -/
theorem decodeBits_upto_code {y : Byte} (hs : Decoder s) (hmsg : ∀ y ∈ msg, (s.codes.enc.of y).valid = true)
    (hroom : s.res.ocnt.toNat + msg.length ≤ s.regs.olen.toNat) (hy : (s.codes.enc.of y).valid = true) (hyq : (s.codes.enc.of y).string = q)
    (hbits : s.ahead (codeString s.codes.enc msg ++ q).length = codeString s.codes.enc msg ++ q)
    (hle : s.ch.chC.toNat + (codeString s.codes.enc msg ++ q).length ≤ s.ch.chT.toNat)
    (hd : s.env.completes (s.ch.fetches (codeString s.codes.enc msg ++ q).length + msg.length) = true) :
    ∃ t, decodeBits ((codeString s.codes.enc msg ++ q).length + n) [] s = ((emitSymbol y t).bind fun _ u => decodeBits n [] u) ∧
      Outputs s t (codeString s.codes.enc msg ++ q).length msg := by
  have hlen := List.length_append (as := codeString s.codes.enc msg) (bs := q)
  obtain ⟨t, ht, hot⟩ := decodeBits_message (n := q.length + n) hs hmsg hroom (State.ahead_left hbits) (by omega)
    (Env.completes_mono hd (Nat.add_le_add_right (fetches_mono _ (by omega)) _))
  obtain ⟨hbits', hle'⟩ := hot.next hs.reader hbits hle
  rw [hlen] at hd
  have hcodes := hot.decoded.codes
  obtain ⟨u, hu, hou⟩ := decodeBits_code (n := n) (y := y) (hot.decoder hs) (by rw [hcodes]; exact hy) (by rw [hcodes]; exact hyq) hbits' hle'
    (hot.completes (k := 0) hd)
  have := hot.trans hou
  rw [List.append_nil] at this
  exact ⟨u, by rw [hlen, Nat.add_assoc, ht, hu], by rw [hlen]; exact this⟩

/-- The bit after which what was read starts no code. -/
theorem decodeBits_badCode {b : Bool} {acc : List Bool} (hs : Decoder s) (hlt : s.ch.chC.toNat < s.ch.chT.toNat) (hb : s.ahead 1 = [b])
    (hd : s.env.completes (s.ch.fetches 1) = true) (hno : ∀ y, (s.codes.enc.of y).valid = true → ¬acc ++ [b] <+: (s.codes.enc.of y).string) :
    ∃ t, decodeBits (n + 1) acc s = .error .badCode t ∧ Outputs s t 1 [] := by
  obtain ⟨t, ht, hot⟩ := readBit_outputs hs hlt hb hd
  refine ⟨t, ?_, hot⟩
  have hnone : decodeTable s.codes.enc (acc ++ [b]) = none :=
    decodeTable_eq_none_iff.mpr fun x ⟨hx, hxq⟩ => hno x hx (hxq ▸ List.prefix_rfl)
  have hstarts : startsCode s.codes.enc (acc ++ [b]) ≠ true := fun h => by
    obtain ⟨x, r, hx, hxq, -⟩ := startsCode_iff.mp h
    exact hno x hx (hxq ▸ List.prefix_append ..)
  rw [decodeBits, ht, Flow.bind_ok, hot.decoded.codes, hnone]
  simp only
  rw [if_neg hstarts]

end

/-! ### The command -/

theorem exec_sDecode_of_checks {s : State} (hm : s.ch.mode = .read) (hc : s.codes.cvalid = true) (hreg : regionOK s.regs.obase s.regs.olen = true)
    (hapart : overlaps s.regs.obase s.regs.olen s.ch.lbase s.ch.llen = false) :
    exec .sDecode s =
      (if s.ch.payloadEnd < (s.ch.chC.toNat : Int) then .error .badLength (s.setOcnt 0)
        else (decodeBits s.ch.bitsLeft [] (s.setOcnt 0)).bind fun acc t => if acc = [] then .ok () t else .error .residue t : Flow Unit).complete := by
  show execSDecode s = _
  rw [execSDecode, requireMode_ok hm, Flow.bind_ok, requireCodes_ok hc, Flow.bind_ok, requireRegion_ok hreg, Flow.bind_ok, requireApart_ok hapart]
  rfl

theorem exec_sDecode_inside {s : State} (hm : s.ch.mode = .read) (hc : s.codes.cvalid = true) (hreg : regionOK s.regs.obase s.regs.olen = true)
    (hapart : overlaps s.regs.obase s.regs.olen s.ch.lbase s.ch.llen = false) (hle : s.ch.chC.toNat + s.ch.rpad.toNat ≤ s.ch.chT.toNat) :
    exec .sDecode s =
      ((decodeBits s.ch.bitsLeft [] (s.setOcnt 0)).bind fun acc t => if acc = [] then .ok () t else .error .residue t : Flow Unit).complete := by
  rw [exec_sDecode_of_checks hm hc hreg hapart, if_neg (by unfold Channel.payloadEnd; omega)]

theorem State.Good.decoder {s : State} (h : s.Good) (ha : BufferAgrees s) (hm : s.ch.mode = .read) (hc : s.codes.cvalid = true)
    (hreg : regionOK s.regs.obase s.regs.olen = true) (hapart : overlaps s.regs.obase s.regs.olen s.ch.lbase s.ch.llen = false) :
    Decoder (s.setOcnt 0) := by
  obtain ⟨hwf, -, hch, ht, hco⟩ := h
  unfold ChannelOk at hch
  rw [hm] at hch
  exact ⟨hwf, ht, hco, hc, hch, ha, regionOK_iff.mp hreg, hapart⟩

/-- The bits up to the payload end are these, and all lie before T. -/
theorem State.payload_eq {s : State} {p rest : List Bool} (h : s.ahead s.ch.bitsLeft = p ++ rest) :
    s.ahead p.length = p ∧ s.ch.bitsLeft = p.length + rest.length ∧
      (s.ch.chC.toNat ≤ s.ch.chT.toNat → s.ch.chC.toNat + p.length ≤ s.ch.chT.toNat) := by
  have hlen := congrArg List.length h
  rw [State.ahead, regionBits_length, List.length_append] at hlen
  rw [hlen, ← List.length_append] at h
  refine ⟨State.ahead_left h, hlen, fun _ => ?_⟩
  rw [Channel.bitsLeft_eq] at hlen
  omega

end Sys2Proof.Machine
end

section
/-! PROOFS. The results of `S_DECODE` (43_stream_codec.md R107). -/

namespace Sys2Proof.Machine

section
variable {s t : State} {msg : List Byte} {n : Nat}

/-- The bytes written and counted, from `OCNT = 0` on. -/
theorem Outputs.result (h : Outputs (s.setOcnt 0) t n msg) :
    bytesAt t.mem s.regs.obase.toNat msg.length = msg ∧ t.res.ocnt.toNat = msg.length ∧ t.cmd = s.cmd ∧
      t.ch.chC.toNat = s.ch.chC.toNat + n ∧ t.ch.mode = s.ch.mode :=
  ⟨h.bytes, by simpa using h.ocnt, h.decoded.cmd, h.chC, h.decoded.mode⟩

/-- What the statements about streams share: the decoder, and the bits up to the payload end. -/
theorem sDecode_setup {p rest : List Bool} (hg : s.Good) (ha : BufferAgrees s) (hm : s.ch.mode = .read) (hc : s.codes.cvalid = true)
    (hreg : regionOK s.regs.obase s.regs.olen = true) (hapart : overlaps s.regs.obase s.regs.olen s.ch.lbase s.ch.llen = false)
    (hle : s.ch.chC.toNat + s.ch.rpad.toNat ≤ s.ch.chT.toNat) (hbits : s.ahead s.ch.bitsLeft = p ++ rest) :
    exec .sDecode s = ((decodeBits (p.length + rest.length) [] (s.setOcnt 0)).bind fun acc t =>
        if acc = [] then .ok () t else .error .residue t : Flow Unit).complete ∧
      Decoder (s.setOcnt 0) ∧ s.ahead p.length = p ∧ s.ch.chC.toNat + p.length ≤ s.ch.chT.toNat ∧ s.ch.bitsLeft = p.length + rest.length ∧
        s.ch.chC.toNat + p.length + rest.length + s.ch.rpad.toNat = s.ch.chT.toNat := by
  obtain ⟨hp, hleft, hlt⟩ := State.payload_eq hbits
  refine ⟨?_, hg.decoder ha hm hc hreg hapart, hp, hlt (by omega), hleft, ?_⟩
  · rw [exec_sDecode_inside hm hc hreg hapart hle, hleft]
  · rw [Channel.bitsLeft_eq] at hleft
    omega

/-- Settles O51: the payload is whole codes, and nothing is left in the accumulator. -/
theorem sDecodeInvertsCodes : Obligations.SDecodeInvertsCodes := by
  intro s msg hg ha hm hc hreg hapart hle hmsg hbits hroom hd
  obtain ⟨hx, hs, hp, hlt, hleft, hend⟩ := sDecode_setup (rest := []) hg ha hm hc hreg hapart hle (by rw [hbits, List.append_nil])
  simp only [List.length_nil, Nat.add_zero] at hx hleft hend
  obtain ⟨t, ht, hot⟩ := decodeBits_message (n := 0) (s := s.setOcnt 0) hs hmsg (by simpa using hroom) hp hlt (by rw [hleft] at hd; exact hd)
  obtain ⟨hbytes, hocnt, hcmd, hchC, hmode⟩ := hot.result
  refine ⟨t.finish, ?_, by rw [State.finish_cmd, hcmd], hbytes, hocnt, ?_, hmode.trans hm⟩
  · rw [hx]
    exact congrArg (fun x : Flow (List Bool) => (x.bind _).complete) ht
  · show t.ch.chC.toNat + _ = _
    rw [hchC, ← hend]
    rfl

/-- Settles O52: the whole codes are decoded; then the payload ends inside a code, or a bit comes that no code has there. -/
theorem sDecodeMalformed : Obligations.SDecodeMalformed := by
  intro s msg q rest hg ha hm hc hreg hapart hle hmsg hbits hroom hd hq starts
  have hstartsCode {p : List Bool} (h : starts p) (hne : ∀ y, (s.codes.enc.of y).valid = true → (s.codes.enc.of y).string ≠ p) :
      s.StartsCode p := by
    obtain ⟨y, hy, r, hr⟩ := h
    exact ⟨y, r, hy, hr.symm, fun e => hne y hy (by rw [← hr, e, List.append_nil])⟩
  refine ⟨fun hrest hst hne => ?_, fun hlast hne hno => ?_⟩
  · subst hrest
    rw [List.append_nil] at hbits
    obtain ⟨hx, hs, hp, hlt, hleft, hend⟩ := sDecode_setup (rest := []) hg ha hm hc hreg hapart hle (by rw [hbits, List.append_nil])
    obtain ⟨t, ht, hot⟩ := decodeBits_upto (n := 0) (s := s.setOcnt 0) hs hmsg (by simpa using hroom) (fun _ => hstartsCode hst hne) hp hlt
      (by rw [hleft] at hd; exact hd)
    obtain ⟨hbytes, hocnt, hcmd, hchC, -⟩ := hot.result
    refine ⟨t.finishError .residue, ?_, by rw [State.finishError_cmd, hcmd], hbytes, hocnt, ?_⟩
    · rw [hx]
      refine (congrArg (fun x : Flow (List Bool) => (x.bind _).complete) ht).trans ?_
      show (if q = [] then _ else _ : Flow Unit).complete = _
      rw [if_neg hq]
      rfl
    · show t.ch.chC.toNat + _ = _
      rw [hchC, ← hend]
      rfl
  · obtain ⟨p, b, rfl⟩ : ∃ p b, q = p ++ [b] := ⟨q.dropLast, q.getLast hq, (List.dropLast_append_getLast hq).symm⟩
    rw [List.dropLast_concat] at hlast hne
    obtain ⟨hx, hs, hp, hlt, hleft, -⟩ := sDecode_setup (p := codeString s.codes.enc msg ++ p) (rest := b :: rest) hg ha hm hc hreg hapart hle
      (by simpa using hbits)
    have hd' : s.env.completes (s.ch.fetches ((codeString s.codes.enc msg ++ p).length + 1) + (msg.length + 0)) = true :=
      Env.completes_mono hd (by
        rw [hleft, List.length_cons]
        exact Nat.add_le_add_right (fetches_mono _ (by omega)) _)
    obtain ⟨t, ht, hot⟩ := decodeBits_upto (n := rest.length + 1) (s := s.setOcnt 0) hs hmsg (by simpa using hroom)
      (fun h => hstartsCode (hlast.resolve_left h) hne) hp hlt (Env.completes_mono hd' (Nat.add_le_add_right (fetches_mono _ (Nat.le_succ _)) _))
    obtain ⟨hall, -, hltall⟩ := State.payload_eq (p := codeString s.codes.enc msg ++ p ++ [b]) (rest := rest) (by simpa using hbits)
    obtain ⟨hb, hltb⟩ := hot.next (r := [b]) hs.reader hall (hltall (by omega))
    obtain ⟨u, hu, hou⟩ := decodeBits_badCode (n := rest.length) (acc := p) (hot.decoder hs) (by simpa using hltb) hb
      (hot.completes (s := s.setOcnt 0) hd') fun y hy hpre => hno ⟨y, by rw [hot.decoded.codes] at hy; exact hy, by
        rw [hot.decoded.codes] at hpre; exact hpre⟩
    have hsu := hot.trans hou
    rw [List.append_nil] at hsu
    obtain ⟨hbytes, hocnt, hcmd, hchC, -⟩ := hsu.result
    refine ⟨u.finishError .badCode, ?_, by rw [State.finishError_cmd, hcmd], hbytes, hocnt, ?_⟩
    · rw [hx, List.length_cons]
      exact congrArg (fun x : Flow (List Bool) => (x.bind _).complete) (ht.trans hu)
    · show u.ch.chC.toNat = _
      rw [hchC]
      simp
      omega

/-- Settles O53: the symbol that finds the output full is not written. -/
theorem sDecodeBounds : Obligations.SDecodeBounds := by
  intro s hg hm hc hreg hapart
  refine ⟨fun msg y rest ha hle hmsg hy hbits hfull hd => ?_, fun hpast => ?_⟩
  · rw [codeString_append, codeString_singleton] at hbits
    obtain ⟨hx, hs, hp, hlt, hleft, -⟩ := sDecode_setup hg ha hm hc hreg hapart hle hbits
    obtain ⟨t, ht, hot⟩ := decodeBits_upto_code (n := rest.length) (s := s.setOcnt 0) hs hmsg (by simp [hfull]) hy rfl hp hlt
      (Env.completes_mono hd (Nat.add_le_add_right (fetches_mono _ (by rw [hleft]; exact Nat.le_add_right ..)) _))
    obtain ⟨hbytes, hocnt, hcmd, -, -⟩ := hot.result
    have hregs : t.regs = s.regs := hot.decoded.regs
    obtain ⟨w, hw, hweq⟩ := raiseAt_eq (α := Unit) .sinkOverflow (t.regs.obase.toNat + t.res.ocnt.toNat) t
    have hemit : emitSymbol y t = .raise .sinkOverflow w t := by
      rw [emitSymbol, if_pos (by rw [hocnt, hregs]; exact hfull.ge), hw]
    refine ⟨t.enterFault .sinkOverflow w, ?_, rfl, rfl, fun hlt32 => ?_, rfl, hbytes, BitVec.eq_of_toNat_eq (hocnt.trans hfull)⟩
    · rw [hx]
      refine (congrArg (fun x : Flow (List Bool) => (x.bind _).complete) ht).trans ?_
      rw [hemit]
      rfl
    · show w = _
      rw [hregs, hocnt, hfull] at hweq
      rw [hweq hlt32]
      refine BitVec.eq_of_toNat_eq ?_
      rw [BitVec.toNat_ofNat, BitVec.toNat_add]
  · rw [exec_sDecode_of_checks hm hc hreg hapart, if_pos (by unfold Channel.payloadEnd; omega)]
    rfl

end

end Sys2Proof.Machine
end

section
/-! PROOFS. The accesses of every command (20_memory.md R43): all complete, or the last fails and `BUS_ERROR` ends the command. -/

namespace Sys2Proof.Machine

section
variable {α β : Type} {s t : State}

/-- The draws of a piece went as they must, and the command registers are as they were. -/
def Flow.Makes (s : State) (x : Flow α) : Prop := x.Draws s ∧ x.Ends fun t => t.cmd = s.cmd

theorem Flow.Makes.start {x : Flow α} (h : x.Makes t) (he : t.env = s.env) (hc : t.cmd = s.cmd) : x.Makes s :=
  ⟨h.1.start he, h.2.mono fun _ hu => hu.trans hc⟩

theorem Flow.Makes.bind {x : Flow α} {k : α → State → Flow β} (h : x.Makes s) (hk : ∀ a t, (k a t).Makes t) : (x.bind k).Makes s :=
  ⟨h.1.bind fun a t _ => (hk a t).1, h.2.bind fun a t _ ht => (hk a t).2.mono fun _ hu => hu.trans ht⟩

theorem Flow.makes_ok (a : α) (he : t.env = s.env) (hc : t.cmd = s.cmd) : (Flow.ok a t).Makes s := ⟨.none a he, hc⟩

theorem Flow.makes_error (e : ErrCode) (s : State) : (Flow.error e s : Flow α).Makes s := ⟨.error e rfl, rfl⟩

theorem Flow.makes_raise {f : FaultCode} (hf : f ≠ .busError) (w : Word) (s : State) : (Flow.raise f w s : Flow α).Makes s :=
  ⟨.raise w hf rfl, rfl⟩

theorem Flow.makes_stop (r : Fault) (s : State) : (Flow.stop r : Flow α).Makes s := ⟨trivial, trivial⟩

theorem Flow.lift_makes (x : Except Fault α) (s : State) : (Flow.lift x s).Makes s := by
  cases x with
  | ok a => exact Flow.makes_ok a rfl rfl
  | error r => exact Flow.makes_stop r s

/-! ### Checks -/

theorem requireMode_makes (m : ChMode) (s : State) : (requireMode m s).Makes s := by
  unfold requireMode
  split
  · exact Flow.makes_ok _ rfl rfl
  · exact Flow.makes_raise (by decide) _ s

theorem requireTree_makes (s : State) : (requireTree s).Makes s := by
  unfold requireTree
  split
  · exact Flow.makes_ok _ rfl rfl
  · exact Flow.makes_raise (by decide) _ s

theorem requireCodes_makes (s : State) : (requireCodes s).Makes s := by
  unfold requireCodes
  split
  · exact Flow.makes_ok _ rfl rfl
  · exact Flow.makes_raise (by decide) _ s

theorem requireRegion_makes (b l w : Word) (s : State) : (requireRegion b l w s).Makes s := by
  unfold requireRegion
  split
  · exact Flow.makes_ok _ rfl rfl
  · exact Flow.makes_raise (by decide) _ s

theorem requireApart_makes (b l w : Word) (s : State) : (requireApart b l w s).Makes s := by
  unfold requireApart
  split
  · exact Flow.makes_raise (by decide) _ s
  · exact Flow.makes_ok _ rfl rfl

/-! ### Pieces -/

theorem memRead_makes (a : Nat) (s : State) : (memRead a s).Makes s := ⟨memRead_draws a s, (memRead_ends a s).mono fun _ h => h.1.2.1⟩

theorem memWrite_makes (a : Nat) (v : Byte) (s : State) : (memWrite a v s).Makes s :=
  ⟨memWrite_draws a v s, (memWrite_ends a v s).mono fun _ h => h.1.2.1⟩

theorem commit_makes (v : Byte) (s : State) : (commit v s).Makes s := ⟨commit_draws v s, (commit_ends v s).mono fun _ h => h.1.1.2.1⟩

theorem writeString_makes (p : List Bool) (s : State) : (writeString p s).Makes s :=
  ⟨writeString_draws p s, (writeString_ends p s).mono fun _ h => h.1.1.2.1⟩

theorem readBit_makes (s : State) : (readBit s).Makes s := ⟨readBit_draws s, (readBit_ends s).mono fun _ h => h.1.2.1⟩

theorem readNat_makes (n v : Nat) (s : State) : (readNat n v s).Makes s := ⟨readNat_draws n v s, (readNat_ends n v s).mono fun _ h => h.1.2.1⟩

theorem peekZero_makes (n k : Nat) (s : State) : (peekZero n k s).Makes s :=
  ⟨peekZero_draws n k s, (peekZero_ends n k s).mono fun _ h => h.1.2.1⟩

theorem writeBytes_makes (a : Nat) (l : List Byte) (s : State) : (writeBytes a l s).Makes s := by
  induction l generalizing a s with
  | nil => exact Flow.makes_ok _ rfl rfl
  | cons v l ih => exact (memWrite_makes a v s).bind fun _ t => ih _ t

theorem readBigEndian_makes (n a v : Nat) (s : State) : (readBigEndian n a v s).Makes s := by
  induction n generalizing a v s with
  | zero => exact Flow.makes_ok _ rfl rfl
  | succ n ih => exact (memRead_makes a s).bind fun _ t => ih _ _ t

theorem padCommit_makes (s : State) : (padCommit s).Makes s := by
  unfold padCommit
  split
  · exact (commit_makes _ s).bind fun _ t => Flow.makes_ok _ rfl rfl
  · exact Flow.makes_ok _ rfl rfl

theorem countBytes_makes (n a : Nat) (s : State) : (countBytes n a s).Makes s := by
  induction n generalizing a s with
  | zero => exact Flow.makes_ok _ rfl rfl
  | succ n ih =>
    refine (memRead_makes a s).bind fun b t => ?_
    split
    · exact Flow.makes_error _ t
    · exact (ih _ _).start rfl rfl

theorem encodeBytes_makes (n a : Nat) (s : State) : (encodeBytes n a s).Makes s := by
  induction n generalizing a s with
  | zero => exact Flow.makes_ok _ rfl rfl
  | succ n ih =>
    refine (memRead_makes a s).bind fun b t => ?_
    split
    · exact (writeString_makes _ t).bind fun _ u => ih _ u
    · exact Flow.makes_raise (by decide) _ t

theorem emitSymbol_makes (y : Byte) (s : State) : (emitSymbol y s).Makes s := by
  unfold emitSymbol
  split
  · obtain ⟨w, hw, -⟩ := raiseAt_eq (α := Unit) .sinkOverflow (s.regs.obase.toNat + s.res.ocnt.toNat) s
    rw [hw]
    exact Flow.makes_raise (by decide) _ s
  · exact (memWrite_makes _ y s).bind fun _ t => Flow.makes_ok _ rfl rfl

theorem decodeBits_makes (n : Nat) (acc : List Bool) (s : State) : (decodeBits n acc s).Makes s := by
  induction n generalizing acc s with
  | zero => exact Flow.makes_ok _ rfl rfl
  | succ n ih =>
    refine (readBit_makes s).bind fun b t => ?_
    split
    · exact (emitSymbol_makes _ t).bind fun _ u => ih _ u
    · split
      · exact ih _ t
      · exact Flow.makes_error _ t

/-! ### The deserializer's parse -/

theorem treeBit_makes (s : State) : (treeBit s).Makes s := by
  unfold treeBit
  split
  · exact Flow.makes_error _ s
  · exact readBit_makes s

theorem treeBits_makes (n v : Nat) (s : State) : (treeBits n v s).Makes s := by
  induction n generalizing v s with
  | zero => exact Flow.makes_ok _ rfl rfl
  | succ n ih => exact (treeBit_makes s).bind fun b t => ih _ t

theorem allocNode_makes (k : Kind) (sym : Byte) (p : Parse) (s : State) : (allocNode k sym p s).Makes s := by
  unfold allocNode
  split
  · exact Flow.makes_error _ s
  · exact Flow.makes_ok _ rfl rfl

theorem parseLeaf_makes (p : Parse) (s : State) : (parseLeaf p s).Makes s := by
  refine (treeBits_makes 8 0 s).bind fun v t => ?_
  simp only
  split
  · exact Flow.makes_error _ t
  · exact allocNode_makes _ _ _ t

theorem parsePair_makes {d : Nat} (hd : ∀ p s, (parseNode d p s).Makes s) (h : Handle) (p : Parse) (s : State) : (parsePair d h p s).Makes s :=
  (hd p s).bind fun l t => ((hd l.2 _).start (t := t.setLeft h l.1) (by simp) (by simp)).bind fun r u =>
    Flow.makes_ok _ (by simp) (by simp)

theorem parseNode_makes (d : Nat) (p : Parse) (s : State) : (parseNode d p s).Makes s := by
  induction d generalizing p s with
  | zero => exact Flow.makes_stop _ s
  | succ d ih =>
    rw [parseNode_succ]
    refine (treeBit_makes s).bind fun b t => ?_
    split
    · exact (allocNode_makes _ _ _ t).bind fun hp u => parsePair_makes ih _ _ u
    · exact parseLeaf_makes p t

theorem placeholderAhead_makes (r : Handle) (s : State) : (placeholderAhead r s).Makes s := by
  unfold placeholderAhead
  split
  · exact peekZero_makes _ _ s
  · exact Flow.makes_ok _ rfl rfl

theorem parseRootRight_makes (r : Handle) (p : Parse) (s : State) : (parseRootRight r p s).Makes s := by
  refine (treeBit_makes s).bind fun b t => ?_
  split
  · refine (placeholderAhead_makes r t).bind fun z u => ?_
    split
    · exact allocNode_makes _ _ _ u
    · exact (allocNode_makes _ _ _ u).bind fun hp v => parsePair_makes (parseNode_makes parseLevels) _ _ v
  · exact parseLeaf_makes p t

theorem parseTree_makes (s : State) : (parseTree s).Makes s := by
  rw [parseTree_eq]
  refine Flow.Makes.bind ?_ fun r t => Flow.makes_ok _ rfl rfl
  refine (treeBit_makes s).bind fun b t => ?_
  split
  · exact (allocNode_makes _ _ _ t).bind fun hp u => (parseNode_makes parseLevels hp.2 u).bind fun l v =>
      ((parseRootRight_makes hp.1 l.2 _).start (t := v.setLeft hp.1 l.1) (by simp) (by simp)).bind fun r w =>
        Flow.makes_ok _ (by simp) (by simp)
  · exact Flow.makes_error _ t

end

/-! ### The commands -/

/-- Every command is such a piece, brought to one of its ends. -/
theorem exec_makes (i : Instr) (s : State) : ∃ x : Flow Unit, exec i s = x.complete ∧ x.Makes s := by
  cases i with
  | freqClear => exact ⟨.ok () _, exec_freqClear s, Flow.makes_ok () rfl rfl⟩
  | freqCount =>
    refine ⟨_, rfl, (requireRegion_makes _ _ _ s).bind fun _ t => ?_⟩
    exact (countBytes_makes _ _ _).start rfl rfl
  | treeBuild =>
    rcases le_or_gt (freqSum s.cnt.freq) 0xFFFFFFFF with h | h
    · exact ⟨.ok () _, exec_treeBuild_of_fits h, Flow.makes_ok () rfl rfl⟩
    · exact ⟨.error .freqOverflow s.invalidate, exec_treeBuild_of_overflow h, (Flow.makes_error _ s.invalidate).start rfl rfl⟩
  | codesBuild =>
    exact ⟨_, rfl, (requireTree_makes s).bind fun _ t => (Flow.lift_makes _ t).bind fun _ u => Flow.makes_ok _ rfl rfl⟩
  | wOpen =>
    refine ⟨_, rfl, (requireMode_makes _ s).bind fun _ t => (requireRegion_makes _ _ _ t).bind fun _ u => ?_⟩
    simp only
    split
    · exact (Flow.makes_raise (by decide) _ u.latch).start rfl rfl
    · exact ((writeBytes_makes _ _ u.latch).bind fun _ v => Flow.makes_ok _ (by simp) (by simp)).start rfl rfl
  | wBits n => exact ⟨_, rfl, (requireMode_makes _ s).bind fun _ t => writeString_makes _ t⟩
  | wMagic =>
    exact ⟨_, rfl, (requireMode_makes _ s).bind fun _ t => (requireCodes_makes t).bind fun _ u => (writeString_makes _ u).bind fun _ v =>
      (writeString_makes _ v).bind fun _ w => writeString_makes _ w⟩
  | wClose =>
    exact ⟨_, rfl, (requireMode_makes _ s).bind fun _ t => (padCommit_makes t).bind fun _ u => (writeBytes_makes _ _ u).bind fun _ v =>
      Flow.makes_ok _ rfl rfl⟩
  | rOpen =>
    refine ⟨_, rfl, (requireMode_makes _ s).bind fun _ t => (requireRegion_makes _ _ _ t).bind fun _ u => ?_⟩
    simp only
    split
    · exact (Flow.makes_error _ u.latch).start rfl rfl
    · refine Flow.Makes.start (t := u.latch) ((readBigEndian_makes _ _ _ _).bind fun n v => ?_) rfl rfl
      split
      · exact Flow.makes_error _ v
      · exact Flow.makes_ok _ (by simp) (by simp)
  | rBits n =>
    refine ⟨_, rfl, (requireMode_makes _ s).bind fun _ t => ?_⟩
    simp only
    split
    · exact Flow.makes_raise (by decide) _ t
    · exact (readNat_makes _ _ t).bind fun v u => Flow.makes_ok _ rfl rfl
  | rMagic =>
    refine ⟨_, rfl, (requireMode_makes _ s).bind fun _ t => ?_⟩
    simp only
    split
    · exact Flow.makes_error _ t
    · refine (readNat_makes _ _ t).bind fun m u => ?_
      split
      · exact Flow.makes_error _ u
      · refine (readNat_makes _ _ u).bind fun p v => ?_
        split
        · exact Flow.makes_error _ v
        · exact Flow.makes_ok _ rfl rfl
  | rClose => exact ⟨_, rfl, (requireMode_makes _ s).bind fun _ t => Flow.makes_ok _ rfl rfl⟩
  | tSerialize =>
    exact ⟨_, rfl, (requireMode_makes _ s).bind fun _ t => (requireTree_makes t).bind fun _ u => (Flow.lift_makes _ u).bind fun p v =>
      writeString_makes _ v⟩
  | tDeserialize =>
    refine ⟨_, rfl, (requireMode_makes _ s).bind fun _ t => ?_⟩
    simp only
    split
    · exact Flow.makes_ok _ rfl rfl
    split
    · exact (Flow.makes_error _ t.clearTree).start rfl rfl
    · exact (parseTree_makes t.clearTree).start rfl rfl
  | sEncode =>
    exact ⟨_, rfl, (requireMode_makes _ s).bind fun _ t => (requireCodes_makes t).bind fun _ u => (requireRegion_makes _ _ _ u).bind fun _ v =>
      (requireApart_makes _ _ _ v).bind fun _ w => encodeBytes_makes _ _ w⟩
  | sDecode =>
    refine ⟨_, rfl, (requireMode_makes _ s).bind fun _ t => (requireCodes_makes t).bind fun _ u => (requireRegion_makes _ _ _ u).bind fun _ v =>
      (requireApart_makes _ _ _ v).bind fun _ w => ?_⟩
    simp only
    split
    · exact (Flow.makes_error _ (w.setOcnt 0)).start rfl rfl
    · refine Flow.Makes.start (t := w.setOcnt 0) ((decodeBits_makes _ _ _).bind fun acc x => ?_) rfl rfl
      split
      · exact Flow.makes_ok _ rfl rfl
      · exact Flow.makes_error _ x

/-- A command's accesses, and when it ends with `BUS_ERROR`. -/
theorem exec_accesses {i : Instr} {s t : State} (hf : s.cmd.fcode ≠ .busError) (ht : exec i s = .next t) :
    ∃ d, s.env.completes d = true ∧
      ((t.env = s.env.after d ∧ t.cmd.fcode ≠ .busError) ∨
        (t.env = s.env.after (d + 1) ∧ s.env.drawAt d = false ∧ t.cmd.fcode = .busError)) := by
  obtain ⟨x, hx, hd, hc⟩ := exec_makes i s
  rcases Flow.complete_eq_next (hx.symm.trans ht) with ⟨u, rfl, rfl⟩ | ⟨e, u, rfl, rfl⟩ | ⟨f, w, u, rfl, rfl⟩
  · obtain ⟨d, he, hd⟩ := hd
    have hc : u.cmd = s.cmd := hc
    exact ⟨d, hd, .inl ⟨he, by rw [State.finish_cmd, hc]; exact hf⟩⟩
  · obtain ⟨d, he, hd⟩ := hd
    have hc : u.cmd = s.cmd := hc
    exact ⟨d, hd, .inl ⟨he, by rw [State.finishError_cmd, hc]; exact hf⟩⟩
  · obtain ⟨d, hd, he⟩ := hd
    by_cases hb : f = .busError
    · rw [if_pos hb] at he
      exact ⟨d, hd, .inr ⟨he.1, he.2, hb⟩⟩
    · rw [if_neg hb] at he
      exact ⟨d, hd, .inl ⟨he, hb⟩⟩

end Sys2Proof.Machine
end

section
/-! PROOFS. The address of the access that failed (20_memory.md R43), command by command. -/

namespace Sys2Proof.Machine

section
variable {s t : State}

/-- A command that ends with `BUS_ERROR` has raised it. -/
theorem Runs.busError {i : Instr} {ok : State → Prop} {err : ErrCode → State → Prop} {raise : FaultCode → Word → State → Prop}
    (h : Runs i s ok err raise) (hf : s.cmd.fcode ≠ .busError) (ht : exec i s = .next t) (hb : t.cmd.fcode = .busError)
    (hok : ∀ u, ok u → u.cmd = s.cmd) (herr : ∀ e u, err e u → u.cmd = s.cmd) :
    ∃ u w, raise .busError w u ∧ t.cmd.fault = true ∧ t.cmd.busy = false ∧ t.cmd.finfo = w ∧ t.ch = u.ch ∧ t.env = u.env ∧ t.res = u.res := by
  rcases h.next ht with ⟨u, hu, rfl⟩ | ⟨e, u, hu, rfl⟩ | ⟨f, w, u, hu, rfl⟩
  · rw [State.finish_cmd, hok u hu] at hb
    exact absurd hb hf
  · rw [State.finishError_cmd, herr e u hu] at hb
    exact absurd hb hf
  · obtain rfl : f = .busError := hb
    exact ⟨u, w, hu, rfl, rfl, rfl, rfl, rfl, rfl⟩

theorem CheckFails.not_busError : ¬CheckFails s .busError t := fun h => absurd h.1 (by decide)

/-- What a failed commit says of the place it was tried at. -/
theorem CommitFails.place {u : State} {n k : Nat} {w : Word} (h : CommitFails s n k .busError w u) :
    w.toNat = u.ch.pos ∧ u.ch.bn = 8 ∧ s.ch.pos ≤ u.ch.pos ∧ u.env.drawn = s.env.drawn + k + (u.ch.pos - s.ch.pos) + 1 := by
  obtain ⟨hbn, ⟨-, ⟨h, -⟩ | ⟨h, -⟩⟩ | ⟨hw, -, hinfo⟩⟩ := h
  · cases h
  · cases h
  · exact ⟨hinfo, hbn, hw.pos_le, hw.drawn⟩

theorem FetchFails.place {u : State} {f : FaultCode} {w : Word} (h : FetchFails s f w u) :
    w.toNat = u.ch.pos ∧ u.ch.bn = 0 ∧ s.ch.pos ≤ u.ch.pos ∧ u.env.drawn = s.env.drawn + (u.ch.pos - s.ch.pos) + 1 :=
  ⟨h.2.2.1, h.2.2.2, h.2.1.pos_le, h.2.1.drawn⟩

/-- Where the failed access of a command lies, `last` accesses before it. -/
def BusInfo (i : Instr) (s t : State) (last info : Nat) : Prop :=
  let pad := if 0 < s.ch.bn.toNat then 1 else 0
  match i with
  | .freqCount => info = s.regs.ibase.toNat + last
  | .wOpen => info = s.regs.sbase.toNat + last ∧ t.ch.mode = .idle
  | .rOpen => info = s.regs.sbase.toNat + last ∧ t.ch.mode = .idle
  | .wBits _ => info = t.ch.pos ∧ t.ch.pos = s.ch.pos + last ∧ t.ch.bn = 8
  | .wMagic => info = t.ch.pos ∧ t.ch.pos = s.ch.pos + last ∧ t.ch.bn = 8
  | .tSerialize => info = t.ch.pos ∧ t.ch.pos = s.ch.pos + last ∧ t.ch.bn = 8
  | .sEncode => (info = t.ch.pos ∧ t.ch.bn = 8) ∨ ∃ k < s.regs.ilen.toNat, info = s.regs.ibase.toNat + k
  | .wClose => (last < pad ∧ info = s.ch.pos) ∨ (pad ≤ last ∧ info = s.ch.lbase.toNat + (last - pad))
  | .rBits _ => info = t.ch.pos ∧ t.ch.pos = s.ch.pos + last ∧ t.ch.bn = 0
  | .rMagic => info = t.ch.pos ∧ t.ch.pos = s.ch.pos + last ∧ t.ch.bn = 0
  | .tDeserialize =>
    (info = t.ch.pos ∧ t.ch.bn = 0) ∨
      ∃ k, t.ch.chC.toNat ≤ k ∧ k + s.ch.rpad.toNat < s.ch.chT.toNat ∧ info = s.ch.lbase.toNat + 4 + k / 8
  | .sDecode => (info = t.ch.pos ∧ t.ch.bn = 0) ∨ info = s.regs.obase.toNat + t.res.ocnt.toNat
  | .freqClear | .treeBuild | .codesBuild | .rClose => False

theorem exec_busInfo {i : Instr} (hf : s.cmd.fcode ≠ .busError) (ht : exec i s = .next t) (hb : t.cmd.fcode = .busError) :
    t.cmd.fault = true ∧ t.cmd.busy = false ∧ BusInfo i s t (t.env.drawn - s.env.drawn - 1) t.cmd.finfo.toNat := by
  cases i with
  | freqClear =>
    cases (exec_freqClear s).symm.trans ht
    exact absurd hb hf
  | treeBuild =>
    rcases le_or_gt (freqSum s.cnt.freq) 0xFFFFFFFF with h | h
    · cases (exec_treeBuild_of_fits h).symm.trans ht
      exact absurd hb hf
    · cases (exec_treeBuild_of_overflow h).symm.trans ht
      exact absurd hb hf
  | freqCount =>
    obtain ⟨u, w, h, hfault, hbusy, hinfo, -, henv, -⟩ :=
      (runs_freqCount s).busError hf ht hb (fun u h => h.frame.1.cmd) fun e u ⟨_, k, h⟩ => h.frame.1.cmd
    obtain h | ⟨-, k, -, ⟨f, rfl⟩, hw⟩ := h
    · exact absurd h CheckFails.not_busError
    · refine ⟨hfault, hbusy, ?_⟩
      have hdrawn : t.env.drawn = s.env.drawn + (k + 1) := congrArg Env.drawn henv
      show _ = _
      rw [hinfo, hw, hdrawn]
      omega
  | codesBuild =>
    obtain ⟨u, w, h, -⟩ := (runs_codesBuild s).busError hf ht hb (fun u ⟨_, e, tb, _, h⟩ => by rw [h]) fun _ _ => False.elim
    exact absurd h CheckFails.not_busError
  | wOpen =>
    obtain ⟨u, w, h, hfault, hbusy, hinfo, hch, henv, -⟩ :=
      (runs_wOpen s).busError hf ht hb (fun u ⟨_, _, _, v, hv, h⟩ => by rw [h, State.openWriter_cmd]; exact hv.keeps.2.1) fun _ _ => False.elim
    obtain h | ⟨hm, ⟨h, -⟩ | ⟨k, -, h, -, hw⟩⟩ := h
    · exact absurd h CheckFails.not_busError
    · cases h
    · have hdrawn : u.env.drawn = s.env.drawn + k + 1 := h.drawn
      refine ⟨hfault, hbusy, ?_, by rw [hch, h.ch]; exact hm⟩
      rw [hinfo, hw, henv, hdrawn]
      omega
  | rOpen =>
    obtain ⟨u, w, h, hfault, hbusy, hinfo, hch, henv, -⟩ :=
      (runs_rOpen s).busError hf ht hb (fun u ⟨_, _, _, v, n, hv, _, h⟩ => by rw [h, State.openReader_cmd]; exact hv.keeps.2.1)
        fun e u ⟨_, _, k, h⟩ => h.keeps.2.1
    obtain h | ⟨hm, k, -, h, -, hw⟩ := h
    · exact absurd h CheckFails.not_busError
    · have hdrawn : u.env.drawn = s.env.drawn + (k + 1) := h.drawn
      refine ⟨hfault, hbusy, ?_, by rw [hch, h.ch]; exact hm⟩
      rw [hinfo, hw, henv, hdrawn]
      omega
  | wBits n =>
    obtain ⟨u, w, h, hfault, hbusy, hinfo, hch, henv, -⟩ :=
      (runs_wBits n s).busError hf ht hb (fun u h => h.keeps.1.2.1) fun _ _ => False.elim
    obtain ⟨hw, hbn, hle, hdrawn⟩ := (h.resolve_left CheckFails.not_busError).place
    exact ⟨hfault, hbusy, by rw [hinfo, hw, hch], by rw [hch, henv]; omega, by rw [hch]; exact hbn⟩
  | wMagic =>
    obtain ⟨u, w, h, hfault, hbusy, hinfo, hch, henv, -⟩ :=
      (runs_wMagic s).busError hf ht hb (fun u h => h.keeps.1.2.1) fun _ _ => False.elim
    obtain ⟨hw, hbn, hle, hdrawn⟩ := (h.resolve_left CheckFails.not_busError).place
    exact ⟨hfault, hbusy, by rw [hinfo, hw, hch], by rw [hch, henv]; omega, by rw [hch]; exact hbn⟩
  | tSerialize =>
    obtain ⟨u, w, h, hfault, hbusy, hinfo, hch, henv, -⟩ :=
      (runs_tSerialize s).busError hf ht hb (fun u ⟨p, _, h⟩ => h.keeps.1.2.1) fun _ _ => False.elim
    obtain ⟨p, -, h⟩ := h.resolve_left CheckFails.not_busError
    obtain ⟨hw, hbn, hle, hdrawn⟩ := h.place
    exact ⟨hfault, hbusy, by rw [hinfo, hw, hch], by rw [hch, henv]; omega, by rw [hch]; exact hbn⟩
  | sEncode =>
    obtain ⟨u, w, h, hfault, hbusy, hinfo, hch, henv, -⟩ :=
      (runs_sEncode s).busError hf ht hb (fun u ⟨k, h⟩ => h.keeps.1.2.1) fun _ _ => False.elim
    refine ⟨hfault, hbusy, ?_⟩
    rcases h.resolve_left CheckFails.not_busError with ⟨k, h, -⟩ | ⟨k, h⟩ | ⟨k, j, hj, -, -, hw⟩
    · cases h
    · obtain ⟨hw, hbn, -⟩ := h.place
      exact .inl ⟨by rw [hinfo, hw, hch], by rw [hch]; exact hbn⟩
    · exact .inr ⟨j, hj, by rw [hinfo, hw]⟩
  | wClose =>
    obtain ⟨u, w, h, hfault, hbusy, hinfo, hch, henv, -⟩ :=
      (runs_wClose s).busError hf ht hb (fun u ⟨_, v, x, hv, hx, h⟩ => by rw [h, State.closeWriter_cmd, hx.keeps.2.1, hv.keeps.1.2.1])
        fun _ _ => False.elim
    refine ⟨hfault, hbusy, ?_⟩
    show (_ ∧ _) ∨ _
    obtain h | ⟨-, ⟨-, h | h⟩ | ⟨hbn, -, -, hw, rfl⟩ | ⟨v, hv, k, -, h, -, hw⟩⟩ := h
    · exact absurd h CheckFails.not_busError
    · cases h
    · cases h
    · have hdrawn : t.env.drawn = s.env.drawn + 1 := congrArg Env.drawn henv
      refine .inl ⟨?_, by rw [hinfo, hw]⟩
      rw [if_pos hbn, hdrawn]
      omega
    · have hdv := hv.drawn
      have hdu : u.env.drawn = v.env.drawn + k + 1 := h.drawn
      rw [hinfo, hw, henv]
      exact .inr ⟨by omega, by omega⟩
  | rBits n =>
    obtain ⟨u, w, h, hfault, hbusy, hinfo, hch, henv, -⟩ :=
      (runs_rBits n s).busError hf ht hb (fun u ⟨v, r, hv, h⟩ => by rw [h]; exact hv.keeps.1.2.1) fun _ _ => False.elim
    obtain (h | ⟨h, -⟩) | h := h
    · exact absurd h CheckFails.not_busError
    · cases h
    · obtain ⟨hw, hbn, hle, hdrawn⟩ := h.place
      exact ⟨hfault, hbusy, by rw [hinfo, hw, hch], by rw [hch, henv]; omega, by rw [hch]; exact hbn⟩
  | rMagic =>
    obtain ⟨u, w, h, hfault, hbusy, hinfo, hch, henv, -⟩ :=
      (runs_rMagic s).busError hf ht hb (fun u ⟨v, p, hv, h⟩ => by rw [h]; exact hv.keeps.1.2.1) fun _ u h => h.keeps.1.2.1
    obtain ⟨hw, hbn, hle, hdrawn⟩ := (h.resolve_left CheckFails.not_busError).place
    exact ⟨hfault, hbusy, by rw [hinfo, hw, hch], by rw [hch, henv]; omega, by rw [hch]; exact hbn⟩
  | rClose =>
    obtain ⟨u, w, h, -⟩ := (runs_rClose s).busError hf ht hb (fun u ⟨_, h⟩ => by rw [h]) fun _ _ => False.elim
    exact absurd h CheckFails.not_busError
  | tDeserialize =>
    obtain ⟨u, w, h, hfault, hbusy, hinfo, hch, henv, -⟩ :=
      (runs_tDeserialize s).busError hf ht hb (fun u ⟨v, r, a, hv, h⟩ => by rw [h]; exact hv.cmd) fun e u ⟨_, h⟩ => h.cmd
    obtain ⟨-, -, h⟩ := h.resolve_left CheckFails.not_busError
    refine ⟨hfault, hbusy, ?_⟩
    show (_ ∧ _) ∨ _
    rw [hinfo, hch]
    exact h
  | sDecode =>
    obtain ⟨u, w, h, hfault, hbusy, hinfo, hch, henv, hres⟩ :=
      (runs_sDecode s).busError hf ht hb (fun u h => h.frame.1.cmd) fun _ u h => h.frame.1.cmd
    refine ⟨hfault, hbusy, ?_⟩
    show (_ ∧ _) ∨ _
    rw [hinfo, hch, hres]
    rcases h.resolve_left CheckFails.not_busError with ⟨h, -⟩ | ⟨-, -, hw⟩ | ⟨-, -, hw⟩
    · cases h
    · exact .inl hw
    · exact .inr hw

end

end Sys2Proof.Machine
end

section
/-! PROOFS. What a failed access of the opens, of `W_CLOSE` and of the commands that write bits leaves (20_memory.md R43, 60_exceptions.md
R119). -/

namespace Sys2Proof.Machine

section
variable {s t : State} {k : Nat}

/-- The command ends with `BUS_ERROR` at the address `a`, in a state with `left`. -/
def BusErrorAt (s : State) (i : Instr) (a : Nat) (left : State → Prop) : Prop :=
  ∃ t, exec i s = .next t ∧
    t.cmd = { s.cmd with
      fault := true, fcode := .busError, fop := s.cmd.pcmd.extractLsb' 0 8, finfo := BitVec.ofNat 32 a, busy := false } ∧ left t

theorem BusErrorAt.of_raise {i : Instr} {a : Nat} {left : State → Prop}
    (hx : exec i s = (.raise .busError (BitVec.ofNat 32 a) t : Flow Unit).complete) (hc : t.cmd = s.cmd)
    (hl : left (t.enterFault .busError (BitVec.ofNat 32 a))) : BusErrorAt s i a left := by
  refine ⟨_, hx, ?_, hl⟩
  rw [State.enterFault_cmd, hc]
  rfl

/-- The access after `k` that complete. -/
theorem drawOk_after (he : t.env = s.env.after k) (h : s.env.drawAt k = false) : t.drawOk = false := by
  rw [State.drawOk_eq, he, Env.after_drawAt]
  exact h

/-! ### Writes and reads at consecutive addresses -/

/-- Write `k` of a run fails: the bytes before it are stored. -/
theorem writeBytes_fails {a : Nat} {l : List Byte} (hm : s.mem.wf = true) (ha : a + l.length ≤ 2 ^ 32) (hk : k < l.length)
    (hd : s.env.completes k = true) (hf : s.env.drawAt k = false) :
    ∃ u, writeBytes a l s = .raise .busError (BitVec.ofNat 32 (a + k)) u ∧ KeepsBlock s u ∧ u.ch = s.ch ∧ bytesAt u.mem a k = l.take k ∧
      ∀ b, b < a ∨ a + k < b → u.mem.read b = s.mem.read b := by
  have hlen : (l.take k).length = k := List.length_take_of_le hk.le
  obtain ⟨t, ht, hs⟩ := writeBytes_stores (a := a) (l := l.take k) hm (by rw [hlen]; omega) (by rw [hlen]; exact hd)
  have henv := hs.env
  have hbytes := hs.bytes
  have hread := hs.read
  rw [hlen] at henv hbytes hread
  obtain ⟨v, rest, hrest⟩ : ∃ v rest, l.drop k = v :: rest := ⟨_, _, List.drop_eq_getElem_cons hk⟩
  have hx : writeBytes a l s = .raise .busError (BitVec.ofNat 32 (a + k)) (t.stored (a + k) (Config.freeByte t.env.drawn)) := by
    rw [← List.take_append_drop k l, writeBytes_append, ht, Flow.bind_ok, hlen, hrest, writeBytes, memWrite_fails (by omega) (drawOk_after henv hf)]
    rfl
  refine ⟨_, hx, hs.keeps.trans (t.stored_keepsBlock _ _), hs.ch, ?_, fun b hb => ?_⟩
  · rw [← hbytes]
    exact bytesAt_congr fun i hi => t.stored_read_other _ (by omega)
  · rw [t.stored_read_other _ (by omega), hread b (by omega)]

theorem readBigEndian_fails {a v n : Nat} (ha : a + n ≤ 2 ^ 32) (hk : k < n) (hd : s.env.completes k = true) (hf : s.env.drawAt k = false) :
    readBigEndian n a v s = .raise .busError (BitVec.ofNat 32 (a + k)) (s.advance k).drawNext := by
  obtain ⟨m, rfl⟩ : ∃ m, n = k + (m + 1) := ⟨n - k - 1, by omega⟩
  rw [readBigEndian_add, readBigEndian_completes (by omega) hd, Flow.bind_ok, readBigEndian, memRead_fails (by omega) (drawOk_after rfl hf)]
  rfl

/-! ### The opens -/

section
variable (hm : s.ch.mode = .idle) (hreg : s.regs.sbase.toNat + s.regs.slen.toNat ≤ 2 ^ 32) (hlen : 4 ≤ s.regs.slen.toNat) (hk : k < 4)
  (hd : s.env.completes k = true) (hf : s.env.drawAt k = false)

include hm hreg hlen hk hd hf

theorem wOpen_busError (hwf : s.mem.wf = true) :
    BusErrorAt s .wOpen (s.regs.sbase.toNat + k) fun t =>
      t.ch = { s.ch with lbase := s.regs.sbase, llen := s.regs.slen } ∧ bytesAt t.mem s.regs.sbase.toNat k = List.replicate k 0 ∧
        ∀ a, a < s.regs.sbase.toNat ∨ s.regs.sbase.toNat + k < a → t.mem.read a = s.mem.read a := by
  obtain ⟨u, hu, hkeeps, hch, hbytes, hread⟩ := writeBytes_fails (s := s.latch) (a := s.regs.sbase.toNat) (l := List.replicate 4 0) (k := k) hwf
    (by rw [List.length_replicate]; omega) (by rwa [List.length_replicate]) hd hf
  refine .of_raise (t := u) ?_ hkeeps.2.1 ⟨hch, ?_, hread⟩
  · rw [exec_wOpen hm hreg hlen, hu]
    rfl
  · show bytesAt u.mem _ k = _
    rw [hbytes, List.take_replicate, Nat.min_eq_left hk.le]

theorem rOpen_busError :
    BusErrorAt s .rOpen (s.regs.sbase.toNat + k) fun t => t.ch = { s.ch with lbase := s.regs.sbase, llen := s.regs.slen } ∧ t.mem = s.mem := by
  refine .of_raise (t := (s.latch.advance k).drawNext) ?_ rfl ⟨rfl, rfl⟩
  rw [exec_rOpen hm hreg hlen, readBigEndian_fails (s := s.latch) (by omega) hk hd hf]
  rfl

end

/-! ### W_CLOSE -/

theorem wClose_pad_busError (hm : s.ch.mode = .write) (hw : WriterOk s) (hf : s.cmd.fault = false) (h0 : 0 < s.ch.bn.toNat) (hr : s.ch.room 8)
    (hd : s.env.drawAt 0 = false) :
    BusErrorAt s .wClose s.ch.pos fun t => t.ch = s.ch ∧ ∀ a, a < s.ch.pos ∨ s.ch.pos < a → t.mem.read a = s.mem.read a := by
  have hbn := hw.bn_le hf
  obtain ⟨hr₁, hr₂⟩ := hr
  rw [show s.ch.commits 8 = 1 by unfold Channel.commits; omega] at hr₁ hr₂
  obtain ⟨hreg, -, hpos, -⟩ := ((writerOk_iff s).mp hw).1
  refine .of_raise (t := s.stored s.ch.pos (Config.freeByte s.env.drawn)) ?_ rfl ⟨rfl, fun a ha => s.stored_read_other _ (by omega)⟩
  rw [exec_wClose hm, padCommit, if_pos h0,
    commit_busError (by omega) (by omega) (by omega) (by rw [State.drawOk_eq]; exact hd)]
  rfl

theorem headerBytes_getElem (T : Word) {m : Nat} (hm : m < 4) :
    ((headerBytes T)[m]'(by rw [headerBytes_length]; exact hm)).toNat = T.toNat / 2 ^ (8 * (3 - m)) % 2 ^ 8 := by
  simp only [headerBytes, List.getElem_map, List.getElem_range, headerByte, BitVec.extractLsb'_toNat, Nat.shiftRight_eq_div_pow]

theorem wClose_header_busError (hm : s.ch.mode = .write) (hw : WriterOk s) (hf : s.cmd.fault = false) (hwf : s.mem.wf = true)
    (hr : 0 < s.ch.bn.toNat → s.ch.room 8) (hle : (s.ch.bn.toNat + 7) / 8 ≤ k) (hlt : k < (s.ch.bn.toNat + 7) / 8 + 4)
    (hd : s.env.completes k = true) (hdf : s.env.drawAt k = false) :
    BusErrorAt s .wClose (s.ch.lbase.toNat + (k - (s.ch.bn.toNat + 7) / 8)) fun t =>
      t.ch.mode = .write ∧ t.ch.fileLen = s.ch.fileLen ∧ t.ch.bn = 0 ∧
        t.ch.chT.toNat = 8 * ((s.ch.chT.toNat + s.ch.bn.toNat + 7) / 8) ∧
          (∀ m < k - (s.ch.bn.toNat + 7) / 8,
            (t.mem.read (s.ch.lbase.toNat + m)).toNat = t.ch.chT.toNat / 2 ^ (8 * (3 - m)) % 2 ^ 8) ∧
            (∀ m < 4, k - (s.ch.bn.toNat + 7) / 8 < m → t.mem.read (s.ch.lbase.toNat + m) = s.mem.read (s.ch.lbase.toNat + m)) ∧
              regionBits t.mem s.ch.lbase.toNat 0 t.ch.chT.toNat = s.written ++ List.replicate ((8 - s.ch.bn.toNat) % 8) false := by
  have hbn := hw.bn_le hf
  obtain ⟨j, rfl⟩ : ∃ j, k = (s.ch.bn.toNat + 7) / 8 + j := ⟨k - (s.ch.bn.toNat + 7) / 8, by omega⟩
  rw [Nat.add_sub_cancel_left]
  rw [Env.completes_add] at hd
  obtain ⟨u, hu, ha, -⟩ := padCommit_appends hw hbn hwf (fun h0 => by
    have h := hr h0
    have hc : s.ch.commits (8 - s.ch.bn.toNat) = s.ch.commits 8 := by unfold Channel.commits; omega
    unfold Channel.room at h ⊢
    rwa [hc]) hd.1
  obtain ⟨hT, hzero, hbits⟩ := ha.padded_chT hw hbn
  obtain ⟨hk, hwu, -, -, henv, hwfu, -, hread⟩ := ha
  have hcommits : s.ch.commits (List.replicate ((8 - s.ch.bn.toNat) % 8) false).length = (s.ch.bn.toNat + 7) / 8 := by
    rw [List.length_replicate]
    unfold Channel.commits
    omega
  rw [hcommits] at henv
  have hlb : u.ch.lbase = s.ch.lbase := hk.2.2.1
  obtain ⟨hreg, -, -, hlen⟩ := ((writerOk_iff u).mp hwu).1
  obtain ⟨-, -, hspos, -⟩ := ((writerOk_iff s).mp hw).1
  rw [← Env.after_drawAt, Nat.add_zero] at hdf
  obtain ⟨v, hv, hkv, hch, hbytes, hreadv⟩ := writeBytes_fails (s := u) (k := j) (a := u.ch.lbase.toNat) (l := headerBytes u.ch.chT) hwfu
    (by rw [headerBytes_length]; omega) (by rw [headerBytes_length]; omega) (by rw [henv]; exact hd.2)
    (by rw [henv, Env.after_drawAt]; rw [Env.after_drawAt] at hdf; exact hdf)
  rw [hlb] at hv hbytes hreadv
  have hbytes' : ∀ m < j, (v.mem.read (s.ch.lbase.toNat + m)).toNat = u.ch.chT.toNat / 2 ^ (8 * (3 - m)) % 2 ^ 8 := by
    intro m hm
    have h := congrArg (·[m]?) hbytes
    rw [List.getElem?_take_of_lt hm, bytesAt, List.getElem?_map, List.getElem?_range hm,
      List.getElem?_eq_getElem (by rw [headerBytes_length]; omega)] at h
    rw [← headerBytes_getElem u.ch.chT (by omega)]
    exact congrArg BitVec.toNat (Option.some.inj h)
  refine .of_raise (t := v) ?_ (hkv.2.1.trans hk.1.2.1) ⟨?_, ?_, ?_, ?_, ?_, fun m hm hj => ?_, ?_⟩
  · rw [exec_wClose hm, hu, Flow.bind_ok, hlb, hv]
    rfl
  · show v.ch.mode = _
    rw [hch]
    exact hk.2.1.trans hm
  · show v.ch.fileLen = _
    rw [hch]
    exact hk.2.2.2.2.2.2
  · show v.ch.bn = 0
    rw [hch, hzero]
  · show v.ch.chT.toNat = _
    rw [hch, hT]
  · show ∀ m < j, _ = v.ch.chT.toNat / _ % _
    rw [hch]
    exact hbytes'
  · show v.mem.read _ = _
    rw [hreadv _ (by omega), hread _ (by omega)]
  · show Machine.regionBits v.mem _ 0 v.ch.chT.toNat = _
    rw [← hbits, hch]
    exact regionBits_congr _ _ _ _ _ fun i _ => hreadv _ (by omega)

/-! ### Commits -/

theorem commit_busErrorAt {i : Instr} {p : List Bool} {reads first j : Nat} (hwf : s.mem.wf = true) (hm : s.ch.mode = .write) (hw : WriterOk s)
    (hf : s.cmd.fault = false) (hg : s.gives i p reads first) (hfirst : first ≤ j) (hj : j < s.ch.commits p.length)
    (hroom : 4 + s.ch.chT.toNat / 8 + (j + 1) ≤ s.ch.llen.toNat) (hheader : s.ch.chT.toNat + 8 * (j + 1) ≤ 0xFFFFFFF8)
    (hd : s.env.completes (reads + j) = true) (hdf : s.env.drawAt (reads + j) = false) :
    BusErrorAt s i (s.ch.pos + j) fun t =>
      Uncommitted s t p j ∧ ∀ a, a < s.ch.pos ∨ s.ch.pos + j < a → t.mem.read a = s.mem.read a := by
  obtain ⟨x, u, k, h⟩ := reaches_of_gives ⟨hwf, hm, hw, hw.bn_le hf, by omega, by omega⟩ hf hg hfirst hj hd
  obtain ⟨hpos, hspos, hlb, hll, hT⟩ := h.place hw
  obtain ⟨hreg, h8, -, -⟩ := ((writerOk_iff s).mp hw).1
  have hc : commit u.ch.bacc u = .raise .busError (BitVec.ofNat 32 (s.ch.pos + j)) (u.stored u.ch.pos (Config.freeByte u.env.drawn)) := by
    rw [commit_busError (by rw [hlb, hll]; omega) (by omega) (by omega) (drawOk_after h.env hdf), hpos]
    rfl
  have hother {a : Nat} (ha : a ≠ s.ch.pos + j) : (u.stored u.ch.pos (Config.freeByte u.env.drawn)).mem.read a = u.mem.read a :=
    u.stored_read_other _ (by rw [hpos]; exact ha)
  obtain ⟨hmode, -, -, hbn, hacc, hbits⟩ := h.uncommitted
  refine .of_raise (t := u.stored u.ch.pos (Config.freeByte u.env.drawn)) (h.exec_of_raise hc) h.keeps.1.2.1
    ⟨⟨hmode, hpos, hT, hbn, hacc, ?_⟩, fun a ha => ?_⟩
  · rw [← hbits]
    exact regionBits_congr _ _ _ _ _ fun i hi => hother (by rw [hspos]; omega)
  · exact (hother (by omega)).trans (h.read a (by omega))

/-! ### Input reads of `S_ENCODE` -/

theorem sEncode_busErrorAt {m : Nat} (hm : m < s.regs.ilen.toNat) (hwf : s.mem.wf = true) (hmode : s.ch.mode = .write) (hw : WriterOk s)
    (hf : s.cmd.fault = false) (hc : s.codes.cvalid = true) (hreg : regionOK s.regs.ibase s.regs.ilen = true)
    (hapart : overlaps s.regs.ibase s.regs.ilen s.ch.lbase s.ch.llen = false)
    (hcodes : ∀ y ∈ bytesAt s.mem s.regs.ibase.toNat m, (s.codes.enc.of y).valid = true)
    (hr : s.ch.room (codeString s.codes.enc (bytesAt s.mem s.regs.ibase.toNat m)).length)
    (hd : s.env.completes (m + s.ch.commits (codeString s.codes.enc (bytesAt s.mem s.regs.ibase.toNat m)).length) = true)
    (hdf : s.env.drawAt (m + s.ch.commits (codeString s.codes.enc (bytesAt s.mem s.regs.ibase.toNat m)).length) = false) :
    BusErrorAt s .sEncode (s.regs.ibase.toNat + m) fun t =>
      t.written = s.written ++ codeString s.codes.enc (bytesAt s.mem s.regs.ibase.toNat m) ∧ t.ch.mode = .write ∧ WriterOk t := by
  obtain ⟨t, ht, ha⟩ := encodeBytes_prefix hw hf hwf hreg hapart hm.le hcodes hr hd
  obtain ⟨n, hx⟩ := exec_sEncode_prefix hmode hc hreg hapart hm ht
  have hbase := regionOK_iff.mp hreg
  have hbn := ha.bn_le
  obtain ⟨hk, hwt, -, -, henv, -, hwritten, -⟩ := ha
  have henv' : t.env = s.env.after (m + s.ch.commits (codeString s.codes.enc (bytesAt s.mem s.regs.ibase.toNat m)).length) := by
    rw [henv]
    exact Env.after_after ..
  rw [encodeBytes, memRead_fails (by omega) (drawOk_after henv' hdf)] at hx
  refine .of_raise (t := t.drawNext) hx hk.1.2.1 ⟨hwritten, hk.2.1.trans hmode, ?_⟩
  exact (writerOk_iff _).mpr ⟨((writerOk_iff t).mp hwt).1, .inl hbn⟩

end

end Sys2Proof.Machine
end

section
/-! PROOFS. What a failed access of the commands that read bits leaves (20_memory.md R56, R57, 60_exceptions.md R119). -/

namespace Sys2Proof.Machine

section
variable {s t : State} {k : Nat}

/-! ### Refills -/

/-- A reader at its failed refill: no bit buffered, the position the next byte's. -/
structure Refills (s u : State) (k : Nat) : Prop where
  keeps : ParseKeeps s u
  tree : u.tree = s.tree
  bn : u.ch.bn = 0
  pos : u.ch.pos = s.ch.pos + k
  chC : u.ch.chC.toNat = s.ch.chC.toNat + s.ch.bn.toNat + 8 * k

theorem readBit_refill_fails (hr : ReaderOk s) (h0 : s.ch.bn = 0) (hlt : s.ch.chC.toNat < s.ch.chT.toNat) (hf : s.env.drawAt 0 = false) :
    readBit s = .raise .busError (BitVec.ofNat 32 s.ch.pos) s.drawNext := by
  obtain ⟨hreg, -, hpos, hbn, hlen, -⟩ := hr
  rw [regionOK_iff] at hreg
  have hbn0 : s.ch.bn.toNat = 0 := by rw [h0]; rfl
  rw [readBit, refill, if_pos h0, memRead_fails (by omega) (by rw [State.drawOk_eq]; exact hf)]
  rfl

theorem readNat_fails {n v : Nat} (hr : ReaderOk s) (hle : s.ch.chC.toNat + n ≤ s.ch.chT.toNat) (hk : k < s.ch.fetches n)
    (hd : s.env.completes k = true) (hf : s.env.drawAt k = false) :
    ∃ u, readNat n v s = .raise .busError (BitVec.ofNat 32 (s.ch.pos + k)) u ∧ Refills s u k := by
  induction n generalizing v s k with
  | zero => simp [fetches_zero] at hk
  | succ n ih =>
    have hbn : s.ch.bn.toNat = (8 - s.ch.chC.toNat % 8) % 8 := hr.2.2.2.1
    by_cases hfail : s.ch.fetches 1 = 1 ∧ k = 0
    · obtain ⟨h1, rfl⟩ := hfail
      have h0 : s.ch.bn = 0 := BitVec.eq_of_toNat_eq (by rw [hbn]; unfold Channel.fetches at h1; show _ = 0; omega)
      refine ⟨s.drawNext, ?_, ⟨(ReadBytes.drawNext s).parseKeeps, rfl, h0, rfl, by rw [h0]; rfl⟩⟩
      rw [readNat, readBit_refill_fails hr h0 (by omega) hf]
      rfl
    · have h1 : s.ch.fetches 1 ≤ k := by unfold Channel.fetches at hfail hk ⊢; omega
      obtain ⟨k', rfl⟩ := Nat.exists_eq_add_of_le h1
      rw [Env.completes_add] at hd
      have hbit := (readBit_ensures hr (show s.ch.chC.toNat < s.ch.chT.toNat by omega)).1
      have hsafe := (readBit_ensures hr (show s.ch.chC.toNat < s.ch.chT.toNat by omega)).2
      have htree := readBit_ends s
      cases hx : readBit s with
      | ok b t =>
        rw [hx] at hbit htree
        have hb : Reads s t [b] 0 := hbit
        have hc := hb.chC
        have hT := hb.keeps.chT
        have hbnt : t.ch.bn.toNat = (8 - t.ch.chC.toNat % 8) % 8 := hb.reader.2.2.2.1
        have hpos : s.ch.pos = s.ch.lbase.toNat + 4 + (s.ch.chC.toNat + 7) / 8 := hr.2.2.1
        have hpost : t.ch.pos = t.ch.lbase.toNat + 4 + (t.ch.chC.toNat + 7) / 8 := hb.reader.2.2.1
        have henv := hb.env
        have hlb := hb.keeps.lbase
        rw [List.length_singleton] at hc
        rw [List.length_singleton, Nat.add_zero] at henv
        have hadd := fetches_add s t 1 n hc
        rw [show 1 + n = n + 1 by omega] at hadd
        have hf1 : s.ch.fetches 1 = (s.ch.chC.toNat + 1 + 7) / 8 - (s.ch.chC.toNat + 7) / 8 := rfl
        obtain ⟨u, hu, hru⟩ := ih (s := t) (k := k') (v := 2 * v + b.toNat) hb.reader (by rw [hT]; omega) (by omega) (by rw [henv]; exact hd.2)
          (by rw [henv, Env.after_drawAt]; exact hf)
        have hplace : t.ch.pos + k' = s.ch.pos + (s.ch.fetches 1 + k') := by rw [hpost, hpos, hlb]; omega
        refine ⟨u, ?_, ⟨hb.keeps.trans hru.keeps, hru.tree.trans htree.1.2.2.2.2.1, hru.bn, hru.pos.trans hplace, by rw [hru.chC]; omega⟩⟩
        rw [readNat, hx, Flow.bind_ok, hu, hplace]
      | error e t => rw [hx] at hbit; exact hbit.elim
      | raise f w t =>
        rw [hx] at hbit
        exact absurd hd.1 hbit.2.2.not_completes
      | stop r => exact absurd hx (hsafe r)

theorem rBits_busErrorAt {n : BitVec 6} (hm : s.ch.mode = .read) (hr : ReaderOk s) (hle : s.ch.chC.toNat + n.toNat ≤ s.ch.chT.toNat)
    (hk : k < s.ch.fetches n.toNat) (hd : s.env.completes k = true) (hf : s.env.drawAt k = false) :
    BusErrorAt s (.rBits n) (s.ch.pos + k) fun t =>
      t.res = s.res ∧ t.mem = s.mem ∧ t.ch.bn = 0 ∧ t.ch.pos = s.ch.pos + k ∧ t.ch.chC.toNat = s.ch.chC.toNat + s.ch.bn.toNat + 8 * k := by
  obtain ⟨u, hu, h⟩ := readNat_fails (v := 0) hr hle hk hd hf
  refine .of_raise (t := u) ?_ h.keeps.cmd ⟨h.keeps.res, h.keeps.mem, h.bn, h.pos, h.chC⟩
  rw [exec_rBits hm hle, hu]
  rfl

theorem rMagic_busErrorAt (hm : s.ch.mode = .read) (hr : ReaderOk s) (hle : s.ch.chC.toNat + 24 ≤ s.ch.chT.toNat) (hk : k < s.ch.fetches 24)
    (hmagic : 16 ≤ s.ch.bn.toNat + 8 * k → BufferAgrees s ∧ bitsToNat (s.ahead 16) = 0x4846) (hd : s.env.completes k = true)
    (hf : s.env.drawAt k = false) :
    BusErrorAt s .rMagic (s.ch.pos + k) fun t =>
      t.ch.rpad = s.ch.rpad ∧ t.mem = s.mem ∧ t.ch.bn = 0 ∧ t.ch.pos = s.ch.pos + k ∧
        t.ch.chC.toNat = s.ch.chC.toNat + s.ch.bn.toNat + 8 * k := by
  have hbn : s.ch.bn.toNat = (8 - s.ch.chC.toNat % 8) % 8 := hr.2.2.2.1
  have hpos : s.ch.pos = s.ch.lbase.toNat + 4 + (s.ch.chC.toNat + 7) / 8 := hr.2.2.1
  by_cases hk16 : k < s.ch.fetches 16
  · obtain ⟨u, hu, h⟩ := readNat_fails (v := 0) hr (by omega) hk16 hd hf
    refine .of_raise (t := u) ?_ h.keeps.cmd ⟨h.keeps.rpad, h.keeps.mem, h.bn, h.pos, h.chC⟩
    rw [exec_rMagic hm hle, hu]
    rfl
  · obtain ⟨k', rfl⟩ := Nat.exists_eq_add_of_le (Nat.le_of_not_lt hk16)
    have hf16 : s.ch.fetches 16 = (s.ch.chC.toNat + 16 + 7) / 8 - (s.ch.chC.toNat + 7) / 8 := rfl
    obtain ⟨ha, hbits⟩ := hmagic (by omega)
    rw [Env.completes_add] at hd
    obtain ⟨t, ht, hct⟩ := readNat_consumes 16 0 s hr ha (by omega) hd.1
    have hct' := hct
    obtain ⟨hkt, hrt, -, hc, henv⟩ := hct'
    have hadd : s.ch.fetches 16 + t.ch.fetches 8 = s.ch.fetches 24 := fetches_add s t 16 8 hc
    have hT : t.ch.chT = s.ch.chT := hkt.2.2.2.2.1
    have hlb : t.ch.lbase = s.ch.lbase := hkt.2.2.1
    have hpost : t.ch.pos = t.ch.lbase.toNat + 4 + (t.ch.chC.toNat + 7) / 8 := hrt.2.2.1
    have hbnt : t.ch.bn.toNat = (8 - t.ch.chC.toNat % 8) % 8 := hrt.2.2.2.1
    obtain ⟨u, hu, h⟩ := readNat_fails (s := t) (n := 8) (v := 0) (k := k') hrt (by rw [hT]; omega) (by omega) (by rw [henv]; exact hd.2)
      (by rw [henv, Env.after_drawAt]; exact hf)
    have hplace : t.ch.pos + k' = s.ch.pos + (s.ch.fetches 16 + k') := by rw [hpost, hpos, hlb]; omega
    refine .of_raise (t := u) ?_ (h.keeps.cmd.trans hkt.1.2.1)
      ⟨h.keeps.rpad.trans hkt.2.2.2.2.2.1, h.keeps.mem.trans hkt.2.2.2.2.2.2.2, h.bn, h.pos.trans hplace, ?_⟩
    · rw [exec_rMagic hm hle, ht, Flow.bind_ok, Nat.zero_mul, Nat.zero_add, hbits, if_neg (by decide), hu, hplace]
      rfl
    · show u.ch.chC.toNat = _
      rw [h.chC]
      omega

/-! ### S_DECODE -/

section
variable {msg : List Byte} {q rest : List Bool} (hg : s.Good) (ha : BufferAgrees s) (hm : s.ch.mode = .read) (hc : s.codes.cvalid = true)
  (hreg : regionOK s.regs.obase s.regs.olen = true) (hapart : overlaps s.regs.obase s.regs.olen s.ch.lbase s.ch.llen = false)
  (hle : s.ch.chC.toNat + s.ch.rpad.toNat ≤ s.ch.chT.toNat) (hmsg : ∀ y ∈ msg, (s.codes.enc.of y).valid = true)
  (hbits : s.ahead s.ch.bitsLeft = codeString s.codes.enc msg ++ (q ++ rest))
  (hd : s.env.completes (s.ch.fetches ((codeString s.codes.enc msg).length + q.length) + msg.length) = true)
  (hf : s.env.drawAt (s.ch.fetches ((codeString s.codes.enc msg).length + q.length) + msg.length) = false)

include hg ha hm hc hreg hapart hle hmsg hbits hd hf

theorem sDecode_write_busErrorAt {y : Byte} (hy : (s.codes.enc.of y).valid = true) (hyq : (s.codes.enc.of y).string = q)
    (hroom : msg.length < s.regs.olen.toNat) :
    BusErrorAt s .sDecode (s.regs.obase.toNat + msg.length) fun t =>
      (bytesAt t.mem s.regs.obase.toNat msg.length = msg ∧ t.res.ocnt.toNat = msg.length ∧
        t.ch.chC.toNat = s.ch.chC.toNat + ((codeString s.codes.enc msg).length + q.length) ∧ t.ch.mode = .read) ∧
        ∀ a, a < s.regs.obase.toNat ∨ s.regs.obase.toNat + msg.length < a → t.mem.read a = s.mem.read a := by
  rw [← List.append_assoc] at hbits
  rw [← List.length_append] at hd hf ⊢
  obtain ⟨hx, hs, hp, hlt, -⟩ := sDecode_setup hg ha hm hc hreg hapart hle hbits
  obtain ⟨t, ht, hot⟩ := decodeBits_upto_code (n := rest.length) (s := s.setOcnt 0) hs hmsg (by simp; omega) hy hyq hp hlt hd
  obtain ⟨hbytes, hocnt, hcmd, hchC, hmode⟩ := hot.result
  have hregs : t.regs = s.regs := hot.decoded.regs
  have hbase := regionOK_iff.mp hreg
  have hread := hot.decoded.read
  have hemit : emitSymbol y t = .raise .busError (BitVec.ofNat 32 (s.regs.obase.toNat + msg.length))
      (t.stored (s.regs.obase.toNat + msg.length) (Config.freeByte t.env.drawn)) := by
    rw [emitSymbol, hregs, hocnt, if_neg (by omega), memWrite_fails (by omega) (drawOk_after hot.env hf)]
    rfl
  refine .of_raise (t := t.stored (s.regs.obase.toNat + msg.length) (Config.freeByte t.env.drawn)) ?_ hcmd
    ⟨⟨?_, hocnt, hchC, hmode.trans hm⟩, fun a h => ?_⟩
  · rw [hx]
    refine (congrArg (fun x : Flow (List Bool) => (x.bind _).complete) ht).trans ?_
    rw [hemit]
    rfl
  · refine Eq.trans ?_ hbytes
    exact bytesAt_congr fun i hi => t.stored_read_other _ (by omega)
  · have hfree : a < s.regs.obase.toNat + 0 ∨ s.regs.obase.toNat + t.res.ocnt.toNat + 0 ≤ a := by omega
    exact (t.stored_read_other _ (by omega)).trans (hread a hfree)

theorem sDecode_refill_busErrorAt (hstart : q ≠ [] → s.StartsCode q) (hrest : rest ≠ [])
    (hbyte : (s.ch.chC.toNat + ((codeString s.codes.enc msg).length + q.length)) % 8 = 0) (hroom : msg.length ≤ s.regs.olen.toNat) :
    BusErrorAt s .sDecode (s.ch.pos + s.ch.fetches ((codeString s.codes.enc msg).length + q.length)) fun t =>
      (bytesAt t.mem s.regs.obase.toNat msg.length = msg ∧ t.res.ocnt.toNat = msg.length ∧
        t.ch.chC.toNat = s.ch.chC.toNat + ((codeString s.codes.enc msg).length + q.length) ∧ t.ch.mode = .read) ∧
        t.ch.bn = 0 ∧ t.ch.pos = s.ch.pos + s.ch.fetches ((codeString s.codes.enc msg).length + q.length) ∧
          ∀ a, a < s.regs.obase.toNat ∨ s.regs.obase.toNat + msg.length ≤ a → t.mem.read a = s.mem.read a := by
  rw [← List.append_assoc] at hbits
  rw [← List.length_append] at hd hf hbyte ⊢
  obtain ⟨hx, hs, hp, hlt, hleft, hend⟩ := sDecode_setup hg ha hm hc hreg hapart hle hbits
  obtain ⟨n, hn⟩ : ∃ n, rest.length = n + 1 := Nat.exists_eq_succ_of_ne_zero (by simpa using hrest)
  obtain ⟨t, ht, hot⟩ := decodeBits_upto (n := n + 1) (s := s.setOcnt 0) hs hmsg (by simpa using hroom) hstart hp hlt hd
  obtain ⟨hbytes, hocnt, hcmd, hchC, hmode⟩ := hot.result
  have hpos : s.ch.pos = s.ch.lbase.toNat + 4 + (s.ch.chC.toNat + 7) / 8 := hs.reader.2.2.1
  have hpost : t.ch.pos = t.ch.lbase.toNat + 4 + (t.ch.chC.toNat + 7) / 8 := hot.reader.2.2.1
  have hlb : t.ch.lbase = s.ch.lbase := hot.decoded.lbase
  have hT : t.ch.chT = s.ch.chT := hot.decoded.chT
  have hbnt : t.ch.bn.toNat = (8 - t.ch.chC.toNat % 8) % 8 := hot.reader.2.2.2.1
  have hread := hot.decoded.read
  have henv : t.env = s.env.after (s.ch.fetches (codeString s.codes.enc msg ++ q).length + msg.length) := hot.env
  replace hchC : t.ch.chC.toNat = s.ch.chC.toNat + (codeString s.codes.enc msg ++ q).length := hchC
  have h0 : t.ch.bn = 0 := BitVec.eq_of_toNat_eq (by rw [hbnt, hchC]; show _ = 0; omega)
  have hplace : t.ch.pos = s.ch.pos + s.ch.fetches (codeString s.codes.enc msg ++ q).length := by
    unfold Channel.fetches
    rw [hpost, hpos, hlb, hchC]
    omega
  have hbit := readBit_refill_fails hot.reader h0 (by rw [hchC, hT]; omega) (by
    have h := drawOk_after henv hf
    rwa [State.drawOk_eq] at h)
  refine .of_raise (t := t.drawNext) ?_ hcmd ⟨⟨hbytes, hocnt, hchC, hmode.trans hm⟩, h0, hplace, fun a h => ?_⟩
  · rw [hx, hn]
    refine (congrArg (fun x : Flow (List Bool) => (x.bind _).complete) ht).trans ?_
    rw [decodeBits, hbit, hplace]
    rfl
  · have hfree : a < s.regs.obase.toNat + 0 ∨ s.regs.obase.toNat + t.res.ocnt.toNat + 0 ≤ a := by omega
    exact hread a hfree

end

end

end Sys2Proof.Machine
end

section
/-! PROOFS. A failed peek of the placeholder test (41_tree_codec.md R91, R93, R94), and every failed access together (20_memory.md R43). -/

namespace Sys2Proof.Machine

section
variable {s t : State} {k : Nat}

/-! ### The placeholder test -/

theorem peekZero_fails {n c j : Nat} (hregion : s.ch.lbase.toNat + 4 + (c + j) / 8 < 2 ^ 32) (hj : j < n) (hd : s.env.completes j = true)
    (hf : s.env.drawAt j = false) :
    peekZero n c s = .raise .busError (BitVec.ofNat 32 (s.ch.lbase.toNat + 4 + (c + j) / 8)) (s.advance j).drawNext := by
  obtain ⟨n, rfl⟩ : ∃ n', n = n' + 1 := ⟨n - 1, by omega⟩
  induction j generalizing n c s with
  | zero =>
    rw [peekZero, peekBit, memRead_fails (by omega) (by rw [State.drawOk_eq]; exact hf)]
    rfl
  | succ j ih =>
    obtain ⟨n, rfl⟩ : ∃ n', n = n' + 1 := ⟨n - 1, by omega⟩
    have hplace : c + 1 + j = c + (j + 1) := by omega
    have h := ih (s := s.drawNext) (c := c + 1) (by show s.ch.lbase.toNat + 4 + _ < _; rw [hplace]; exact hregion) (State.after_drawNext hd)
      (by rw [State.drawNext_env_after, Env.after_drawAt, Nat.add_comm]; exact hf) n (by omega)
    rw [peekZero, peekBit, memRead_ok (by omega) (Env.completes_mono hd (by omega)), Flow.bind_ok, Flow.bind_ok, h, hplace,
      State.drawNext_eq_advance s, State.advance_advance, Nat.add_comm 1 j]
    rfl

/-! ### The parse up to it -/

/-- A piece that nothing stops goes on. -/
theorem Flow.Follows.goes {α : Type} {x : Flow α} {n m : Nat} {early : Nat → Prop} (h : x.Follows s n m early) (hs : x.Safe)
    (he : ∀ k, ¬early k) (hn : n ≤ s.ch.bitsLeft) (hd : s.env.completes (s.ch.fetches n + m) = true) : ∃ a t, x = .ok a t := by
  cases x with
  | ok a t => exact ⟨a, t, rfl⟩
  | error e t =>
    obtain ⟨k, -, ⟨rfl, hk⟩ | hk⟩ := h
    · exact absurd hk hn.not_gt
    · exact absurd hk (he k)
  | raise f w t => exact absurd hd (FailsWithin.not_completes h)
  | stop r => exact absurd rfl (hs r)

/-- Accesses that complete still do behind bits read. -/
theorem Reads.completes {q : List Bool} {n : Nat} (h : Reads s t q 0) (hd : s.env.completes (s.ch.fetches (q.length + n)) = true) :
    t.env.completes (t.ch.fetches n) = true := by
  rw [← fetches_add s t q.length n h.chC, Env.completes_add] at hd
  rw [h.env, Nat.add_zero]
  exact hd.2

/-- One bit of the payload, read. -/
theorem treeBit_goes {b : Bool} {r : List Bool} (hr : ReaderOk s) (ha : BufferAgrees s) (hp : s.payload = b :: r)
    (hd : s.env.completes (s.ch.fetches 1) = true) : ∃ t, treeBit s = .ok b t ∧ Advanced s t [b] 0 ∧ t.tree = s.tree ∧ t.payload = r := by
  have hlen := congrArg List.length hp
  rw [State.payload_length, List.length_cons] at hlen
  obtain ⟨c, t, hx⟩ := (treeBit_follows hr fun _ => False).goes (treeBit_safe hr) (fun _ => id) (by omega) (by rwa [Nat.add_zero])
  obtain ⟨rfl, hadv, htree, -⟩ := treeBit_advanced hr ha (c := b) (r := r) ⟨_, List.prefix_rfl, hp ▸ List.prefix_rfl⟩ hx
  have hpay := hadv.payload ha
  rw [hp] at hpay
  exact ⟨t, hx, hadv, htree, (List.cons_injective.eq_iff.mp hpay).symm⟩

/-- The leaf below the root, read. -/
theorem parseNode_leaf_goes {p : Parse} {y : Byte} {r : List Bool} (hr : ReaderOk s) (ha : BufferAgrees s) (hp : p.nalloc ≤ 510)
    (hseen : p.seen = []) (hpay : s.payload = (Shape.leaf y).bits ++ r) (hd : s.env.completes (s.ch.fetches 9) = true) :
    ∃ a t, parseNode parseLevels p s = .ok a t ∧ Advanced s t (Shape.leaf y).bits 0 ∧ ParsedTree s p (.leaf y) a t ∧ t.payload = r := by
  have hlen := congrArg List.length hpay
  rw [State.payload_length, List.length_append, Shape.bits_length] at hlen
  have hm : Meets s.payload (Shape.leaf y).bits := .of_prefix (hpay ▸ List.prefix_append ..)
  have hearly : ∀ k, ¬(Shape.leaf y).Early p k := by
    rintro k (h | h)
    · simp [Shape.readUntilRepeat, hseen] at h
    · simp only [Shape.nodes] at h
      omega
  have hsafe : (parseNode parseLevels p s).Safe := parseNode_safe hr (by omega) (by unfold parseLevels; omega)
  obtain ⟨a, t, hx⟩ := (parseNode_follows parseLevels (.leaf y) p s rfl hr ha (by omega) (by rw [hseen]; exact List.nodup_nil) hm).goes hsafe
    hearly (by omega) (by rw [Nat.add_zero]; exact hd)
  obtain ⟨hadv, ht, -⟩ := parseNode_advanced (l := .leaf y) (r := r) rfl hr ha (by omega) (hpay ▸ ⟨_, List.prefix_rfl, List.prefix_rfl⟩) hx
  refine ⟨a, t, hx, hadv, ht, ?_⟩
  have h := hadv.payload ha
  rw [hpay] at h
  exact (List.append_cancel_left h).symm

/-- The state in which the placeholder test of the A = 1 tree is made. -/
theorem parseRoot_reaches_test {y : Byte} {r : List Bool} (hr : ReaderOk s) (ha : BufferAgrees s)
    (hpay : s.payload = true :: ((Shape.leaf y).bits ++ true :: r)) (hd : s.env.completes (s.ch.fetches 11) = true) :
    ∃ (u : State) (q : List Bool) (k₁ : Bool → State → Flow (Handle × Parse)), Reads s u q 0 ∧ q.length = 11 ∧ q.length ≤ s.ch.bitsLeft ∧
      parseRoot s = (peekZero u.ch.bitsLeft u.ch.chC.toNat u).bind k₁ := by
  have hmono {n : Nat} (hn : n ≤ 11) : s.env.completes (s.ch.fetches n) = true := Env.completes_mono hd (fetches_mono _ hn)
  obtain ⟨t₁, h₁, hadv₁, -, hp₁⟩ := treeBit_goes hr ha hpay (hmono (by omega))
  let root : Node := { kind := .inner, sym := 0, left := nilHandle, right := nilHandle, freq := 0 }
  have hroot : (t₁.setNode 0 root).tree.node.of 0 = some root := (Arena.of_put _ _ _ _).trans (if_pos ⟨rfl, by decide⟩)
  have hadv₂ : Advanced s (t₁.setNode 0 root) [true] 0 := hadv₁.then_arena (.of_arena (setNode_parseKeeps _ _ _) rfl rfl)
  obtain ⟨a, t₃, h₃, hadv₃, ht₃, hp₃⟩ := parseNode_leaf_goes (s := t₁.setNode 0 root)
    (p := { nalloc := 1, seen := [] }) (y := y) (r := true :: r)
    hadv₂.reads.reader (hadv₂.reads.bits ha).1 (by decide) rfl hp₁ (hadv₂.reads.completes (n := 9) (hmono (by decide)))
  have hadv₄ := hadv₃.then_arena (setLeft_took t₃ 0 a.1)
  have hreads₄ := hadv₂.reads.trans hadv₄.reads
  obtain ⟨t₅, h₅, hadv₅, htree₅, -⟩ := treeBit_goes (s := t₃.setLeft 0 a.1) hreads₄.reader (hreads₄.bits ha).1
    ((setLeft_payload _ _ _).trans hp₃) (hreads₄.completes (n := 1) (by simpa [Shape.bits] using hd))
  have hreads₅ := hreads₄.trans hadv₅.reads
  have hleaf : t₅.tree.node.leftIsLeaf 0 = true := by
    rw [htree₅]
    exact ht₃.leftIsLeaf hroot (by decide)
  have hlen := congrArg List.length hpay
  simp only [State.payload_length, List.length_cons, List.length_append, Shape.bits_length, Shape.cost] at hlen
  refine ⟨t₅, _, fun z u => ((if z then allocNode .placeholder 0 a.2 u
    else (allocNode .inner 0 a.2 u).bind fun hp s => parseChildren hp.1 hp.2 s).bind fun r s => .ok (0, r.2) (s.setRight 0 r.1)), hreads₅,
    by simp [Shape.bits], by simp [Shape.bits]; omega, ?_⟩
  have halloc : allocNode .inner 0 { nalloc := 0, seen := [] } t₁ = .ok (0, { nalloc := 1, seen := [] }) (t₁.setNode 0 root) := rfl
  rw [parseRoot, h₁, Flow.bind_ok, if_pos rfl, halloc, Flow.bind_ok, h₃, Flow.bind_ok, parseRootRight, h₅, Flow.bind_ok, if_pos rfl,
    placeholderAhead, if_pos hleaf, Flow.bind_assoc]

theorem tDeserialize_busErrorAt {y : Byte} (hm : s.ch.mode = .read) (hr : ReaderOk s) (ha : BufferAgrees s)
    (hbits : s.ahead 11 = true :: false :: (bitsMsb 8 y ++ [true])) (hk : s.ch.fetches 11 ≤ k) (hlt : 11 + (k - s.ch.fetches 11) < s.ch.bitsLeft)
    (hd : s.env.completes k = true) (hf : s.env.drawAt k = false) :
    BusErrorAt s .tDeserialize (s.ch.lbase.toNat + 4 + (s.ch.chC.toNat + 11 + (k - s.ch.fetches 11)) / 8) fun t =>
      t.ch.chC.toNat = s.ch.chC.toNat + 11 ∧ t.mem = s.mem ∧ t.tree.root = 511 ∧ t.tree.alpha = 0 ∧ t.tree.tvalid = false ∧
        t.codes.cvalid = false := by
  obtain ⟨j, rfl⟩ := Nat.exists_eq_add_of_le hk
  rw [Nat.add_sub_cancel_left] at hlt ⊢
  rw [Env.completes_add] at hd
  have hleft := s.ch.bitsLeft_eq
  have hpay : s.payload = true :: ((Shape.leaf y).bits ++ true :: s.payload.drop 11) := by
    conv_lhs => rw [← List.take_append_drop 11 s.payload]
    rw [← State.ahead_of_le (by omega), hbits]
    simp [Shape.bits]
  obtain ⟨u, q, k₁, hreads, hq, hle, hx⟩ := parseRoot_reaches_test (s := s.clearTree) hr ha hpay hd.1
  have hlu := hreads.bitsLeft
  have hc : u.ch.chC.toNat = s.ch.chC.toNat + 11 := hq ▸ hreads.chC
  have henv : u.env = s.env.after (s.ch.fetches 11) := by
    have h := hreads.env
    rw [hq] at h
    exact h
  have hlb : u.ch.lbase = s.ch.lbase := hreads.keeps.lbase
  obtain ⟨hreg, -, -, -, hlen, -⟩ := id hr
  rw [regionOK_iff] at hreg
  have hpeek := peekZero_fails (s := u) (n := u.ch.bitsLeft) (c := u.ch.chC.toNat) (j := j) (by rw [hc, hlb]; omega)
    (by rw [hlu, hq]; show j < s.ch.bitsLeft - 11; omega) (by rw [henv]; exact hd.2) (by rw [henv, Env.after_drawAt]; exact hf)
  rw [hlb, hc] at hpeek
  have htree := hreads.keeps.tree
  have hcodes := hreads.keeps.codes
  refine .of_raise (t := (u.advance j).drawNext) ?_ hreads.keeps.cmd ⟨hc, hreads.keeps.mem, ?_, ?_, ?_, ?_⟩
  · rw [exec_tDeserialize_inside hm (by omega), parseTree_eq, hx, hc, hpeek]
    rfl
  · exact congrArg Tree.root htree
  · exact congrArg Tree.alpha htree
  · exact congrArg Tree.tvalid htree
  · exact congrArg Codes.cvalid hcodes

end

/-! ### Every access -/

/-- Settles O38: what every command's accesses are, then the failed access of each kind. -/
theorem busErrors : Obligations.BusErrors := by
  refine ⟨fun i s t hf ht => ?_, fun s k hd hdf hf => ?_⟩
  · obtain ⟨d, hd, hend⟩ := exec_accesses hf ht
    have hbus := fun hb => exec_busInfo hf ht hb
    have hall := (Env.completes_iff _ _).mp hd
    rcases hend with ⟨henv, hne⟩ | ⟨henv, hdraw, hb⟩
    · have hdrawn : t.env.drawn = s.env.drawn + d := congrArg Env.drawn henv
      have hmade : t.env.drawn - s.env.drawn = d := by omega
      refine ⟨by omega, fun j hj => hall j (by omega), ⟨fun h => absurd h hne, fun ⟨hpos, hlast⟩ => ?_⟩, fun h => absurd h hne⟩
      rw [hmade] at hpos hlast
      rw [hall (d - 1) (by omega)] at hlast
      cases hlast
    · have hdrawn : t.env.drawn = s.env.drawn + (d + 1) := congrArg Env.drawn henv
      have hmade : t.env.drawn - s.env.drawn - 1 = d := by omega
      refine ⟨by omega, fun j hj => hall j (by omega), ⟨fun _ => ⟨by omega, by rw [hmade]; exact hdraw⟩, fun _ => hb⟩, fun _ => ?_⟩
      obtain ⟨hfault, hbusy, hinfo⟩ := hbus hb
      refine ⟨hfault, hbusy, ?_⟩
      cases i <;> exact hinfo
  · intro fails keeps header
    refine ⟨fun hm hreg hlen hk => ⟨fun hwf => wOpen_busError hm hreg hlen hk hd hdf hwf, rOpen_busError hm hreg hlen hk hd hdf⟩,
      fun hm hw h0 hr hk => wClose_pad_busError hm hw hf h0 hr (hk ▸ hdf),
      fun hm hw hwf hr hle hlt => wClose_header_busError hm hw hf hwf hr hle hlt hd hdf, ?_, ?_,
      fun n _ hm hr hle hk => rBits_busErrorAt hm hr hle hk hd hdf, fun hm hr hle hk hmagic => rMagic_busErrorAt hm hr hle hk hmagic hd hdf,
      fun y hm hr ha hbits hk hlt => tDeserialize_busErrorAt hm hr ha hbits hk hlt hd hdf, ?_⟩
    · rintro i p reads first j hwf hm hw hg hfirst hj hroom hheader rfl
      exact commit_busErrorAt hwf hm hw hf hg hfirst hj hroom hheader hd hdf
    · rintro m hm hwf hmode hw hc hreg hapart msg bits hcodes hr rfl
      exact sEncode_busErrorAt hm hwf hmode hw hf hc hreg hapart hcodes hr hd hdf
    · intro msg q rest hg ha hm hc hreg hapart hle hmsg hbits consumed decoded
      refine ⟨fun y hy hyq hroom hk => ?_, fun hstart hrest hbyte hroom hk => ?_⟩
      · subst hk
        exact sDecode_write_busErrorAt hg ha hm hc hreg hapart hle hmsg hbits hd hdf hy hyq hroom
      · subst hk
        refine sDecode_refill_busErrorAt hg ha hm hc hreg hapart hle hmsg hbits hd hdf (fun hq => ?_) hrest hbyte hroom
        obtain ⟨y, hy, ⟨r, hr⟩, hne⟩ := hstart.resolve_left hq
        exact ⟨y, r, hy, hr.symm, fun e => hne (by rw [← hr, e, List.append_nil])⟩

end Sys2Proof.Machine
end
